-- ==== Sys2Proof/Word.lean ====
section
/-!
DEFINITION. The word types of the FJ9 and the names of its units.
Widths follow R38 (32-bit instruction words), R11 (64-bit lanes), R6 (bytes).
-/
namespace Sys2Proof

/-- An instruction word or a literal word (R38, R61). -/
abbrev Word := BitVec 32

/-- The 64 bits of a lane of a vector register or of a uniform register (R12). -/
abbrev DWord := BitVec 64

/-- A byte of memory (R6). -/
abbrev Byte := BitVec 8

/-- A 6-bit register field of an instruction word (R47). -/
abbrev RegField := BitVec 6

/-- A core of the package: `192 * clusid + coreid` (R2, R101). -/
abbrev CoreId := Fin 1536

/-- One of a core's 16 gang slots (R93), or a core-local team index (R180). -/
abbrev SlotId := Fin 16

/-- An entry of a gang's split table (R18). -/
abbrev FragId := Fin 32

/-- An entry of a gang's join table (R18). -/
abbrev JoinId := Fin 31

/-- A lane of a gang (R4). -/
abbrev LaneId := Fin 32

/-- A cluster of the package (R4). -/
abbrev ClusId := Fin 8

/-- A partition of the package (R2: up to 8). -/
abbrev PartId := Fin 8

/-- An address-space identifier (R195). -/
abbrev Asid := BitVec 13

/-- A user-mode queue number (R302: 0 to 131071). -/
abbrev QueueId := Fin 131072

/-- A package regulator (R413). -/
abbrev RailId := Fin 4

end Sys2Proof
end

