-- ==== Sys2Proof/Syntax.lean ====
section
/-!
DEFINITION. The syntax: one constructor of `Instr` for every row of spec/opcode_table.json.
Rows 0 to 162 are instructions; their arguments are the fields of the word and of the literal word
(R41 to R46, R61). Rows 163 to 257 are the events of the device and of the parties outside it
(95_what_each_step_holds); their arguments say which instance of the event happens and carry what the
outside party supplies. A one-bit field is a `Bool`.
-/
namespace Sys2Proof

/-- A partition policy value written through the management interface (R382, R387, R418). -/
inductive Policy where
  | pack | run | wdlim
deriving DecidableEq, Repr

/-- A port that carries encrypted frames (R428): 24 Brodlink ports, 8 Ethernet ports. -/
inductive LinkPort where
  | brodlink (i : Fin 24)
  | ethernet (i : Fin 8)
deriving DecidableEq, Repr

/-- A rank of a collective group: its package and cluster (R292), and for a rank outside the load-store domain the Ethernet port
by which it is reached (R410). -/
structure Member where
  dev : BitVec 10
  clus : ClusId
  port : Option (Fin 8)
deriving DecidableEq, Repr

/-- What comes to a collective from outside this package (R294, R295): it goes on with the addends or the source of the ranks
that other packages hold, or it fails there or on the way. `remote` gives those ranks with the bits of their elements, and
`written` which elements had been written at which rank, where the collective fails (R295). -/
inductive CollEvent where
  | run (remote : List (Nat × List Word)) (written : List (Nat × List Nat))
  /-- A member of another package was discarded, or a link failed, before every addend was taken in. -/
  | fail (remote : List (Nat × List Word)) (written : List (Nat × List Nat))
deriving DecidableEq, Repr

/-- The public halves of a pair of keys (R420, R427): modulus and exponent of an RSA-3072 key, and the 48 bytes of an
SLH-DSA-SHA2-192s key. -/
structure PubKeys where
  rsaN : Nat
  rsaE : Nat
  slh : List Byte
deriving DecidableEq, Repr, Inhabited

/-- A firmware image as the root of trust finds it (R419, R420): its security version, its body, and its two signatures. -/
structure Image where
  version : Word
  body : List Byte
  rsaSig : List Byte
  slhSig : List Byte
deriving DecidableEq, Repr

/-- A certificate of a chain, with its two signatures (R420, R421). -/
structure Cert where
  bytes : List Byte
  rsaSig : List Byte
  slhSig : List Byte
deriving DecidableEq, Repr

/-- A message to another die (R401, R403): its number, its class, the die at which it stands, and the die that it goes to. -/
structure Msg where
  num : Nat
  cls : Fin 6
  place : ClusId
  dest : ClusId
deriving DecidableEq, Repr

/-- An exchange by core, gang slot and pending result. -/
abbrev Exchange := CoreId × SlotId × Nat

/-- The data of an exchange reach its receiver (R175, R176): the pending result, and whether a die link has damaged them. -/
structure XchgEnd where
  result : Nat
  bad : Bool
deriving DecidableEq, Repr

/-- A link fails (R409, R428): `lost` names the exchanges whose data were on it. -/
structure LinkDrop where
  port : LinkPort
  lost : List Exchange
deriving DecidableEq, Repr

/-- A frame fails authentication (R428): `good` where frames have passed since the last that failed; `lost` names the
exchanges whose data were on the link, should it go down. -/
structure FrameFail where
  port : LinkPort
  good : Bool
  lost : List Exchange
deriving DecidableEq, Repr

/-- `frames` more frames have passed in a direction of a link (`rx` inward), and its key is replaced where they are enough (R428): `ok`
where that completes; `key` is what system software installs on an Ethernet port; `lost` as for a failed frame. -/
structure KeyChange where
  port : LinkPort
  rx : Bool
  frames : Nat
  ok : Bool
  key : Nat
  lost : List Exchange
deriving DecidableEq, Repr

/-- The keys of a link, outward and inward (R428). -/
structure LinkKeys where
  tx : Nat
  rx : Nat
deriving DecidableEq, Repr

/-- A link comes up (R428): a Brodlink port with the number of the session between its two ends. -/
structure LinkRaise where
  port : LinkPort
  session : Nat
deriving DecidableEq, Repr

/-- What the power controller measures in a window (R416, R429): the average power of each partition, and the temperature of each
die. -/
structure PowerSample where
  draw : List Nat
  dies : List Nat
deriving DecidableEq, Repr

/-- A collective group (R292): its members by rank, and the Brodlink ports of this package that its reduction tree uses. -/
structure GroupDef where
  members : List Member
  tree : List (Fin 24)
deriving DecidableEq, Repr

/-- The binding of an ASID to the host (R409), asked for by an agent (R427). -/
structure HostBind where
  agent : Option PartId
  asid : Asid
deriving DecidableEq, Repr

/-- An access of the host over Brodlink (R409): a load, a store, or an atomic add of a producer (R303). -/
inductive HostOp where
  | load (va : DWord) (size : Nat)
  | store (va : DWord) (bytes : List Byte) (rel : Bool)
  | atomicAdd (va : DWord) (value : DWord)
deriving DecidableEq, Repr

/-- The algorithms an SPDM requester offers (R422). -/
structure SpdmAlgs where
  rsaPss3072 : Bool
  sha384 : Bool
  p384 : Bool
  aes256gcm : Bool
deriving DecidableEq, Repr

/-- A key exchange (R422): the session's number, the requester's point of P-384, and the Brodlink port whose far end asks; none for an
agent of the management interface. -/
structure DheShare where
  session : Nat
  x : Nat
  y : Nat
  port : Option (Fin 24)
deriving DecidableEq, Repr

/-- A flit that requests a crossbar output in one cycle (R400, R405); `msg` numbers its message where that stands on an escape
channel (R403). -/
structure Flit where
  input : Fin 208
  part : PartId
  cls : Fin 6
  collective : Bool
  last : Bool
  msg : Option Nat
deriving DecidableEq, Repr

/-- One indivisible step of the part: an instruction or an event. The constructors without arguments stand last: the
compiler numbers only 245 with arguments. -/
inductive Instr where
  /-- ADD (R114): Integer add per element, wrapping or saturating. -/
  | add (d a b : RegField) (h : BitVec 2) (m : BitVec 4)
  /-- SUB (R114): Integer subtract per element, wrapping or saturating. -/
  | sub (d a b : RegField) (h : BitVec 2) (m : BitVec 4)
  /-- MUL (R114): Low w bits of the integer product per element. -/
  | mul (d a b : RegField) (h : BitVec 2) (m : BitVec 4)
  /-- MULHI (R114): High w bits of the exact integer product per element. -/
  | mulhi (d a b : RegField) (h : BitVec 2) (m : BitVec 4)
  /-- MAD (R114): Integer multiply-add into the destination. -/
  | mad (d a b : RegField) (h : BitVec 2) (m : BitVec 4)
  /-- MIN (R114): Integer minimum per element. -/
  | min (d a b : RegField) (h : BitVec 2) (m : BitVec 4)
  /-- MAX (R114): Integer maximum per element. -/
  | max (d a b : RegField) (h : BitVec 2) (m : BitVec 4)
  /-- ABS (R114): Integer absolute value per element. -/
  | abs (d a : RegField) (h : BitVec 2) (m : BitVec 4)
  /-- NEG (R114): Integer negation per element. -/
  | neg (d a : RegField) (h : BitVec 2) (m : BitVec 4)
  /-- AND (R114): Bitwise AND over 64 bits. -/
  | and (d a b : RegField) (h : BitVec 2)
  /-- OR (R114): Bitwise OR over 64 bits. -/
  | or (d a b : RegField) (h : BitVec 2)
  /-- XOR (R114): Bitwise XOR over 64 bits. -/
  | xor (d a b : RegField) (h : BitVec 2)
  /-- NOT (R114): Bitwise complement over 64 bits. -/
  | not (d a : RegField) (h : BitVec 2)
  /-- ANDN (R114): a AND NOT b over 64 bits. -/
  | andn (d a b : RegField) (h : BitVec 2)
  /-- SHL (R115): Shift left per element. -/
  | shl (d a b : RegField) (h : BitVec 2) (m : BitVec 4)
  /-- SHR (R115): Logical shift right per element. -/
  | shr (d a b : RegField) (h : BitVec 2) (m : BitVec 4)
  /-- SAR (R115): Arithmetic shift right per element. -/
  | sar (d a b : RegField) (h : BitVec 2) (m : BitVec 4)
  /-- ROL (R115): Rotate left per element. -/
  | rol (d a b : RegField) (h : BitVec 2) (m : BitVec 4)
  /-- CLZ (R114): Count leading zeros per element. -/
  | clz (d a : RegField) (h : BitVec 2) (m : BitVec 4)
  /-- POPC (R114): Population count per element. -/
  | popc (d a : RegField) (h : BitVec 2) (m : BitVec 4)
  /-- BREV (R114): Bit reverse per element. -/
  | brev (d a : RegField) (h : BitVec 2) (m : BitVec 4)
  /-- BFX (R115): Bit-field extract per element. -/
  | bfx (d a b : RegField) (h : BitVec 2) (m : BitVec 4)
  /-- BFI (R115): Bit-field insert into the destination. -/
  | bfi (d a b : RegField) (h : BitVec 2) (m : BitVec 4)
  /-- SEL (R117): Select whole lanes from va or vb under a mask register. -/
  | sel (d a b : RegField) (h : BitVec 2) (n : BitVec 3)
  /-- CMP (R116): Integer compare writing all ones or zero per element. -/
  | cmp (d a b : RegField) (h : BitVec 2) (m : BitVec 4)
  /-- FADD (R118): Floating-point add with one rounding. -/
  | fadd (d a b : RegField) (h : BitVec 2) (t : Bool) (r : BitVec 3)
  /-- FSUB (R118): Floating-point subtract with one rounding. -/
  | fsub (d a b : RegField) (h : BitVec 2) (t : Bool) (r : BitVec 3)
  /-- FMUL (R118): Floating-point multiply with one rounding. -/
  | fmul (d a b : RegField) (h : BitVec 2) (t : Bool) (r : BitVec 3)
  /-- FFMA (R118): Fused multiply-add rounded once. -/
  | ffma (d a b : RegField) (h : BitVec 2) (t : Bool) (r : BitVec 3)
  /-- FMIN (R120): Floating-point minimum with selectable NaN treatment. -/
  | fmin (d a b : RegField) (h : BitVec 2) (t n : Bool)
  /-- FMAX (R120): Floating-point maximum with selectable NaN treatment. -/
  | fmax (d a b : RegField) (h : BitVec 2) (t n : Bool)
  /-- FCMP (R121): Floating-point compare writing all ones or zero per element. -/
  | fcmp (d a b : RegField) (h : BitVec 2) (t : Bool) (c : BitVec 3)
  /-- FCLASS (R122): Classify each floating-point element. -/
  | fclass (d a : RegField) (h : BitVec 2) (t : Bool)
  /-- FROUND (R118): Round to an integral value in the same format. -/
  | fround (d a : RegField) (h : BitVec 2) (t : Bool) (r : BitVec 3)
  /-- FCVT (R126): Convert between numeric formats, including block formats. -/
  | fcvt (d a : RegField) (s t : BitVec 3) (h : BitVec 2) (p : Bool) (r : BitVec 3)
  /-- FRCP (R123): Reciprocal, long-latency. -/
  | frcp (d a : RegField) (t : Bool) (r : BitVec 3) (l : BitVec 4) (h : BitVec 2)
  /-- FRSQ (R123): Reciprocal square root, long-latency. -/
  | frsq (d a : RegField) (t : Bool) (r : BitVec 3) (l : BitVec 4) (h : BitVec 2)
  /-- FSQRT (R123): Square root, long-latency. -/
  | fsqrt (d a : RegField) (t : Bool) (r : BitVec 3) (l : BitVec 4) (h : BitVec 2)
  /-- FEXP2 (R123): Base-2 exponential, long-latency. -/
  | fexp2 (d a : RegField) (t : Bool) (r : BitVec 3) (l : BitVec 4) (h : BitVec 2)
  /-- FLOG2 (R123): Base-2 logarithm, long-latency. -/
  | flog2 (d a : RegField) (t : Bool) (r : BitVec 3) (l : BitVec 4) (h : BitVec 2)
  /-- FSIN (R123): Sine, long-latency. -/
  | fsin (d a : RegField) (t : Bool) (r : BitVec 3) (l : BitVec 4) (h : BitVec 2)
  /-- FCOS (R123): Cosine, long-latency. -/
  | fcos (d a : RegField) (t : Bool) (r : BitVec 3) (l : BitVec 4) (h : BitVec 2)
  /-- MOV (R129): Copy a vector register with its marks. -/
  | mov (d a : RegField) (h : BitVec 2)
  /-- MOVI (R129): Write a literal constant into every active lane. -/
  | movi (d : RegField) (t : BitVec 2) (lit : Word)
  /-- PACK (R130): Narrow elements of two registers into one. -/
  | pack (d a b : RegField) (h : BitVec 2) (m : BitVec 4)
  /-- UNPK (R131): Widen the elements of one half. -/
  | unpk (d a : RegField) (h : BitVec 2) (m : BitVec 4)
  /-- PERM (R132): Select bytes of va under byte selectors. -/
  | perm (d a b : RegField) (h : BitVec 2)
  /-- SHFL (R163): Move whole lane values between lanes. -/
  | shfl (d a b : RegField) (h f : BitVec 2)
  /-- GATH (R164): Gather elements from a gang-wide table. -/
  | gath (d a b : RegField) (h w : BitVec 2)
  /-- BCAST (R165): Broadcast one value to every active lane. -/
  | bcast (d a b : RegField) (h f : BitVec 2)
  /-- VOTE (R166): Write a uniform vote over active lanes. -/
  | vote (d a : RegField) (h : BitVec 2) (g : Bool) (c : BitVec 2)
  /-- BALLOT (R167): Turn a lane condition into a mask register. -/
  | ballot (d a : RegField) (h : BitVec 2) (g : Bool)
  /-- SEGRED (R169): Segmented reduction in ascending lane order. -/
  | segred (d a b : RegField) (h o t : BitVec 2)
  /-- SEGSCAN (R169): Inclusive segmented scan in ascending lane order. -/
  | segscan (d a b : RegField) (h o t : BitVec 2)
  /-- KADD (R170): Add FP32 or BF16 values exactly into a wide accumulator. -/
  | kadd (d a : RegField) (h : BitVec 2) (g : Bool) (s : BitVec 2)
  /-- KCLR (R171): Clear a wide accumulator and its status. -/
  | kclr (d : RegField)
  /-- KRD (R172): Read a wide accumulator out as FP32, long-latency. -/
  | krd (d a : RegField) (r : BitVec 3) (l : BitVec 4)
  /-- XCHG (R175): Exchange a vector register with a partner gang. -/
  | xchg (d a b : RegField) (l : BitVec 4) (h : BitVec 2)
  /-- LD (R222): Vector load with a waiting limit that may deliver guesses. -/
  | ld (d a b : RegField) (l : BitVec 4) (h : BitVec 2) (disp : BitVec 16) (cls : BitVec 4) (scope : BitVec 3) (acq rem : Bool) (ty : BitVec 4) (lreg g p : Bool)
  /-- ST (R209): Vector store, including multicast stores. -/
  | st (d a : RegField) (h : BitVec 2) (g p : Bool) (disp : BitVec 16) (scope : BitVec 3) (rel : Bool) (z : BitVec 3)
  /-- SLD (R210): Uniform load into a uniform register. -/
  | sld (d a : RegField) (l : BitVec 4) (disp : BitVec 16) (scope : BitVec 3) (acq rem : Bool) (ty : BitVec 3)
  /-- SST (R209): Uniform store of a uniform register. -/
  | sst (d a : RegField) (disp : BitVec 16) (scope : BitVec 3) (rel : Bool) (z : BitVec 3)
  /-- TALLOC (R181): Allocate a scratchpad tile and return its handle. -/
  | talloc (d a : RegField) (v : Bool)
  /-- TFREE (R184): Check a tile handle and wait to free its entry. -/
  | tfree (a : RegField)
  /-- TLD (R189): Load from a scratchpad tile. -/
  | tld (d a : RegField) (g : Bool) (z : BitVec 2) (p : Bool) (l : BitVec 4) (h : BitVec 2)
  /-- TST (R190): Store into a scratchpad tile. -/
  | tst (d a : RegField) (h : BitVec 2) (g p : Bool) (z : BitVec 2)
  /-- TATOM (R191): Read-modify-write in a scratchpad tile. -/
  | tatom (d a : RegField) (o : BitVec 4) (t : BitVec 2) (l : BitVec 4) (h : BitVec 2)
  /-- GTEST (R230): Write a mask of lanes holding marked halves. -/
  | gtest (d a : RegField) (h s : BitVec 2)
  /-- GACC (R231): Accept guesses by copying and clearing marks. -/
  | gacc (d a : RegField) (h s : BitVec 2)
  /-- GDEMAND (R232): Replace guessed halves with true values from a slot or a reread. -/
  | gdemand (d a : RegField) (t : BitVec 4) (p g : Bool) (l : BitVec 4) (h : BitVec 2)
  /-- ATOM (R263): Vector atomic read-modify-write of device memory. -/
  | atom (d a : RegField) (l : BitVec 4) (h : BitVec 2) (disp : BitVec 16) (op : BitVec 4) (scope : BitVec 3) (acq rem rel : Bool) (ty : BitVec 2)
  /-- SATOM (R264): Uniform atomic read-modify-write of device memory. -/
  | satom (d a : RegField) (l : BitVec 4) (disp : BitVec 16) (op : BitVec 4) (scope : BitVec 3) (acq rem rel : Bool) (ty : BitVec 2)
  /-- MLEASE (R313): Request the matrix lease with an immediate count. -/
  | mlease (n : BitVec 6)
  /-- MLEASE_REG (R313): Request the matrix lease with a count from a uniform register. -/
  | mleaseReg (a : RegField)
  /-- MMA (R319): Issue a matrix multiply-accumulate into an accumulator tile. -/
  | mma (d a b : RegField) (h : BitVec 2) (g : Bool) (sf sm : RegField) (spa spb : Bool)
  /-- MLD (R323): Issue a load of an accumulator tile from scratchpad. -/
  | mld (d a : RegField) (f : Bool)
  /-- MST (R323): Issue a store of an accumulator tile to scratchpad. -/
  | mst (d a : RegField) (f : Bool)
  /-- MZERO (R323): Issue the zeroing of a run of accumulator tiles. -/
  | mzero (d : RegField) (c : BitVec 4)
  /-- MSAVE (R326): Write the gang's stop slot to a tile and empty it. -/
  | msave (a : RegField)
  /-- MRES (R327): Resume a stopped matrix operation from a stop record. -/
  | mres (a : RegField)
  /-- ATTN (R331): Issue an attention fold of 64 keys into a triple. -/
  | attn (d a b : RegField) (sigma : Word)
  /-- AMERGE (R332): Issue the merge of one attention triple into another. -/
  | amerge (d a : RegField)
  /-- ANORM (R333): Issue the normalisation of a triple into a tile. -/
  | anorm (d a : RegField) (f : Bool)
  /-- DLD (R350): Load a directional record into a directional register. -/
  | dld (d a : RegField) (l : BitVec 4)
  /-- DST (R350): Store a directional register as a record. -/
  | dst (d a : RegField)
  /-- DFROM (R344): Convert a vector to a renormalised directional register. -/
  | dfrom (d a : RegField) (h : BitVec 2) (g f : Bool)
  /-- DTO (R345): Convert a directional register to vector values. -/
  | dto (d a : RegField) (r : BitVec 3) (f : Bool)
  /-- DDOT (R347): Dot product of two directional registers into a uniform register. -/
  | ddot (d a b : RegField) (l : BitVec 4)
  /-- DADD (R346): Exact sum of two directional vectors, renormalised. -/
  | dadd (d a b : RegField)
  /-- DSUB (R346): Exact difference of two directional vectors, renormalised. -/
  | dsub (d a b : RegField)
  /-- DSCL (R348): Add to a directional norm. -/
  | dscl (d a : RegField)
  /-- DMULV (R346): Multiply a directional vector elementwise by a vector, renormalised. -/
  | dmulv (d a b : RegField) (h : BitVec 2) (g : Bool)
  /-- DNEG (R346): Negate directional components. -/
  | dneg (d a : RegField)
  /-- DNORM (R346): Renormalise a directional register. -/
  | dnorm (d a : RegField)
  /-- DSETN (R348): Set a directional norm. -/
  | dsetn (d a : RegField)
  /-- DTEST (R349): Read a norm or test the unit invariant. -/
  | dtest (d a : RegField) (u : Bool)
  /-- SKINS (R359): Insert entries into a sketch. -/
  | skins (d a b : RegField) (h : BitVec 2) (t : Bool)
  /-- SKDEL (R359): Remove entries from a sketch. -/
  | skdel (d a b : RegField) (h : BitVec 2) (t : Bool)
  /-- SKCLR (R363): Write a sketch header and clear its cells. -/
  | skclr (d : RegField) (t : Bool)
  /-- SKSUB (R364): Subtract one sketch from another cell by cell. -/
  | sksub (d a : RegField) (s t : Bool)
  /-- SKSTAT (R365): Scan a sketch and count nonzero and pure cells. -/
  | skstat (d a : RegField) (t : Bool)
  /-- SADD (R133): Uniform add, register form. -/
  | sadd (d a b : RegField)
  /-- SSUB (R133): Uniform subtract, register form. -/
  | ssub (d a b : RegField)
  /-- SMUL (R133): Uniform multiply, register form. -/
  | smul (d a b : RegField)
  /-- SAND (R133): Uniform AND, register form. -/
  | sand (d a b : RegField)
  /-- SOR (R133): Uniform OR, register form. -/
  | sor (d a b : RegField)
  /-- SXOR (R133): Uniform XOR, register form. -/
  | sxor (d a b : RegField)
  /-- SSHL (R133): Uniform shift left, register form. -/
  | sshl (d a b : RegField)
  /-- SSHR (R133): Uniform logical shift right, register form. -/
  | sshr (d a b : RegField)
  /-- SSAR (R133): Uniform arithmetic shift right, register form. -/
  | ssar (d a b : RegField)
  /-- SCMP (R134): Uniform compare writing 1 or 0. -/
  | scmp (d a b : RegField) (u : BitVec 6)
  /-- SMIN (R133): Uniform minimum, signed or unsigned. -/
  | smin (d a b : RegField) (u : BitVec 6)
  /-- SMAX (R133): Uniform maximum, signed or unsigned. -/
  | smax (d a b : RegField) (u : BitVec 6)
  /-- SMOV (R133): Copy a uniform register. -/
  | smov (d a : RegField)
  /-- SLIT (R46): Write a sign-extended 32-bit literal into a uniform register. -/
  | slit (d : RegField) (lit : Word)
  /-- SADD_IMM (R133): Uniform add, immediate form. -/
  | saddImm (d a : RegField) (i : BitVec 12)
  /-- SSUB_IMM (R133): Uniform subtract, immediate form. -/
  | ssubImm (d a : RegField) (i : BitVec 12)
  /-- SMUL_IMM (R133): Uniform multiply, immediate form. -/
  | smulImm (d a : RegField) (i : BitVec 12)
  /-- SAND_IMM (R133): Uniform AND, immediate form. -/
  | sandImm (d a : RegField) (i : BitVec 12)
  /-- SOR_IMM (R133): Uniform OR, immediate form. -/
  | sorImm (d a : RegField) (i : BitVec 12)
  /-- SXOR_IMM (R133): Uniform XOR, immediate form. -/
  | sxorImm (d a : RegField) (i : BitVec 12)
  /-- SSHL_IMM (R133): Uniform shift left by an immediate count. -/
  | sshlImm (d a : RegField) (c : BitVec 6)
  /-- SSHR_IMM (R133): Uniform logical shift right by an immediate count. -/
  | sshrImm (d a : RegField) (c : BitVec 6)
  /-- SSAR_IMM (R133): Uniform arithmetic shift right by an immediate count. -/
  | ssarImm (d a : RegField) (c : BitVec 6)
  /-- SMOVI (R133): Write a sign-extended immediate into a uniform register. -/
  | smovi (d : RegField) (i : BitVec 12)
  /-- BR (R137): Unconditional branch. -/
  | br (lit : Word)
  /-- BC (R138): Conditional branch that may split the fragment. -/
  | bc (a : RegField) (v neg g : Bool) (t r : BitVec 16)
  /-- BRX (R140): Indexed branch through a table of branches. -/
  | brx (a : RegField) (g : Bool) (n r : BitVec 16)
  /-- CALL (R137): Write the return address into lanes and branch. -/
  | call (d : RegField) (lit : Word)
  /-- RET (R141): Move each lane to the address it holds. -/
  | ret (a : RegField) (g : Bool)
  /-- LOOP (R147): Open a hardware loop. -/
  | loop (d a : RegField) (w : BitVec 9)
  /-- LBRK (R150): Leave the innermost hardware loop when the register is nonzero. -/
  | lbrk (a : RegField)
  /-- TRAP (R154): Raise SW_TRAP with a code. -/
  | trap (i : BitVec 12)
  /-- MAND (R145): Mask AND. -/
  | mand (d a b : RegField)
  /-- MOR (R145): Mask OR. -/
  | mor (d a b : RegField)
  /-- MXOR (R145): Mask XOR. -/
  | mxor (d a b : RegField)
  /-- MNOT (R145): Mask complement. -/
  | mnot (d a : RegField)
  /-- MPOP (R145): Count the bits of a mask into a uniform register. -/
  | mpop (d a : RegField)
  /-- MFIRST (R145): Index of the lowest set bit of a mask, or 32. -/
  | mfirst (d a : RegField)
  /-- EMRD (R145): Read the execution mask into a mask register. -/
  | emrd (d : RegField)
  /-- EMWR (R146): Narrow the fragment to the lanes of a mask. -/
  | emwr (a : RegField)
  /-- SRD (R107): Read a special register into a uniform or vector register. -/
  | srd (d : RegField) (v : Bool) (n : BitVec 6)
  /-- SWR (R108): Write a special register from a uniform register. -/
  | swr (a : RegField) (n : BitVec 6)
  /-- CPY (R288): Issue a linear or gather copy to the copy engine. -/
  | cpy (d a b : RegField) (t s : Bool)
  /-- CPYT (R290): Issue a copy into a tile, with optional 2:4 expansion. -/
  | cpyt (d a b : RegField)
  /-- COLL (R293): Issue a collective request. -/
  | coll (a : RegField)
  /-- BSEAL (R297): Seal the open batch of a class. -/
  | bseal (c : BitVec 2)
  /-- BWAIT (R298): Wait until few enough sealed batches remain unfinished. -/
  | bwait (a : RegField) (y : Bool) (n : BitVec 5) (c : BitVec 2)
  /-- QPUSH (R309): Claim a queue slot and append a packet. -/
  | qpush (d a b : RegField)
  /-- RECON (R367): Issue a sketch reconciliation to the link engine. -/
  | recon (a : RegField)
  /-- LAUNCH (R385): Launch a child grid from a launch block. -/
  | launch (d a : RegField)
  /-- FENCE (R247): Order accesses across paths and scopes. -/
  | fence (v r q : Bool) (s : BitVec 3)
  /-- BAR (R271): Arrive at a named barrier and wait for the phase. -/
  | bar (a : RegField) (r : Bool) (c : BitVec 5) (n : BitVec 4)
  /-- BARA (R271): Arrive at a named barrier without waiting. -/
  | bara (a : RegField) (r : Bool) (c : BitVec 5) (n : BitVec 4)
  /-- BARQ (R273): Read a named barrier's state into a uniform register. -/
  | barq (d : RegField) (n : BitVec 4)
  /-- TILE_ENTRY_FREE (R184): A stalled tfree frees its entry once no range-lock entry names the tile. -/
  | tileEntryFree (c : CoreId) (slot : SlotId) (f : FragId)
  /-- LONG_LATENCY_RESULT (R51): A pending long-latency result and its marks are written, or a late failure traps. -/
  | longLatencyResult (c : CoreId) (slot : SlotId) (k : Nat)
  /-- LOAD_DEADLINE (R215): A lane's waiting limit expires and it is resolved as a guess from the leaf table. -/
  | loadDeadline (c : CoreId) (slot : SlotId) (k : Nat) (lane : LaneId)
  /-- LOAD_DATA_ARRIVAL (R225): True load data arrives, resolving a lane or filling a late slot, and updates the leaf table. -/
  | loadDataArrival (c : CoreId) (k : Nat)
  /-- XCHG_COMPLETE (R175): A matched xchg pair delivers its data, or fails when the partner exits or, `bad`, a
  die link has damaged the data. -/
  | xchgComplete (c : CoreId) (slot : SlotId) (k : XchgEnd)
  /-- YIELD_EXPIRY (R143): A yielded fragment becomes eligible again. -/
  | yieldExpiry (c : CoreId) (slot : SlotId) (f : FragId)
  /-- ISSUE_SELECT (R386): Each cycle the issue selector picks a fragment for each pipe. -/
  | issueSelect (c : CoreId) (vpipe : Bool)
  /-- LEASE_GRANT (R312): The arbiter grants the matrix lease to the oldest waiting gang. -/
  | leaseGrant (c : CoreId)
  /-- LEASE_IDLE_END (R312): A lease ends after 4096 idle opportunities while another gang waits. -/
  | leaseIdleEnd (c : CoreId)
  /-- ENGINE_ISSUE_ADMIT (R280): A stalled engine instruction registers its ranges, enters the journal and joins its batch once room exists. -/
  | engineIssueAdmit (c : CoreId) (slot : SlotId) (f : FragId)
  /-- BWAIT_RESUME (R298): A waiting bwait resumes once the batch condition holds, reporting failure records. -/
  | bwaitResume (c : CoreId) (slot : SlotId) (f : FragId)
  /-- COPY_ENGINE_RUN (R288): The copy engine performs a cpy or cpyt and frees its range-lock entries. -/
  | copyEngineRun (c : CoreId) (k : Nat)
  /-- COLLECTIVE_RUN (R294): A matched collective reduces or broadcasts and writes DST and STAT. -/
  | collectiveRun (group : Nat) (n : Nat) (e : CollEvent)
  /-- MATRIX_STEP (R311): The matrix engine performs one atomic step of a matrix operation. -/
  | matrixStep (c : CoreId) (k : Nat)
  /-- LINK_ENGINE_RUN (R368): The link engine fetches the peer sketch, subtracts and peels into DIFF. -/
  | linkEngineRun (c : CoreId) (k : Nat)
  /-- QPUSH_SLOT_WRITE (R309): After waiting for ring room, qpush writes the slot body and header. -/
  | qpushSlotWrite (c : CoreId) (slot : SlotId) (f : FragId)
  /-- FAULT_ENTRY_WRITE (R205): The device writes a translation-fault entry, raises WIDX and the alert word once ring room exists. -/
  | faultEntryWrite (p : PartId)
  /-- FAULT_RESP (R204): A RESP write seen by line watch retries the access or refuses it. -/
  | faultResp (p : PartId) (i : Nat)
  /-- NOP_PACKET (R306): A NOP packet completes at start. -/
  | nopPacket (q : QueueId) (i : Nat)
  /-- LAUNCH_PACKET (R308): A LAUNCH packet is checked and its grid enters the placement list. -/
  | launchPacket (q : QueueId) (i : Nat)
  /-- COPY_PACKET (R306): A COPY packet performs a copy under the queue's ASID. -/
  | copyPacket (q : QueueId) (i : Nat)
  /-- COLL_PACKET (R306): A COLL packet checks its request block and starts a collective. -/
  | collPacket (q : QueueId) (i : Nat)
  /-- WAITV_PACKET (R306): A WAITV packet waits for a masked word condition. -/
  | waitvPacket (q : QueueId) (i : Nat)
  /-- SIGNAL_PACKET (R306): A SIGNAL packet stores or atomically adds with release at .sys. -/
  | signalPacket (q : QueueId) (i : Nat)
  /-- RECON_PACKET (R373): A RECON packet performs a reconciliation as a party on no core. -/
  | reconPacket (q : QueueId) (i : Nat)
  /-- QBAR_PACKET (R306): A QBAR packet waits for named queues' completion indices. -/
  | qbarPacket (q : QueueId) (i : Nat)
  /-- PACKET_COMPLETE (R305): A packet completes and DIDX advances with a release. -/
  | packetComplete (q : QueueId) (i : Nat)
  /-- TEAM_PLACE (R381): The placer places teams of the first grid able to progress, or a resuming team. -/
  | teamPlace (p : PartId)
  /-- TEAM_RETIRE (R31): A team retires once its children retire, freeing tiles and clearing scratchpad. -/
  | teamRetire (c : CoreId) (t : Nat)
  /-- PREEMPT_REQUEST (R388): System software requests pre-emption and the estimator chooses drain, discard or save. -/
  | preemptRequest (teams : List (CoreId × SlotId)) (dl : Nat) (areas : List (BitVec 39))
  /-- DRAIN_EXPIRY (R388): The drain window ends without retirement and the team is saved. -/
  | drainExpiry (c : CoreId) (t : SlotId)
  /-- TEAM_SAVE (R389): A team is stopped, settled and spilled to its context save area. -/
  | teamSave (c : CoreId) (t : SlotId)
  /-- RESUME_REQUEST (R395): System software names a save area to resume, and the team enters the placement list. -/
  | resumeRequest (p : PartId) (area : BitVec 39)
  /-- CORE_HALT (R396): The debug interface halts a core's issue. -/
  | coreHalt (c : CoreId)
  /-- QUIESCE (R397): A quiesce request is made on a halted core. -/
  | quiesce (c : CoreId)
  /-- QUIESCE_COMPLETE (R397): Quiesce completes once range-lock table and matrix queue are empty and accesses performed. -/
  | quiesceComplete (c : CoreId)
  /-- HALT_END (R398): The halt ends and named gangs take DEBUG_HALT. -/
  | haltEnd (c : CoreId) (gangs : BitVec 16)
  /-- RANGE_LOCK_TABLE_READ (R251): The debug interface reads a core's range-lock table. -/
  | rangeLockTableRead (c : CoreId)
  /-- PARTITION_CREATE (R427): Create a partition with clusters, floor, rail and owner keys. -/
  | partitionCreate (p : PartId) (clusters : BitVec 8) (floor : Nat) (rail : RailId) (ownerKeys : PubKeys)
  /-- PARTITION_DESTROY (R425): Request destruction of a partition. -/
  | partitionDestroy (p : PartId)
  /-- KEY_ERASE (R425): After its work ends, the partition key is erased. -/
  | keyErase (p : PartId)
  /-- ASID_ALLOT (R426): The hypervisor allots ASIDs to a partition. -/
  | asidAllot (p : PartId) (asid : Asid)
  /-- ROOT_TABLE_SET (R195): Partition software sets the root table of an ASID. -/
  | rootTableSet (agent : Option PartId) (asid : Asid) (root : BitVec 39)
  /-- TRANSLATION_INVALIDATE (R203): Partition software invalidates a translation by ASID and address. -/
  | translationInvalidate (agent : Option PartId) (asid : Asid) (va : DWord)
  /-- INVALIDATION_COMPLETE (R203): The invalidation completes once accesses using the old entry are performed. -/
  | invalidationComplete (asid : Asid) (va : DWord)
  /-- FAULT_QUEUE_SETUP (R205): Partition software sets up its fault queue. -/
  | faultQueueSetup (agent : Option PartId) (p : PartId) (cb ring : BitVec 39) (nent : Nat) (alert : BitVec 39)
  /-- PRIVATE_SIZE_SET (R200): Set a vault's private size and owning ASID. -/
  | privateSizeSet (agent : Option PartId) (c : CoreId) (size : Nat) (asid : Asid)
  /-- INTERLEAVE_SET (R198): Set a cluster's interleave region. -/
  | interleaveSet (agent : Option PartId) (k : ClusId) (q z : Nat)
  /-- DEBUG_ENABLE (R427): Partition software enables debug on its cores. -/
  | debugEnable (agent : Option PartId) (p : PartId)
  /-- QUEUE_CREATE (R302): Create a user-mode queue, zeroing its ring and indices. -/
  | queueCreate (q : QueueId) (asid : Asid) (prio : Fin 4) (cb rb : DWord) (npkt : Nat)
  /-- QUEUE_RESTART (R305): Restart a stopped queue at RIDX. -/
  | queueRestart (q : QueueId)
  /-- HOST_ASID_BIND (R409): Bind a host to an ASID of a partition. -/
  | hostAsidBind (b : HostBind)
  /-- PBUDGET_WRITE (R405): Write a partition and class budget, effective at the next period. -/
  | pbudgetWrite (p : PartId) (cls : Fin 6) (value : DWord)
  /-- ESCWAIT_WRITE (R404): Write the package network register, clamping ESCWAIT to 16. -/
  | escwaitWrite (value : DWord)
  /-- POLICY_REGISTER_WRITE (R382): Write a partition policy value without behaviour of its own: PACK, RUN or WDLIM. -/
  | policyRegisterWrite (p : PartId) (pol : Policy) (value : Nat)
  /-- RAIL_SET (R413): Set a cluster's regulator rail, refused with a resident team. -/
  | railSet (k : ClusId) (rail : RailId)
  /-- POWER_CAP_WRITE (R415): Write the package power cap, clamped or refused. -/
  | powerCapWrite (watts : Nat)
  /-- ETHERNET_KEY_INSTALL (R428): System software installs Ethernet link keys. -/
  | ethernetKeyInstall (port : Fin 8) (keys : LinkKeys)
  /-- NEGOTIATE_ALGORITHMS (R422): SPDM NEGOTIATE_ALGORITHMS request. -/
  | negotiateAlgorithms (alg : SpdmAlgs)
  /-- GET_CERTIFICATE (R422): SPDM GET_CERTIFICATE request for one of two chains. -/
  | getCertificate (slot : Nat)
  /-- CHALLENGE (R422): SPDM CHALLENGE answered with dual signatures. -/
  | challenge (slot : Nat) (nonce : Nat)
  /-- GET_MEASUREMENTS (R423): SPDM GET_MEASUREMENTS returning the measurement blocks. -/
  | getMeasurements (agent : Option PartId) (index : Nat) (nonce : Nat)
  /-- KEY_EXCHANGE (R422): SPDM KEY_EXCHANGE over P-384. -/
  | keyExchange (x : DheShare)
  /-- FINISH (R427): SPDM FINISH, binding a mutually authenticated session to a partition. -/
  | finish (session : Nat) (p : Option PartId) (rsaSig slhSig : List Byte)
  /-- END_SESSION (R422): SPDM END_SESSION. -/
  | endSession (session : Nat)
  /-- UNSUPPORTED_REQUEST (R422): Any other SPDM request code is answered UnsupportedRequest. -/
  | unsupportedRequest (code : Byte)
  /-- PACKAGE_RESET (R419): Reset runs the root of trust, which verifies and loads firmware. -/
  | packageReset (images : List Image)
  /-- HOST_LOAD_STORE (R409): A host load or store arrives over Brodlink. -/
  | hostLoadStore (op : HostOp)
  /-- FRAME_AUTH_FAIL (R428): A frame failing authentication is dropped and resent. -/
  | frameAuthFail (f : FrameFail)
  /-- LINK_DOWN (R428): A link fails and operations crossing it end. -/
  | linkDown (d : LinkDrop)
  /-- LINK_KEY_REPLACE (R428): A link key is replaced after 2^40 frames in its direction. -/
  | linkKeyReplace (k : KeyChange)
  /-- PHASE_FAILURE (R414): A regulator phase fails and the rail's clusters go to pass count 4. -/
  | phaseFailure (rail : RailId)
  /-- PASS_COUNT_LOWER (R414): The controller lowers one cluster's pass count while current stays below ILIM. -/
  | passCountLower (k : ClusId) (current : Nat)
  /-- POWER_WINDOW (R416): Each 1 ms window the controller throttles to keep average power under the cap. -/
  | powerWindow (x : PowerSample)
  /-- REFRESH_DOUBLE (R417): Above 85 °C the DRAM refresh rate doubles. -/
  | refreshDouble (k : ClusId) (temp : Nat)
  /-- THERMAL_THROTTLE (R417): At 90 °C a cluster is throttled to pass count 4 and lowest clock. -/
  | thermalThrottle (k : ClusId) (temp : Nat)
  /-- THERMAL_STOP (R417): At 95 °C a cluster stops issuing. -/
  | thermalStop (k : ClusId) (temp : Nat)
  /-- THERMAL_STOP_END (R417): Issue resumes when every junction falls below 90 °C. -/
  | thermalStopEnd (k : ClusId) (temp : Nat)
  /-- THERMAL_TRIP (R417): At 105 °C the package enters reset. -/
  | thermalTrip (k : ClusId) (temp : Nat)
  /-- WATCHDOG_EXPIRY (R418): A gang's watchdog reaches WDLIM and a hang report is written. -/
  | watchdogExpiry (c : CoreId) (slot : SlotId)
  /-- CORE_GATE (R412): An idle core gates its datapaths after 1024 cycles. -/
  | coreGate (c : CoreId)
  /-- CROSSBAR_GRANT (R400): A crossbar output grants one flit per cycle by tier and least-recent order. -/
  | crossbarGrant (k : ClusId) (out : Fin 208) (reqs : List Flit)
  /-- BUDGET_PERIOD_END (R405): A budget period of 8192 cycles ends and counts return to 0. -/
  | budgetPeriodEnd (k : ClusId)
  /-- BEST_EFFORT_PROMOTE (R405): A best-effort flit waiting 8192 cycles is granted as in budget. -/
  | bestEffortPromote (k : ClusId) (out input : Fin 208) (waited : Nat)
  /-- ESCAPE_ENTER (R403): A message blocked for ESCWAIT cycles enters the escape channel. -/
  | escapeEnter (msg : Msg) (blocked : Nat)
  /-- STORE_PERFORMED (R443): A store, or an atomic with no return such as a sketch cell update, is performed in its vault some time after issue, or is dropped and reported on an uncorrectable unit. -/
  | storePerformed (c : CoreId) (k : Nat) (sys : Bool)
  /-- COLLECTIVE_GROUP_DEFINE (R292): System software defines a collective group, with its ranks, members and reduction tree, through the partition management interface. -/
  | collectiveGroupDefine (p : PartId) (group : Nat) (d : GroupDef)
  /-- THERMAL_THROTTLE_END (R417): The hottest junction of a cluster's stack falls below 90 °C and the thermal throttle to pass count 4 and lowest clock is lifted. -/
  | thermalThrottleEnd (k : ClusId) (temp : Nat)
  /-- REFRESH_RATE_RESTORE (R417): The DRAM junction falls to 85 °C or below and the doubled refresh rate returns to normal. -/
  | refreshRateRestore (k : ClusId) (temp : Nat)
  /-- LINK_UP (R428): A Brodlink link is brought up: keys come from an SPDM session with the far end, and the peer is accepted only if its identity verifies. -/
  | linkUp (l : LinkRaise) (rsaChain slhChain : List Cert)
  /-- MREL (R313): End the gang's matrix lease. -/
  | mrel
  /-- MFENCE (R322): Order the gang's later matrix operations after earlier ones. -/
  | mfence
  /-- MRES_DROP (R327): Empty the gang's stop slot. -/
  | mresDrop
  /-- REGANG (R23): Fuse the fragments standing at this address. -/
  | regang
  /-- YIELD (R143): Make the fragment ineligible for up to 64 issue opportunities. -/
  | yield
  /-- EXIT (R24): Exit the lanes of the fragment. -/
  | exit
  /-- NOP (R142): No effect except closing lookahead windows. -/
  | nop
  /-- RTI (R157): Return from a trap handler to trappc. -/
  | rti
  /-- CP_SERVE_QUEUE (R305): The command processor takes the next packet of a queue when it can start. -/
  | cpServeQueue
  /-- THERMAL_STATE_READ (R429): An I3C read of the thermal state clears the trip record. -/
  | thermalStateRead
  /-- GET_VERSION (R422): SPDM GET_VERSION request. -/
  | getVersion
  /-- GET_CAPABILITIES (R422): SPDM GET_CAPABILITIES request. -/
  | getCapabilities
  /-- GET_DIGESTS (R422): SPDM GET_DIGESTS request. -/
  | getDigests
deriving DecidableEq, Repr

end Sys2Proof
end

