-- ==== Sys2Proof/WellFormed.lean ====
section
/-!
DEFINITION. Which instruction words are instructions (R47, R50, R62): `Instr.wf` is false exactly where the
spec makes the word trap ILLEGAL_OP although its opcode is not reserved and its unused fields are 0. The
events of the device and of the parties outside it carry no encoding and are all well formed.
-/
namespace Sys2Proof

/-- A hold field of an instruction that reads only `va` as a vector register (R49, R50). -/
def holdA (h : BitVec 2) : Bool := h.toNat ≤ 1

/-- A hold field of an instruction that reads `va` and `vb` as vector registers (R49, R50). -/
def holdAB (h : BitVec 2) : Bool := h.toNat ≤ 2

/-- A rounding code of R71. -/
def roundOk (r : BitVec 3) : Bool := r.toNat ≤ 4

/-- A field of the mask class m0 to m7 (R47). -/
def isMask (r : RegField) : Bool := r.toNat < 8

/-- A field of the directional class d0 to d15, or of the accumulator-tile class a0 to a15 (R47). -/
def isDir (r : RegField) : Bool := r.toNat < 16

/-- A field of the wide-accumulator class k0 to k3 (R47). -/
def isWide (r : RegField) : Bool := r.toNat < 4

/-- An even register number, as the first of a pair must be. -/
def isEven (r : RegField) : Bool := r.toNat % 2 == 0

/-- `p` is required wherever `c` holds. -/
def needs (c p : Bool) : Bool := !c || p

/-- Element type without saturation (R114: sat = 0). -/
def noSat (m : BitVec 4) : Bool := !m.getLsbD 3

/-- The scope and ordering bits of a memory literal (R208, R220): a scope needs an ordering bit, REM needs ACQ. -/
def orderOk (scope : BitVec 3) (ord acq rem : Bool) : Bool :=
  scope.toNat ≤ 4 && needs (scope.toNat ≠ 0) ord && needs rem acq

/-- Width in bits of a conversion type of R125 other than the block types. -/
def fcvtWidth (t : BitVec 3) : Nat :=
  match t.toNat with
  | 0 => 32 | 1 => 16 | 2 => 16 | 3 => 8 | 4 => 8 | 5 => 32 | _ => 0

/-- The conversions of R125, R126 and R128. -/
def fcvtOk (d a : RegField) (s t : BitVec 3) (h : BitVec 2) (p : Bool) (r : BitVec 3) : Bool :=
  holdA h && roundOk r && s != t && s.toNat < 6 &&
  (if t.toNat < 6 then
     (if fcvtWidth s == fcvtWidth t then !p
      else if fcvtWidth s == 4 * fcvtWidth t then isEven a
      else if fcvtWidth t == 4 * fcvtWidth s then isEven d
      else true)
   else s.toNat == 0 && needs (t.toNat == 7) (r.toNat != 4))

/-- Type and hold of a special function (R123). -/
def specialOk (r : BitVec 3) (h : BitVec 2) : Bool := roundOk r && holdA h

/-- Operation and type of tatom, atom and satom (R187, R262), the pair rule of `.cas.b64` apart. -/
def atomicOk (op : BitVec 4) (ty : BitVec 2) : Bool :=
  op.toNat ≤ 7 && needs (ty.toNat == 2) (op.toNat ≤ 2 || op.toNat == 6)

/-- An 8-byte or 16-byte TYPE of R219. -/
def wideType (ty : BitVec 4) : Bool := ty.toNat == 3 || ty.toNat == 7 || ty.toNat == 10 || ty.toNat == 11

/-- The numbers of R101 that name a special register. -/
def isSpecial (n : BitVec 6) : Bool :=
  n.toNat ≤ 0x0C || (0x10 ≤ n.toNat && n.toNat ≤ 0x16) || n.toNat == 0x18 || n.toNat == 0x19

/-- The special registers whose access is RW (R101). -/
def isWritableSpecial (n : BitVec 6) : Bool :=
  n.toNat == 0x0A || n.toNat == 0x0C || n.toNat == 0x10 || n.toNat == 0x12 || n.toNat == 0x14 ||
  n.toNat == 0x15 || n.toNat == 0x18 || n.toNat == 0x19

/-- The encodings that R47, R50, R62 and each instruction's own rule accept. -/
def Instr.wf : Instr → Bool
  | .add _ _ _ h _ => holdAB h
  | .sub _ _ _ h _ => holdAB h
  | .mul _ _ _ h m => holdAB h && noSat m
  | .mulhi _ _ _ h m => holdAB h && noSat m
  | .mad _ _ _ _ m => noSat m
  | .min _ _ _ h m => holdAB h && noSat m
  | .max _ _ _ h m => holdAB h && noSat m
  | .abs _ _ h m => holdA h && m.getLsbD 2
  | .neg _ _ h m => holdA h && needs (m.getLsbD 3) (m.getLsbD 2)
  | .and _ _ _ h => holdAB h
  | .or _ _ _ h => holdAB h
  | .xor _ _ _ h => holdAB h
  | .not _ _ h => holdA h
  | .andn _ _ _ h => holdAB h
  | .shl _ _ _ h m => holdAB h && noSat m
  | .shr _ _ _ h m => holdAB h && noSat m
  | .sar _ _ _ h m => holdAB h && noSat m
  | .rol _ _ _ h m => holdAB h && noSat m
  | .clz _ _ h m => holdA h && noSat m
  | .popc _ _ h m => holdA h && noSat m
  | .brev _ _ h m => holdA h && noSat m
  | .bfx _ _ _ h m => holdAB h && noSat m && m.getLsbD 1
  | .bfi _ _ _ _ m => noSat m && m.getLsbD 1
  | .sel _ _ _ h _ => holdAB h
  | .cmp _ _ _ h _ => holdAB h
  | .fadd _ _ _ h _ r => holdAB h && roundOk r
  | .fsub _ _ _ h _ r => holdAB h && roundOk r
  | .fmul _ _ _ h _ r => holdAB h && roundOk r
  | .ffma _ _ _ _ _ r => roundOk r
  | .fmin _ _ _ h _ _ => holdAB h
  | .fmax _ _ _ h _ _ => holdAB h
  | .fcmp _ _ _ h _ c => holdAB h && c.toNat ≤ 4
  | .fclass _ _ h _ => holdA h
  | .fround _ _ h _ r => holdA h && roundOk r
  | .fcvt d a s t h p r => fcvtOk d a s t h p r
  | .frcp _ _ _ r _ h => specialOk r h
  | .frsq _ _ _ r _ h => specialOk r h
  | .fsqrt _ _ _ r _ h => specialOk r h
  | .fexp2 _ _ _ r _ h => specialOk r h
  | .flog2 _ _ _ r _ h => specialOk r h
  | .fsin _ _ _ r _ h => specialOk r h
  | .fcos _ _ _ r _ h => specialOk r h
  | .mov _ _ h => holdA h
  | .movi _ t lit => needs (t.toNat == 3) (lit.extractLsb' 16 16 == 0)
  | .pack _ _ _ h m => holdAB h && m.extractLsb' 0 2 != 3
  | .unpk _ _ h m => holdA h && m.extractLsb' 0 2 != 3
  | .perm _ _ _ h => holdAB h
  | .shfl _ _ b h f => if f.toNat == 0 then holdAB h else holdA h && b.toNat < 32
  | .gath _ _ _ h _ => holdAB h
  | .bcast _ _ b h f =>
      match f.toNat with
      | 0 => holdA h && b.toNat < 32
      | 1 => holdA h && b.toNat == 0
      | 2 => h.toNat == 0 && b.toNat == 0
      | _ => false
  | .vote _ _ h _ c => holdA h && c.toNat != 3
  | .ballot d _ h _ => holdA h && isMask d
  | .segred _ _ b h o _ => holdA h && isMask b && o.toNat != 3
  | .segscan _ _ b h o _ => holdA h && isMask b && o.toNat != 3
  | .kadd d _ h _ _ => holdA h && isWide d
  | .kclr d => isWide d
  | .krd _ a r _ => isWide a && roundOk r
  | .xchg _ _ _ _ h => holdA h
  | .ld d _ b _ h _ cls scope acq rem ty lreg g p =>
      orderOk scope acq acq rem && ty.toNat ≤ 11 && !(g && acq) && needs (wideType ty) (!p) &&
      needs (ty.toNat == 11) (isEven d) &&
      (if lreg then cls.toNat == 0 && holdAB h else b.toNat == 0 && holdA h)
  | .st d _ h g p _ scope rel z =>
      orderOk scope rel false false && z.toNat ≤ 4 && holdA h && !(g && rel) && needs p (z.toNat < 3) &&
      needs (z.toNat == 4) (isEven d)
  | .sld _ _ _ _ scope acq rem ty => orderOk scope acq acq rem && ty.toNat ≤ 6
  | .sst _ _ _ scope rel z => orderOk scope rel false false && z.toNat ≤ 3
  | .talloc _ _ _ => true
  | .tfree _ => true
  | .tld d _ _ z p _ h => holdA h && z.toNat != 3 && needs p (z.toNat == 0) && needs (z.toNat == 2) (isEven d)
  | .tst d _ h _ p z => holdA h && z.toNat != 3 && needs p (z.toNat == 0) && needs (z.toNat == 2) (isEven d)
  | .tatom _ _ o t _ h => holdA h && atomicOk o t && !(o.toNat == 7 && t.toNat == 3)
  | .gtest d _ h s => holdA h && isMask d && s.toNat != 3
  | .gacc _ _ h s => holdA h && s.toNat != 3
  | .gdemand _ _ t p _ _ h => holdA h && t.toNat ≤ 10 && needs (wideType t) (!p)
  | .atom d _ _ h _ op scope acq rem rel ty =>
      holdA h && atomicOk op ty && orderOk scope (acq || rel) acq rem &&
      needs (op.toNat == 7 && ty.toNat == 3) (isEven d)
  | .satom d _ _ _ op scope acq rem rel ty =>
      atomicOk op ty && orderOk scope (acq || rel) acq rem && needs (op.toNat == 7 && ty.toNat == 3) (isEven d)
  | .mlease _ => true
  | .mleaseReg _ => true
  | .mrel => true
  | .mma d a _ h _ _ sm spa spb =>
      isDir d && a.toNat ≤ 48 && h.toNat != 2 &&
      (if spa && spb then sm.toNat % 4 == 0 && sm.toNat ≤ 60
       else if spa || spb then isEven sm
       else sm.toNat == 0)
  | .mfence => true
  | .mld d _ _ => isDir d
  | .mst d _ _ => isDir d
  | .mzero d c => d.toNat + c.toNat ≤ 15
  | .msave _ => true
  | .mres _ => true
  | .mresDrop => true
  | .attn d a _ _ => d.toNat ≤ 9 && a.toNat ≤ 60
  | .amerge d a => d.toNat ≤ 9 && a.toNat ≤ 9 && (d.toNat + 7 ≤ a.toNat || a.toNat + 7 ≤ d.toNat)
  | .anorm d _ _ => d.toNat ≤ 9
  | .dld d _ _ => isDir d
  | .dst d _ => isDir d
  | .dfrom d a h _ f => isDir d && holdA h && needs f (isEven a)
  | .dto d a r f => isDir a && roundOk r && needs f (isEven d)
  | .ddot _ a b _ => isDir a && isDir b
  | .dadd d a b => isDir d && isDir a && isDir b
  | .dsub d a b => isDir d && isDir a && isDir b
  | .dscl d _ => isDir d
  | .dmulv d a _ h _ => isDir d && isDir a && (h.toNat == 0 || h.toNat == 2)
  | .dneg d a => isDir d && isDir a
  | .dnorm d a => isDir d && isDir a
  | .dsetn d _ => isDir d
  | .dtest _ a _ => isDir a
  | .skins _ _ _ h _ => holdAB h
  | .skdel _ _ _ h _ => holdAB h
  | .skclr _ _ => true
  | .sksub _ _ _ _ => true
  | .skstat _ _ _ => true
  | .sadd _ _ _ => true
  | .ssub _ _ _ => true
  | .smul _ _ _ => true
  | .sand _ _ _ => true
  | .sor _ _ _ => true
  | .sxor _ _ _ => true
  | .sshl _ _ _ => true
  | .sshr _ _ _ => true
  | .ssar _ _ _ => true
  | .scmp _ _ _ u => u.toNat ≤ 5
  | .smin _ _ _ u => u.toNat ≤ 1
  | .smax _ _ _ u => u.toNat ≤ 1
  | .smov _ _ => true
  | .slit _ _ => true
  | .saddImm _ _ _ => true
  | .ssubImm _ _ _ => true
  | .smulImm _ _ _ => true
  | .sandImm _ _ _ => true
  | .sorImm _ _ _ => true
  | .sxorImm _ _ _ => true
  | .sshlImm _ _ _ => true
  | .sshrImm _ _ _ => true
  | .ssarImm _ _ _ => true
  | .smovi _ _ => true
  | .br _ => true
  | .bc a v _ _ _ _ => needs (!v) (isMask a)
  | .brx _ _ _ _ => true
  | .call _ _ => true
  | .ret _ _ => true
  | .regang => true
  | .loop d _ w => d.toNat < 3 && 1 ≤ w.toNat && w.toNat ≤ 256
  | .lbrk _ => true
  | .yield => true
  | .exit => true
  | .nop => true
  | .trap _ => true
  | .rti => true
  | .mand d a b => isMask d && isMask a && isMask b
  | .mor d a b => isMask d && isMask a && isMask b
  | .mxor d a b => isMask d && isMask a && isMask b
  | .mnot d a => isMask d && isMask a
  | .mpop _ a => isMask a
  | .mfirst _ a => isMask a
  | .emrd d => isMask d
  | .emwr a => isMask a
  | .srd _ v n => isSpecial n && needs (n.toNat == 0) v
  | .swr _ n => isWritableSpecial n
  | .cpy _ _ b _ _ => isEven b
  | .cpyt _ _ _ => true
  | .coll _ => true
  | .bseal _ => true
  | .bwait a y n _ => n.toNat ≤ 16 && needs (!y) (a.toNat == 0)
  | .qpush _ _ b => b.toNat % 8 == 0
  | .recon _ => true
  | .launch _ _ => true
  | .fence v r q s => s.toNat ≤ 4 && needs (s.toNat != 0) (r || q) && (v || r || q)
  | .bar a r c _ => c.toNat ≤ 16 && (if r then c.toNat == 0 else a.toNat == 0)
  | .bara a r c _ => c.toNat ≤ 16 && (if r then c.toNat == 0 else a.toNat == 0)
  | .barq _ _ => true
  | .tileEntryFree _ _ _ => true
  | .longLatencyResult _ _ _ => true
  | .loadDeadline _ _ _ _ => true
  | .loadDataArrival _ _ => true
  | .xchgComplete _ _ _ => true
  | .yieldExpiry _ _ _ => true
  | .issueSelect _ _ => true
  | .leaseGrant _ => true
  | .leaseIdleEnd _ => true
  | .engineIssueAdmit _ _ _ => true
  | .bwaitResume _ _ _ => true
  | .copyEngineRun _ _ => true
  | .collectiveRun _ _ _ => true
  | .matrixStep _ _ => true
  | .linkEngineRun _ _ => true
  | .qpushSlotWrite _ _ _ => true
  | .faultEntryWrite _ => true
  | .faultResp _ _ => true
  | .cpServeQueue => true
  | .nopPacket _ _ => true
  | .launchPacket _ _ => true
  | .copyPacket _ _ => true
  | .collPacket _ _ => true
  | .waitvPacket _ _ => true
  | .signalPacket _ _ => true
  | .reconPacket _ _ => true
  | .qbarPacket _ _ => true
  | .packetComplete _ _ => true
  | .teamPlace _ => true
  | .teamRetire _ _ => true
  | .preemptRequest _ _ _ => true
  | .drainExpiry _ _ => true
  | .teamSave _ _ => true
  | .resumeRequest _ _ => true
  | .coreHalt _ => true
  | .quiesce _ => true
  | .quiesceComplete _ => true
  | .haltEnd _ _ => true
  | .rangeLockTableRead _ => true
  | .partitionCreate _ _ _ _ _ => true
  | .partitionDestroy _ => true
  | .keyErase _ => true
  | .asidAllot _ _ => true
  | .rootTableSet _ _ _ => true
  | .translationInvalidate _ _ _ => true
  | .invalidationComplete _ _ => true
  | .faultQueueSetup _ _ _ _ _ _ => true
  | .privateSizeSet _ _ _ _ => true
  | .interleaveSet _ _ _ _ => true
  | .debugEnable _ _ => true
  | .queueCreate _ _ _ _ _ _ => true
  | .queueRestart _ => true
  | .hostAsidBind _ => true
  | .pbudgetWrite _ _ _ => true
  | .escwaitWrite _ => true
  | .policyRegisterWrite _ _ _ => true
  | .railSet _ _ => true
  | .powerCapWrite _ => true
  | .thermalStateRead => true
  | .ethernetKeyInstall _ _ => true
  | .getVersion => true
  | .getCapabilities => true
  | .negotiateAlgorithms _ => true
  | .getDigests => true
  | .getCertificate _ => true
  | .challenge _ _ => true
  | .getMeasurements _ _ _ => true
  | .keyExchange _ => true
  | .finish _ _ _ _ => true
  | .endSession _ => true
  | .unsupportedRequest _ => true
  | .packageReset _ => true
  | .hostLoadStore _ => true
  | .frameAuthFail _ => true
  | .linkDown _ => true
  | .linkKeyReplace _ => true
  | .phaseFailure _ => true
  | .passCountLower _ _ => true
  | .powerWindow _ => true
  | .refreshDouble _ _ => true
  | .thermalThrottle _ _ => true
  | .thermalStop _ _ => true
  | .thermalStopEnd _ _ => true
  | .thermalTrip _ _ => true
  | .watchdogExpiry _ _ => true
  | .coreGate _ => true
  | .crossbarGrant _ _ _ => true
  | .budgetPeriodEnd _ => true
  | .bestEffortPromote _ _ _ _ => true
  | .escapeEnter _ _ => true
  | .storePerformed _ _ _ => true
  | .collectiveGroupDefine _ _ _ => true
  | .thermalThrottleEnd _ _ => true
  | .refreshRateRestore _ _ => true
  | .linkUp _ _ _ => true

end Sys2Proof
end

