-- ==== Sys2Proof/Decode.lean ====
section
/-!
DEFINITION. The decoder and the encoder, written from the layouts of R41 to R46, the opcode maps R58 and R59, the
literal list R61 and each instruction's own field table. A word that is no instruction is rejected by name; the
machine turns every such rejection into ILLEGAL_OP at issue (R62, R63).
-/
namespace Sys2Proof

/-- Why a word is no instruction (R62). -/
inductive Reject where
  /-- The opcode is a dash of R58 or R59. -/
  | reservedOpcode
  /-- A bit that the instruction does not use is not 0 (R47, R61). -/
  | nonzeroField
  /-- A field holds a value that the instruction does not define (R47, R50, R62). -/
  | undefinedValue
  /-- The byte string ends before the instruction does. -/
  | truncated
deriving DecidableEq, Repr

/-- The `n` bits of `w` from bit `lo` upward. -/
def fld {k : Nat} (w : BitVec k) (lo n : Nat) : BitVec n := w.extractLsb' lo n

/-- Bit `i` of `w`. -/
def bitAt {k : Nat} (w : BitVec k) (i : Nat) : Bool := w.getLsbD i

/-- `i`, where the unused fields are 0 (R47). -/
def only (zero : Bool) (i : Instr) : Except Reject Instr := if zero then .ok i else .error .nonzeroField

/-- Bits [31:24]: the form bit and the opcode (R38). -/
def opcodeOf (w : Word) : Nat := (fld w 24 8).toNat

/-- The opcodes that take a trailing literal word (R61). -/
def takesLiteral (op : Nat) : Bool :=
  match op with
  | 0x2C | 0x40 | 0x41 | 0x42 | 0x43 | 0x4C | 0x4D | 0x52 | 0x59 => true
  | 0x8D | 0xA0 | 0xA1 | 0xA2 | 0xA3 | 0xA6 => true
  | _ => false

/-- The lane operations (R58, 0x01 to 0x2F). -/
def decodeLane (op : Nat) (w lit : Word) : Except Reject Instr :=
  match op with
  | 0x01 => .ok (.add (fld w 18 6) (fld w 12 6) (fld w 6 6) (fld w 4 2) (fld w 0 4))
  | 0x02 => .ok (.sub (fld w 18 6) (fld w 12 6) (fld w 6 6) (fld w 4 2) (fld w 0 4))
  | 0x03 => .ok (.mul (fld w 18 6) (fld w 12 6) (fld w 6 6) (fld w 4 2) (fld w 0 4))
  | 0x04 => .ok (.mulhi (fld w 18 6) (fld w 12 6) (fld w 6 6) (fld w 4 2) (fld w 0 4))
  | 0x05 => .ok (.mad (fld w 18 6) (fld w 12 6) (fld w 6 6) (fld w 4 2) (fld w 0 4))
  | 0x06 => .ok (.min (fld w 18 6) (fld w 12 6) (fld w 6 6) (fld w 4 2) (fld w 0 4))
  | 0x07 => .ok (.max (fld w 18 6) (fld w 12 6) (fld w 6 6) (fld w 4 2) (fld w 0 4))
  | 0x08 => only (fld w 6 6 == 0) (.abs (fld w 18 6) (fld w 12 6) (fld w 4 2) (fld w 0 4))
  | 0x09 => only (fld w 6 6 == 0) (.neg (fld w 18 6) (fld w 12 6) (fld w 4 2) (fld w 0 4))
  | 0x0A => only (fld w 0 4 == 0) (.and (fld w 18 6) (fld w 12 6) (fld w 6 6) (fld w 4 2))
  | 0x0B => only (fld w 0 4 == 0) (.or (fld w 18 6) (fld w 12 6) (fld w 6 6) (fld w 4 2))
  | 0x0C => only (fld w 0 4 == 0) (.xor (fld w 18 6) (fld w 12 6) (fld w 6 6) (fld w 4 2))
  | 0x0D => only (fld w 6 6 == 0 && fld w 0 4 == 0) (.not (fld w 18 6) (fld w 12 6) (fld w 4 2))
  | 0x0E => only (fld w 0 4 == 0) (.andn (fld w 18 6) (fld w 12 6) (fld w 6 6) (fld w 4 2))
  | 0x0F => .ok (.shl (fld w 18 6) (fld w 12 6) (fld w 6 6) (fld w 4 2) (fld w 0 4))
  | 0x10 => .ok (.shr (fld w 18 6) (fld w 12 6) (fld w 6 6) (fld w 4 2) (fld w 0 4))
  | 0x11 => .ok (.sar (fld w 18 6) (fld w 12 6) (fld w 6 6) (fld w 4 2) (fld w 0 4))
  | 0x12 => .ok (.rol (fld w 18 6) (fld w 12 6) (fld w 6 6) (fld w 4 2) (fld w 0 4))
  | 0x13 => only (fld w 6 6 == 0) (.clz (fld w 18 6) (fld w 12 6) (fld w 4 2) (fld w 0 4))
  | 0x14 => only (fld w 6 6 == 0) (.popc (fld w 18 6) (fld w 12 6) (fld w 4 2) (fld w 0 4))
  | 0x15 => only (fld w 6 6 == 0) (.brev (fld w 18 6) (fld w 12 6) (fld w 4 2) (fld w 0 4))
  | 0x16 => .ok (.bfx (fld w 18 6) (fld w 12 6) (fld w 6 6) (fld w 4 2) (fld w 0 4))
  | 0x17 => .ok (.bfi (fld w 18 6) (fld w 12 6) (fld w 6 6) (fld w 4 2) (fld w 0 4))
  | 0x18 => only (fld w 3 1 == 0) (.sel (fld w 18 6) (fld w 12 6) (fld w 6 6) (fld w 4 2) (fld w 0 3))
  | 0x19 => .ok (.cmp (fld w 18 6) (fld w 12 6) (fld w 6 6) (fld w 4 2) (fld w 0 4))
  | 0x1A => .ok (.fadd (fld w 18 6) (fld w 12 6) (fld w 6 6) (fld w 4 2) (bitAt w 3) (fld w 0 3))
  | 0x1B => .ok (.fsub (fld w 18 6) (fld w 12 6) (fld w 6 6) (fld w 4 2) (bitAt w 3) (fld w 0 3))
  | 0x1C => .ok (.fmul (fld w 18 6) (fld w 12 6) (fld w 6 6) (fld w 4 2) (bitAt w 3) (fld w 0 3))
  | 0x1D => .ok (.ffma (fld w 18 6) (fld w 12 6) (fld w 6 6) (fld w 4 2) (bitAt w 3) (fld w 0 3))
  | 0x1E => only (fld w 1 2 == 0) (.fmin (fld w 18 6) (fld w 12 6) (fld w 6 6) (fld w 4 2) (bitAt w 3) (bitAt w 0))
  | 0x1F => only (fld w 1 2 == 0) (.fmax (fld w 18 6) (fld w 12 6) (fld w 6 6) (fld w 4 2) (bitAt w 3) (bitAt w 0))
  | 0x20 => .ok (.fcmp (fld w 18 6) (fld w 12 6) (fld w 6 6) (fld w 4 2) (bitAt w 3) (fld w 0 3))
  | 0x21 => only (fld w 6 6 == 0 && fld w 0 3 == 0) (.fclass (fld w 18 6) (fld w 12 6) (fld w 4 2) (bitAt w 3))
  | 0x22 => only (fld w 6 6 == 0) (.fround (fld w 18 6) (fld w 12 6) (fld w 4 2) (bitAt w 3) (fld w 0 3))
  | 0x23 => .ok (.fcvt (fld w 18 6) (fld w 12 6) (fld w 9 3) (fld w 6 3) (fld w 4 2) (bitAt w 3) (fld w 0 3))
  | 0x24 => only (fld w 10 2 == 0) (.frcp (fld w 18 6) (fld w 12 6) (bitAt w 9) (fld w 6 3) (fld w 2 4) (fld w 0 2))
  | 0x25 => only (fld w 10 2 == 0) (.frsq (fld w 18 6) (fld w 12 6) (bitAt w 9) (fld w 6 3) (fld w 2 4) (fld w 0 2))
  | 0x26 => only (fld w 10 2 == 0) (.fsqrt (fld w 18 6) (fld w 12 6) (bitAt w 9) (fld w 6 3) (fld w 2 4) (fld w 0 2))
  | 0x27 => only (fld w 10 2 == 0) (.fexp2 (fld w 18 6) (fld w 12 6) (bitAt w 9) (fld w 6 3) (fld w 2 4) (fld w 0 2))
  | 0x28 => only (fld w 10 2 == 0) (.flog2 (fld w 18 6) (fld w 12 6) (bitAt w 9) (fld w 6 3) (fld w 2 4) (fld w 0 2))
  | 0x29 => only (fld w 10 2 == 0) (.fsin (fld w 18 6) (fld w 12 6) (bitAt w 9) (fld w 6 3) (fld w 2 4) (fld w 0 2))
  | 0x2A => only (fld w 10 2 == 0) (.fcos (fld w 18 6) (fld w 12 6) (bitAt w 9) (fld w 6 3) (fld w 2 4) (fld w 0 2))
  | 0x2B => only (fld w 6 6 == 0 && fld w 0 4 == 0) (.mov (fld w 18 6) (fld w 12 6) (fld w 4 2))
  | 0x2C => only (fld w 2 16 == 0) (.movi (fld w 18 6) (fld w 0 2) (fld lit 0 32))
  | 0x2D => .ok (.pack (fld w 18 6) (fld w 12 6) (fld w 6 6) (fld w 4 2) (fld w 0 4))
  | 0x2E => only (fld w 6 6 == 0) (.unpk (fld w 18 6) (fld w 12 6) (fld w 4 2) (fld w 0 4))
  | 0x2F => only (fld w 0 4 == 0) (.perm (fld w 18 6) (fld w 12 6) (fld w 6 6) (fld w 4 2))
  | _ => .error .reservedOpcode


/-- The cross-lane instructions (0x30 to 0x3A). -/
def decodeCrossLane (op : Nat) (w _lit : Word) : Except Reject Instr :=
  match op with
  | 0x30 => only (fld w 2 2 == 0) (.shfl (fld w 18 6) (fld w 12 6) (fld w 6 6) (fld w 4 2) (fld w 0 2))
  | 0x31 => only (fld w 2 2 == 0) (.gath (fld w 18 6) (fld w 12 6) (fld w 6 6) (fld w 4 2) (fld w 0 2))
  | 0x32 => only (fld w 2 2 == 0) (.bcast (fld w 18 6) (fld w 12 6) (fld w 6 6) (fld w 4 2) (fld w 0 2))
  | 0x33 => only (fld w 6 6 == 0 && fld w 3 1 == 0) (.vote (fld w 18 6) (fld w 12 6) (fld w 4 2) (bitAt w 2) (fld w 0 2))
  | 0x34 => only (fld w 6 6 == 0 && fld w 3 1 == 0 && fld w 0 2 == 0) (.ballot (fld w 18 6) (fld w 12 6) (fld w 4 2) (bitAt w 2))
  | 0x35 => .ok (.segred (fld w 18 6) (fld w 12 6) (fld w 6 6) (fld w 4 2) (fld w 2 2) (fld w 0 2))
  | 0x36 => .ok (.segscan (fld w 18 6) (fld w 12 6) (fld w 6 6) (fld w 4 2) (fld w 2 2) (fld w 0 2))
  | 0x37 => only (fld w 6 6 == 0 && fld w 3 1 == 0) (.kadd (fld w 18 6) (fld w 12 6) (fld w 4 2) (bitAt w 2) (fld w 0 2))
  | 0x38 => only (fld w 0 18 == 0) (.kclr (fld w 18 6))
  | 0x39 => only (fld w 9 3 == 0 && fld w 0 2 == 0) (.krd (fld w 18 6) (fld w 12 6) (fld w 6 3) (fld w 2 4))
  | 0x3A => .ok (.xchg (fld w 18 6) (fld w 12 6) (fld w 6 6) (fld w 2 4) (fld w 0 2))
  | _ => .error .reservedOpcode


/-- The memory and tile instructions (0x40 to 0x4D). -/
def decodeMemory (op : Nat) (w lit : Word) : Except Reject Instr :=
  match op with
  | 0x40 => .ok (.ld (fld w 18 6) (fld w 12 6) (fld w 6 6) (fld w 2 4) (fld w 0 2) (fld lit 16 16) (fld lit 12 4) (fld lit 9 3) (bitAt lit 8) (bitAt lit 7) (fld lit 3 4) (bitAt lit 2) (bitAt lit 1) (bitAt lit 0))
  | 0x41 => only (fld w 6 6 == 0 && fld w 0 2 == 0 && fld lit 12 4 == 0 && fld lit 3 5 == 0) (.st (fld w 18 6) (fld w 12 6) (fld w 4 2) (bitAt w 3) (bitAt w 2) (fld lit 16 16) (fld lit 9 3) (bitAt lit 8) (fld lit 0 3))
  | 0x42 => only (fld w 6 6 == 0 && fld w 0 2 == 0 && fld lit 12 4 == 0 && fld lit 3 4 == 0) (.sld (fld w 18 6) (fld w 12 6) (fld w 2 4) (fld lit 16 16) (fld lit 9 3) (bitAt lit 8) (bitAt lit 7) (fld lit 0 3))
  | 0x43 => only (fld w 0 12 == 0 && fld lit 12 4 == 0 && fld lit 3 5 == 0) (.sst (fld w 18 6) (fld w 12 6) (fld lit 16 16) (fld lit 9 3) (bitAt lit 8) (fld lit 0 3))
  | 0x44 => only (fld w 1 11 == 0) (.talloc (fld w 18 6) (fld w 12 6) (bitAt w 0))
  | 0x45 => only (fld w 18 6 == 0 && fld w 0 12 == 0) (.tfree (fld w 12 6))
  | 0x46 => only (fld w 10 2 == 0) (.tld (fld w 18 6) (fld w 12 6) (bitAt w 9) (fld w 7 2) (bitAt w 6) (fld w 2 4) (fld w 0 2))
  | 0x47 => only (fld w 6 6 == 0) (.tst (fld w 18 6) (fld w 12 6) (fld w 4 2) (bitAt w 3) (bitAt w 2) (fld w 0 2))
  | 0x48 => .ok (.tatom (fld w 18 6) (fld w 12 6) (fld w 8 4) (fld w 6 2) (fld w 2 4) (fld w 0 2))
  | 0x49 => only (fld w 6 6 == 0 && fld w 2 2 == 0) (.gtest (fld w 18 6) (fld w 12 6) (fld w 4 2) (fld w 0 2))
  | 0x4A => only (fld w 6 6 == 0 && fld w 2 2 == 0) (.gacc (fld w 18 6) (fld w 12 6) (fld w 4 2) (fld w 0 2))
  | 0x4B => .ok (.gdemand (fld w 18 6) (fld w 12 6) (fld w 8 4) (bitAt w 7) (bitAt w 6) (fld w 2 4) (fld w 0 2))
  | 0x4C => only (fld w 6 6 == 0 && fld lit 0 4 == 0) (.atom (fld w 18 6) (fld w 12 6) (fld w 2 4) (fld w 0 2) (fld lit 16 16) (fld lit 12 4) (fld lit 9 3) (bitAt lit 8) (bitAt lit 7) (bitAt lit 6) (fld lit 4 2))
  | 0x4D => only (fld w 6 6 == 0 && fld w 0 2 == 0 && fld lit 0 4 == 0) (.satom (fld w 18 6) (fld w 12 6) (fld w 2 4) (fld lit 16 16) (fld lit 12 4) (fld lit 9 3) (bitAt lit 8) (bitAt lit 7) (bitAt lit 6) (fld lit 4 2))
  | _ => .error .reservedOpcode


/-- The matrix instructions (0x50 to 0x5B). -/
def decodeMatrix (op : Nat) (w lit : Word) : Except Reject Instr :=
  match op with
  | 0x50 =>
      if fld w 12 12 == 0 && fld w 0 6 == 0 then .ok (.mlease (fld w 6 6))
      else if fld w 18 6 == 0 && fld w 0 12 == 1 then .ok (.mleaseReg (fld w 12 6))
      else .error .nonzeroField
  | 0x51 => only (fld w 0 24 == 0) .mrel
  | 0x52 => only (fld w 0 3 == 0 && fld lit 0 18 == 0) (.mma (fld w 18 6) (fld w 12 6) (fld w 6 6) (fld w 4 2) (bitAt w 3) (fld lit 26 6) (fld lit 20 6) (bitAt lit 19) (bitAt lit 18))
  | 0x53 => only (fld w 0 24 == 0) .mfence
  | 0x54 => only (fld w 1 11 == 0) (.mld (fld w 18 6) (fld w 12 6) (bitAt w 0))
  | 0x55 => only (fld w 1 11 == 0) (.mst (fld w 18 6) (fld w 12 6) (bitAt w 0))
  | 0x56 => only (fld w 4 14 == 0) (.mzero (fld w 18 6) (fld w 0 4))
  | 0x57 => only (fld w 18 6 == 0 && fld w 0 12 == 0) (.msave (fld w 12 6))
  | 0x58 =>
      if fld w 18 6 == 0 && fld w 0 12 == 0 then .ok (.mres (fld w 12 6))
      else if fld w 0 24 == 1 then .ok .mresDrop
      else .error .nonzeroField
  | 0x59 => only (fld w 0 6 == 0) (.attn (fld w 18 6) (fld w 12 6) (fld w 6 6) (fld lit 0 32))
  | 0x5A => only (fld w 0 12 == 0) (.amerge (fld w 18 6) (fld w 12 6))
  | 0x5B => only (fld w 1 11 == 0) (.anorm (fld w 18 6) (fld w 12 6) (bitAt w 0))
  | _ => .error .reservedOpcode


/-- The directional instructions (0x60 to 0x6C). -/
def decodeDirectional (op : Nat) (w _lit : Word) : Except Reject Instr :=
  match op with
  | 0x60 => only (fld w 6 6 == 0 && fld w 0 2 == 0) (.dld (fld w 18 6) (fld w 12 6) (fld w 2 4))
  | 0x61 => only (fld w 0 12 == 0) (.dst (fld w 18 6) (fld w 12 6))
  | 0x62 => only (fld w 6 6 == 0 && fld w 1 2 == 0) (.dfrom (fld w 18 6) (fld w 12 6) (fld w 4 2) (bitAt w 3) (bitAt w 0))
  | 0x63 => only (fld w 4 8 == 0) (.dto (fld w 18 6) (fld w 12 6) (fld w 1 3) (bitAt w 0))
  | 0x64 => only (fld w 0 2 == 0) (.ddot (fld w 18 6) (fld w 12 6) (fld w 6 6) (fld w 2 4))
  | 0x65 => only (fld w 0 6 == 0) (.dadd (fld w 18 6) (fld w 12 6) (fld w 6 6))
  | 0x66 => only (fld w 0 6 == 0) (.dsub (fld w 18 6) (fld w 12 6) (fld w 6 6))
  | 0x67 => only (fld w 0 12 == 0) (.dscl (fld w 18 6) (fld w 12 6))
  | 0x68 => only (fld w 0 3 == 0) (.dmulv (fld w 18 6) (fld w 12 6) (fld w 6 6) (fld w 4 2) (bitAt w 3))
  | 0x69 => only (fld w 0 12 == 0) (.dneg (fld w 18 6) (fld w 12 6))
  | 0x6A => only (fld w 0 12 == 0) (.dnorm (fld w 18 6) (fld w 12 6))
  | 0x6B => only (fld w 0 12 == 0) (.dsetn (fld w 18 6) (fld w 12 6))
  | 0x6C => only (fld w 1 11 == 0) (.dtest (fld w 18 6) (fld w 12 6) (bitAt w 0))
  | _ => .error .reservedOpcode


/-- The sketch instructions (0x70 to 0x74). -/
def decodeSketch (op : Nat) (w _lit : Word) : Except Reject Instr :=
  match op with
  | 0x70 => only (fld w 1 3 == 0) (.skins (fld w 18 6) (fld w 12 6) (fld w 6 6) (fld w 4 2) (bitAt w 0))
  | 0x71 => only (fld w 1 3 == 0) (.skdel (fld w 18 6) (fld w 12 6) (fld w 6 6) (fld w 4 2) (bitAt w 0))
  | 0x72 => only (fld w 1 17 == 0) (.skclr (fld w 18 6) (bitAt w 0))
  | 0x73 => only (fld w 2 10 == 0) (.sksub (fld w 18 6) (fld w 12 6) (bitAt w 1) (bitAt w 0))
  | 0x74 => only (fld w 1 11 == 0) (.skstat (fld w 18 6) (fld w 12 6) (bitAt w 0))
  | _ => .error .reservedOpcode


/-- The uniform arithmetic (R59, U-form 0x00 to 0x1C). -/
def decodeUniform (op : Nat) (w lit : Word) : Except Reject Instr :=
  match op with
  | 0x80 => only (fld w 0 6 == 0) (.sadd (fld w 18 6) (fld w 12 6) (fld w 6 6))
  | 0x81 => only (fld w 0 6 == 0) (.ssub (fld w 18 6) (fld w 12 6) (fld w 6 6))
  | 0x82 => only (fld w 0 6 == 0) (.smul (fld w 18 6) (fld w 12 6) (fld w 6 6))
  | 0x83 => only (fld w 0 6 == 0) (.sand (fld w 18 6) (fld w 12 6) (fld w 6 6))
  | 0x84 => only (fld w 0 6 == 0) (.sor (fld w 18 6) (fld w 12 6) (fld w 6 6))
  | 0x85 => only (fld w 0 6 == 0) (.sxor (fld w 18 6) (fld w 12 6) (fld w 6 6))
  | 0x86 => only (fld w 0 6 == 0) (.sshl (fld w 18 6) (fld w 12 6) (fld w 6 6))
  | 0x87 => only (fld w 0 6 == 0) (.sshr (fld w 18 6) (fld w 12 6) (fld w 6 6))
  | 0x88 => only (fld w 0 6 == 0) (.ssar (fld w 18 6) (fld w 12 6) (fld w 6 6))
  | 0x89 => .ok (.scmp (fld w 18 6) (fld w 12 6) (fld w 6 6) (fld w 0 6))
  | 0x8A => .ok (.smin (fld w 18 6) (fld w 12 6) (fld w 6 6) (fld w 0 6))
  | 0x8B => .ok (.smax (fld w 18 6) (fld w 12 6) (fld w 6 6) (fld w 0 6))
  | 0x8C => only (fld w 0 12 == 0) (.smov (fld w 18 6) (fld w 12 6))
  | 0x8D => only (fld w 0 18 == 0) (.slit (fld w 18 6) (fld lit 0 32))
  | 0x90 => .ok (.saddImm (fld w 18 6) (fld w 12 6) (fld w 0 12))
  | 0x91 => .ok (.ssubImm (fld w 18 6) (fld w 12 6) (fld w 0 12))
  | 0x92 => .ok (.smulImm (fld w 18 6) (fld w 12 6) (fld w 0 12))
  | 0x93 => .ok (.sandImm (fld w 18 6) (fld w 12 6) (fld w 0 12))
  | 0x94 => .ok (.sorImm (fld w 18 6) (fld w 12 6) (fld w 0 12))
  | 0x95 => .ok (.sxorImm (fld w 18 6) (fld w 12 6) (fld w 0 12))
  | 0x96 => only (fld w 6 6 == 0) (.sshlImm (fld w 18 6) (fld w 12 6) (fld w 0 6))
  | 0x97 => only (fld w 6 6 == 0) (.sshrImm (fld w 18 6) (fld w 12 6) (fld w 0 6))
  | 0x98 => only (fld w 6 6 == 0) (.ssarImm (fld w 18 6) (fld w 12 6) (fld w 0 6))
  | 0x9C => only (fld w 12 6 == 0) (.smovi (fld w 18 6) (fld w 0 12))
  | _ => .error .reservedOpcode


/-- The control (U-form 0x20 to 0x2C). -/
def decodeControl (op : Nat) (w lit : Word) : Except Reject Instr :=
  match op with
  | 0xA0 => only (fld w 0 24 == 0) (.br (fld lit 0 32))
  | 0xA1 => only (fld w 18 6 == 0 && fld w 6 6 == 0 && fld w 0 3 == 0) (.bc (fld w 12 6) (bitAt w 5) (bitAt w 4) (bitAt w 3) (fld lit 16 16) (fld lit 0 16))
  | 0xA2 => only (fld w 18 6 == 0 && fld w 4 8 == 0 && fld w 0 3 == 0) (.brx (fld w 12 6) (bitAt w 3) (fld lit 16 16) (fld lit 0 16))
  | 0xA3 => only (fld w 0 18 == 0) (.call (fld w 18 6) (fld lit 0 32))
  | 0xA4 => only (fld w 18 6 == 0 && fld w 4 8 == 0 && fld w 0 3 == 0) (.ret (fld w 12 6) (bitAt w 3))
  | 0xA5 => only (fld w 0 24 == 0) .regang
  | 0xA6 => only (fld w 0 12 == 0 && fld lit 9 23 == 0) (.loop (fld w 18 6) (fld w 12 6) (fld lit 0 9))
  | 0xA7 => only (fld w 18 6 == 0 && fld w 0 12 == 0) (.lbrk (fld w 12 6))
  | 0xA8 => only (fld w 0 24 == 0) .yield
  | 0xA9 => only (fld w 0 24 == 0) .exit
  | 0xAA => only (fld w 0 24 == 0) .nop
  | 0xAB => only (fld w 12 12 == 0) (.trap (fld w 0 12))
  | 0xAC => only (fld w 0 24 == 0) .rti
  | _ => .error .reservedOpcode


/-- The mask instructions (U-form 0x40 to 0x47). -/
def decodeMask (op : Nat) (w _lit : Word) : Except Reject Instr :=
  match op with
  | 0xC0 => only (fld w 0 6 == 0) (.mand (fld w 18 6) (fld w 12 6) (fld w 6 6))
  | 0xC1 => only (fld w 0 6 == 0) (.mor (fld w 18 6) (fld w 12 6) (fld w 6 6))
  | 0xC2 => only (fld w 0 6 == 0) (.mxor (fld w 18 6) (fld w 12 6) (fld w 6 6))
  | 0xC3 => only (fld w 0 12 == 0) (.mnot (fld w 18 6) (fld w 12 6))
  | 0xC4 => only (fld w 0 12 == 0) (.mpop (fld w 18 6) (fld w 12 6))
  | 0xC5 => only (fld w 0 12 == 0) (.mfirst (fld w 18 6) (fld w 12 6))
  | 0xC6 => only (fld w 0 18 == 0) (.emrd (fld w 18 6))
  | 0xC7 => only (fld w 18 6 == 0 && fld w 0 12 == 0) (.emwr (fld w 12 6))
  | _ => .error .reservedOpcode


/-- The srd and swr (U-form 0x50, 0x51). -/
def decodeSpecial (op : Nat) (w _lit : Word) : Except Reject Instr :=
  match op with
  | 0xD0 => only (fld w 7 11 == 0) (.srd (fld w 18 6) (bitAt w 6) (fld w 0 6))
  | 0xD1 => only (fld w 18 6 == 0 && fld w 6 6 == 0) (.swr (fld w 12 6) (fld w 0 6))
  | _ => .error .reservedOpcode


/-- The engine instructions (U-form 0x60 to 0x67). -/
def decodeEngine (op : Nat) (w _lit : Word) : Except Reject Instr :=
  match op with
  | 0xE0 => only (fld w 0 4 == 0) (.cpy (fld w 18 6) (fld w 12 6) (fld w 6 6) (bitAt w 5) (bitAt w 4))
  | 0xE1 => only (fld w 0 6 == 0) (.cpyt (fld w 18 6) (fld w 12 6) (fld w 6 6))
  | 0xE2 => only (fld w 18 6 == 0 && fld w 0 12 == 0) (.coll (fld w 12 6))
  | 0xE3 => only (fld w 2 22 == 0) (.bseal (fld w 0 2))
  | 0xE4 => only (fld w 18 6 == 0 && fld w 8 4 == 0) (.bwait (fld w 12 6) (bitAt w 7) (fld w 2 5) (fld w 0 2))
  | 0xE5 => only (fld w 0 6 == 0) (.qpush (fld w 18 6) (fld w 12 6) (fld w 6 6))
  | 0xE6 => only (fld w 18 6 == 0 && fld w 0 12 == 0) (.recon (fld w 12 6))
  | 0xE7 => only (fld w 0 12 == 0) (.launch (fld w 18 6) (fld w 12 6))
  | _ => .error .reservedOpcode


/-- The fence and barriers (U-form 0x70 to 0x73). -/
def decodeSync (op : Nat) (w _lit : Word) : Except Reject Instr :=
  match op with
  | 0xF0 => only (fld w 6 18 == 0) (.fence (bitAt w 5) (bitAt w 4) (bitAt w 3) (fld w 0 3))
  | 0xF1 => only (fld w 18 6 == 0 && fld w 9 2 == 0) (.bar (fld w 12 6) (bitAt w 11) (fld w 4 5) (fld w 0 4))
  | 0xF2 => only (fld w 18 6 == 0 && fld w 9 2 == 0) (.bara (fld w 12 6) (bitAt w 11) (fld w 4 5) (fld w 0 4))
  | 0xF3 => only (fld w 4 14 == 0) (.barq (fld w 18 6) (fld w 0 4))
  | _ => .error .reservedOpcode

/-- The instruction whose fields the words hold, its unused bits checked; the opcode picks the family (R58, R59). -/
def decodeFields (w lit : Word) : Except Reject Instr :=
  let op := opcodeOf w
  if op < 0x30 then decodeLane op w lit
  else if op < 0x40 then decodeCrossLane op w lit
  else if op < 0x50 then decodeMemory op w lit
  else if op < 0x60 then decodeMatrix op w lit
  else if op < 0x70 then decodeDirectional op w lit
  else if op < 0x80 then decodeSketch op w lit
  else if op < 0xA0 then decodeUniform op w lit
  else if op < 0xC0 then decodeControl op w lit
  else if op < 0xD0 then decodeMask op w lit
  else if op < 0xE0 then decodeSpecial op w lit
  else if op < 0xF0 then decodeEngine op w lit
  else decodeSync op w lit

/-- The decoder (R62): the instruction that the word `w`, followed by `lit` where it takes a literal, encodes. -/
def decode (w lit : Word) : Except Reject Instr :=
  match decodeFields w lit with
  | .ok i => if i.wf then .ok i else .error .undefinedValue
  | .error e => .error e

/-- The word that four bytes hold, lowest address first (R6). -/
def wordOfBytes (b0 b1 b2 b3 : Byte) : Word := b3 ++ b2 ++ b1 ++ b0

/-- The bytes of a word, lowest address first (R6). -/
def bytesOfWord (w : Word) : List Byte := [fld w 0 8, fld w 8 8, fld w 16 8, fld w 24 8]

/-- The decoder on bytes: the instruction at the front of the list and the bytes after it (R40). -/
def decodeBytes : List Byte → Except Reject (Instr × List Byte)
  | b0 :: b1 :: b2 :: b3 :: rest =>
    let w := wordOfBytes b0 b1 b2 b3
    if takesLiteral (opcodeOf w) then
      match rest with
      | c0 :: c1 :: c2 :: c3 :: rest' =>
        match decode w (wordOfBytes c0 c1 c2 c3) with
        | .ok i => .ok (i, rest')
        | .error e => .error e
      | _ => .error .truncated
    else
      match decode w 0 with
      | .ok i => .ok (i, rest)
      | .error e => .error e
  | _ => .error .truncated

/-- The instruction of a table word: its first word in bits [31:0] of `w`, its literal word above them. -/
def decodeTableWord (_nbits w : Nat) : Option Instr :=
  match decodeBytes (bytesOfWord (BitVec.ofNat 32 w) ++ bytesOfWord (BitVec.ofNat 32 (w >>> 32))) with
  | .ok (i, _) => some i
  | .error _ => none

/-- The pieces of a word put together, highest bits first; they make 32 bits. -/
def word {n : Nat} (x : BitVec n) (h : n = 32) : Word := x.cast h

/-- The encoder: an instruction's word and, where it takes one, its literal word; an event has none. -/
def encode : Instr → Option (Word × Option Word)
  | .add d a b h m => some (word (0x1#8 ++ d ++ a ++ b ++ h ++ m) rfl, none)
  | .sub d a b h m => some (word (0x2#8 ++ d ++ a ++ b ++ h ++ m) rfl, none)
  | .mul d a b h m => some (word (0x3#8 ++ d ++ a ++ b ++ h ++ m) rfl, none)
  | .mulhi d a b h m => some (word (0x4#8 ++ d ++ a ++ b ++ h ++ m) rfl, none)
  | .mad d a b h m => some (word (0x5#8 ++ d ++ a ++ b ++ h ++ m) rfl, none)
  | .min d a b h m => some (word (0x6#8 ++ d ++ a ++ b ++ h ++ m) rfl, none)
  | .max d a b h m => some (word (0x7#8 ++ d ++ a ++ b ++ h ++ m) rfl, none)
  | .abs d a h m => some (word (0x8#8 ++ d ++ a ++ 0#6 ++ h ++ m) rfl, none)
  | .neg d a h m => some (word (0x9#8 ++ d ++ a ++ 0#6 ++ h ++ m) rfl, none)
  | .and d a b h => some (word (0xa#8 ++ d ++ a ++ b ++ h ++ 0#4) rfl, none)
  | .or d a b h => some (word (0xb#8 ++ d ++ a ++ b ++ h ++ 0#4) rfl, none)
  | .xor d a b h => some (word (0xc#8 ++ d ++ a ++ b ++ h ++ 0#4) rfl, none)
  | .not d a h => some (word (0xd#8 ++ d ++ a ++ 0#6 ++ h ++ 0#4) rfl, none)
  | .andn d a b h => some (word (0xe#8 ++ d ++ a ++ b ++ h ++ 0#4) rfl, none)
  | .shl d a b h m => some (word (0xf#8 ++ d ++ a ++ b ++ h ++ m) rfl, none)
  | .shr d a b h m => some (word (0x10#8 ++ d ++ a ++ b ++ h ++ m) rfl, none)
  | .sar d a b h m => some (word (0x11#8 ++ d ++ a ++ b ++ h ++ m) rfl, none)
  | .rol d a b h m => some (word (0x12#8 ++ d ++ a ++ b ++ h ++ m) rfl, none)
  | .clz d a h m => some (word (0x13#8 ++ d ++ a ++ 0#6 ++ h ++ m) rfl, none)
  | .popc d a h m => some (word (0x14#8 ++ d ++ a ++ 0#6 ++ h ++ m) rfl, none)
  | .brev d a h m => some (word (0x15#8 ++ d ++ a ++ 0#6 ++ h ++ m) rfl, none)
  | .bfx d a b h m => some (word (0x16#8 ++ d ++ a ++ b ++ h ++ m) rfl, none)
  | .bfi d a b h m => some (word (0x17#8 ++ d ++ a ++ b ++ h ++ m) rfl, none)
  | .sel d a b h n => some (word (0x18#8 ++ d ++ a ++ b ++ h ++ 0#1 ++ n) rfl, none)
  | .cmp d a b h m => some (word (0x19#8 ++ d ++ a ++ b ++ h ++ m) rfl, none)
  | .fadd d a b h t r => some (word (0x1a#8 ++ d ++ a ++ b ++ h ++ BitVec.ofBool t ++ r) rfl, none)
  | .fsub d a b h t r => some (word (0x1b#8 ++ d ++ a ++ b ++ h ++ BitVec.ofBool t ++ r) rfl, none)
  | .fmul d a b h t r => some (word (0x1c#8 ++ d ++ a ++ b ++ h ++ BitVec.ofBool t ++ r) rfl, none)
  | .ffma d a b h t r => some (word (0x1d#8 ++ d ++ a ++ b ++ h ++ BitVec.ofBool t ++ r) rfl, none)
  | .fmin d a b h t n => some (word (0x1e#8 ++ d ++ a ++ b ++ h ++ BitVec.ofBool t ++ 0#2 ++ BitVec.ofBool n) rfl, none)
  | .fmax d a b h t n => some (word (0x1f#8 ++ d ++ a ++ b ++ h ++ BitVec.ofBool t ++ 0#2 ++ BitVec.ofBool n) rfl, none)
  | .fcmp d a b h t c => some (word (0x20#8 ++ d ++ a ++ b ++ h ++ BitVec.ofBool t ++ c) rfl, none)
  | .fclass d a h t => some (word (0x21#8 ++ d ++ a ++ 0#6 ++ h ++ BitVec.ofBool t ++ 0#3) rfl, none)
  | .fround d a h t r => some (word (0x22#8 ++ d ++ a ++ 0#6 ++ h ++ BitVec.ofBool t ++ r) rfl, none)
  | .fcvt d a s t h p r => some (word (0x23#8 ++ d ++ a ++ s ++ t ++ h ++ BitVec.ofBool p ++ r) rfl, none)
  | .frcp d a t r l h => some (word (0x24#8 ++ d ++ a ++ 0#2 ++ BitVec.ofBool t ++ r ++ l ++ h) rfl, none)
  | .frsq d a t r l h => some (word (0x25#8 ++ d ++ a ++ 0#2 ++ BitVec.ofBool t ++ r ++ l ++ h) rfl, none)
  | .fsqrt d a t r l h => some (word (0x26#8 ++ d ++ a ++ 0#2 ++ BitVec.ofBool t ++ r ++ l ++ h) rfl, none)
  | .fexp2 d a t r l h => some (word (0x27#8 ++ d ++ a ++ 0#2 ++ BitVec.ofBool t ++ r ++ l ++ h) rfl, none)
  | .flog2 d a t r l h => some (word (0x28#8 ++ d ++ a ++ 0#2 ++ BitVec.ofBool t ++ r ++ l ++ h) rfl, none)
  | .fsin d a t r l h => some (word (0x29#8 ++ d ++ a ++ 0#2 ++ BitVec.ofBool t ++ r ++ l ++ h) rfl, none)
  | .fcos d a t r l h => some (word (0x2a#8 ++ d ++ a ++ 0#2 ++ BitVec.ofBool t ++ r ++ l ++ h) rfl, none)
  | .mov d a h => some (word (0x2b#8 ++ d ++ a ++ 0#6 ++ h ++ 0#4) rfl, none)
  | .movi d t lit => some (word (0x2c#8 ++ d ++ 0#16 ++ t) rfl, some (word (lit) rfl))
  | .pack d a b h m => some (word (0x2d#8 ++ d ++ a ++ b ++ h ++ m) rfl, none)
  | .unpk d a h m => some (word (0x2e#8 ++ d ++ a ++ 0#6 ++ h ++ m) rfl, none)
  | .perm d a b h => some (word (0x2f#8 ++ d ++ a ++ b ++ h ++ 0#4) rfl, none)
  | .shfl d a b h f => some (word (0x30#8 ++ d ++ a ++ b ++ h ++ 0#2 ++ f) rfl, none)
  | .gath d a b h w => some (word (0x31#8 ++ d ++ a ++ b ++ h ++ 0#2 ++ w) rfl, none)
  | .bcast d a b h f => some (word (0x32#8 ++ d ++ a ++ b ++ h ++ 0#2 ++ f) rfl, none)
  | .vote d a h g c => some (word (0x33#8 ++ d ++ a ++ 0#6 ++ h ++ 0#1 ++ BitVec.ofBool g ++ c) rfl, none)
  | .ballot d a h g => some (word (0x34#8 ++ d ++ a ++ 0#6 ++ h ++ 0#1 ++ BitVec.ofBool g ++ 0#2) rfl, none)
  | .segred d a b h o t => some (word (0x35#8 ++ d ++ a ++ b ++ h ++ o ++ t) rfl, none)
  | .segscan d a b h o t => some (word (0x36#8 ++ d ++ a ++ b ++ h ++ o ++ t) rfl, none)
  | .kadd d a h g s => some (word (0x37#8 ++ d ++ a ++ 0#6 ++ h ++ 0#1 ++ BitVec.ofBool g ++ s) rfl, none)
  | .kclr d => some (word (0x38#8 ++ d ++ 0#18) rfl, none)
  | .krd d a r l => some (word (0x39#8 ++ d ++ a ++ 0#3 ++ r ++ l ++ 0#2) rfl, none)
  | .xchg d a b l h => some (word (0x3a#8 ++ d ++ a ++ b ++ l ++ h) rfl, none)
  | .ld d a b l h disp cls scope acq rem ty lreg g p => some (word (0x40#8 ++ d ++ a ++ b ++ l ++ h) rfl, some (word (disp ++ cls ++ scope ++ BitVec.ofBool acq ++ BitVec.ofBool rem ++ ty ++ BitVec.ofBool lreg ++ BitVec.ofBool g ++ BitVec.ofBool p) rfl))
  | .st d a h g p disp scope rel z => some (word (0x41#8 ++ d ++ a ++ 0#6 ++ h ++ BitVec.ofBool g ++ BitVec.ofBool p ++ 0#2) rfl, some (word (disp ++ 0#4 ++ scope ++ BitVec.ofBool rel ++ 0#5 ++ z) rfl))
  | .sld d a l disp scope acq rem ty => some (word (0x42#8 ++ d ++ a ++ 0#6 ++ l ++ 0#2) rfl, some (word (disp ++ 0#4 ++ scope ++ BitVec.ofBool acq ++ BitVec.ofBool rem ++ 0#4 ++ ty) rfl))
  | .sst d a disp scope rel z => some (word (0x43#8 ++ d ++ a ++ 0#12) rfl, some (word (disp ++ 0#4 ++ scope ++ BitVec.ofBool rel ++ 0#5 ++ z) rfl))
  | .talloc d a v => some (word (0x44#8 ++ d ++ a ++ 0#11 ++ BitVec.ofBool v) rfl, none)
  | .tfree a => some (word (0x45#8 ++ 0#6 ++ a ++ 0#12) rfl, none)
  | .tld d a g z p l h => some (word (0x46#8 ++ d ++ a ++ 0#2 ++ BitVec.ofBool g ++ z ++ BitVec.ofBool p ++ l ++ h) rfl, none)
  | .tst d a h g p z => some (word (0x47#8 ++ d ++ a ++ 0#6 ++ h ++ BitVec.ofBool g ++ BitVec.ofBool p ++ z) rfl, none)
  | .tatom d a o t l h => some (word (0x48#8 ++ d ++ a ++ o ++ t ++ l ++ h) rfl, none)
  | .gtest d a h s => some (word (0x49#8 ++ d ++ a ++ 0#6 ++ h ++ 0#2 ++ s) rfl, none)
  | .gacc d a h s => some (word (0x4a#8 ++ d ++ a ++ 0#6 ++ h ++ 0#2 ++ s) rfl, none)
  | .gdemand d a t p g l h => some (word (0x4b#8 ++ d ++ a ++ t ++ BitVec.ofBool p ++ BitVec.ofBool g ++ l ++ h) rfl, none)
  | .atom d a l h disp op scope acq rem rel ty => some (word (0x4c#8 ++ d ++ a ++ 0#6 ++ l ++ h) rfl, some (word (disp ++ op ++ scope ++ BitVec.ofBool acq ++ BitVec.ofBool rem ++ BitVec.ofBool rel ++ ty ++ 0#4) rfl))
  | .satom d a l disp op scope acq rem rel ty => some (word (0x4d#8 ++ d ++ a ++ 0#6 ++ l ++ 0#2) rfl, some (word (disp ++ op ++ scope ++ BitVec.ofBool acq ++ BitVec.ofBool rem ++ BitVec.ofBool rel ++ ty ++ 0#4) rfl))
  | .mlease n => some (word (0x50#8 ++ 0#12 ++ n ++ 0#6) rfl, none)
  | .mleaseReg a => some (word (0x50#8 ++ 0#6 ++ a ++ 1#12) rfl, none)
  | .mrel => some (word (0x51#8 ++ 0#24) rfl, none)
  | .mma d a b h g sf sm spa spb => some (word (0x52#8 ++ d ++ a ++ b ++ h ++ BitVec.ofBool g ++ 0#3) rfl, some (word (sf ++ sm ++ BitVec.ofBool spa ++ BitVec.ofBool spb ++ 0#18) rfl))
  | .mfence => some (word (0x53#8 ++ 0#24) rfl, none)
  | .mld d a f => some (word (0x54#8 ++ d ++ a ++ 0#11 ++ BitVec.ofBool f) rfl, none)
  | .mst d a f => some (word (0x55#8 ++ d ++ a ++ 0#11 ++ BitVec.ofBool f) rfl, none)
  | .mzero d c => some (word (0x56#8 ++ d ++ 0#14 ++ c) rfl, none)
  | .msave a => some (word (0x57#8 ++ 0#6 ++ a ++ 0#12) rfl, none)
  | .mres a => some (word (0x58#8 ++ 0#6 ++ a ++ 0#12) rfl, none)
  | .mresDrop => some (word (0x58#8 ++ 1#24) rfl, none)
  | .attn d a b sigma => some (word (0x59#8 ++ d ++ a ++ b ++ 0#6) rfl, some (word (sigma) rfl))
  | .amerge d a => some (word (0x5a#8 ++ d ++ a ++ 0#12) rfl, none)
  | .anorm d a f => some (word (0x5b#8 ++ d ++ a ++ 0#11 ++ BitVec.ofBool f) rfl, none)
  | .dld d a l => some (word (0x60#8 ++ d ++ a ++ 0#6 ++ l ++ 0#2) rfl, none)
  | .dst d a => some (word (0x61#8 ++ d ++ a ++ 0#12) rfl, none)
  | .dfrom d a h g f => some (word (0x62#8 ++ d ++ a ++ 0#6 ++ h ++ BitVec.ofBool g ++ 0#2 ++ BitVec.ofBool f) rfl, none)
  | .dto d a r f => some (word (0x63#8 ++ d ++ a ++ 0x0#8 ++ r ++ BitVec.ofBool f) rfl, none)
  | .ddot d a b l => some (word (0x64#8 ++ d ++ a ++ b ++ l ++ 0#2) rfl, none)
  | .dadd d a b => some (word (0x65#8 ++ d ++ a ++ b ++ 0#6) rfl, none)
  | .dsub d a b => some (word (0x66#8 ++ d ++ a ++ b ++ 0#6) rfl, none)
  | .dscl d a => some (word (0x67#8 ++ d ++ a ++ 0#12) rfl, none)
  | .dmulv d a b h g => some (word (0x68#8 ++ d ++ a ++ b ++ h ++ BitVec.ofBool g ++ 0#3) rfl, none)
  | .dneg d a => some (word (0x69#8 ++ d ++ a ++ 0#12) rfl, none)
  | .dnorm d a => some (word (0x6a#8 ++ d ++ a ++ 0#12) rfl, none)
  | .dsetn d a => some (word (0x6b#8 ++ d ++ a ++ 0#12) rfl, none)
  | .dtest d a u => some (word (0x6c#8 ++ d ++ a ++ 0#11 ++ BitVec.ofBool u) rfl, none)
  | .skins d a b h t => some (word (0x70#8 ++ d ++ a ++ b ++ h ++ 0#3 ++ BitVec.ofBool t) rfl, none)
  | .skdel d a b h t => some (word (0x71#8 ++ d ++ a ++ b ++ h ++ 0#3 ++ BitVec.ofBool t) rfl, none)
  | .skclr d t => some (word (0x72#8 ++ d ++ 0#17 ++ BitVec.ofBool t) rfl, none)
  | .sksub d a s t => some (word (0x73#8 ++ d ++ a ++ 0#10 ++ BitVec.ofBool s ++ BitVec.ofBool t) rfl, none)
  | .skstat d a t => some (word (0x74#8 ++ d ++ a ++ 0#11 ++ BitVec.ofBool t) rfl, none)
  | .sadd d a b => some (word (0x80#8 ++ d ++ a ++ b ++ 0#6) rfl, none)
  | .ssub d a b => some (word (0x81#8 ++ d ++ a ++ b ++ 0#6) rfl, none)
  | .smul d a b => some (word (0x82#8 ++ d ++ a ++ b ++ 0#6) rfl, none)
  | .sand d a b => some (word (0x83#8 ++ d ++ a ++ b ++ 0#6) rfl, none)
  | .sor d a b => some (word (0x84#8 ++ d ++ a ++ b ++ 0#6) rfl, none)
  | .sxor d a b => some (word (0x85#8 ++ d ++ a ++ b ++ 0#6) rfl, none)
  | .sshl d a b => some (word (0x86#8 ++ d ++ a ++ b ++ 0#6) rfl, none)
  | .sshr d a b => some (word (0x87#8 ++ d ++ a ++ b ++ 0#6) rfl, none)
  | .ssar d a b => some (word (0x88#8 ++ d ++ a ++ b ++ 0#6) rfl, none)
  | .scmp d a b u => some (word (0x89#8 ++ d ++ a ++ b ++ u) rfl, none)
  | .smin d a b u => some (word (0x8a#8 ++ d ++ a ++ b ++ u) rfl, none)
  | .smax d a b u => some (word (0x8b#8 ++ d ++ a ++ b ++ u) rfl, none)
  | .smov d a => some (word (0x8c#8 ++ d ++ a ++ 0#12) rfl, none)
  | .slit d lit => some (word (0x8d#8 ++ d ++ 0#18) rfl, some (word (lit) rfl))
  | .saddImm d a i => some (word (0x90#8 ++ d ++ a ++ i) rfl, none)
  | .ssubImm d a i => some (word (0x91#8 ++ d ++ a ++ i) rfl, none)
  | .smulImm d a i => some (word (0x92#8 ++ d ++ a ++ i) rfl, none)
  | .sandImm d a i => some (word (0x93#8 ++ d ++ a ++ i) rfl, none)
  | .sorImm d a i => some (word (0x94#8 ++ d ++ a ++ i) rfl, none)
  | .sxorImm d a i => some (word (0x95#8 ++ d ++ a ++ i) rfl, none)
  | .sshlImm d a c => some (word (0x96#8 ++ d ++ a ++ 0#6 ++ c) rfl, none)
  | .sshrImm d a c => some (word (0x97#8 ++ d ++ a ++ 0#6 ++ c) rfl, none)
  | .ssarImm d a c => some (word (0x98#8 ++ d ++ a ++ 0#6 ++ c) rfl, none)
  | .smovi d i => some (word (0x9c#8 ++ d ++ 0#6 ++ i) rfl, none)
  | .br lit => some (word (0xa0#8 ++ 0#24) rfl, some (word (lit) rfl))
  | .bc a v neg g t r => some (word (0xa1#8 ++ 0#6 ++ a ++ 0#6 ++ BitVec.ofBool v ++ BitVec.ofBool neg ++ BitVec.ofBool g ++ 0#3) rfl, some (word (t ++ r) rfl))
  | .brx a g n r => some (word (0xa2#8 ++ 0#6 ++ a ++ 0x0#8 ++ BitVec.ofBool g ++ 0#3) rfl, some (word (n ++ r) rfl))
  | .call d lit => some (word (0xa3#8 ++ d ++ 0#18) rfl, some (word (lit) rfl))
  | .ret a g => some (word (0xa4#8 ++ 0#6 ++ a ++ 0x0#8 ++ BitVec.ofBool g ++ 0#3) rfl, none)
  | .regang => some (word (0xa5#8 ++ 0#24) rfl, none)
  | .loop d a w => some (word (0xa6#8 ++ d ++ a ++ 0#12) rfl, some (word (0#23 ++ w) rfl))
  | .lbrk a => some (word (0xa7#8 ++ 0#6 ++ a ++ 0#12) rfl, none)
  | .yield => some (word (0xa8#8 ++ 0#24) rfl, none)
  | .exit => some (word (0xa9#8 ++ 0#24) rfl, none)
  | .nop => some (word (0xaa#8 ++ 0#24) rfl, none)
  | .trap i => some (word (0xab#8 ++ 0#12 ++ i) rfl, none)
  | .rti => some (word (0xac#8 ++ 0#24) rfl, none)
  | .mand d a b => some (word (0xc0#8 ++ d ++ a ++ b ++ 0#6) rfl, none)
  | .mor d a b => some (word (0xc1#8 ++ d ++ a ++ b ++ 0#6) rfl, none)
  | .mxor d a b => some (word (0xc2#8 ++ d ++ a ++ b ++ 0#6) rfl, none)
  | .mnot d a => some (word (0xc3#8 ++ d ++ a ++ 0#12) rfl, none)
  | .mpop d a => some (word (0xc4#8 ++ d ++ a ++ 0#12) rfl, none)
  | .mfirst d a => some (word (0xc5#8 ++ d ++ a ++ 0#12) rfl, none)
  | .emrd d => some (word (0xc6#8 ++ d ++ 0#18) rfl, none)
  | .emwr a => some (word (0xc7#8 ++ 0#6 ++ a ++ 0#12) rfl, none)
  | .srd d v n => some (word (0xd0#8 ++ d ++ 0#11 ++ BitVec.ofBool v ++ n) rfl, none)
  | .swr a n => some (word (0xd1#8 ++ 0#6 ++ a ++ 0#6 ++ n) rfl, none)
  | .cpy d a b t s => some (word (0xe0#8 ++ d ++ a ++ b ++ BitVec.ofBool t ++ BitVec.ofBool s ++ 0#4) rfl, none)
  | .cpyt d a b => some (word (0xe1#8 ++ d ++ a ++ b ++ 0#6) rfl, none)
  | .coll a => some (word (0xe2#8 ++ 0#6 ++ a ++ 0#12) rfl, none)
  | .bseal c => some (word (0xe3#8 ++ 0#22 ++ c) rfl, none)
  | .bwait a y n c => some (word (0xe4#8 ++ 0#6 ++ a ++ 0#4 ++ BitVec.ofBool y ++ n ++ c) rfl, none)
  | .qpush d a b => some (word (0xe5#8 ++ d ++ a ++ b ++ 0#6) rfl, none)
  | .recon a => some (word (0xe6#8 ++ 0#6 ++ a ++ 0#12) rfl, none)
  | .launch d a => some (word (0xe7#8 ++ d ++ a ++ 0#12) rfl, none)
  | .fence v r q s => some (word (0xf0#8 ++ 0#18 ++ BitVec.ofBool v ++ BitVec.ofBool r ++ BitVec.ofBool q ++ s) rfl, none)
  | .bar a r c n => some (word (0xf1#8 ++ 0#6 ++ a ++ BitVec.ofBool r ++ 0#2 ++ c ++ n) rfl, none)
  | .bara a r c n => some (word (0xf2#8 ++ 0#6 ++ a ++ BitVec.ofBool r ++ 0#2 ++ c ++ n) rfl, none)
  | .barq d n => some (word (0xf3#8 ++ d ++ 0#14 ++ n) rfl, none)
  | .tileEntryFree _ _ _ => none
  | .longLatencyResult _ _ _ => none
  | .loadDeadline _ _ _ _ => none
  | .loadDataArrival _ _ => none
  | .xchgComplete _ _ _ => none
  | .yieldExpiry _ _ _ => none
  | .issueSelect _ _ => none
  | .leaseGrant _ => none
  | .leaseIdleEnd _ => none
  | .engineIssueAdmit _ _ _ => none
  | .bwaitResume _ _ _ => none
  | .copyEngineRun _ _ => none
  | .collectiveRun _ _ _ => none
  | .matrixStep _ _ => none
  | .linkEngineRun _ _ => none
  | .qpushSlotWrite _ _ _ => none
  | .faultEntryWrite _ => none
  | .faultResp _ _ => none
  | .cpServeQueue => none
  | .nopPacket _ _ => none
  | .launchPacket _ _ => none
  | .copyPacket _ _ => none
  | .collPacket _ _ => none
  | .waitvPacket _ _ => none
  | .signalPacket _ _ => none
  | .reconPacket _ _ => none
  | .qbarPacket _ _ => none
  | .packetComplete _ _ => none
  | .teamPlace _ => none
  | .teamRetire _ _ => none
  | .preemptRequest _ _ _ => none
  | .drainExpiry _ _ => none
  | .teamSave _ _ => none
  | .resumeRequest _ _ => none
  | .coreHalt _ => none
  | .quiesce _ => none
  | .quiesceComplete _ => none
  | .haltEnd _ _ => none
  | .rangeLockTableRead _ => none
  | .partitionCreate _ _ _ _ _ => none
  | .partitionDestroy _ => none
  | .keyErase _ => none
  | .asidAllot _ _ => none
  | .rootTableSet _ _ _ => none
  | .translationInvalidate _ _ _ => none
  | .invalidationComplete _ _ => none
  | .faultQueueSetup _ _ _ _ _ _ => none
  | .privateSizeSet _ _ _ _ => none
  | .interleaveSet _ _ _ _ => none
  | .debugEnable _ _ => none
  | .queueCreate _ _ _ _ _ _ => none
  | .queueRestart _ => none
  | .hostAsidBind _ => none
  | .pbudgetWrite _ _ _ => none
  | .escwaitWrite _ => none
  | .policyRegisterWrite _ _ _ => none
  | .railSet _ _ => none
  | .powerCapWrite _ => none
  | .thermalStateRead => none
  | .ethernetKeyInstall _ _ => none
  | .getVersion => none
  | .getCapabilities => none
  | .negotiateAlgorithms _ => none
  | .getDigests => none
  | .getCertificate _ => none
  | .challenge _ _ => none
  | .getMeasurements _ _ _ => none
  | .keyExchange _ => none
  | .finish _ _ _ _ => none
  | .endSession _ => none
  | .unsupportedRequest _ => none
  | .packageReset _ => none
  | .hostLoadStore _ => none
  | .frameAuthFail _ => none
  | .linkDown _ => none
  | .linkKeyReplace _ => none
  | .phaseFailure _ => none
  | .passCountLower _ _ => none
  | .powerWindow _ => none
  | .refreshDouble _ _ => none
  | .thermalThrottle _ _ => none
  | .thermalStop _ _ => none
  | .thermalStopEnd _ _ => none
  | .thermalTrip _ _ => none
  | .watchdogExpiry _ _ => none
  | .coreGate _ => none
  | .crossbarGrant _ _ _ => none
  | .budgetPeriodEnd _ => none
  | .bestEffortPromote _ _ _ _ => none
  | .escapeEnter _ _ => none
  | .storePerformed _ _ _ => none
  | .collectiveGroupDefine _ _ _ => none
  | .thermalThrottleEnd _ _ => none
  | .refreshRateRestore _ _ => none
  | .linkUp _ _ _ => none

/-- The bytes of an instruction, lowest address first (R6, R40); an event has none. -/
def encodeBytes (i : Instr) : List Byte :=
  match encode i with
  | some (w, some lit) => bytesOfWord w ++ bytesOfWord lit
  | some (w, none) => bytesOfWord w
  | none => []

end Sys2Proof
end

