-- ==== Sys2Proof/Machine/State.lean ====
section
/-!
DEFINITION. The state of one FJ9 package and of the device memory of its load-store domain, as plain data.
Every field names the rule of spec/ that gives it. Fields marked MODEL are the model's own; notes/assumptions says
why. Reset values: the spec's where it gives one, else the value log entry 3 names.
-/
namespace Sys2Proof.Machine

/-! ### Memories -/

/-- Bytes by address (R198), canonical: addresses strictly rising, no entry equal to the default byte 0 (log 2). -/
abbrev Memory := List Host.Cell

/-- Words by index, canonical in the same way, with default 0. -/
abbrev Words := List (Nat × Word)

/-! ### Work units of a gang -/

/-- One lane of a vector register: 64 bits and its two guess marks (R11, R93, R99). -/
structure VCell where
  bits : DWord
  g0 : Bool
  g1 : Bool
deriving DecidableEq, Repr

/-- A vector register across the gang (R93). -/
abbrev VReg := Vector VCell 32

/-- A write to the halves of one lane of a vector register, each half with its mark. -/
structure LaneWrite where
  reg : RegField
  lane : LaneId
  lo : Option (Word × Bool)
  hi : Option (Word × Bool)
deriving DecidableEq, Repr

/-- The trap causes of R152. -/
inductive Cause where
  | illegalOp | illegalConv | guessEscape | rangeLock | xlateFault | alignFault | tileFault | barrierFault
  | partitionFault | uncorrectable | engineFault | swTrap | doubleFault | debugHalt
deriving DecidableEq, Repr

/-- A failure after issue: the cause and its trapinfo (R57, R279). -/
structure Failure where
  cause : Cause
  info : DWord
deriving DecidableEq, Repr

/-- The register that a pending result is written to (R60, R394 KIND 1). -/
inductive Dest where
  | vec (r : RegField) (pair : Bool)
  | uni (r : RegField)
  | dir (r : RegField)
deriving DecidableEq, Repr

/-- A lane of an ld and its access (R226, R228). -/
structure LateLane where
  lane : LaneId
  ea : DWord
  /-- The access that brings its data. -/
  acc : Nat
  /-- The true value once the data lands. -/
  data : Option DWord
  /-- The uncorrectable unit's place, when the data failed (R228). -/
  bad : Option (BitVec 10 × BitVec 39)
  /-- A gdemand has consumed it (R228). -/
  demanded : Bool
deriving DecidableEq, Repr

/-- Halves of the lanes of a vector register: the lanes whose low half, and those whose high half, is meant. -/
structure Halves where
  lo : BitVec 32
  hi : BitVec 32
deriving DecidableEq, Repr

/-- What a pending result still waits for. -/
inductive Await where
  /-- Nothing: the result is known (special functions, krd, ddot, tld, tatom). -/
  | nothing
  /-- The lanes of an ld (R215): those not yet resolved, each with its limit, and those resolved as guesses. -/
  | lanes (waiting : List (LateLane × Nat)) (guessed : List LateLane)
  /-- The named accesses, by access number. -/
  | accesses (ids : List Nat)
  /-- Late slots and rereads of a gdemand (R232): lanes whose slot data has not landed, and accesses. -/
  | demand (slotLanes : List LaneId) (ids : List Nat)
  /-- The partner's xchg (R175): its teamid, gangid and tag, and the number of this exchange. -/
  | partner (team : Word) (gang : BitVec 4) (tag : Byte) (n : Word)
deriving DecidableEq, Repr

/-- A long-latency result not yet written (R51 to R57). -/
structure Pending where
  /-- Its number within the gang: program order of the VL instructions. -/
  id : Nat
  frag : FragId
  /-- Opened by the trap handler. -/
  hnd : Bool
  /-- Address of the VL instruction (R57). -/
  pc : DWord
  /-- Instructions left in the window (R51). -/
  left : Nat
  /-- The window has closed. -/
  closed : Bool
  dst : Dest
  /-- The lanes it writes. -/
  em : BitVec 32
  await : Await
  /-- Halves of its first and of its second register that it does not write any more: an instruction has written them since the
  window closed, and the later write remains (R53, log 41), or their lane has exited (R17). A uniform or directional result has
  all or none. -/
  overA : Halves
  overB : Halves
  /-- Its place among the instructions of its team, for the order of R394; a resumed result stands before the team's next
  instruction. -/
  place : Int
  /-- The vector halves to write. -/
  wr : List LaneWrite
  /-- The lanes of the source that an xchg has sampled (R175). -/
  src : List VCell
  /-- The uniform value to write (sld, satom, ddot). -/
  uval : DWord
  /-- The directional record to write (dld): the lanes' components and the norm. -/
  dval : List DWord
  dnorm : BitVec 16
  fail : Option Failure
  /-- The load's TYPE, part and the lanes' addresses (R219, R226). -/
  ty : BitVec 4
  part : Bool
  eas : List (LaneId × DWord)
  /-- The lanes whose address was marked under .g (R222). -/
  addrMarks : BitVec 32
  /-- The load takes part in the leaf table (R225). -/
  leaf : Bool
deriving DecidableEq, Repr

/-- A late slot of a gang (R226). -/
structure LateSlot where
  /-- Order of taking. -/
  order : Nat
  /-- Results numbered below this belong to instructions that issued before it was taken (R227). -/
  since : Nat
  reg : RegField
  ty : BitVec 4
  part : Bool
  lanes : List LateLane
deriving DecidableEq, Repr

/-- A range of an engine operation (R251, R252). -/
structure Range where
  dst : Bool
  tile : Bool
  eng : BitVec 3
  base : DWord
  len : Nat
deriving DecidableEq, Repr

/-- The 64-byte request block of a collective as read (R292). -/
structure CollReq where
  addr : DWord
  op : Nat
  inFp32 : Bool
  outFp32 : Bool
  opf : Word
  w : Int
  group : Nat
  rank : Nat
  root : Nat
  count : Nat
  src : DWord
  dst : DWord
  stat : DWord
deriving DecidableEq, Repr

/-- The request block of a reconciliation as read, with the LOCAL header read at issue (R366, R367). -/
structure ReconReq where
  addr : DWord
  loc : DWord
  peerSk : DWord
  peer : BitVec 10
  passes : Nat
  work : DWord
  diff : DWord
  cap : Nat
  fault : Bool
  k : Nat
  seed : DWord
deriving DecidableEq, Repr

/-- An operation of the copy, collective or link engine (R285 to R295, R366 to R368). -/
inductive EngKind where
  | copy (d a : DWord) (dt st : Bool) (len : Nat)
  | gather (d a idx : DWord) (roww wrows nrows : Nat)
  | cpyt (d a desc : DWord)
  | coll (r : CollReq) (n : Nat)
  | recon (r : ReconReq)
deriving DecidableEq, Repr

/-- The matrix operations (R311). -/
inductive MatKind where
  | mma | mzero | mld | mst | attn | amerge | anorm
deriving DecidableEq, Repr

/-- A copy of 16 vector registers in all lanes: the A value of mma (R316, R317). -/
abbrev AImage := List DWord

/-- The A value held for mma (R317): its first register, its bits, and the marks of each register, g0 of lane l in bit 2l and g1
in bit 2l + 1. -/
structure HeldA where
  reg : RegField
  img : AImage
  marks : List DWord
deriving DecidableEq, Repr

/-- How far a copy has come (R281, R288): the rows completed, the status code so far, and the bytes of the next row with its
status code where they have been read and not yet written. -/
structure CopyRun where
  row : Nat
  code : Nat
  buf : Option (List Byte × Nat)
deriving DecidableEq, Repr

/-- A gang of a saved team, by name. -/
structure Home where
  part : PartId
  gridid : Word
  teamid : Word
  gangid : BitVec 4
deriving DecidableEq, Repr

/-- An operation of the matrix engine (R311 to R333). -/
structure MatOp where
  id : Nat
  /-- Its number among the engine operations of its gang, in issue order. -/
  ord : Nat
  slot : SlotId
  team : SlotId
  kind : MatKind
  word : Word
  lit : Word
  /-- The uniform operands read at issue (R325 OPS, AUX). -/
  ops : List DWord
  aux : List DWord
  aimg : AImage
  amarks : List DWord
  /-- Steps completed; a resumed operation starts at its record's STEP (R325, R327). -/
  step : Nat
  /-- attn: the clearing step of INIT has been made (R325 DEPTH). -/
  cleared : Bool
  /-- The batch of class 2 it joined (R277). -/
  batch : Nat
  /-- The matrix operations of the gang numbered below this one complete before it starts (R322). -/
  fence : Nat
  /-- Accesses of the fragment numbered below this one are performed before it (R250). -/
  seq : Nat
  /-- Those that stood before the fragment's last fence with ACQ at its issue (R247). -/
  fenced : Nat
  lanes : BitVec 32
  /-- Issued by mres (R327). -/
  byMres : Bool
  ranges : List Range
deriving DecidableEq, Repr

/-- An engine operation in flight on a core (R280, R299). -/
structure EngOp where
  id : Nat
  /-- Its number among the engine operations of its gang, in issue order. -/
  ord : Nat
  slot : SlotId
  team : SlotId
  cls : Fin 4
  batch : Nat
  kind : EngKind
  ranges : List Range
  /-- Those of its ranges whose entries have not been freed (R254). -/
  held : List Range
  /-- Accesses of the fragment numbered below this are performed before it (R250). -/
  seq : Nat
  /-- Those that stood before the fragment's last fence with ACQ at its issue (R247). -/
  fenced : Nat
  lanes : BitVec 32
  asid : Asid
  part : PartId
  /-- Its data access waits for a translation-fault response (R281). -/
  faulted : Bool
  /-- Its access was refused (RESP 2). -/
  refused : Bool
  run : CopyRun
  /-- A matched collective of a team that has been saved meanwhile (R300); `slot` and `team` then name nothing. -/
  home : Option Home
  /-- The instruction word and S[d], S[a], S[b], S[b+1] as read (R394 KIND 3). -/
  word : Word
  ops : List DWord
deriving DecidableEq, Repr

/-- Why a fragment is not eligible (R32), beyond what its next instruction waits for. -/
inductive Wait where
  | none
  /-- Waiting at bar for the phase of the named barrier (R271). -/
  | barrier (n : BitVec 4)
  /-- A held arrival (R271): barrier, count, and whether the instruction is bar. -/
  | arrival (n : BitVec 4) (c : Nat) (bar : Bool)
  /-- Stalled on a translation fault (R204). -/
  | fault
  /-- tfree waits for the range locks of its tile (R184). -/
  | tileFree (h : BitVec 16)
  /-- An engine instruction waits for range-lock entries, journal or queue room (R280, R252). -/
  | engine (o : EngOp)
  /-- A matrix operation waits for range-lock entries or queue room (R280, R311). -/
  | matrix (m : MatOp)
  /-- Waiting for the matrix lease (R312); the instruction issues again once it is granted. -/
  | lease
  /-- Waiting at mlease for the lease it has requested (R313). -/
  | mlease
  /-- bwait (R298): class, count, continuation. -/
  | bwait (cls : Fin 4) (n : Nat) (y : Option DWord)
  /-- qpush after its claim (R309): index, control block, ring base, ring size, the packet. -/
  | qpush (i : DWord) (cb rb : DWord) (npkt : Nat) (pkt : List DWord)
  /-- qpush after its claim, stalled on a translation fault of its slot (R309). -/
  | qpushFault (i : DWord) (cb rb : DWord) (npkt : Nat) (pkt : List DWord)
  /-- A trap held behind the running handler (R155). -/
  | held
deriving DecidableEq, Repr

/-- An entry of the split table (R18), with the fragment's progress and ordering state. -/
structure Frag where
  valid : Bool
  pc : DWord
  mask : BitVec 32
  /-- The join it belongs to; `none` is the root. -/
  join : Option JoinId
  wait : Wait
  /-- Ages of R386 for the lane pipe and the uniform pipe. -/
  ageL : Nat
  ageU : Nat
  /-- Issue opportunities left of a yield (R143). -/
  yield : Nat
  /-- Accesses numbered below this stood before the last fence.vh (R212, R247). -/
  vhSeq : Nat
  /-- The last fence with REL: its scope and the access number it was issued at (R247). -/
  relFence : Option (BitVec 3 × Nat)
  /-- Accesses numbered below this stood before the last fence with ACQ (R247). -/
  acqSeq : Nat
  /-- Accesses numbered below this are performed before the fragment's next tile access (R240). -/
  tileSeq : Nat
  /-- Accesses numbered below this stood before a tile access of the fragment (R240): through it they stand before the next
  release, acquire or fence, and before what follows that, on either path. -/
  viaTile : Nat
deriving DecidableEq, Repr

/-- An entry of the join table (R18). -/
structure Join where
  valid : Bool
  rcv : DWord
  parent : Option JoinId
deriving DecidableEq, Repr

/-- A record of the loop stack (R147). -/
structure LoopRec where
  counter : Nat
  start : DWord
  endAddr : DWord
  lanes : BitVec 32
deriving DecidableEq, Repr

/-- An entry of the operand latch (R49): the register and the life left. Its bits are the register's current
value, because a write frees the entry. -/
structure LatchEntry where
  reg : RegField
  life : Nat
deriving DecidableEq, Repr

/-- A failure record of a batch (R279), with the number of the failed operation among those of its gang. -/
structure FailRec where
  batch : Nat
  op : Nat
  fail : Failure
deriving DecidableEq, Repr

/-- The batches of one class of a gang (R277 to R279). They are counted from the launch on; the number of R277 is the count
modulo 2^16. -/
structure Batches where
  /-- The number of the open batch. -/
  next : Nat
  /-- The sealed batches that have not finished, oldest first (at most 16). -/
  sealedB : List Nat
  recs : List FailRec
  /-- MODEL: stores of the core that happen before the completion of an operation of the class, each with the batch (R250). -/
  past : List (Nat × Nat)
deriving DecidableEq, Repr

/-- The running trap handler (R153, R393): its pc and the fragment whose instruction trapped. -/
structure Handler where
  pc : DWord
  frag : FragId
  /-- Order of trap entry on the core (R155). -/
  order : Nat
  wait : Wait
deriving DecidableEq, Repr

/-- A trap that a fragment has raised and not yet taken (R155). Its trappc is the fragment's pc when it is taken: the
fragment is held at its instruction, or a late failure stands before the instruction it issues next (R57). -/
structure HeldTrap where
  frag : FragId
  cause : Cause
  info : DWord
  late : DWord
deriving DecidableEq, Repr

/-- A stop record (R325). -/
structure StopRec where
  kind : Nat
  cause : Word
  step : Nat
  depth : BitVec 16
  row : Byte
  col : Byte
  word : Word
  lit : Word
  ops : List DWord
  aux : List DWord
  fault : DWord
  aimg : AImage
deriving DecidableEq, Repr

/-- An entry of the xchg pairing table (R175). -/
structure PairEntry where
  team : Word
  gang : BitVec 4
  tag : Byte
  count : Word
deriving DecidableEq, Repr

/-- The storage and the state of one gang slot (R93, R101, R393). -/
structure Gang where
  live : Bool
  /-- Core-local index of its team (R180). -/
  team : SlotId
  gangid : BitVec 4
  /-- Lanes launched and lanes exited (R17). -/
  launched : BitVec 32
  exited : BitVec 32
  v : Vector VReg 64
  u : Vector DWord 64
  m : Vector (BitVec 32) 8
  /-- Directional components, lane by lane (R338), and norms. -/
  dc : Vector (Vector DWord 32) 16
  dn : Vector (BitVec 16) 16
  k : Vector (BitVec 320) 4
  ks : Vector (BitVec 4) 4
  lc : Vector Word 3
  rng : Vector Word 32
  frags : Vector Frag 32
  joins : Vector Join 31
  latch : List LatchEntry
  loops : List LoopRec
  rngseed : Word
  trapcause : Byte
  trappc : DWord
  trapinfo : DWord
  traplate : DWord
  /-- gstat bits (R102). -/
  dsat : Bool
  reread : Bool
  usplit : Bool
  intrap : Bool
  skm : BitVec 5
  skseed : DWord
  handler : Handler
  heldTraps : List HeldTrap
  /-- A DEBUG_HALT is to be taken (R398), behind so many of the held traps (R155). -/
  debugHalt : Option Nat
  pend : List Pending
  nextPend : Nat
  late : List LateSlot
  nextLate : Nat
  batches : Vector Batches 4
  /-- The number of the gang's next engine operation, in issue order. -/
  nextOp : Nat
  /-- LEFT of the matrix lease (R312). -/
  left : Nat
  heldA : Option HeldA
  stopSlot : Option StopRec
  /-- Number of the last matrix operation before the last mfence (R322). -/
  mfence : Nat
  pairs : List PairEntry
  watchdog : Nat
  /-- The hang that the watchdog stands at has been reported (R418). -/
  hung : Bool
deriving DecidableEq, Repr

/-! ### Teams -/

/-- A named barrier (R268, R392). -/
structure Barrier where
  phase : BitVec 16
  exp : Nat
  arr : Nat
  /-- One bit per gangid. -/
  arrived : BitVec 16
  /-- MODEL: the stores that happen before the arrivals of this phase, and before the completion of the phases so far (R274). -/
  coming : List Nat
  given : List Nat
deriving DecidableEq, Repr

/-- A pre-emption request of a team (R388): its area, the SIZE the estimator read, the cycle of the request and DL. -/
structure Preempt where
  area : BitVec 39
  size : Nat
  since : DWord
  dl : Nat
deriving DecidableEq, Repr

/-- What pre-emption has decided for a team (R388). -/
inductive Stopping where
  | no
  /-- The request waits for the end of a halt or of a thermal stop (R396, R417). -/
  | asked (q : Preempt)
  /-- Draining up to a cycle; saved when the drain window ends. -/
  | drain (q : Preempt) (until_ : DWord)
  /-- To be saved (R389). -/
  | save (q : Preempt)
deriving DecidableEq, Repr

/-- A team resident on a core (R25 to R31, R101). -/
structure Team where
  live : Bool
  gridid : Word
  teamid : Word
  depth : BitVec 4
  asid : Asid
  part : PartId
  ngang : Nat
  lanes : Nat
  /-- Physical accumulator tile of each allotted tile a0, a1, ... (R95, R97). -/
  atiles : List (Fin 16)
  /-- Scratchpad reservation: first byte and bytes (R95). -/
  spadBase : Nat
  spadLen : Nat
  steep : BitVec 3
  trapbase : DWord
  code : DWord
  args : DWord
  entry : DWord
  rngseed : Word
  gathered : Bool
  restartable : Bool
  /-- Halted by a double fault (R156). -/
  halted : Bool
  /-- Has made an aperture access since its launch (R201). -/
  usedAperture : Bool
  /-- Instructions issued since placement or resume (R388). -/
  issued : Nat
  /-- Every gang has exited and the gang slots are released (R31). -/
  allExited : Bool
  bars : Vector Barrier 16
  stopping : Stopping
deriving DecidableEq, Repr

/-! ### Memory accesses -/

/-- The path of an access (R199). -/
inductive Path where
  | vertical | horizontal
  | package (dev : BitVec 10)
deriving DecidableEq, Repr

/-- A word of a sketch cell in device memory (R354, R359): where it lies, and what it takes: word 0 adds to COUNT, words 1
and 2 are XORed. Until a source word has been read (R364) there is none. -/
structure CellWord where
  dev : BitVec 10
  pa : BitVec 39
  path : Path
  delta : Option DWord
deriving DecidableEq, Repr

/-- What an access does at the vault. -/
inductive AccKind where
  | load
  | store (bytes : List Byte)
  /-- Read-modify-write of atom and satom (R263): operation, type, operands. -/
  | atomic (op : BitVec 4) (ty : BitVec 2) (x y : DWord)
  /-- One read-modify-write of the three 64-bit words of a sketch cell (R359, R361). -/
  | cell (ws : List CellWord)
  /-- Read of the source word with index `at_` of the update with access number `up` (R364). -/
  | source (up : Nat) (at_ : Nat)
deriving DecidableEq, Repr

/-- What a release orders (R212, R241, R247): its scope, the accesses on its own path numbered below `same`, and
those on either path numbered below `any`. -/
structure RelInfo where
  scope : BitVec 3
  same : Nat
  any : Nat
deriving DecidableEq, Repr

/-- What a load tells the leaf table when its data arrives (R223, R225). -/
structure LeafReq where
  pc : DWord
  asid : Asid
  ty : BitVec 4
  part : Bool
deriving DecidableEq, Repr

/-- An access that is not yet performed at .sys (R34, R212, R443). -/
structure Access where
  id : Nat
  slot : SlotId
  team : SlotId
  /-- The lanes of the issuing fragment, for program order (R239). -/
  lanes : BitVec 32
  /-- The instruction it belongs to, as a number on its core. -/
  instr : Nat
  dev : BitVec 10
  pa : BitVec 39
  size : Nat
  va : DWord
  asid : Asid
  part : PartId
  path : Path
  /-- Page type (R202). -/
  ptype : BitVec 2
  kind : AccKind
  acq : Option (BitVec 3)
  rem : Bool
  rel : Option RelInfo
  /-- The accesses of its instruction are performed in the order of their numbers (R363). -/
  serial : Bool
  /-- A load's steep level, that of its team at issue (R217). -/
  steep : BitVec 3
  /-- Accesses of the fragment numbered below these stood before its last fence with ACQ, and before its last fence.vh
  (R247). -/
  fenced : Nat
  vh : Nat
  /-- Performed at .core scope. -/
  done : Bool
  /-- Once it is done: the stores of its core, by number, that happen before it (R242) and were not performed at .sys then. -/
  past : List Nat
  /-- Once it is done, for a release at .gang or .core: the stores that a promotion of it raises (R248). -/
  raises : List Nat
  /-- The pending result that takes its data, the lane and the part of the result. -/
  dst : Option (Nat × LaneId × Nat)
  leaf : Option LeafReq
deriving DecidableEq, Repr

/-- MODEL: stores of a core that happen before what a fragment of the core does next (R242): those that stand before an
access it has made or an acquire of it has observed. -/
structure Mark where
  slot : SlotId
  team : SlotId
  lanes : BitVec 32
  /-- The path on which it orders the accesses that follow; `none` is every path. -/
  path : Option Path
  /-- Accesses to every package count as on one horizontal path: an acquire has brought it (R199, R212). -/
  wide : Bool
  /-- The number of the access that brought it, or of the next access. -/
  id : Nat
  /-- It holds at once; else after a fence with ACQ (R247). -/
  acq : Bool
  past : List Nat
deriving DecidableEq, Repr

/-- A release at .gang or .core that a byte's value leads back to (R248): its core, gang and scope, the stores of that core that
happen before it, and those that a promotion raises. -/
structure RelTag where
  core : CoreId
  slot : SlotId
  team : SlotId
  scope : BitVec 3
  past : List Nat
  raises : List Nat
deriving DecidableEq, Repr

/-! ### Cores -/

/-- A leaf-table entry (R223). -/
structure LeafEntry where
  tag : BitVec 26
  valid : BitVec 64
  /-- Values and strides by `2 * lane + half`, default 0. -/
  last : Words
  stride : Words
deriving DecidableEq, Repr

/-- A tile-table entry (R180). -/
structure TileEntry where
  gen : BitVec 2
  v : Bool
  lvl2 : Bool
  team : SlotId
  asid : Asid
  base : BitVec 12
  rowsm1 : BitVec 12
  rowbw : BitVec 14
deriving DecidableEq, Repr

/-- A range-lock entry (R251); `op` is the issuing core and operation that frees it. -/
structure LockEntry where
  v : Bool
  dir : Bool
  spc : Bool
  eng : BitVec 3
  slot : SlotId
  team : SlotId
  asid : Asid
  base : DWord
  len : BitVec 40
  opCore : CoreId
  op : Nat
deriving DecidableEq, Repr

/-- A translation held by a TLB or a translation cache (R203). -/
structure TlbEntry where
  asid : Asid
  /-- Virtual page: the address without its offset bits, and the number of offset bits. -/
  vpage : DWord
  bits : Nat
  dev : BitVec 10
  ptype : BitVec 2
  ilv : Bool
  frame : BitVec 39
  w : Bool
deriving DecidableEq, Repr

/-- One core (R93 to R103, R180, R251, R310 to R312, R386). -/
structure Core where
  cycle : DWord
  leafEn : Bool
  pcount : Word
  leaf : Vector LeafEntry 64
  tiles : Vector TileEntry 64
  spad : Memory
  /-- Scratchpad words with a double-bit error, by byte address (R188). -/
  spadBad : List Nat
  acc : Words
  /-- Accumulator elements with a double-bit error, by tile and element (R310). -/
  accBad : List Nat
  locks : Vector LockEntry 64
  tlb : List TlbEntry
  /-- Private size of the vault above and its owner (R200). -/
  psize : Nat
  powner : Asid
  /-- The accesses not yet performed at .sys: open ones in order of issue, and the stores performed at .core in the order in
  which they were performed (R34, R243). -/
  accs : List Access
  marks : List Mark
  /-- The stores, by number, that are or happen before a release at .gang or .core performed on this core (R248). -/
  narrow : List Nat
  /-- MODEL: number of the next access and of the next instruction on this core. -/
  seq : Nat
  instrs : Nat
  teams : Vector Team 16
  /-- Teams whose gangs have exited and that have given their index to another team (log 107): until they retire they keep their
  accumulator tiles and their scratchpad (R31). -/
  gone : List Team
  slots : Vector Gang 16
  holder : Option SlotId
  /-- Waiting lease requests, oldest first, with the count asked for (R312). -/
  leaseQ : List (SlotId × Nat)
  leaseIdle : Nat
  mat : List MatOp
  nextMat : Nat
  eng : List EngOp
  /-- MODEL: number of the next engine operation. -/
  nextEng : Nat
  nextTrap : Nat
  /-- Current runs of the lane pipe and the uniform pipe: class and length (R387). -/
  runL : Nat × Nat
  runU : Nat × Nat
  halted : Bool
  quiesce : Bool
  gated : Bool
  idle : Nat
deriving DecidableEq, Repr

/-! ### Clusters, partitions, queues, grids -/

/-- A virtual-channel output of a crossbar (R400): the inputs from least to most recently granted, and the input
that keeps the output until its message ends. -/
structure XbarOut where
  out : Fin 208
  order : List (Fin 208)
  lock : Option (Fin 208)
deriving DecidableEq, Repr

/-- The budget register of a partition and class (R405). -/
structure Budget where
  collpri : Bool
  unlim : Bool
  flits : BitVec 24
deriving DecidableEq, Repr

/-- One cluster (R198, R203, R400, R405, R411 to R417). -/
structure Cluster where
  passes : BitVec 3
  tcache : List TlbEntry
  /-- Interleave region: offset and size (R198). -/
  ilvQ : Nat
  ilvZ : Nat
  rail : RailId
  lowClock : Bool
  throttled : Bool
  stopped : Bool
  refresh2 : Bool
  outs : List XbarOut
  /-- Flits granted in this period, per partition and class (R405). -/
  flits : List (PartId × Fin 6 × Nat)
  /-- Best-effort flits promoted to be granted once (R405): output and input. -/
  promoted : List (Fin 208 × Fin 208)
  /-- The budgets in force in this period of the cluster's crossbar, by partition and class (R405). -/
  inForce : Vector (Vector Budget 6) 8
deriving DecidableEq, Repr

/-- Who waits for a translation fault (R204, R205, R309). -/
inductive Waiter where
  | frag (c : CoreId) (slot : SlotId) (hnd : Bool) (f : FragId)
  | engine (c : CoreId) (op : Nat)
  /-- A queue itself, or one of its packets by index. -/
  | queue (q : QueueId) (pkt : Option DWord)
  /-- Nobody any more: the team was discarded or saved. -/
  | gone
deriving DecidableEq, Repr

/-- A translation fault (R204). -/
structure XFault where
  va : DWord
  asid : Asid
  clus : BitVec 3
  core : Byte
  slot : BitVec 4
  kind : BitVec 3
  why : BitVec 4
  queue : BitVec 17
  who : Waiter
deriving DecidableEq, Repr

/-- A partition's fault queue (R205): set-up values, faults not yet written, entries watched by index. -/
structure FaultQueue where
  cb : BitVec 39
  ring : BitVec 39
  nent : Nat
  alert : BitVec 39
  /-- WIDX as the device holds it. -/
  widx : DWord
  /-- An uncorrectable word of the queue has been signalled and not yet been mended. -/
  told : Bool
deriving DecidableEq, Repr

/-- A partition (R382, R387, R405, R418, R424 to R427). -/
structure Partition where
  valid : Bool
  clusters : BitVec 8
  floor : Nat
  /-- Number of its memory key (R424); a key is never used twice. -/
  key : Nat
  /-- The owner public keys (R427). -/
  ownerKeys : PubKeys
  destroying : Bool
  pack : Bool
  run : Nat
  wdlim : Nat
  budgets : Vector Budget 6
  debug : Bool
  fq : Option FaultQueue
  faults : List XFault
  watched : List (Nat × XFault)
  /-- The placement list (R380): gridids by time of entry, and teams waiting to resume: gridid, teamid and area. -/
  placement : List Word
  resumes : List (Word × Word × BitVec 39)
deriving DecidableEq, Repr

/-- An address space (R195). -/
structure Space where
  asid : Asid
  part : PartId
  root : Option (BitVec 39)
deriving DecidableEq, Repr

/-- A packet taken from a ring (R305). -/
structure Packet where
  idx : DWord
  words : List DWord
  /-- It has started (R304, R308). -/
  begun : Bool
  done : Bool
  /-- It has stopped its queue and never completes (log 31). -/
  failed : Bool
  /-- LAUNCH: the entry address and trapbase of its checked code object, and the grid it made. -/
  head : Option (DWord × DWord)
  grid : Option Word
  /-- RECON: the request as read at its start. -/
  recon : Option ReconReq
  /-- COPY: how far it has come. -/
  run : CopyRun
  faulted : Bool
  refused : Bool
deriving DecidableEq, Repr

/-- A user-mode queue (R302 to R309). -/
structure Queue where
  num : QueueId
  asid : Asid
  prio : Fin 4
  cb : DWord
  rb : DWord
  npkt : Nat
  /-- DIDX as the command processor holds it. -/
  didx : DWord
  stopped : Bool
  /-- A stop still to be written into STATUS: the packet's TAG and the code (R305, R307). -/
  stop : Option (Word × BitVec 16)
  faulted : Bool
  /-- A packet whose slot is free again while RIDX is still to be written: its index and words (R305). -/
  taking : Option (DWord × List DWord)
  pkts : List Packet
deriving DecidableEq, Repr

/-- A grid that has not retired (R26, R308, R380, R385). -/
structure Grid where
  gridid : Word
  part : PartId
  asid : Asid
  code : DWord
  args : DWord
  entry : DWord
  trapbase : DWord
  teams : Nat
  lanes : Nat
  atiles : Nat
  spad : Nat
  gathered : Bool
  restartable : Bool
  steep : BitVec 3
  rngseed : Word
  depth : Nat
  prio : Fin 4
  /-- The parent team: its gridid and teamid. -/
  parent : Option (Word × Word)
  /-- The launching queue and packet index. -/
  queue : Option (QueueId × DWord)
  nextTeam : Nat
  /-- Discarded teams to restart, by ascending teamid (R28). -/
  restart : List Nat
  retired : Nat
deriving DecidableEq, Repr

/-- A request that a member has made of a collective (R294): core and operation, or a queue packet. -/
structure CollMember where
  rank : Nat
  who : Waiter
  req : CollReq
  asid : Asid
  /-- The issuing core; a queue's request has none. -/
  core : Option CoreId
  /-- The code it ends with, 0 so far, and the failing address of an uncorrectable error (R295). -/
  code : Nat
  badAt : Option DWord
  /-- Its DST has been written (R294). -/
  wrote : Bool
deriving DecidableEq, Repr

/-- A collective group (R292, R294). -/
structure Group where
  part : PartId
  num : Nat
  members : List Member
  /-- The Brodlink ports of this package that its reduction tree uses. -/
  tree : List (Fin 24)
  /-- Collectives issued so far by each rank. -/
  counts : List (Nat × Nat)
deriving DecidableEq, Repr

/-- One collective: the n-th of a group, with the requests made so far (R294). -/
structure Collective where
  part : PartId
  group : Nat
  n : Nat
  mems : List CollMember
  /-- The ranks of this package that have made their request. -/
  joined : List Nat
  /-- Every member, also in other packages, is known to have made its request (R294). -/
  known : Bool
  /-- The elements and the invalid count, once every addend or the source is taken in or the collective has failed. -/
  result : Option (List Word × Nat)
deriving DecidableEq, Repr

/-- An exchange datum waiting for its receiver (R175). -/
structure XMsg where
  part : PartId
  grid : Word
  fromTeam : Word
  fromGang : BitVec 4
  toTeam : Word
  toGang : BitVec 4
  tag : Byte
  n : Word
  em : BitVec 32
  data : List VCell
deriving DecidableEq, Repr

/-- MODEL: what the save of a gang keeps beside the context save area, because the layout of R393 and R394 names no
place for it (log 27): the shape of its open windows, its batches with the failure records of the finished ones, the rest of
its yields, the waits of its fragments and of its handler, held traps, a pending DEBUG_HALT, and the marks of a held A; and where
its block lies. -/
structure SavedGang where
  gangid : BitVec 4
  block : Nat
  pend : List Pending
  batches : Vector Batches 4
  /-- The class and the batch of each operation of the gang that waits in the area (R300). -/
  todo : List (Fin 4 × Nat)
  nextOp : Nat
  yields : List Nat
  waits : List Wait
  hwait : Wait
  held : List HeldTrap
  debugHalt : Option Nat
  amarks : List DWord
deriving DecidableEq, Repr

/-- MODEL: what the save of a team keeps beside its area (log 27): where the area lies, the first byte of its reservation, its
gangs, the numbers of its operations in the order of their records, the A values of its matrix operations that have not started,
K and SEED of the LOCAL header as each recon read it at issue, and the numbers of its collectives among those of their ranks. -/
structure SavedTeam where
  part : PartId
  gridid : Word
  teamid : Word
  area : BitVec 39
  spadBase : Nat
  gangs : List SavedGang
  ords : List Nat
  aimgs : List AImage
  recons : List (Nat × DWord)
  collNums : List Nat
deriving DecidableEq, Repr

/-! ### The outside -/

/-- A report to system software, the host or board management. -/
inductive Report where
  | hang (gridid teamid : Word) (gangid : BitVec 4) (clus : ClusId) (core : Nat)
  | droppedStore (dev : BitVec 10) (pa : BitVec 39)
  | guessError (dev : BitVec 10) (pa : BitVec 39)
  | faultSignal (p : PartId)
  | faultWordError (p : PartId)
  /-- Outcome 1 drained, 2 discarded, 3 saved; SIZE, the cycles taken and those beyond DL. -/
  | preempt (gridid teamid : Word) (outcome size : Nat) (cycles : DWord) (late : Nat)
  | preemptRefused
  | phaseFailed (rail : RailId)
  | throttled (k : ClusId)
  | stopped (k : ClusId)
  | capClamped (watts : Nat)
  | capRefused (watts : Nat)
  | refused (what : String)
  | lockTable (c : CoreId) (entries : List (Nat × LockEntry))
  | quiesced (c : CoreId)
  | invalidated (asid : Asid) (va : DWord)
  | destroyed (p : PartId)
  | resumeRefused (area : BitVec 39)
  | hostData (va : DWord) (bytes : List Byte)
  | hostFault (va : DWord)
  | spdm (what : String) (message : List Byte)
  | thermal (throttled stopped : BitVec 8) (trip : Option ClusId)
  | bootFailed (image : Nat)
  | linkDown (port : LinkPort)
deriving DecidableEq, Repr

/-- The last cap clamp or refusal (R415, R429 register 0x11). -/
inductive CapEvent where
  | none
  | clamped (watts : Nat)
  | refused (watts : Nat)
deriving DecidableEq, Repr

/-- An SPDM session (R422, R427). -/
structure Session where
  id : Nat
  /-- The transcript that FINISH signs (R427). -/
  transcript : List Byte
  /-- The secret of the P-384 exchange (R422). -/
  secret : List Byte
  /-- Its AES-256-GCM keys, of the requester and of the responder; 0 until it is finished (R422). -/
  reqKey : Nat
  rspKey : Nat
  /-- The Brodlink port whose far end has it (R428); none is an agent of the management interface. -/
  port : Option (Fin 24)
  finished : Bool
  /-- The partition to which it is bound; none is the hypervisor's (R427). -/
  part : Option PartId
deriving DecidableEq, Repr

/-- The SPDM responder (R422). -/
structure Spdm where
  version : Bool
  caps : Bool
  algs : Bool
  /-- The messages of the negotiation, and those about digests and certificates since the last challenge (R422). -/
  vca : List Byte
  ident : List Byte
  sessions : List Session
deriving DecidableEq, Repr

/-- A link port (R428). -/
structure Link where
  port : LinkPort
  up : Bool
  /-- Its keys outward and inward; 0 is none. -/
  tx : Nat
  rx : Nat
  /-- Frames that have passed outward and inward under the key in force (R428). -/
  sent : Nat
  received : Nat
  /-- Frames in a row that have failed authentication. -/
  authFails : Nat
deriving DecidableEq, Repr

/-- A rail register (R413). -/
structure Rail where
  phaseok : BitVec 8
  ilim : BitVec 16
deriving DecidableEq, Repr

/-- The fragment chosen to issue next: core, gang slot, split-table index, or the running handler (R386). -/
structure Cursor where
  core : CoreId
  slot : SlotId
  hnd : Bool
  frag : FragId
deriving DecidableEq, Repr

/-- The whole machine. -/
structure State where
  /-- MODEL: the events that happen next, oldest first (log 1). -/
  agenda : List Instr
  /-- MODEL: an instruction has been selected, and whose it is (R386). -/
  sel : Bool
  cur : Cursor
  /-- The words of the issuing instruction (R63, R152). -/
  iword : Word
  ilit : Word
  /-- MODEL: the number of the next free value (log 4). -/
  free : Nat
  devid : BitVec 10
  inReset : Bool
  bootImage : Nat
  minVersion : Nat
  /-- The minimum version that the fuses held when this boot measured them (R419, R423). -/
  bootMin : Nat
  /-- The firmware images that this boot has loaded (R419, R423); none where the run begins after it. -/
  images : List (List Byte)
  mem : Memory
  /-- The key under which each byte was written (R424, R425), by address; 0 is none. -/
  byteKey : List (Nat × Nat)
  /-- 32-byte units that hold an uncorrectable error (R207), by unit number. -/
  badUnits : List Nat
  /-- Bytes whose value leads back to releases at .gang or .core, with those releases (R248). -/
  relTags : List (Nat × List RelTag)
  spaces : List Space
  parts : Vector Partition 8
  nextKey : Nat
  clusters : Vector Cluster 8
  cores : Vector Core 1536
  queues : List Queue
  /-- The queue last served at each priority (R379). -/
  served : Vector (Option QueueId) 4
  grids : List Grid
  saved : List SavedTeam
  nextGrid : Word
  groups : List Group
  colls : List Collective
  xmsgs : List XMsg
  /-- Exchanges whose data were on a link that has failed (R176, R409): core, slot, pending result. -/
  xchgErrs : List Exchange
  reports : List Report
  hostAsid : Option Asid
  /-- Invalidations not yet complete (R203), each with the accesses it waits for. -/
  invals : List (Asid × DWord × List (CoreId × Nat))
  escwait : BitVec 12
  /-- The messages on escape channels (R403). -/
  escaped : List Msg
  rails : Vector Rail 4
  cap : Nat
  capEvent : CapEvent
  /-- The hottest junction of each cluster's stack and the package power, as last measured (R417, R429). -/
  junctions : Vector Nat 8
  power : Nat
  /-- The die temperatures, as last measured (R429). -/
  dies : Vector Nat 8
  trip : Option ClusId
  spdm : Spdm
  links : List Link
deriving DecidableEq, Repr

/-- Why a run stops. Every behaviour of the spec is a next state of the model. -/
inductive Fault where
  /-- Raised by nothing: no path of the model ends in a fault, and the interface asks for a type of reasons. Safe. -/
  | noFragment
deriving DecidableEq, Repr

/-- Why an instruction has no meaning. -/
inductive Refusal where
  /-- Raised by an arm of `exec` whose instruction is not modelled yet. Safe: nothing is claimed of it. -/
  | notModelled (mnemonic : String)
deriving DecidableEq, Repr

/-! ### Reset -/

/-- A lane of 0 without marks (R98). -/
def VCell.zero : VCell := { bits := 0, g0 := false, g1 := false }

/-- A free split-table entry. -/
def Frag.reset : Frag :=
  { valid := false, pc := 0, mask := 0, join := none, wait := .none, ageL := 0, ageU := 0, yield := 0,
    vhSeq := 0, relFence := none, acqSeq := 0, tileSeq := 0, viaTile := 0 }

/-- A free join-table entry. -/
def Join.reset : Join := { valid := false, rcv := 0, parent := none }

/-- Batches before the first seal (R277). -/
def Batches.reset : Batches := { next := 0, sealedB := [], recs := [], past := [] }

/-- A gang slot with the contents of R98 and no gang. -/
def Gang.reset : Gang :=
  { live := false, team := 0, gangid := 0, launched := 0, exited := 0,
    v := Vector.replicate 64 (Vector.replicate 32 VCell.zero),
    u := Vector.replicate 64 0, m := Vector.replicate 8 0,
    dc := Vector.replicate 16 (Vector.replicate 32 0), dn := Vector.replicate 16 0x8000,
    k := Vector.replicate 4 0, ks := Vector.replicate 4 0, lc := Vector.replicate 3 0,
    rng := Vector.replicate 32 0,
    frags := Vector.replicate 32 Frag.reset, joins := Vector.replicate 31 Join.reset,
    latch := [], loops := [], rngseed := 0, trapcause := 0, trappc := 0, trapinfo := 0, traplate := 0,
    dsat := false, reread := false, usplit := false, intrap := false, skm := 4, skseed := 0,
    handler := { pc := 0, frag := 0, order := 0, wait := .none }, heldTraps := [], debugHalt := none,
    pend := [], nextPend := 0, late := [], nextLate := 0, batches := Vector.replicate 4 Batches.reset,
    nextOp := 0, left := 0, heldA := none, stopSlot := none, mfence := 0, pairs := [], watchdog := 0, hung := false }

/-- A barrier at placement (R268). -/
def Barrier.reset : Barrier := { phase := 0, exp := 0, arr := 0, arrived := 0, coming := [], given := [] }

/-- No team. -/
def Team.reset : Team :=
  { live := false, gridid := 0, teamid := 0, depth := 0, asid := 0, part := 0, ngang := 0, lanes := 0,
    atiles := [], spadBase := 0, spadLen := 0, steep := 0, trapbase := 0, code := 0, args := 0, entry := 0,
    rngseed := 0, gathered := false, restartable := false, halted := false, usedAperture := false, issued := 0,
    allExited := false, bars := Vector.replicate 16 Barrier.reset, stopping := .no }

/-- An empty leaf-table entry (R103). -/
def LeafEntry.reset : LeafEntry := { tag := 0, valid := 0, last := [], stride := [] }

/-- A tile-table entry at reset (R180). -/
def TileEntry.reset : TileEntry :=
  { gen := 0, v := false, lvl2 := false, team := 0, asid := 0, base := 0, rowsm1 := 0, rowbw := 0 }

/-- A range-lock entry at reset (R251). -/
def LockEntry.reset : LockEntry :=
  { v := false, dir := false, spc := false, eng := 0, slot := 0, team := 0, asid := 0, base := 0, len := 0,
    opCore := 0, op := 0 }

/-- A core at reset (R103, R180, R183, R251). -/
def Core.reset : Core :=
  { cycle := 0, leafEn := true, pcount := 0, leaf := Vector.replicate 64 LeafEntry.reset,
    tiles := Vector.replicate 64 TileEntry.reset, spad := [], spadBad := [], acc := [], accBad := [],
    locks := Vector.replicate 64 LockEntry.reset, tlb := [], psize := 0, powner := 0, accs := [], marks := [], narrow := [], seq := 0,
    instrs := 0, teams := Vector.replicate 16 Team.reset, gone := [], slots := Vector.replicate 16 Gang.reset,
    holder := none, leaseQ := [], leaseIdle := 0, mat := [], nextMat := 1, eng := [], nextEng := 0, nextTrap := 0,
    runL := (0, 0), runU := (3, 0), halted := false, quiesce := false, gated := false, idle := 0 }

/-- A budget register at reset (R405). -/
def Budget.reset : Budget := { collpri := false, unlim := true, flits := 0 }

/-- A cluster at reset. -/
def Cluster.reset : Cluster :=
  { passes := 1, tcache := [], ilvQ := 0, ilvZ := 0, rail := 0, lowClock := false, throttled := false,
    stopped := false, refresh2 := false, outs := [], flits := [], promoted := [],
    inForce := Vector.replicate 8 (Vector.replicate 6 Budget.reset) }

/-- No partition; its policy values as at creation (R382, R387, R418). -/
def Partition.reset : Partition :=
  { valid := false, clusters := 0, floor := 0, key := 0, ownerKeys := { rsaN := 0, rsaE := 0, slh := [] }, destroying := false, pack := false,
    run := 4, wdlim := 2 ^ 32, budgets := Vector.replicate 6 Budget.reset, debug := false, fq := none, faults := [], watched := [],
    placement := [], resumes := [] }

/-- The package right after reset, its firmware verified and running (R419). -/
def State.reset : State :=
  { agenda := [], sel := false, cur := { core := 0, slot := 0, hnd := false, frag := 0 }, iword := 0, ilit := 0,
    free := 0, devid := 0, inReset := false, bootImage := 0, minVersion := 0, bootMin := 0, images := [], mem := [], byteKey := [],
    badUnits := [], relTags := [], spaces := [], parts := Vector.replicate 8 Partition.reset, nextKey := 1,
    clusters := Vector.replicate 8 Cluster.reset, cores := Vector.replicate 1536 Core.reset, queues := [],
    served := Vector.replicate 4 none, grids := [], saved := [], nextGrid := 0, groups := [], colls := [], xmsgs := [], xchgErrs := [],
    reports := [], hostAsid := none, invals := [], escwait := 256, escaped := [],
    rails := Vector.replicate 4 { phaseok := 16, ilim := 960 }, cap := 2700, capEvent := .none,
    junctions := Vector.replicate 8 0, power := 0, dies := Vector.replicate 8 0, trip := none,
    spdm := { version := false, caps := false, algs := false, vca := [], ident := [], sessions := [] }, links := [] }

end Sys2Proof.Machine
end

