-- ==== Sys2Proof/Machine/Ops.lean ====
section
/-!
DEFINITION. The operations that the meanings share: sparse memories, reading and writing the registers of the
issuing gang, fragments and joins (R18 to R24), the operand latch (R49), lookahead windows (R51 to R57), hardware
loops (R147 to R149), completing an instruction, taking a trap (R152 to R156) and returning from one (R157).
-/
namespace Sys2Proof.Machine

/-! ### Sparse maps -/

/-- The value at `i` of a sparse list with default `d`. -/
def sget {α : Type} (d : α) : List (Nat × α) → Nat → α
  | [], _ => d
  | (j, x) :: l, i => if i = j then x else sget d l i

/-- An entry put before the first entry of a higher index. -/
def sput {α : Type} (i : Nat) (v : α) : List (Nat × α) → List (Nat × α)
  | [] => [(i, v)]
  | (j, x) :: l => if i < j then (i, v) :: (j, x) :: l else (j, x) :: sput i v l

/-- The list with the value at `i` replaced, kept canonical: rising indices, no default listed. -/
def sset {α : Type} [DecidableEq α] (d : α) (l : List (Nat × α)) (i : Nat) (v : α) : List (Nat × α) :=
  let rest := l.filter fun x => x.1 != i
  if v = d then rest else sput i v rest

/-- Every index is above `lo` and rising, and no value is the default. -/
def sokFrom {α : Type} [DecidableEq α] (d : α) : Option Nat → List (Nat × α) → Bool
  | _, [] => true
  | lo, (j, x) :: l => (match lo with | none => true | some k => k < j) && x != d && sokFrom d (some j) l

/-- The canonical form of a sparse list (log 2). -/
def sok {α : Type} [DecidableEq α] (d : α) (l : List (Nat × α)) : Bool := sokFrom d none l

/-- A memory is in canonical form. -/
def Memory.wf (m : Memory) : Bool := sok (0 : Byte) m

/-- The byte at an address. -/
def Memory.read (m : Memory) (a : Nat) : Byte := sget 0 m a

/-- The memory with one byte written. -/
def Memory.write (m : Memory) (a : Nat) (b : Byte) : Memory := sset 0 m a b

/-- `n` bytes from `a` upward. -/
def Memory.readN (m : Memory) (a : Nat) : Nat → List Byte
  | 0 => []
  | n + 1 => m.read a :: Memory.readN m (a + 1) n

/-- The memory with bytes written from `a` upward. -/
def Memory.writeN (m : Memory) (a : Nat) : List Byte → Memory
  | [] => m
  | b :: bs => Memory.writeN (m.write a b) (a + 1) bs

/-- The little-endian value of bytes (R6). -/
def leNat : List Byte → Nat
  | [] => 0
  | b :: bs => b.toNat + 256 * leNat bs

/-- The `n` little-endian bytes of a value (R6). -/
def leBytes : Nat → Nat → List Byte
  | 0, _ => []
  | n + 1, v => BitVec.ofNat 8 v :: leBytes n (v / 256)

/-- Bytes as 64 bits. -/
def le64 (bs : List Byte) : DWord := BitVec.ofNat 64 (leNat bs)

/-- The values of a list, each where it first stands. -/
def firsts {α : Type} [BEq α] : List α → List α
  | [] => []
  | x :: l => x :: (firsts l).filter fun y => !(y == x)

/-! ### Places -/

/-- Index of a vector or uniform register (R47). -/
def vIx (r : RegField) : Fin 64 := Fin.ofNat 64 r.toNat
/-- Index of a mask register (R47). -/
def mIx (r : RegField) : Fin 8 := Fin.ofNat 8 r.toNat
/-- Index of a directional register (R47). -/
def dIx (r : RegField) : Fin 16 := Fin.ofNat 16 r.toNat
/-- Index of a wide accumulator (R47). -/
def kIx (r : RegField) : Fin 4 := Fin.ofNat 4 r.toNat
/-- Index of a loop counter (R47). -/
def lcIx (n : Nat) : Fin 3 := Fin.ofNat 3 n
/-- The next register of a run. -/
def nextReg (r : RegField) : RegField := r + 1

/-- The cluster of a core. -/
def clusOf (c : CoreId) : ClusId := Fin.ofNat 8 (c.val / 192)
/-- coreid: the core within its cluster (R101). -/
def coreidOf (c : CoreId) : Nat := c.val % 192
/-- The core with a coreid on a cluster. -/
def coreAt (k : ClusId) (coreid : Nat) : CoreId := Fin.ofNat 1536 (192 * k.val + coreid % 192)

/-- The pass count in force (R411): 4 while the cluster is throttled (R417), else as the power controller has set it. -/
def Cluster.passCount (k : Cluster) : BitVec 3 := if k.throttled then 4 else k.passes

/-- Neither pipe of a core issues: a debugger has halted it (R396), or its cluster is in a thermal stop (R417). -/
def State.noIssue (s : State) (c : CoreId) : Bool := (s.cores.get c).halted || (s.clusters.get (clusOf c)).stopped

/-- All values of `Fin n`, rising. -/
def allFin (n : Nat) : List (Fin n) := List.finRange n

/-- The lanes set in a mask, rising. -/
def lanesOf (m : BitVec 32) : List LaneId := (allFin 32).filter fun l => m.getLsbD l.val

/-- The mask with the lanes for which `p` holds. -/
def maskOf (p : LaneId → Bool) : BitVec 32 :=
  (allFin 32).foldl (fun m l => if p l then m ||| BitVec.twoPow 32 l.val else m) 0

/-- The core, gang, team of a place. -/
def State.core (s : State) (c : CoreId) : Core := s.cores.get c
/-- The state with one core changed. -/
def State.modCore (s : State) (c : CoreId) (f : Core → Core) : State :=
  { s with cores := s.cores.set c (f (s.cores.get c)) }
/-- A gang slot of a core. -/
def Core.gang (k : Core) (i : SlotId) : Gang := k.slots.get i
/-- The core with one gang slot changed. -/
def Core.modGang (k : Core) (i : SlotId) (f : Gang → Gang) : Core :=
  { k with slots := k.slots.set i (f (k.slots.get i)) }
/-- A team of a core. -/
def Core.team (k : Core) (i : SlotId) : Team := k.teams.get i
/-- The core with one team changed. -/
def Core.modTeam (k : Core) (i : SlotId) (f : Team → Team) : Core :=
  { k with teams := k.teams.set i (f (k.teams.get i)) }
/-- A gang slot. -/
def State.gangAt (s : State) (c : CoreId) (i : SlotId) : Gang := (s.core c).gang i
/-- The state with one gang slot changed. -/
def State.modGangAt (s : State) (c : CoreId) (i : SlotId) (f : Gang → Gang) : State :=
  s.modCore c fun k => k.modGang i f
/-- The team of a gang slot. -/
def State.teamAt (s : State) (c : CoreId) (i : SlotId) : Team := (s.core c).team (s.gangAt c i).team
/-- The state with the team of a gang slot changed. -/
def State.modTeamAt (s : State) (c : CoreId) (i : SlotId) (f : Team → Team) : State :=
  s.modCore c fun k => k.modTeam (k.gang i).team f
/-- The state with a partition changed. -/
def State.modPart (s : State) (p : PartId) (f : Partition → Partition) : State :=
  { s with parts := s.parts.set p (f (s.parts.get p)) }
/-- The state with a cluster changed. -/
def State.modClus (s : State) (k : ClusId) (f : Cluster → Cluster) : State :=
  { s with clusters := s.clusters.set k (f (s.clusters.get k)) }
/-- A report written. -/
def State.report (s : State) (r : Report) : State := { s with reports := s.reports ++ [r] }

/-- The outcome of an event that happens only out of reset (R417, R419): then the state `t`. -/
def State.unlessReset (s t : State) : Host.Outcome State Fault Refusal := .next (if s.inReset then s else t)

/-- The hypervisor has a session with the device (R426, R427): one that is bound to no partition. -/
def State.hyper (s : State) : Bool := s.spdm.sessions.any fun x => x.finished && x.part.isNone && x.port.isNone

/-- An agent of the management interface has a session with the device (R427). -/
def State.managed (s : State) : Bool := s.spdm.sessions.any fun x => x.finished && x.port.isNone

/-! ### The issuing instruction's place -/

/-- The issuing core. -/
def State.curCore (s : State) : Core := s.core s.cur.core
/-- The issuing gang. -/
def State.g (s : State) : Gang := s.gangAt s.cur.core s.cur.slot
/-- The state with the issuing gang changed. -/
def State.modG (s : State) (f : Gang → Gang) : State := s.modGangAt s.cur.core s.cur.slot f
/-- The state with the issuing core changed. -/
def State.modK (s : State) (f : Core → Core) : State := s.modCore s.cur.core f
/-- The issuing team. -/
def State.t (s : State) : Team := s.teamAt s.cur.core s.cur.slot
/-- The state with the issuing team changed. -/
def State.modT (s : State) (f : Team → Team) : State := s.modTeamAt s.cur.core s.cur.slot f
/-- The issuing fragment's table entry; a handler stands in its fragment's place (R153, R158). -/
def State.f (s : State) : Frag := s.g.frags.get s.cur.frag
/-- The gang with a split-table entry changed. -/
def Gang.modFrag (g : Gang) (i : FragId) (f : Frag → Frag) : Gang :=
  { g with frags := g.frags.set i (f (g.frags.get i)) }
/-- The gang with a split-table entry replaced. -/
def Gang.setFrag (g : Gang) (i : FragId) (f : Frag) : Gang := { g with frags := g.frags.set i f }
/-- The gang with a join-table entry replaced. -/
def Gang.setJoin (g : Gang) (j : JoinId) (x : Join) : Gang := { g with joins := g.joins.set j x }
/-- The execution mask (R12, R153). -/
def State.em (s : State) : BitVec 32 := s.f.mask
/-- The lane is active. -/
def State.active (s : State) (l : LaneId) : Bool := s.em.getLsbD l.val
/-- The active lanes, rising. -/
def State.lanes (s : State) : List LaneId := lanesOf s.em
/-- The lowest active lane. -/
def State.lowLane (s : State) : LaneId := s.lanes.headD 0
/-- The address of the issuing instruction's first word. -/
def State.pc (s : State) : DWord := if s.cur.hnd then s.g.handler.pc else s.f.pc
/-- The state with the issuing fragment's, or the handler's, pc changed. -/
def State.setPc (s : State) (a : DWord) : State :=
  s.modG fun g => if s.cur.hnd then { g with handler := { g.handler with pc := a } }
    else g.modFrag s.cur.frag fun f => { f with pc := a }
/-- The state with what the issuing fragment or handler waits for changed. -/
def State.setWait (s : State) (w : Wait) : State :=
  s.modG fun g => if s.cur.hnd then { g with handler := { g.handler with wait := w } }
    else g.modFrag s.cur.frag fun f => { f with wait := w }
/-- The number of the gang's fragments. -/
def Gang.nfrag (g : Gang) : Nat := g.frags.toList.countP (·.valid)
/-- The gang is split (R37). -/
def Gang.split (g : Gang) : Bool := 2 ≤ g.nfrag
/-- One fragment that holds all 32 lanes (R128, R318, R340). -/
def State.whole (s : State) : Bool := s.g.nfrag == 1 && s.em == 0xFFFFFFFF

/-- The fragment does not issue now: the selection is used up, nothing else changes. -/
def State.stall (s : State) : State := { s with sel := false }

/-! ### Registers -/

/-- A lane of a vector register of the issuing gang. -/
def State.v (s : State) (r : RegField) (l : LaneId) : VCell := (s.g.v.get (vIx r)).get l
/-- A uniform register. -/
def State.u (s : State) (r : RegField) : DWord := s.g.u.get (vIx r)
/-- A mask register. -/
def State.m (s : State) (r : RegField) : BitVec 32 := s.g.m.get (mIx r)

/-- A write of register `r` by an instruction with result number `n` reaches the slot (R227): the instruction issued after
the slot was taken. -/
def LateSlot.hitBy (r : RegField) (n : Nat) (x : LateSlot) : Bool := x.reg == r && x.since ≤ n

/-- A late slot without the lanes `em` of register `r` (R227). -/
def LateSlot.uncover (r : RegField) (em : BitVec 32) (n : Nat) (x : LateSlot) : LateSlot :=
  if x.hitBy r n then { x with lanes := x.lanes.filter fun l => !em.getLsbD l.lane.val } else x

/-- The late slots after a write of register `r` in the lanes `em`; a slot that covers no lane is free (R227). -/
def uncoverLate (r : RegField) (em : BitVec 32) (n : Nat) (ls : List LateSlot) : List LateSlot :=
  (ls.map (·.uncover r em n)).filter fun x => !x.lanes.isEmpty

/-- The errors of failed lanes that no gdemand has consumed, of lanes that are no longer covered (R228). -/
def lostErrors (ls : List LateLane) : List Report :=
  ls.filterMap fun l => if l.demanded then none else l.bad.map fun b => .guessError b.1 b.2

/-- The failed lanes that a write of `r` in the lanes `em` uncovers: their errors are reported (R228). -/
def uncoveredErrors (r : RegField) (em : BitVec 32) (n : Nat) (ls : List LateSlot) : List Report :=
  ls.flatMap fun x => if x.hitBy r n then lostErrors (x.lanes.filter fun l => em.getLsbD l.lane.val) else []

/-- The gang with register `r` written in the lanes `em`: the latch entry that holds `r` is freed (R49 item 4) and
late slots no longer cover those lanes (R227). `n` is the number of the result, or of the next one. -/
def Gang.putV (g : Gang) (r : RegField) (em : BitVec 32) (n : Nat) (new : LaneId → VCell) : Gang :=
  { g with
    v := g.v.set (vIx r) (Vector.ofFn fun l => if em.getLsbD l.val then new l else (g.v.get (vIx r)).get l)
    latch := g.latch.filter fun e => e.reg != r
    late := uncoverLate r em n g.late }

/-- No half. -/
def Halves.none : Halves := { lo := 0, hi := 0 }
/-- Every half of the lanes `em`. -/
def Halves.both (em : BitVec 32) : Halves := { lo := em, hi := em }
/-- The low, or the high, halves of the lanes `em`. -/
def Halves.part (em : BitVec 32) (hi : Bool) : Halves := if hi then { lo := 0, hi := em } else { lo := em, hi := 0 }
/-- The halves of either. -/
def Halves.join (a b : Halves) : Halves := { lo := a.lo ||| b.lo, hi := a.hi ||| b.hi }
/-- The lanes of which both halves are among `a`. -/
def Halves.lanes (a : Halves) : BitVec 32 := a.lo &&& a.hi

/-- A pending result after an instruction has written the halves `h` of `d`: once its window has closed, the later write
remains (R53, log 41); before that the result overwrites it (R54). -/
def Pending.after (p : Pending) (d : Dest) (h : Halves) : Pending :=
  if !p.closed then p
  else
    match p.dst, d with
    | .vec r pair, .vec x _ =>
      if x = r then { p with overA := p.overA.join h }
      else if pair && x = r + 1 then { p with overB := p.overB.join h }
      else p
    | .uni r, .uni x => if x = r then { p with overA := .both (BitVec.allOnes 32) } else p
    | .dir r, .dir x => if x = r then { p with overA := .both (BitVec.allOnes 32) } else p
    | _, _ => p

/-- A pending result after the lanes `em` have exited: it writes them no more (R17). -/
def Pending.without (em : BitVec 32) (p : Pending) : Pending :=
  match p.dst with
  | .vec _ _ => { p with overA := p.overA.join (.both em), overB := p.overB.join (.both em) }
  | _ => p

/-- An instruction writes the halves `h` of a vector register; `new` gives the lanes `em` as they are then. -/
def Gang.writeHalves (g : Gang) (r : RegField) (em : BitVec 32) (h : Halves) (new : LaneId → VCell) : Gang :=
  { g.putV r em g.nextPend new with pend := g.pend.map fun p => p.after (.vec r false) h }

/-- An instruction writes a vector register in the lanes `em`. -/
def Gang.writeV (g : Gang) (r : RegField) (em : BitVec 32) (new : LaneId → VCell) : Gang := g.writeHalves r em (.both em) new

/-- The write of a vector register of a gang slot in the lanes `em` by the pending result numbered `n`. -/
def State.writeVAt (s : State) (c : CoreId) (i : SlotId) (n : Nat) (r : RegField) (em : BitVec 32) (new : LaneId → VCell) :
    State :=
  { s.modGangAt c i (fun g => g.putV r em n new) with
    reports := s.reports ++ uncoveredErrors r em n (s.gangAt c i).late }

/-- A write of one half of a vector register in the active lanes, the other half as it is (R126). -/
def State.writeHalf (s : State) (r : RegField) (hi : Bool) (new : LaneId → VCell) : State :=
  { s.modG (fun g => g.writeHalves r s.em (.part s.em hi) new) with
    reports := s.reports ++ uncoveredErrors r s.em s.g.nextPend s.g.late }

/-- A write of a vector register in the active lanes (R109). -/
def State.writeV (s : State) (r : RegField) (new : LaneId → VCell) : State :=
  { s.modG (fun g => g.writeV r s.em new) with reports := s.reports ++ uncoveredErrors r s.em s.g.nextPend s.g.late }

/-- USPLIT after a write of a gang-owned register (R37). -/
def Gang.noteSplit (g : Gang) : Gang := { g with usplit := g.usplit || g.split }
/-- A uniform register takes a value (R36, R37). -/
def Gang.putU (g : Gang) (r : RegField) (x : DWord) : Gang := { g.noteSplit with u := g.u.set (vIx r) x }
/-- An instruction writes a uniform register. -/
def Gang.writeU (g : Gang) (r : RegField) (x : DWord) : Gang :=
  { g.putU r x with pend := g.pend.map fun p => p.after (.uni r) .none }
/-- A mask register written (R36, R37). -/
def Gang.writeM (g : Gang) (r : RegField) (x : BitVec 32) : Gang := { g.noteSplit with m := g.m.set (mIx r) x }
/-- A norm written (R36, R37). -/
def Gang.writeN (g : Gang) (r : RegField) (x : BitVec 16) : Gang := { g.noteSplit with dn := g.dn.set (dIx r) x }
/-- A uniform register of the issuing gang written. -/
def State.writeU (s : State) (r : RegField) (x : DWord) : State := s.modG fun g => g.writeU r x
/-- A mask register of the issuing gang written. -/
def State.writeM (s : State) (r : RegField) (x : BitVec 32) : State := s.modG fun g => g.writeM r x

/-- A lane's cell with the halves of a write replaced. -/
def VCell.merge (c : VCell) (w : LaneWrite) : VCell :=
  let lo : Word × Bool := w.lo.getD (c.bits.extractLsb' 0 32, c.g0)
  let hi : Word × Bool := w.hi.getD (c.bits.extractLsb' 32 32, c.g1)
  { bits := hi.1 ++ lo.1, g0 := lo.2, g1 := hi.2 }

/-- The writes of register `r` in lane `l`, applied to a cell. -/
def mergeAll (ws : List LaneWrite) (r : RegField) (l : LaneId) (c : VCell) : VCell :=
  (ws.filter fun w => w.reg = r && w.lane = l).foldl VCell.merge c

/-- The lanes in which register `r` is written. -/
def writtenLanes (ws : List LaneWrite) (r : RegField) : BitVec 32 :=
  maskOf fun l => ws.any fun w => w.reg = r && w.lane = l

/-- The lane writes of the pending result numbered `n` applied to a gang slot, register by register. -/
def State.applyWrites (s : State) (c : CoreId) (i : SlotId) (n : Nat) (ws : List LaneWrite) : State :=
  (firsts (ws.map (·.reg))).foldl (fun s r =>
    s.writeVAt c i n r (writtenLanes ws r) fun l => mergeAll ws r l (((s.gangAt c i).v.get (vIx r)).get l)) s

/-! ### Fragments and joins -/

/-- The fragment is the one whose trap handler is running (R153). -/
def Gang.inHandler (g : Gang) (i : FragId) : Bool := g.intrap && g.handler.frag == i

/-- Fragment `i` waits at its join (R21). A fragment at the rcv whose handler runs, that holds a trap or that waits for
something else does not count as waiting there until that has ended (log 53). -/
def Gang.waitsAtJoin (g : Gang) (i : FragId) : Bool :=
  let f := g.frags.get i
  match f.join with
  | none => false
  | some j => f.valid && f.pc == (g.joins.get j).rcv && f.wait == .none && !g.inHandler i

/-- The fragments that belong to a join, rising. -/
def Gang.members (g : Gang) (j : JoinId) : List FragId :=
  (allFin 32).filter fun i => (g.frags.get i).valid && (g.frags.get i).join == some j

/-- The joins whose parent is `j`, rising. -/
def Gang.childJoins (g : Gang) (j : JoinId) : List JoinId :=
  (allFin 31).filter fun i => (g.joins.get i).valid && (g.joins.get i).parent == some j

/-- Fragments `is` become one fragment in entry `i`, at `pc` with join `join` (R21, R23): their open windows go with
them, and the strongest of their ordering marks. -/
def Gang.fuseInto (g : Gang) (i : FragId) (is : List FragId) (pc : DWord) (join : Option JoinId) : Gang :=
  let fs := is.map fun k => g.frags.get k
  let merged : Frag :=
    { g.frags.get i with
      valid := true, pc := pc, join := join, wait := .none, yield := 0
      mask := fs.foldl (fun m f => m ||| f.mask) 0
      vhSeq := fs.foldl (fun m f => Nat.max m f.vhSeq) 0
      relFence := fs.foldl (fun m f => match m, f.relFence with
        | none, x => x
        | some a, none => some a
        | some a, some b => some (if a.1.toNat ≤ b.1.toNat then b.1 else a.1, Nat.max a.2 b.2)) none
      acqSeq := fs.foldl (fun m f => Nat.max m f.acqSeq) 0
      tileSeq := fs.foldl (fun m f => Nat.max m f.tileSeq) 0
      viaTile := fs.foldl (fun m f => Nat.max m f.viaTile) 0 }
  let cleared := is.foldl (fun (g : Gang) k => g.setFrag k Frag.reset) g
  { cleared.setFrag i merged with
    pend := g.pend.map fun p => if is.contains p.frag then { p with frag := i } else p
    handler := if is.contains g.handler.frag then { g.handler with frag := i } else g.handler
    heldTraps := g.heldTraps.map fun h => if is.contains h.frag then { h with frag := i } else h }

/-- One fusion of R21, if a join has no child join and every fragment of it waits. -/
def Gang.fuseOne (g : Gang) : Option Gang :=
  match (allFin 31).find? fun j => (g.joins.get j).valid && (g.childJoins j).isEmpty &&
      !(g.members j).isEmpty && (g.members j).all g.waitsAtJoin with
  | none => none
  | some j =>
    let is := g.members j
    let g' := g.fuseInto (is.headD 0) is (g.joins.get j).rcv (g.joins.get j).parent
    some (g'.setJoin j Join.reset)

/-- One removal of R22: a join left with one child, or with none because all its fragments have gone. -/
def Gang.pruneOne (g : Gang) : Option Gang :=
  match (allFin 31).find? fun j => (g.joins.get j).valid &&
      (g.members j).length + (g.childJoins j).length ≤ 1 with
  | none => none
  | some j =>
    let up := (g.joins.get j).parent
    let g1 := (g.members j).foldl (fun (g : Gang) i => g.modFrag i fun f => { f with join := up }) g
    let g2 := (g.childJoins j).foldl
      (fun (g : Gang) i => g.setJoin i { g.joins.get i with parent := up }) g1
    some (g2.setJoin j Join.reset)

/-- Fusions and removals until none applies; `fuel` bounds them (each frees a join). -/
def Gang.settleJoins (g : Gang) : Nat → Gang
  | 0 => g
  | fuel + 1 =>
    match g.pruneOne with
    | some g' => Gang.settleJoins g' fuel
    | none =>
      match g.fuseOne with
      | some g' => Gang.settleJoins g' fuel
      | none => g

/-- The tables after an instruction boundary (R19, R21, R22). -/
def Gang.settle (g : Gang) : Gang := g.settleJoins 64

/-- The lowest free split-table entry other than those in `used`. -/
def Gang.freeFrag (g : Gang) (used : List FragId) : FragId :=
  ((allFin 32).find? fun i => !(g.frags.get i).valid && !used.contains i).getD 0

/-- The lowest free join-table entry. -/
def Gang.freeJoin (g : Gang) : JoinId := ((allFin 31).find? fun j => !(g.joins.get j).valid).getD 0

/-- The targets of a branch with the lanes that take each, in the order of the lowest lane. -/
def groupTargets (lanes : List LaneId) (dest : LaneId → DWord) : List (DWord × BitVec 32) :=
  (firsts (lanes.map dest)).map fun a => (a, maskOf fun l => lanes.contains l && dest l == a)

/-- The fragments of a divergent branch placed in the table: the first keeps the branching fragment's entry, the
others take the lowest free ones (log 22). -/
def Gang.placeFrags (g : Gang) (i : FragId) (join : Option JoinId) : List (DWord × BitVec 32) → Gang
  | [] => g
  | (a, m) :: rest =>
    let base := g.frags.get i
    let new := rest.foldl (fun (g : Gang) x =>
      let k := g.freeFrag [i]
      g.setFrag k { base with valid := true, pc := x.1, mask := x.2, join := join, ageL := 0, ageU := 0 }) g
    new.setFrag i { base with pc := a, mask := m, join := join }

/-- R20: the lanes of fragment `i` go to their targets; `rcv` is the reconvergence address, 0 for none. -/
def Gang.branch (g : Gang) (i : FragId) (dest : LaneId → DWord) (rcv : DWord) : Gang :=
  let f := g.frags.get i
  let gs := groupTargets (lanesOf f.mask) dest
  match gs with
  | [] => g
  | [(a, _)] => g.modFrag i fun f => { f with pc := a }
  | _ =>
    if rcv = 0 then g.placeFrags i f.join gs
    else
      let j := g.freeJoin
      let g1 := g.setJoin j { valid := true, rcv := rcv, parent := f.join }
      g1.placeFrags i (some j) gs

/-- The outcome of a branch is divergent (R20). -/
def divergent (lanes : List LaneId) (dest : LaneId → DWord) : Bool := 2 ≤ (firsts (lanes.map dest)).length

/-- A join and its ancestors, the root last as `none`. -/
def Gang.ancestors (g : Gang) : Nat → Option JoinId → List (Option JoinId)
  | 0, _ => [none]
  | _, none => [none]
  | fuel + 1, some j => some j :: Gang.ancestors g fuel (g.joins.get j).parent

/-- The deepest join that is an ancestor-or-self of every fragment of `is` (R23). -/
def Gang.commonJoin (g : Gang) (is : List FragId) : Option JoinId :=
  match is with
  | [] => none
  | i :: rest =>
    ((g.ancestors 32 (g.frags.get i).join).find? fun j =>
      rest.all fun k => (g.ancestors 32 (g.frags.get k).join).contains j).getD none

/-! ### The operand latch -/

/-- The latch after a V-form instruction issues (R49): lives fall by 1, then the hold's register is placed with life
2, replacing the entry with the least life left (the older between equals) when three are in use. A register that is in
the latch already keeps its one entry, whose life becomes 2 (log 81). While A is held for mma, nothing is placed (R317). -/
def Gang.stepLatch (g : Gang) (place : Option RegField) : Gang :=
  let aged := (g.latch.map fun e => { e with life := e.life - 1 }).filter fun e => e.life != 0
  match place with
  | none => { g with latch := aged }
  | some r =>
    if g.heldA.isSome then { g with latch := aged }
    else
      let others := aged.filter fun e => e.reg != r
      let room := if others.length < 3 then others
        else
          let least := others.foldl (fun m e => Nat.min m e.life) 2
          match others.findIdx? fun e => e.life == least with
          | some i => others.eraseIdx i
          | none => others
      { g with latch := room ++ [{ reg := r, life := 2 }] }

/-! ### Lookahead windows -/

/-- The team is to be saved. -/
def Stopping.saving : Stopping → Bool
  | .save _ => true
  | _ => false

/-- A pending result belongs to the fragment, or to its handler. -/
def Pending.ofCur (c : Cursor) (p : Pending) : Bool := p.frag == c.frag && p.hnd == c.hnd

/-- Pending results in the order in which they are written (R54): those whose windows have closed, in the order of closing
and then of program order; then the open ones in program order. -/
def closedFirst (ps : List Pending) : List Pending := ps.filter (·.closed) ++ ps.filter fun p => !p.closed

/-- The gang's windows after an instruction of the fragment has issued (R51, R52): each open window of the fragment
counts it; a closing instruction is the last of every window. -/
def Gang.countWindows (g : Gang) (c : Cursor) (closes : Bool) : Gang :=
  { g with pend := closedFirst (g.pend.map fun p =>
      if p.ofCur c && !p.closed then
        let left := if closes then 0 else p.left - 1
        { p with left := left, closed := left == 0 }
      else p) }

/-- Two pending results go to a common register, in a common lane where it is a vector register. -/
def Pending.meets (p q : Pending) : Bool :=
  match p.dst, q.dst with
  | .vec r a, .vec x b =>
    (p.em &&& q.em) != 0 && (r == x || (a && r + 1 == x) || (b && x + 1 == r))
  | .uni r, .uni x => r == x
  | .dir r, .dir x => r == x
  | _, _ => false

/-- Every part of a pending result is there (R222). -/
def Pending.ready (p : Pending) : Bool :=
  match p.await with
  | .nothing => true
  | .lanes waiting _ => waiting.isEmpty
  | .accesses ids => ids.isEmpty
  | .demand ls ids => ls.isEmpty && ids.isEmpty
  | .partner .. => false

/-- What is left of a write where the halves `h` have been taken. -/
def LaneWrite.left (w : LaneWrite) (h : Halves) : LaneWrite :=
  { w with lo := if h.lo.getLsbD w.lane.val then none else w.lo, hi := if h.hi.getLsbD w.lane.val then none else w.hi }

/-- The write writes a half. -/
def LaneWrite.some? (w : LaneWrite) : Bool := w.lo.isSome || w.hi.isSome

/-- The writes of a pending vector result in the halves that no later write has taken. -/
def Pending.writes (p : Pending) : List LaneWrite :=
  (p.wr.map fun w => w.left (match p.dst with | .vec r _ => if w.reg = r then p.overA else p.overB | _ => .none)).filter (·.some?)

/-- A pending ld still writes in a lane. -/
def Pending.writesLane (p : Pending) (l : LaneId) : Bool := p.writes.any fun w => w.lane == l

/-- The lanes of a pending ld that were resolved as guesses and that later writes have not taken. -/
def Pending.guessed (p : Pending) : List LateLane :=
  match p.await with
  | .lanes _ gs => gs.filter fun x => p.writesLane x.lane
  | _ => []

/-- The late slots that an ld with guessed lanes leaves in place: all where one of the eight is free, else all but the one
taken longest ago, which is reclaimed (R226). -/
def Gang.keepLate (g : Gang) (x : LateSlot) : Bool :=
  g.late.length < 8 || x.order != g.late.foldl (fun m x => Nat.min m x.order) g.nextLate

/-- The late slots after an ld writes its destination with guessed lanes (R226). -/
def Gang.takeLate (g : Gang) (p : Pending) : Gang :=
  match p.dst with
  | .vec r _ =>
    if p.guessed.isEmpty then g
    else
      { g with
        late := g.late.filter g.keepLate ++
          [{ order := g.nextLate, since := g.nextPend, reg := r, ty := p.ty, part := p.part, lanes := p.guessed }]
        nextLate := g.nextLate + 1 }
  | _ => g

/-- The late slots after a gdemand that fails: the lanes that it has consumed are no longer covered (R227, R228). -/
def Pending.consumed (p : Pending) (ls : List LateSlot) : List LateSlot :=
  match p.await, p.dst with
  | .demand _ _, .vec r _ =>
    (ls.map fun x => if x.reg = r then { x with lanes := x.lanes.filter fun l => !l.demanded } else x).filter fun x =>
      !x.lanes.isEmpty
  | _, _ => ls

/-- The errors that an ld's write leaves without a slot (R228): those of the reclaimed slot, and those of its own guessed lanes
that a later write has taken. -/
def Gang.reclaimErrors (g : Gang) (p : Pending) : List Report :=
  (if p.guessed.isEmpty then [] else lostErrors ((g.late.filter fun x => !g.keepLate x).flatMap (·.lanes))) ++
    (match p.await with
     | .lanes _ gs => lostErrors (gs.filter fun x => !p.writesLane x.lane)
     | _ => [])

/-- The errors of an ld that fails and writes nothing (R228): those of its guessed lanes, which no slot ever covers. -/
def Pending.failErrors (p : Pending) : List Report :=
  match p.await with
  | .lanes _ gs => lostErrors gs
  | _ => []

/-! ### Traps -/

/-- The code of a cause (R152). -/
def Cause.code : Cause → Byte
  | .illegalOp => 0x01 | .illegalConv => 0x02 | .guessEscape => 0x03 | .rangeLock => 0x04 | .xlateFault => 0x05
  | .alignFault => 0x06 | .tileFault => 0x07 | .barrierFault => 0x08 | .partitionFault => 0x09
  | .uncorrectable => 0x0A | .engineFault => 0x0B | .swTrap => 0x0D | .doubleFault => 0x0E | .debugHalt => 0x0F

/-- Every cause. -/
def causes : List Cause :=
  [.illegalOp, .illegalConv, .guessEscape, .rangeLock, .xlateFault, .alignFault, .tileFault, .barrierFault, .partitionFault,
   .uncorrectable, .engineFault, .swTrap, .doubleFault, .debugHalt]

/-- The cause of a code (R152). -/
def causeOf (code : Byte) : Option Cause := causes.find? fun x => x.code == code

/-- The lease of a core after a gang gives it up: the oldest waiting request is granted later (R312). -/
def Core.endLease (k : Core) (i : SlotId) : Core :=
  let k1 := if k.holder == some i then { k with holder := none, leaseIdle := 0 } else k
  { k1.modGang i (fun g => { g with left := 0 }) with leaseQ := k1.leaseQ.filter fun r => r.1 != i }

/-- The queue that launched a grid is stopped with a code; STATUS is written by the command processor (R307). -/
def State.stopLaunchQueue (s : State) (gridid : Word) (part : PartId) (code : BitVec 16) : State :=
  match (s.grids.find? fun x => x.gridid == gridid && x.part == part).bind (·.queue) with
  | none => s
  | some (q, idx) =>
    { s with queues := s.queues.map fun x =>
        if x.num == q && x.stop.isNone && !x.stopped then
          let tag : Word := match x.pkts.find? fun p => p.idx == idx with
            | some p => (p.words.headD 0).extractLsb' 32 32
            | none => 0
          { x with stop := some (tag, code) }
        else x }

/-- The team of a gang halts (R156): no gang of it issues again, its lease ends (R312), and the queue that launched
its grid is stopped with 0x0006 (R307). -/
def State.haltTeam (s : State) (c : CoreId) (i : SlotId) : State :=
  let t := s.teamAt c i
  let ti := (s.gangAt c i).team
  let s1 := s.modTeamAt c i fun t => { t with halted := true }
  let s2 := s1.modCore c fun k =>
    (allFin 16).foldl (fun k j => if (k.gang j).live && (k.gang j).team == ti then k.endLease j else k) k
  s2.stopLaunchQueue t.gridid t.part 0x0006

/-- Taking a trap (R153): the saved registers are written, INTRAP is set, the latch entries are freed (a held A is kept),
and the handler starts at trapbase with the EM of fragment `f`. With trapbase 0 the team halts and trapcause keeps the
cause. The age of a trap among the handlers of its core counts from here, also where it was held before (log 82). -/
def State.enterTrap (s : State) (c : CoreId) (i : SlotId) (f : FragId) (cause : Cause) (pc info late : DWord) : State :=
  let base := (s.teamAt c i).trapbase
  let order := (s.core c).nextTrap
  let s1 := s.modGangAt c i fun g =>
    { g.modFrag f (fun f => { f with wait := .none }) with
      trapcause := cause.code, trappc := pc, trapinfo := info, traplate := late, intrap := true, latch := []
      handler := { pc := base, frag := f, order := order, wait := .none } }
  if base = 0 then s1.haltTeam c i else s1.modCore c fun k => { k with nextTrap := order + 1 }

/-- A trap inside a handler (R156): trapinfo holds the second cause and the first, and the team halts. trappc is the
instruction that traps; for a late failure of the handler it is the handler's next instruction, and traplate stays 0
(log 83). -/
def State.doubleFault (s : State) (c : CoreId) (i : SlotId) (second : Cause) (pc : DWord) : State :=
  (s.modGangAt c i fun g =>
    { g with trapcause := Cause.doubleFault.code, trappc := pc, traplate := 0,
             trapinfo := (g.trapcause.setWidth 64 <<< 8) ||| second.code.setWidth 64 }).haltTeam c i

/-- A trap of fragment `f`, or of the handler: within a handler it is DOUBLE_FAULT (R156); while a handler of the gang runs
it is held (R155); otherwise it is taken (R153). Nothing of a halted team traps any more (R153, R156). -/
def State.trapAt (s : State) (cur : Cursor) (cause : Cause) (pc info late : DWord) : State :=
  let g := s.gangAt cur.core cur.slot
  if (s.teamAt cur.core cur.slot).halted then s
  else if cur.hnd then s.doubleFault cur.core cur.slot cause pc
  else if g.intrap then
    s.modGangAt cur.core cur.slot fun g =>
      { g.modFrag cur.frag (fun f => { f with wait := .held }) with
        heldTraps := g.heldTraps ++ [{ frag := cur.frag, cause := cause, info := info, late := late }] }
  else s.enterTrap cur.core cur.slot cur.frag cause pc info late

/-- The issuing instruction traps at its own address (R152): it has no other effect. -/
def State.trap (s : State) (cause : Cause) (info : DWord) : State :=
  (s.trapAt s.cur cause s.pc info 0).stall

/-- ILLEGAL_OP with the words of the instruction (R63). -/
def State.trapIllegalOp (s : State) : State := s.trap .illegalOp (s.ilit ++ s.iword)

/-- ILLEGAL_CONV with the first word of the instruction (R152). -/
def State.trapIllegalConv (s : State) : State := s.trap .illegalConv (s.iword.setWidth 64)

/-- trapinfo of ENGINE_FAULT (R152): status code and engine. -/
def engineInfo (code engine : Nat) : DWord := BitVec.ofNat 64 (code + 65536 * engine)

/-- The registers among `halves`, each with the halves it supplies, that are marked in a lane of `em`. -/
def State.markedIn (s : State) (em : BitVec 32) (halves : List (RegField × Bool × Bool)) : List Nat :=
  firsts ((halves.filter fun r => (allFin 32).any fun l =>
    em.getLsbD l.val && ((r.2.1 && (s.v r.1 l).g0) || (r.2.2 && (s.v r.1 l).g1))).map fun r => r.1.toNat)

/-- Marks met by a checked operand in the lanes `em` (R152): the lanes in which any checked operand was marked, the lowest
checked register that is marked, and whether more than one register read was marked. `halves` gives the checked
registers, each with the halves it supplies, and `others` what the instruction reads besides. -/
def State.guessInfoIn (s : State) (em : BitVec 32) (halves others : List (RegField × Bool × Bool)) : Option DWord :=
  let bad (r : RegField × Bool × Bool) (l : LaneId) : Bool :=
    em.getLsbD l.val && ((r.2.1 && (s.v r.1 l).g0) || (r.2.2 && (s.v r.1 l).g1))
  let lanes := maskOf fun l => halves.any fun r => bad r l
  if lanes = 0 then none
  else
    let lowest := (s.markedIn em halves).foldl Nat.min 63
    let more := 2 ≤ (firsts (s.markedIn em halves ++ s.markedIn s.em others)).length
    some (BitVec.ofNat 64 (lanes.toNat + lowest * 2 ^ 32 + (if more then 2 ^ 38 else 0)))

/-- Marks met by a checked operand in the active lanes, where every vector register read is checked. -/
def State.guessInfo (s : State) (halves : List (RegField × Bool × Bool)) : Option DWord := s.guessInfoIn s.em halves []

/-! ### Completing an instruction -/

/-- A pending result written to its destination (R51, R222), its late slots taken (R226). A 32-bit uniform atomic writes
the low half alone (R264). -/
def State.writePending (s : State) (c : CoreId) (i : SlotId) (p : Pending) : State :=
  match p.dst with
  | .vec _ _ =>
    let s1 := s.applyWrites c i p.id p.writes
    { s1.modGangAt c i (fun g => g.takeLate p) with reports := s1.reports ++ (s1.gangAt c i).reclaimErrors p }
  | .uni r =>
    if p.overA != .none then s
    else s.modGangAt c i fun g =>
      g.putU r (if p.part then (g.u.get (vIx r)).extractLsb' 32 32 ++ p.uval.extractLsb' 0 32 else p.uval)
  | .dir r =>
    if p.overA != .none then s
    else s.modGangAt c i fun g =>
      { g.writeN r p.dnorm with dc := g.dc.set (dIx r) (Vector.ofFn fun l => p.dval.getD l.val 0) }

/-- The address of the next instruction of a fragment or of the running handler. -/
def Gang.nextPc (g : Gang) (f : FragId) (hnd : Bool) : DWord :=
  if hnd then g.handler.pc else (g.frags.get f).pc

/-- A bwait, a claimed qpush, or a bar or bara that has arrived or is held, has issued and not yet ended (R271, R298, R309): a
late failure waits for its end, because the instruction is the last of the window (R52, R57). -/
def Wait.pushing : Wait → Bool
  | .barrier .. => true
  | .arrival .. => true
  | .bwait .. => true
  | .qpush .. => true
  | .qpushFault .. => true
  | _ => false

/-- The first of `ps` for which `ok` holds and that no result before it, of those in `before` and `ps`, keeps waiting: a
result to a common register is written in its turn, unless it has failed and writes nothing (R54, R57). -/
def firstInTurn (ok : Pending → Bool) (before : List Pending) : List Pending → Option Pending
  | [] => none
  | p :: ps =>
    if ok p && !before.any fun q => q.meets p && !(q.ready && q.fail.isSome) then some p
    else firstInTurn ok (p :: before) ps

/-- A pending result may be written, or its failure taken, now: its window has closed and its data is there. A failure waits
for the end of a barrier instruction, a bwait or a claimed qpush (log 45), and none is taken in a halted team (R153, R156). -/
def Gang.mayWrite (g : Gang) (halted : Bool) (p : Pending) : Bool :=
  p.closed && p.ready &&
    (p.fail.isNone || !(halted || (if p.hnd then g.handler.wait else (g.frags.get p.frag).wait).pushing))

/-- One closed and complete result is written, in the order of R54; a failed one leaves its destination and raises its trap
before the fragment's next instruction (R57). A failure whose window a divergent branch has closed is the trap of the
new fragment that keeps the branching fragment's entry (log 84). -/
def State.writeOne (s : State) (c : CoreId) (i : SlotId) : Option State :=
  let g := s.gangAt c i
  match firstInTurn (g.mayWrite (s.teamAt c i).halted) [] g.pend with
  | none => none
  | some p =>
    let s1 := s.modGangAt c i fun g =>
      { g with pend := g.pend.filter fun q => q.id != p.id, late := if p.fail.isSome then p.consumed g.late else g.late }
    match p.fail with
    | none => some (s1.writePending c i p)
    | some e =>
      some (({ s1 with reports := s1.reports ++ p.failErrors } : State).trapAt { core := c, slot := i, hnd := p.hnd, frag := p.frag } e.cause (g.nextPc p.frag p.hnd) e.info p.pc)

/-- Every closed and complete result of a gang is written; `fuel` is the number of its pending results. -/
def State.writeReady (s : State) (c : CoreId) (i : SlotId) : Nat → State
  | 0 => s
  | fuel + 1 =>
    match s.writeOne c i with
    | none => s
    | some s' => State.writeReady s' c i fuel

/-- Every closed and complete result of a gang is written. -/
def State.deliver (s : State) (c : CoreId) (i : SlotId) : State := s.writeReady c i (s.gangAt c i).pend.length

/-- The pc after an end instruction of the innermost loop (R148): the counter falls by 1 and the gang goes back to
Start, or the record is popped. Elsewhere the next sequential address. -/
def Gang.advance (g : Gang) (c : Cursor) (next : DWord) : Gang :=
  if c.hnd then { g with handler := { g.handler with pc := next } }
  else
    match g.loops with
    | [] => g.modFrag c.frag fun f => { f with pc := next }
    | r :: rest =>
      if g.intrap || next != r.endAddr then g.modFrag c.frag fun f => { f with pc := next }
      else
        let n := g.lc.get (lcIx r.counter) - 1
        let g1 := { g with lc := g.lc.set (lcIx r.counter) n }
        if n = 0 then { g1.modFrag c.frag fun f => { f with pc := r.endAddr } with loops := rest }
        else g1.modFrag c.frag fun f => { f with pc := r.start }

/-- The fragment's ages are 0 when it issues (R386); a handler has none (R155). -/
def Gang.restAges (g : Gang) (c : Cursor) : Gang :=
  if c.hnd then g else g.modFrag c.frag fun f => { f with ageL := 0, ageU := 0 }

/-- What every issued instruction does besides its own effect: it counts in the progress counter and rests the
watchdog (R388, R418), in the open windows of its fragment (R51, R52), and its fragment's ages are 0 (R386). -/
def State.countIssue (s : State) (closes : Bool) : State :=
  (s.modT fun t => { t with issued := t.issued + 1 }).modG fun g =>
    { (g.restAges s.cur).countWindows s.cur closes with watchdog := 0, hung := false }

/-- The end of an instruction boundary: joins settle (R21, R22), and the results whose windows have closed are
written (R51). -/
def State.finish (s : State) : State :=
  let s1 := s.modG Gang.settle
  (s1.deliver s.cur.core s.cur.slot).stall

/-- A V-form instruction of `size` bytes completes: the latch counts and places (R49), the pc advances (R148). -/
def State.completeV (s : State) (size : Nat) (place : Option RegField) : State :=
  ((s.countIssue false).modG fun g =>
    (g.stepLatch place).advance s.cur (g.nextPc s.cur.frag s.cur.hnd + BitVec.ofNat 64 size)).finish

/-- A U-form instruction of `size` bytes completes and moves on to the next sequential address; `closes` marks the
instructions of R52. -/
def State.completeU (s : State) (size : Nat) (closes : Bool) : State :=
  ((s.countIssue closes).modG fun g =>
    g.advance s.cur (g.nextPc s.cur.frag s.cur.hnd + BitVec.ofNat 64 size)).finish

/-- A pending result with the fields that most instructions leave as they are. -/
def Pending.fresh (dst : Dest) (em : BitVec 32) : Pending :=
  { id := 0, frag := 0, hnd := false, pc := 0, left := 0, closed := false, dst := dst, em := em, await := .nothing,
    overA := .none, overB := .none, place := 0, wr := [], src := [], uval := 0, dval := [], dnorm := 0, fail := none, ty := 0, part := false, eas := [], addrMarks := 0,
    leaf := false }

/-- A VL instruction of `size` bytes completes: it opens its window over the next `n` instructions of its fragment
(R51), after the windows opened earlier have counted it. -/
def State.completeVL (s : State) (size : Nat) (place : Option RegField) (n : Nat) (p : Pending) : State :=
  let pc := s.pc
  ((s.countIssue false).modG fun g =>
    let p' := { p with id := g.nextPend, frag := s.cur.frag, hnd := s.cur.hnd, pc := pc, left := n, closed := n == 0,
                       place := s.t.issued }
    ({ g.stepLatch place with pend := closedFirst (g.pend ++ [p']), nextPend := g.nextPend + 1 }).advance s.cur
      (pc + BitVec.ofNat 64 size)).finish

/-- The register that a hold field latches (R49): `a`, `b` or `d`. -/
def heldReg (h : BitVec 2) (a b d : RegField) : Option RegField :=
  match h.toNat with
  | 0 => none
  | 1 => some a
  | 2 => some b
  | _ => some d

/-! ### Returning from a trap -/

/-- The fragment that takes a DEBUG_HALT at the end of a handler (R398): the one that the handler served, or, where that has
exited, the lowest that stands at an instruction; `none` where every other fragment is in the midst of one. -/
def Gang.debugFrag (g : Gang) : Option FragId :=
  let able (i : FragId) : Bool := (g.frags.get i).valid && ((g.frags.get i).wait == .none || (g.frags.get i).wait == .held)
  if able g.handler.frag then some g.handler.frag else (allFin 32).find? able

/-- The trap taken next, if any, once a handler has ended (R155): the held traps and a DEBUG_HALT, in the order in which they
occurred (R398). A DEBUG_HALT that no fragment can take here is taken at the gang's next issue. -/
def State.takeHeld (s : State) (c : CoreId) (i : SlotId) : State :=
  let g := s.gangAt c i
  if g.intrap then s
  else
    match g.debugHalt, g.heldTraps with
    | some 0, _ =>
      match g.debugFrag with
      | none => s
      | some f =>
        (s.modGangAt c i fun g => { g with debugHalt := none }).enterTrap c i f .debugHalt (g.frags.get f).pc 0 0
    | _, [] => s
    | n, h :: rest =>
      (s.modGangAt c i fun g => { g with heldTraps := rest, debugHalt := n.map (· - 1) }).enterTrap c i h.frag h.cause
        (g.frags.get h.frag).pc h.info h.late

/-- A trap of the fragment is held (R155). -/
def Gang.holds (g : Gang) (f : FragId) : Bool := g.heldTraps.any fun h => h.frag == f

/-- Returning from a trap (R157): the trapped fragment goes on at trappc with its EM and windows, or waits there for a trap
of its own that is held; INTRAP is cleared, the latch is empty (R100), and a held trap is then taken (R155). -/
def State.returnFromTrap (s : State) : State :=
  let s1 := s.modG fun g =>
    { g.modFrag g.handler.frag (fun f =>
        { f with pc := g.trappc, wait := if g.holds g.handler.frag then .held else .none }) with
      intrap := false, latch := [] }
  (s1.modG Gang.settle).takeHeld s.cur.core s.cur.slot

end Sys2Proof.Machine
end

