-- ==== Sys2Proof/Machine/Float.lean ====
section
/-!
DEFINITION. The number formats of R69, the one rounding function of R71 to R73, and exact arithmetic on values
m · 2^e. Every result is formed exactly and rounded once.
-/
namespace Sys2Proof.Machine

/-- A floating-point format (R69): exponent and fraction bits, bias, the magnitude code of the largest finite value, of
infinity where there is one, and of the canonical NaN. -/
structure Fmt where
  ebits : Nat
  mbits : Nat
  bias : Nat
  maxCode : Nat
  infCode : Option Nat
  nanCode : Nat
  /-- A finite result beyond the largest finite value becomes it, in every mode (R72). -/
  clamps : Bool
deriving DecidableEq, Repr

/-- FP32. -/
def f32 : Fmt :=
  { ebits := 8, mbits := 23, bias := 127, maxCode := 0x7F7FFFFF, infCode := some 0x7F800000, nanCode := 0x7FC00000,
    clamps := false }
/-- BF16. -/
def bf16 : Fmt :=
  { ebits := 8, mbits := 7, bias := 127, maxCode := 0x7F7F, infCode := some 0x7F80, nanCode := 0x7FC0, clamps := false }
/-- FP16. -/
def f16 : Fmt :=
  { ebits := 5, mbits := 10, bias := 15, maxCode := 0x7BFF, infCode := some 0x7C00, nanCode := 0x7E00, clamps := false }
/-- E4M3. -/
def e4m3 : Fmt :=
  { ebits := 4, mbits := 3, bias := 7, maxCode := 0x7E, infCode := none, nanCode := 0x7F, clamps := true }
/-- E5M2. -/
def e5m2 : Fmt :=
  { ebits := 5, mbits := 2, bias := 15, maxCode := 0x7B, infCode := some 0x7C, nanCode := 0x7E, clamps := true }
/-- E2M1; it has no NaN and no infinity (its callers decide those, R79). -/
def e2m1 : Fmt :=
  { ebits := 2, mbits := 1, bias := 1, maxCode := 0x7, infCode := none, nanCode := 0, clamps := true }

/-- A decoded value: NaN, an infinity, or m · 2^e with a sign. -/
inductive FVal where
  | nan
  | inf (neg : Bool)
  | fin (neg : Bool) (m : Nat) (e : Int)
deriving DecidableEq, Repr

/-- Width of a format in bits. -/
def Fmt.width (f : Fmt) : Nat := 1 + f.ebits + f.mbits

/-- Number of bits of a natural number. -/
def bitLen (n : Nat) : Nat := if n = 0 then 0 else n.log2 + 1

/-- The value of a code (R69). -/
def Fmt.decode (f : Fmt) (bits : Nat) : FVal :=
  let neg := bits / 2 ^ (f.ebits + f.mbits) % 2 == 1
  let mag := bits % 2 ^ (f.ebits + f.mbits)
  if some mag = f.infCode then .inf neg
  else if f.maxCode < mag then .nan
  else
    let ex := mag / 2 ^ f.mbits
    let fr := mag % 2 ^ f.mbits
    if ex = 0 then .fin neg fr (1 - (f.bias : Int) - f.mbits)
    else .fin neg (2 ^ f.mbits + fr) ((ex : Int) - f.bias - f.mbits)

/-- A sign and a magnitude code as bits. -/
def Fmt.pack (f : Fmt) (neg : Bool) (mag : Nat) : Nat := (if neg then 2 ^ (f.ebits + f.mbits) else 0) + mag

/-- The canonical NaN (R70). -/
def Fmt.nan (f : Fmt) : Nat := f.nanCode

/-- Infinity of a sign; a format without one gives its largest finite value (R76). -/
def Fmt.infinity (f : Fmt) (neg : Bool) : Nat := f.pack neg (f.infCode.getD f.maxCode)

/-- Whether the quotient `n` with remainder `r` of `2^sh` is rounded up (R71, R73): `sticky` says that the exact value
lies a little above what `r` holds. -/
def roundsUp (mode : Nat) (neg : Bool) (n r sh : Nat) (sticky : Bool) (draw : Nat) : Bool :=
  match mode with
  | 0 => 2 ^ sh < 2 * r || (2 ^ sh == 2 * r && (sticky || n % 2 == 1))
  | 1 => false
  | 2 => !neg && (r != 0 || sticky)
  | 3 => neg && (r != 0 || sticky)
  | _ => 65536 ≤ r * 65536 / 2 ^ sh + draw

/-- m · 2^e rounded to a multiple of 2^q: the multiple. -/
def roundTo (mode : Nat) (neg : Bool) (m : Nat) (e q : Int) (sticky : Bool) (draw : Nat) : Nat :=
  if q ≤ e then
    let n := m * 2 ^ (e - q).toNat
    if roundsUp mode neg n 0 1 sticky draw then n + 1 else n
  else
    let sh := (q - e).toNat
    let n := m / 2 ^ sh
    if roundsUp mode neg n (m % 2 ^ sh) sh sticky draw then n + 1 else n

/-- The magnitude code of m · 2^e rounded in a mode (R72, R73). -/
def Fmt.roundMag (f : Fmt) (mode : Nat) (neg : Bool) (m : Nat) (e : Int) (sticky : Bool) (draw : Nat) : Nat :=
  if m = 0 && !sticky then 0
  else
    let low : Int := 1 - (f.bias : Int) - f.mbits
    let q := Max.max (e + (bitLen m : Int) - 1 - f.mbits) low
    let code := (q - low).toNat * 2 ^ f.mbits + roundTo mode neg m e q sticky draw
    if code ≤ f.maxCode then code
    else if f.clamps then f.maxCode
    else
      match mode with
      | 1 => f.maxCode
      | 2 => if neg then f.maxCode else f.infCode.getD f.maxCode
      | 3 => if neg then f.infCode.getD f.maxCode else f.maxCode
      | _ => f.infCode.getD f.maxCode

/-- The bits of m · 2^e rounded in a mode, sign kept. -/
def Fmt.round (f : Fmt) (mode : Nat) (neg : Bool) (m : Nat) (e : Int) (sticky : Bool) (draw : Nat) : Nat :=
  f.pack neg (f.roundMag mode neg m e sticky draw)

/-- A value rounded to a format (R70, R72, R76). -/
def Fmt.ofVal (f : Fmt) (mode draw : Nat) : FVal → Nat
  | .nan => f.nan
  | .inf neg => f.infinity neg
  | .fin neg m e => f.round mode neg m e false draw

/-! ### Arithmetic -/

/-- A value negated. -/
def FVal.neg : FVal → FVal
  | .nan => .nan
  | .inf n => .inf (!n)
  | .fin n m e => .fin (!n) m e

/-- A signed integer at the exponent of a value's smallest bit, given a lower exponent `e0`. -/
def scaled (neg : Bool) (m : Nat) (e e0 : Int) : Int :=
  let x : Int := (m : Int) * (2 : Int) ^ (e - e0).toNat
  if neg then -x else x

/-- The exact value of a signed integer times 2^e; `zneg` is the sign of a zero. -/
def FVal.ofInt (x e : Int) (zneg : Bool) : FVal := if x = 0 then .fin zneg 0 e else .fin (x < 0) x.natAbs e

/-- The exact sum (R70): ∞ − ∞ is NaN; an exact zero is −0 only for two −0, or under round toward minus infinity. -/
def FVal.add (mode : Nat) : FVal → FVal → FVal
  | .nan, _ => .nan
  | _, .nan => .nan
  | .inf a, .inf b => if a = b then .inf a else .nan
  | .inf a, _ => .inf a
  | _, .inf b => .inf b
  | .fin a m e, .fin b n d =>
    let e0 := Min.min e d
    .ofInt (scaled a m e e0 + scaled b n d e0) e0 (if m = 0 && n = 0 && a = b then a else mode = 3)

/-- The exact product (R118): 0 · ∞ is NaN. -/
def FVal.mul : FVal → FVal → FVal
  | .nan, _ => .nan
  | _, .nan => .nan
  | .inf a, .inf b => .inf (a != b)
  | .inf a, .fin b m _ => if m = 0 then .nan else .inf (a != b)
  | .fin a m _, .inf b => if m = 0 then .nan else .inf (a != b)
  | .fin a m e, .fin b n d => .fin (a != b) (m * n) (e + d)

/-- a · b + c, exact. -/
def FVal.fma (mode : Nat) (a b c : FVal) : FVal := FVal.add mode (FVal.mul a b) c

/-- The sum of two codes, rounded once. -/
def Fmt.add (f : Fmt) (mode draw a b : Nat) : Nat := f.ofVal mode draw (FVal.add mode (f.decode a) (f.decode b))
/-- The difference of two codes, rounded once. -/
def Fmt.sub (f : Fmt) (mode draw a b : Nat) : Nat := f.ofVal mode draw (FVal.add mode (f.decode a) (f.decode b).neg)
/-- The product of two codes, rounded once. -/
def Fmt.mul (f : Fmt) (mode draw a b : Nat) : Nat := f.ofVal mode draw (FVal.mul (f.decode a) (f.decode b))
/-- a · b + c of codes, rounded once. -/
def Fmt.fma (f : Fmt) (mode draw a b c : Nat) : Nat :=
  f.ofVal mode draw (FVal.fma mode (f.decode a) (f.decode b) (f.decode c))

/-- A code is a NaN. -/
def Fmt.isNan (f : Fmt) (a : Nat) : Bool := f.decode a == .nan

/-- The sign bit of a code. -/
def Fmt.sign (f : Fmt) (a : Nat) : Bool := a / 2 ^ (f.ebits + f.mbits) % 2 == 1

/-- The magnitude code. -/
def Fmt.mag (f : Fmt) (a : Nat) : Nat := a % 2 ^ (f.ebits + f.mbits)

/-- The order of codes that are not NaN, −0 equal to +0. -/
def Fmt.key (f : Fmt) (a : Nat) : Int := if f.sign a then -(f.mag a : Int) else f.mag a

/-- The order in which −0 stands below +0 (R120). -/
def Fmt.key0 (f : Fmt) (a : Nat) : Int := if f.sign a then -(f.mag a : Int) - 1 else f.mag a

/-- fmin and fmax (R120); `max` chooses, `nan` is mod[0]. -/
def Fmt.minmax (f : Fmt) (max nan : Bool) (a b : Nat) : Nat :=
  match f.isNan a, f.isNan b with
  | true, true => f.nan
  | true, false => if nan then f.nan else b
  | false, true => if nan then f.nan else a
  | false, false => if (f.key0 a < f.key0 b) != max then a else b

/-- The conditions of fcmp (R121). -/
def Fmt.cmp (f : Fmt) (c a b : Nat) : Bool :=
  let un := f.isNan a || f.isNan b
  match c with
  | 0 => !un && f.key a == f.key b
  | 1 => un || f.key a != f.key b
  | 2 => !un && f.key a < f.key b
  | 3 => !un && f.key a ≤ f.key b
  | _ => un

/-- The class bit of a code (R122). -/
def Fmt.classOf (f : Fmt) (a : Nat) : Nat :=
  match f.decode a with
  | .nan => if a / 2 ^ (f.mbits - 1) % 2 = 1 then 2 else 1
  | .inf true => 4
  | .inf false => 512
  | .fin neg m _ =>
    if m = 0 then (if neg then 32 else 64)
    else if m < 2 ^ f.mbits then (if neg then 16 else 128)
    else if neg then 8 else 256

/-- A value rounded to an integral value (R118), its sign kept. -/
def FVal.toIntegral (mode draw : Nat) : FVal → FVal
  | .fin neg m e => if 0 ≤ e then .fin neg m e else .fin neg (roundTo mode neg m e 0 false draw) 0
  | v => v

/-- fround of a code (R118). -/
def Fmt.integral (f : Fmt) (mode draw a : Nat) : Nat := f.ofVal 0 0 ((f.decode a).toIntegral mode draw)

/-- A value converted to a signed integer of `w` bits (R77), as bits. -/
def FVal.toInt (mode draw w : Nat) : FVal → Nat
  | .nan => 0
  | .inf neg => if neg then 2 ^ (w - 1) else 2 ^ (w - 1) - 1
  | .fin neg m e =>
    let n := if 0 ≤ e then m * 2 ^ e.toNat else roundTo mode neg m e 0 false draw
    if neg then (if 2 ^ (w - 1) ≤ n then 2 ^ (w - 1) else (2 ^ w - n) % 2 ^ w)
    else Nat.min n (2 ^ (w - 1) - 1)

/-- The signed value of `w` bits. -/
def signedVal (w x : Nat) : Int := if 2 ^ (w - 1) ≤ x then (x : Int) - 2 ^ w else x

/-- The exact value of an integer; zero is +0. -/
def intVal (x : Int) : FVal := .fin (x < 0) x.natAbs 0

/-! ### The generator -/

/-- One draw of xorshift32 (R74): the new state; its top 16 bits are the random word. -/
def xorshift (x : Word) : Word :=
  let a := x ^^^ (x <<< 13)
  let b := a ^^^ (a >>> 17)
  b ^^^ (b <<< 5)

/-- The random word of a state (R74). -/
def drawOf (x : Word) : Nat := x.toNat / 65536

/-- The state that rngseed gives lane `l` (R75). -/
def seedLane (seed : Word) (l : Nat) : Word :=
  let x := seed + BitVec.ofNat 32 (l * 0x9E3779B9)
  if x = 0 then 1 else x

/-- The states of the 32 lanes (R75). -/
def seedAll (seed : Word) : Vector Word 32 := Vector.ofFn fun l => seedLane seed l.val

/-- Elements of a lane computed in ascending order (R119): under mode 0b100 each takes a draw, otherwise none. -/
def drawEach (mode : Nat) (st : Word) : List (Nat → Nat) → Word × List Nat
  | [] => (st, [])
  | f :: fs =>
    let st1 := if mode = 4 then xorshift st else st
    let rest := drawEach mode st1 fs
    (rest.1, f (drawOf st1) :: rest.2)

/-! ### Block formats -/

/-- floor(log2 m·2^e), m nonzero. -/
def floorLog2 (m : Nat) (e : Int) : Int := e + bitLen m - 1

/-- The largest magnitude of a list of values, as (m, e) at a common exponent; NaN and infinities give none. -/
def maxMag : List FVal → Option (Nat × Int)
  | [] => some (0, 0)
  | v :: rest =>
    match v, maxMag rest with
    | .fin _ m e, some (n, d) =>
      let e0 := Min.min e d
      if n * 2 ^ (d - e0).toNat < m * 2 ^ (e - e0).toNat then some (m, e) else some (n, d)
    | _, _ => none

/-- A scale exponent clamped to −127..127 (R79, R81). -/
def clampScale (x : Int) : Int := Max.max (-127) (Min.min 127 x)

/-- E2M1 code of a value divided by 2^x (R79). -/
def mx4Code (x : Int) (mode draw : Nat) : FVal → Nat
  | .fin neg m e => e2m1.round mode neg m (e - x) false draw
  | _ => 0

/-- The magnitudes that one PT2 term can have, in units of 2^-6: shift code 0..6 gives 2^(-code), 7 gives 0 (R13, R80). -/
def pt2Term (b : Nat) : Int :=
  let mag : Int := if b % 8 = 7 then 0 else 2 ^ (6 - b % 8)
  if b / 8 % 2 = 1 then -mag else mag

/-- The value of a PT2 byte in units of 2^-6 (R80): two terms, the first in the high nibble. -/
def pt2Val (b : Nat) : Int := pt2Term (b / 16) + pt2Term (b % 16)

/-- The present terms of a PT2 byte. -/
def pt2Count (b : Nat) : Nat := (if b / 16 % 8 = 7 then 0 else 1) + (if b % 8 = 7 then 0 else 1)

/-- The better of two PT2 bytes for the value v·2^e in units of 2^-6 (R81): nearer, then smaller magnitude, then fewer
terms, then the smaller byte. The comparison is made on integers scaled by 2^k. -/
def pt2Better (v : Int) (k : Nat) (a b : Nat) : Nat :=
  let da := (v - pt2Val a * 2 ^ k).natAbs
  let db := (v - pt2Val b * 2 ^ k).natAbs
  let ma := (pt2Val a).natAbs
  let mb := (pt2Val b).natAbs
  if da < db then a else if db < da then b
  else if ma < mb then a else if mb < ma then b
  else if pt2Count a < pt2Count b then a else if pt2Count b < pt2Count a then b
  else Nat.min a b

/-- The canonical PT2 byte nearest to a value divided by 2^x (R81). -/
def pt2Code (x : Int) : FVal → Nat
  | .fin neg m e =>
    let d := e - x + 6
    let k := (-d).toNat
    let v : Int := (m : Int) * 2 ^ d.toNat
    let v := if neg then -v else v
    (List.range 256).foldl (fun best b => pt2Better v k best b) 0x77
  | _ => 0x77

/-- The scale code and the element codes of a block of 32 values (R79, R81). The draws are given lane by lane. -/
def blockCodes (pt2 : Bool) (mode : Nat) (draws : List Nat) (vs : List FVal) : Nat × List Nat :=
  match maxMag vs with
  | none => (0xFF, vs.map fun _ => if pt2 then 0x77 else 0)
  | some (m, e) =>
    if m = 0 then
      (0x7F, vs.map fun v => if pt2 then 0x77 else match v with | .fin true _ _ => 8 | _ => 0)
    else
      let x := clampScale (floorLog2 m e - (if pt2 then 0 else 2))
      ((x + 127).toNat, (vs.zip draws).map fun vd => if pt2 then pt2Code x vd.1 else mx4Code x mode vd.2 vd.1)

end Sys2Proof.Machine
end

