-- ==== Sys2Proof/Machine/Elementary.lean ====
section
/-!
DEFINITION. The special functions of R123 and R124: the exact mathematical value rounded once. Reciprocals and roots
are exact quotients and integer roots with a sticky bit; exp2, log2, sine and cosine are bounded from both sides by
fixed-point series, and the precision doubles until both bounds round alike (log 7).
-/
namespace Sys2Proof.Machine

/-! ### Integer roots -/

/-- The bits of the root from 2^(i−1) down. -/
def isqrtFrom (n r : Nat) : Nat → Nat
  | 0 => r
  | i + 1 => let c := r + 2 ^ i; isqrtFrom n (if c * c ≤ n then c else r) i

/-- The integer square root. -/
def isqrt (n : Nat) : Nat := isqrtFrom n 0 (bitLen n / 2 + 1)

/-! ### Fixed-point series

A series at precision `p` returns an integer; the value times 2^p differs from it by less than `serr p`. -/

/-- The error bound of every series at precision `p`, in units of 2^-p. -/
def serr (p : Nat) : Int := 64 * p + 64

/-- Σ t / (2k+1) with t divided by `d` at each term, signs alternating when `alt`. -/
def oddSeries (d : Nat) (alt : Bool) (t : Nat) (k : Nat) (neg : Bool) (acc : Int) : Nat → Int
  | 0 => acc
  | fuel + 1 =>
    if t = 0 then acc
    else
      let x : Int := (t / (2 * k + 1) : Nat)
      oddSeries d alt (t / d) (k + 1) (alt && !neg) (if neg then acc - x else acc + x) fuel

/-- ln 2 = 2 Σ (1/3)^(2k+1) / (2k+1). -/
def ln2Fix (p : Nat) : Int := 2 * oddSeries 9 false (2 ^ p / 3) 0 false 0 (p + 1)

/-- π = 16 atan(1/5) − 4 atan(1/239). -/
def piFix (p : Nat) : Int :=
  16 * oddSeries 25 true (2 ^ p / 5) 0 false 0 (p + 1) - 4 * oddSeries 57121 true (2 ^ p / 239) 0 false 0 (p + 1)

/-- Σ t with t multiplied by y / 2^p and divided by k+1, then by k+2 for the even and odd series. -/
def expSeries (p y : Nat) (t k : Nat) (acc : Nat) : Nat → Nat
  | 0 => acc
  | fuel + 1 => if t = 0 then acc else expSeries p y (t * y / 2 ^ p / (k + 1)) (k + 1) (acc + t) fuel

/-- The alternating series of sine (k = 1, t = y) and cosine (k = 0, t = 2^p): t is multiplied by y² / 2^2p and divided
by (k+1)(k+2). -/
def circSeries (p y : Nat) (t k : Nat) (neg : Bool) (acc : Int) : Nat → Int
  | 0 => acc
  | fuel + 1 =>
    if t = 0 then acc
    else
      circSeries p y (t * y / 2 ^ p * y / 2 ^ p / ((k + 1) * (k + 2))) (k + 2) (!neg)
        (if neg then acc - t else acc + t) fuel

/-- An approximation: an integer `a`, an error bound and an exponent: the value lies between (a − err) and (a + err)
times 2^e. -/
structure Approx where
  a : Int
  err : Int
  e : Int
deriving DecidableEq, Repr

/-- 2^x for x = ±m·2^e, at precision `p`. -/
def exp2Approx (neg : Bool) (m : Nat) (e : Int) (p : Nat) : Approx :=
  let x : Int := if neg then -(m : Int) else m
  let fx : Int := if 0 ≤ p + e then x * 2 ^ (p + e).toNat else x / 2 ^ (-(p + e)).toNat
  let n := fx / 2 ^ p
  let f := (fx % 2 ^ p).toNat
  let y := (f : Int) * ln2Fix p / 2 ^ p
  { a := expSeries p y.toNat (2 ^ p) 0 0 (p + 1), err := serr p, e := n - p }

/-- Σ z^(2k+1) / (2k+1), with z² = w. -/
def atanhSeries (p w t k : Nat) (acc : Nat) : Nat → Nat
  | 0 => acc
  | fuel + 1 => if t = 0 then acc else atanhSeries p w (t * w / 2 ^ p) (k + 1) (acc + t / (2 * k + 1)) fuel

/-- log2 of m·2^e, m nonzero, at precision `p`: the exponent and 2 atanh((m−1)/(m+1)) / ln 2, with m scaled into
[3/4, 3/2]. -/
def log2Approx (m : Nat) (e : Int) (p : Nat) : Approx :=
  let l := bitLen m
  let up := 3 * 2 ^ (l - 1) < 2 * m
  let one : Nat := if up then 2 ^ l else 2 ^ (l - 1)
  let ex : Int := e + l - 1 + (if up then 1 else 0)
  let num : Int := (m : Int) - one
  let z := num.natAbs * 2 ^ p / (m + one)
  let t : Int := 2 * atanhSeries p (z * z / 2 ^ p) z 0 0 (p + 1)
  let ln := if num < 0 then -t else t
  { a := ex * 2 ^ p + ln * 2 ^ p / ln2Fix p, err := serr p, e := -(p : Int) }
/-- sin or cos of ±m·2^e at precision `p`: reduction by π/2 at 160 bits more, then the series. -/
def circApprox (cosine neg : Bool) (m : Nat) (e : Int) (p : Nat) : Approx :=
  let r := p + 160
  let h := piFix r / 2
  let x : Int := (m : Int) * 2 ^ (r + e).toNat
  let k := x / h
  let y := ((x - k * h) / 2 ^ 160).toNat
  let quad := (k + (if cosine then 1 else 0)) % 4
  let v := if quad = 0 || quad = 2 then circSeries p y y 1 false 0 (p + 1) else circSeries p y (2 ^ p) 0 false 0 (p + 1)
  let v := if 2 ≤ quad then -v else v
  { a := if neg && !cosine then -v else v, err := serr p, e := -(p : Int) }

/-! ### Rounding an approximation -/

/-- Both bounds of an approximation round to the same code, which the value then has. -/
def Approx.settle (x : Approx) (f : Fmt) (mode draw : Nat) : Option Nat :=
  let lo := x.a - x.err
  let hi := x.a + x.err
  if 0 < lo then
    let a := f.round mode false lo.toNat x.e true draw
    if a = f.round mode false (hi - 1).toNat x.e true draw then some a else none
  else if hi < 0 then
    let a := f.round mode true hi.natAbs x.e true draw
    if a = f.round mode true (lo + 1).natAbs x.e true draw then some a else none
  else none

/-- The precision doubles until an approximation settles; after the last doubling the middle value is rounded
(log 7). -/
def refine (f : Fmt) (mode draw : Nat) (g : Nat → Approx) : Nat → Nat → Nat
  | 0, p => let x := g p; f.round mode (x.a < 0) x.a.natAbs x.e true draw
  | fuel + 1, p =>
    match (g p).settle f mode draw with
    | some c => c
    | none => refine f mode draw g fuel (2 * p)

/-- The refinement from 128 bits to 4096 bits. -/
def settleAt (f : Fmt) (mode draw : Nat) (g : Nat → Approx) : Nat := refine f mode draw g 5 128

/-! ### The functions -/

/-- 1/a (R124). -/
def frcpVal (f : Fmt) (mode draw : Nat) : FVal → Nat
  | .nan => f.nan
  | .inf neg => f.pack neg 0
  | .fin neg m e =>
    if m = 0 then f.infinity neg
    else
      let n := bitLen m + 80
      f.round mode neg (2 ^ n / m) (-e - n) (2 ^ n % m != 0) draw

/-- √a (R124). -/
def fsqrtVal (f : Fmt) (mode draw : Nat) : FVal → Nat
  | .nan => f.nan
  | .inf neg => if neg then f.nan else f.infinity false
  | .fin neg m e =>
    if m = 0 then f.pack neg 0
    else if neg then f.nan
    else
      let k : Nat := 160 + (e % 2).toNat
      let x := m * 2 ^ k
      let r := isqrt x
      f.round mode false r ((e - k) / 2) (r * r != x) draw

/-- 1/√a (R124). -/
def frsqVal (f : Fmt) (mode draw : Nat) : FVal → Nat
  | .nan => f.nan
  | .inf neg => if neg then f.nan else f.pack false 0
  | .fin neg m e =>
    if m = 0 then f.infinity neg
    else if neg then f.nan
    else
      let k : Nat := 2 * bitLen m + 160 + (e % 2).toNat
      let q := 2 ^ k / m
      let r := isqrt q
      f.round mode false r ((-e - k) / 2) (r * r * m != 2 ^ k) draw

/-- 2^a (R124): exact at an integer; beyond every format's range the value is only known to be large or small. -/
def fexp2Val (f : Fmt) (mode draw : Nat) : FVal → Nat
  | .nan => f.nan
  | .inf neg => if neg then f.pack false 0 else f.infinity false
  | .fin neg m e =>
    let whole := 0 ≤ e || m % 2 ^ (-e).toNat = 0
    if bitLen m + e > 9 then
      if neg then f.round mode false 1 (-400) true draw else f.round mode false 1 400 true draw
    else if whole then
      let n : Int := if 0 ≤ e then (m : Int) * 2 ^ e.toNat else (m / 2 ^ (-e).toNat : Nat)
      f.round mode false 1 (if neg then -n else n) false draw
    else settleAt f mode draw (exp2Approx neg m e)

/-- log2 a (R124): exact at a power of two. -/
def flog2Val (f : Fmt) (mode draw : Nat) : FVal → Nat
  | .nan => f.nan
  | .inf neg => if neg then f.nan else f.infinity false
  | .fin neg m e =>
    if m = 0 then f.infinity true
    else if neg then f.nan
    else if m = 2 ^ (bitLen m - 1) then f.ofVal mode draw (intVal (e + bitLen m - 1))
    else settleAt f mode draw (log2Approx m e)

/-- sin a (R124). -/
def fsinVal (f : Fmt) (mode draw : Nat) : FVal → Nat
  | .fin neg m e => if m = 0 then f.pack neg 0 else settleAt f mode draw (circApprox false neg m e)
  | _ => f.nan

/-- cos a (R124). -/
def fcosVal (f : Fmt) (mode draw : Nat) : FVal → Nat
  | .fin neg m e => if m = 0 then f.round mode false 1 0 false draw else settleAt f mode draw (circApprox true neg m e)
  | _ => f.nan

end Sys2Proof.Machine
end

