-- ==== Sys2Proof/Machine/Operands.lean ====
section
/-!
DEFINITION. Operand forms: packed elements of a lane (R11, R113), halves and marks (R99, R110), immediates (R45),
the ways an instruction reads its vector sources and completes, and the check of the encoding that comes first (R63).
-/
namespace Sys2Proof.Machine

/-- The outcome of an instruction: ILLEGAL_OP where the encoding is none (R62, R63), else its effect. -/
def State.legal (s : State) (i : Instr) (t : State) : Host.Outcome State Fault Refusal :=
  .next (if i.wf then t else s.trapIllegalOp)

/-! ### Elements -/

/-- Element `i` of width `w` (R11). -/
def elem (w : Nat) (x : DWord) (i : Nat) : Nat := x.toNat / 2 ^ (w * i) % 2 ^ w

/-- The elements of width `w`, lowest first. -/
def elems (w : Nat) (x : DWord) : List Nat := (List.range (64 / w)).map (elem w x)

/-- Elements of width `w` as one number. -/
def packed (w : Nat) : List Nat → Nat
  | [] => 0
  | x :: xs => x % 2 ^ w + 2 ^ w * packed w xs

/-- Elements of width `w` as the 64 bits of a lane. -/
def ofElems (w : Nat) (xs : List Nat) : DWord := BitVec.ofNat 64 (packed w xs)

/-- Half `h` of a lane (R11). -/
def half (x : DWord) (h : Bool) : Word := if h then x.extractLsb' 32 32 else x.extractLsb' 0 32

/-- The mark of a half. -/
def VCell.mark (c : VCell) (h : Bool) : Bool := if h then c.g1 else c.g0

/-- Any mark of a lane. -/
def VCell.marked (c : VCell) : Bool := c.g0 || c.g1

/-- A lane with one half and its mark replaced. -/
def VCell.withHalf (c : VCell) (h : Bool) (x : Word) (mk : Bool) : VCell :=
  if h then { bits := x ++ half c.bits false, g0 := c.g0, g1 := mk }
  else { bits := half c.bits true ++ x, g0 := mk, g1 := c.g1 }

/-- 64 bits with both marks equal. -/
def VCell.both (x : DWord) (mk : Bool) : VCell := { bits := x, g0 := mk, g1 := mk }

/-- A result of elements of width `w` with the marks of R110 from the registers read as data. -/
def cellOf (w : Nat) (xs : List Nat) (srcs : List VCell) : VCell :=
  if w = 64 then VCell.both (ofElems w xs) (srcs.any VCell.marked)
  else { bits := ofElems w xs, g0 := srcs.any (·.g0), g1 := srcs.any (·.g1) }

/-- An element function of one source. -/
def map1 (w : Nat) (f : Nat → Nat) (a : VCell) : VCell := cellOf w ((elems w a.bits).map f) [a]

/-- An element function of two sources. -/
def map2 (w : Nat) (f : Nat → Nat → Nat) (a b : VCell) : VCell :=
  cellOf w (List.zipWith f (elems w a.bits) (elems w b.bits)) [a, b]

/-- An element function of two sources and the accumulating destination. -/
def map3 (w : Nat) (f : Nat → Nat → Nat → Nat) (a b d : VCell) : VCell :=
  cellOf w (List.zipWith (fun g z => g z) (List.zipWith f (elems w a.bits) (elems w b.bits)) (elems w d.bits)) [a, b, d]

/-! ### Integer element types (R113) -/

/-- The width that mod[1:0] selects. -/
def widthOf (m : BitVec 4) : Nat := 8 * 2 ^ (m.toNat % 4)
/-- mod[2]. -/
def signOf (m : BitVec 4) : Bool := m.getLsbD 2
/-- mod[3]. -/
def satOf (m : BitVec 4) : Bool := m.getLsbD 3

/-- The value of an element, signed or unsigned. -/
def intOf (w : Nat) (signed : Bool) (x : Nat) : Int := if signed then signedVal w x else x

/-- An integer modulo 2^w. -/
def wrap (w : Nat) (x : Int) : Nat := (x % 2 ^ w).toNat

/-- An integer clamped to the signed or unsigned range of w bits, as bits (R114). -/
def satTo (w : Nat) (signed : Bool) (x : Int) : Nat :=
  if signed then wrap w (Max.max (-(2 ^ (w - 1))) (Min.min (2 ^ (w - 1) - 1) x))
  else (Max.max 0 (Min.min (2 ^ w - 1) x)).toNat

/-- A result clamped or wrapped as mod[3] says. -/
def narrow (m : BitVec 4) (x : Int) : Nat := if satOf m then satTo (widthOf m) (signOf m) x else wrap (widthOf m) x

/-! ### Immediates -/

/-- A 12-bit immediate sign-extended (R45). -/
def simm (i : BitVec 12) : DWord := i.signExtend 64
/-- A 12-bit immediate zero-extended (R45). -/
def zimm (i : BitVec 12) : DWord := i.setWidth 64
/-- A byte displacement sign-extended (R208). -/
def sdisp (d : BitVec 16) : DWord := d.signExtend 64
/-- A signed word displacement in bytes (R136). -/
def wordDisp {n : Nat} (d : BitVec n) : DWord := d.signExtend 64 <<< 2

/-! ### Holding and completing -/

/-- The register that the hold field places in the latch (R49); a register that the instruction writes itself is freed
again at once (item 4, log 23). -/
def placed (h : BitVec 2) (a b d : RegField) (written : List RegField) : Option RegField :=
  match heldReg h a b d with
  | none => none
  | some r => if written.contains r then none else some r

/-- A VS instruction that computes each lane of `vd` from that lane of `va`. -/
def State.vs1 (s : State) (d a : RegField) (h : BitVec 2) (f : VCell → VCell) : State :=
  (s.writeV d fun l => f (s.v a l)).completeV 4 (placed h a a d [d])

/-- A VS instruction that computes each lane of `vd` from that lane of `va` and `vb`. -/
def State.vs2 (s : State) (d a b : RegField) (h : BitVec 2) (f : VCell → VCell → VCell) : State :=
  (s.writeV d fun l => f (s.v a l) (s.v b l)).completeV 4 (placed h a b d [d])

/-- An accumulating VS instruction: `vd` is read too. -/
def State.vs3 (s : State) (d a b : RegField) (h : BitVec 2) (f : VCell → VCell → VCell → VCell) : State :=
  (s.writeV d fun l => f (s.v a l) (s.v b l) (s.v d l)).completeV 4 (placed h a b d [d])

/-! ### Operations that draw -/

/-- The generator states after each active lane has drawn for its elements (R119). -/
def State.advanceRng (s : State) (mode : Nat) (fs : LaneId → List (Nat → Nat)) : State :=
  s.modG fun g =>
    { g with rng := Vector.ofFn (fun l => if s.active l then (drawEach mode (g.rng.get l) (fs l)).1 else g.rng.get l) }

/-- A lane's results, each element with its draw. -/
def State.drawn (s : State) (mode : Nat) (fs : LaneId → List (Nat → Nat)) (l : LaneId) : List Nat :=
  (drawEach mode (s.g.rng.get l) (fs l)).2

/-- The float format of a type bit (R118). -/
def fmtOf (t : Bool) : Fmt := if t then bf16 else f32

/-- Floating-point elements of width `w` computed with draws from the sources `srcs` (R118, R119). -/
def State.vsDraw (s : State) (d : RegField) (place : Option RegField) (w mode : Nat) (srcs : List RegField)
    (fs : LaneId → List (Nat → Nat)) : State :=
  ((s.advanceRng mode fs).writeV d fun l => cellOf w (s.drawn mode fs l) (srcs.map fun r => s.v r l)).completeV 4 place

/-- Whole lane writes of a vector register in the active lanes. -/
def wholeWrites (d : RegField) (lanes : List LaneId) (f : LaneId → VCell) : List LaneWrite :=
  lanes.map fun l =>
    let c := f l
    { reg := d, lane := l, lo := some (half c.bits false, c.g0), hi := some (half c.bits true, c.g1) }

/-- A special function (R123): its results are formed at issue and written under R51 to R56. -/
def State.special (s : State) (d a : RegField) (t : Bool) (r : BitVec 3) (look : BitVec 4) (h : BitVec 2)
    (f : Fmt → Nat → Nat → FVal → Nat) : State :=
  let fmt := fmtOf t
  let mode := r.toNat
  let fs := fun l => (elems fmt.width (s.v a l).bits).map fun x draw => f fmt mode draw (fmt.decode x)
  let wr := wholeWrites d s.lanes fun l => cellOf fmt.width (s.drawn mode fs l) [s.v a l]
  (s.advanceRng mode fs).completeVL 4 (placed h a a d []) look.toNat { Pending.fresh (.vec d false) s.em with wr := wr }

end Sys2Proof.Machine
end

