-- ==== Sys2Proof/Machine/Flags.lean ====
section
/-!
DEFINITION. Comparison results (R116, R134), and the status a gang keeps: the fields of gstat (R102), of leafctl (R103)
and skm (R104). USPLIT is set where gang-owned registers are written (R37, Ops.lean), DSAT where a norm is clamped.
-/
namespace Sys2Proof.Machine

/-- All ones or zero of width `w` (R116, R121). -/
def truth (w : Nat) (p : Bool) : Nat := if p then 2 ^ w - 1 else 0

/-- The condition of cmp (R116). -/
def cmpHolds (w : Nat) (c : Nat) (a b : Nat) : Bool :=
  match c with
  | 0 => a == b
  | 1 => a != b
  | 2 => signedVal w a < signedVal w b
  | _ => a < b

/-- The condition of scmp (R134). -/
def scmpHolds (u : Nat) (a b : DWord) : Bool :=
  match u with
  | 0 => a == b
  | 1 => a != b
  | 2 => a.slt b
  | 3 => a.ult b
  | 4 => a.sle b
  | _ => a.ule b

/-- A bit at a place. -/
def bitTo (p : Bool) (i : Nat) : Nat := if p then 2 ^ i else 0

/-- gstat (R102). -/
def Gang.gstat (g : Gang) : DWord :=
  BitVec.ofNat 64 (bitTo g.usplit 0 + bitTo g.reread 1 + bitTo g.dsat 3 + bitTo g.intrap 8 + (g.nfrag - 1) * 2 ^ 16)

/-- A write of gstat by swr: its RW fields (R102, R108). -/
def Gang.setGstat (g : Gang) (x : DWord) : Gang :=
  { g with usplit := x.getLsbD 0, reread := x.getLsbD 1, dsat := x.getLsbD 3 }

/-- leafctl (R103); CLR reads 0. -/
def Core.leafctl (k : Core) : DWord := BitVec.ofNat 64 (bitTo k.leafEn 0 + k.pcount.toNat * 2 ^ 16)

/-- A write of leafctl (R103): EN, and CLR empties the leaf table and PCOUNT. -/
def Core.setLeafctl (k : Core) (x : DWord) : Core :=
  let k1 := { k with leafEn := x.getLsbD 0 }
  if x.getLsbD 1 then { k1 with leaf := Vector.replicate 64 LeafEntry.reset, pcount := 0 } else k1

/-- The value of skm after a write (R104): [4:0] clamped to 4..20. -/
def clampSkm (x : DWord) : BitVec 5 := BitVec.ofNat 5 (Nat.max 4 (Nat.min 20 (x.toNat % 32)))

/-- DSAT after an instruction that may have clamped a norm (R83, R102). -/
def Gang.noteClamp (g : Gang) (clamped : Bool) : Gang := { g with dsat := g.dsat || clamped }

end Sys2Proof.Machine
end

