-- ==== Sys2Proof/Config.lean ====
section
/-!
DEFINITION. The free values: what the spec leaves open or what the outside alone decides. Each is a constant without
a body, so that nothing can be proved of its value; notes/assumptions names them all.
-/
namespace Sys2Proof.Config

/-- A byte read under a key that did not write it (R425): the reader's key, the writer's key, the 256-byte unit, the
unit's bytes as written and the offset in it. -/
opaque foreignByte : (reader writer unit : Nat) → List Byte → (offset : Nat) → Byte

/-- Offset and size of the interleave region of a cluster of another package (R198). -/
opaque remoteRegion : (dev : BitVec 10) → (clus : Nat) → Nat × Nat

/-- What the root of trust draws at random: nonces, exchange scalars, salts (R422), by the number of the occasion (log 4). -/
opaque spdmData : Nat → Nat

/-- The ROM image, the fuses but for the fused secret and the version, and the firmware images that ran before the first reset
of the model (R419, R423). -/
opaque romImage : List Byte
opaque fuses : List Byte
opaque bootImage : (index : Nat) → List Byte

/-- The keys at which every certificate chain and every image's signatures end, and the keys that a certificate carries
(R420, R421). -/
opaque rootKeys : PubKeys
opaque keysIn : (cert : List Byte) → PubKeys

/-- The fused secret, and the public halves of the identity keys derived from it (R421). -/
opaque fusedSecret : Nat
opaque idKeys : (secret : Nat) → PubKeys

/-- The certificate chain of a slot for the identity keys (R421), and a signature by the RSA (0) or the SLH-DSA (1) key derived from the
secret, over a transcript, with a salt (R422). -/
opaque certChain : (slot : Fin 2) → (keys : PubKeys) → List Byte
opaque signature : (alg : Fin 2) → (secret : Nat) → (transcript : List Byte) → (salt : Nat) → List Byte

/-- Which of the measured quantities an I3C register from 0x00 to 0x0F shows (R429): the die temperatures by number from 0, the
junction temperatures from 8 and the package power at 16. -/
opaque sensorShows : (reg : Nat) → List Nat

end Sys2Proof.Config
end

