-- ==== Sys2Proof/Machine/Memory.lean ====
section
/-!
DEFINITION. Device memory: bytes under keys (R424, R425), uncorrectable units (R207), translation (R195 to R204), the
issue checks that every access makes (R211, R221, R265), range locks (R253), and the order in which accesses are
performed (R34, R212, R443). A byte is addressed by `memIx dev pa`, `pa` in the form of ILV = 0.
-/
namespace Sys2Proof.Machine

/-! ### Bytes -/

/-- Address of a byte of the load-store domain. -/
def memIx (dev : BitVec 10) (pa : BitVec 39) : Nat := dev.toNat * 2 ^ 39 + pa.toNat

/-- The memory key of a partition (R424). -/
def State.keyOf (s : State) (p : PartId) : Nat := (s.parts.get p).key

/-- The key under which a byte was written; 0 where nothing has written it. -/
def State.byteKeyOf (s : State) (a : Nat) : Nat := sget 0 s.byteKey a

/-- A byte as a party with `key` reads it (R424, R425). -/
def State.rdByte (s : State) (key a : Nat) : Byte :=
  let w := s.byteKeyOf a
  if w = key || w = 0 then s.mem.read a
  else Config.foreignByte key w (a / 256) (s.mem.readN (a / 256 * 256) 256) (a % 256)

/-- `n` bytes as a party with `key` reads them. -/
def State.rdN (s : State) (key a : Nat) : Nat → List Byte
  | 0 => []
  | n + 1 => s.rdByte key a :: State.rdN s key (a + 1) n

/-- One byte written under a key; the other bytes of its unit stay as they are (R424). -/
def State.wrByte (s : State) (key a : Nat) (b : Byte) : State :=
  { s with byteKey := sset 0 s.byteKey a key, mem := s.mem.write a b }

/-- Bytes written under a key from `a` upward. -/
def State.wrN (s : State) (key a : Nat) : List Byte → State
  | [] => s
  | b :: bs => State.wrN (s.wrByte key a b) key (a + 1) bs

/-- The 32-byte unit of an address holds an uncorrectable error (R207). -/
def State.bad (s : State) (a : Nat) : Bool := s.badUnits.contains (a / 32)

/-- Bytes from `a` touch an uncorrectable unit. -/
def State.badN (s : State) (a n : Nat) : Bool := (List.range n).any fun i => s.bad (a + i)

/-- The 64-byte line of an address holds an uncorrectable error (R260, R266). -/
def State.badLine (s : State) (a : Nat) : Bool := s.badN (a / 64 * 64) 64

/-- Bytes that lie in one 32-byte unit are stored (R207): a whole unit clears its error; a part of an uncorrectable unit
is dropped and reported. -/
def State.storeUnit (s : State) (key a : Nat) (bs : List Byte) : State :=
  if s.bad a then
    if a % 32 = 0 && bs.length = 32 then
      { s with badUnits := s.badUnits.filter fun u => u != a / 32 }.wrN key a bs
    else s.report (.droppedStore (BitVec.ofNat 10 (a / 2 ^ 39)) (BitVec.ofNat 39 a))
  else s.wrN key a bs

/-- The releases that the value of a byte leads back to (R248). -/
def State.tagsAt (s : State) (a : Nat) : List RelTag := ((s.relTags.find? fun t => t.1 == a).map (·.2)).getD []

/-- The releases that the values of some bytes lead back to (R248): an atomic that reads them carries the chain of each on to every
byte that it writes (R241). -/
def State.tagsIn (s : State) (spans : List (BitVec 10 × BitVec 39 × Nat)) : List RelTag :=
  firsts (spans.flatMap fun x => (List.range x.2.2).flatMap fun i => s.tagsAt (memIx x.1 x.2.1 + i))

/-- `n` bytes from `a` on lead back to `ts` alone (R248, R249). -/
def tagBytes (tags : List (Nat × List RelTag)) (a n : Nat) (ts : List RelTag) : List (Nat × List RelTag) :=
  let others := tags.filter fun t => t.1 < a || a + n ≤ t.1
  if ts.isEmpty then others else others ++ (List.range n).map fun i => (a + i, ts)

/-! ### Translation -/

/-- Where a byte of an access lies. -/
structure Place where
  dev : BitVec 10
  pa : BitVec 39
  path : Path
  ptype : BitVec 2
  /-- The translation used, for the TLB. -/
  fill : Option TlbEntry
deriving DecidableEq, Repr

/-- A level of the page table (R196): the lowest address bit of its index, the index bits, the table alignment, whether
an entry may be, and whether it must be, a leaf. -/
structure Level where
  shift : Nat
  bits : Nat
  align : Nat
  leafOk : Bool
  leafMust : Bool
deriving DecidableEq, Repr

/-- The four levels of R196. -/
def levels : List Level :=
  [{ shift := 39, bits := 18, align := 21, leafOk := false, leafMust := false },
   { shift := 30, bits := 9, align := 12, leafOk := true, leafMust := false },
   { shift := 21, bits := 9, align := 12, leafOk := true, leafMust := false },
   { shift := 16, bits := 5, align := 8, leafOk := true, leafMust := true }]

/-- Base of the local aperture (R200). -/
def apertureBase : Nat := 0x00FFFFF000000000

/-- The address lies in the aperture window of 128 MiB (R200). -/
def inAperture (va : DWord) : Bool := apertureBase ≤ va.toNat && va.toNat < apertureBase + 0x8000000

/-- The address lies in the multicast window (R406). -/
def inMulticast (va : DWord) : Bool := 0x00FFFF0000000000 ≤ va.toNat && va.toNat ≤ 0x00FFFF0FF7FFFFFF

/-- Bits [63:57] all equal bit [56] (R195). -/
def canonicalVa (va : DWord) : Bool := va.toNat / 2 ^ 56 == 0 || va.toNat / 2 ^ 56 == 255

/-- Bytes of a vault (R198). -/
def vaultSize : Nat := 192 * 2 ^ 20

/-- A physical address in the form of ILV = 0 is implemented (R198). -/
def implemented (pa : Nat) : Bool := pa / 2 ^ 28 % 256 < 192 && pa % 2 ^ 28 < vaultSize

/-- The address of an offset in a core's vault (R198). -/
def vaultPa (c : CoreId) (off : Nat) : BitVec 39 :=
  BitVec.ofNat 39 ((clusOf c).val * 2 ^ 36 + coreidOf c * 2 ^ 28 + off)

/-- Offset and size of a cluster's interleave region (R198). -/
def State.regionOf (s : State) (dev : BitVec 10) (clus : Nat) : Nat × Nat :=
  if dev = s.devid then
    let k := s.clusters.get (Fin.ofNat 8 clus)
    (k.ilvQ, k.ilvZ)
  else Config.remoteRegion dev clus

/-- The address of ILV = 0 that an interleaved address names (R198). -/
def State.ilvPa (s : State) (dev : BitVec 10) (pa : Nat) : Option Nat :=
  let clus := pa / 2 ^ 36
  let g := pa / 256 % 2 ^ 28
  let qz := s.regionOf dev clus
  if g < 192 * qz.2 / 256 then some (clus * 2 ^ 36 + g % 192 * 2 ^ 28 + qz.1 + g / 192 * 256 + pa % 256) else none

/-- The path from a core to a place (R199); a party on no core has none of its own. -/
def State.pathTo (s : State) (c : Option CoreId) (dev : BitVec 10) (pa : BitVec 39) : Path :=
  if dev ≠ s.devid then .package dev
  else
    match c with
    | none => .horizontal
    | some c => if pa.toNat / 2 ^ 28 = (clusOf c).val * 256 + coreidOf c then .vertical else .horizontal

/-- A table entry (R197) that a walk meets, checked but for its leaf rules: VALID, then the bits that must be 0. -/
def entryError (e : Nat) (leaf : Bool) : Option (BitVec 4) :=
  if e % 2 = 0 then some 0
  else if e / 8 % 32 ≠ 0 || e / 2 ^ 39 % 2 ^ 12 ≠ 0 then some 3
  else if !leaf && (e / 2 ^ 51 ≠ 0 || e / 4 % 2 ≠ 0) then some 3
  else none

/-- The walk of R196 and R197 from the table at `t`: the leaf entry and the number of offset bits of its page. -/
def State.walk (s : State) (key : Nat) (va : DWord) : List Level → Nat → Except (BitVec 4) (Nat × Nat)
  | [], _ => .error 3
  | l :: rest, t =>
    let a := t + 8 * (va.toNat / 2 ^ l.shift % 2 ^ l.bits)
    if t % 2 ^ l.align ≠ 0 || !implemented a then .error 3
    else if s.bad (memIx s.devid (BitVec.ofNat 39 a)) then .error 5
    else
      let e := leNat (s.rdN key (memIx s.devid (BitVec.ofNat 39 a)) 8)
      let leaf := e / 2 % 2 == 1
      let frame := e / 256 % 2 ^ 31 * 256
      match entryError e leaf with
      | some why => .error why
      | none =>
        if leaf then
          if !l.leafOk || frame % 2 ^ l.shift ≠ 0 then .error 3 else .ok (e, l.shift)
        else if l.leafMust then .error 3
        else State.walk s key va rest frame

/-- The translation that a leaf entry gives. -/
def tlbOf (asid : Asid) (va : DWord) (e bits : Nat) : TlbEntry :=
  { asid := asid, vpage := BitVec.ofNat 64 (va.toNat % 2 ^ 57 / 2 ^ bits), bits := bits,
    dev := BitVec.ofNat 10 (e / 2 ^ 54), ptype := BitVec.ofNat 2 (e / 2 ^ 52), ilv := e / 2 ^ 51 % 2 == 1,
    frame := BitVec.ofNat 39 (e / 256 % 2 ^ 31 * 256), w := e / 4 % 2 == 1 }

/-- A held translation serves an address (R203). -/
def TlbEntry.serves (t : TlbEntry) (asid : Asid) (va : DWord) : Bool :=
  t.asid == asid && t.vpage.toNat == va.toNat % 2 ^ 57 / 2 ^ t.bits

/-- The space of an ASID. -/
def State.spaceOf (s : State) (asid : Asid) : Option Space := s.spaces.find? fun x => x.asid == asid

/-- The translation held for an address by the core's TLB or the cluster's cache (R203). -/
def State.held (s : State) (c : Option CoreId) (asid : Asid) (va : DWord) : Option TlbEntry :=
  match c with
  | none => none
  | some c =>
    match (s.core c).tlb.find? (·.serves asid va) with
    | some t => some t
    | none => (s.clusters.get (clusOf c)).tcache.find? (·.serves asid va)

/-- The translation of an ordinary address: held (R203), else walked (R196). -/
def State.lookup (s : State) (c : Option CoreId) (asid : Asid) (va : DWord) : Except (BitVec 4) TlbEntry :=
  match s.held c asid va with
  | some t => .ok t
  | none =>
    match s.spaceOf asid with
    | none => .error 0
    | some sp =>
      match sp.root with
      | none => .error 0
      | some root =>
        match s.walk (s.keyOf sp.part) va levels root.toNat with
        | .error why => .error why
        | .ok (e, bits) => .ok (tlbOf asid va e bits)

/-- The root table of an address space has been set (R195). -/
def State.rooted (s : State) (asid : Asid) : Bool := ((s.spaceOf asid).bind (·.root)).isSome

/-- Translation of an access of `size` bytes (R195 to R200, R204, R406), or the WHY of its fault. -/
def State.translate (s : State) (c : Option CoreId) (asid : Asid) (va : DWord) (size : Nat) (write : Bool) :
    Except (BitVec 4) Place :=
  if !s.rooted asid then .error 0
  else if !canonicalVa va then .error 2
  else if inMulticast va then .error 4
  else if inAperture va then
    match c with
    | none => .error 4
    | some k =>
      let off := va.toNat - apertureBase
      let p := (s.core k).psize
      if (s.core k).powner ≠ asid || p < off + size then .error 4
      else .ok { dev := s.devid, pa := vaultPa k (vaultSize - p + off), path := .vertical, ptype := 0, fill := none }
  else
    match s.lookup c asid va with
    | .error why => .error why
    | .ok t =>
      let pa := t.frame.toNat + va.toNat % 2 ^ t.bits
      match (if t.ilv then s.ilvPa t.dev pa else some pa) with
      | none => .error 3
      | some pa =>
        if !implemented pa then .error 3
        else if write && !t.w then .error 1
        else
          .ok { dev := t.dev, pa := BitVec.ofNat 39 pa, path := s.pathTo c t.dev (BitVec.ofNat 39 pa),
                ptype := t.ptype, fill := some t }

/-- A list of held translations with one more, the oldest dropped at the limit (log 8). -/
def fillList (limit : Nat) (l : List TlbEntry) (t : TlbEntry) : List TlbEntry :=
  if l.contains t then l else if l.length < limit then l ++ [t] else l.drop 1 ++ [t]

/-- The TLB and the cluster's translation cache hold the translation just used (R203, log 8). -/
def State.fill (s : State) (c : CoreId) (t : Option TlbEntry) : State :=
  match t with
  | none => s
  | some t =>
    (s.modCore c fun k => { k with tlb := fillList 64 k.tlb t }).modClus (clusOf c) fun k =>
      { k with tcache := fillList 8192 k.tcache t }

/-! ### Translation faults -/

/-- A translation fault joins the faults of its partition, to be written in the order taken (R204, R205). -/
def State.postFault (s : State) (p : PartId) (x : XFault) : State :=
  s.modPart p fun q => { q with faults := q.faults ++ [x] }

/-- The issuing fragment stalls on a translation fault (R204). -/
def State.stallFault (s : State) (va : DWord) (kind : BitVec 3) (why : BitVec 4) : State :=
  let c := s.cur.core
  ((s.setWait .fault).postFault s.t.part
    { va := va, asid := s.t.asid, clus := BitVec.ofNat 3 (clusOf c).val, core := BitVec.ofNat 8 (coreidOf c),
      slot := BitVec.ofNat 4 s.cur.slot.val, kind := kind, why := why, queue := 0,
      who := .frag c s.cur.slot s.cur.hnd s.cur.frag }).stall

/-! ### Range locks -/

/-- The byte ranges `[a, a + m)` and `[b, b + n)` share a byte. -/
def overlap (a m b n : Nat) : Bool := a < b + n && b < a + m

/-- The lowest entry of the core's table that an access of the team matches (R253): destination entries, and source
entries too where the access writes. -/
def Core.lockHit (k : Core) (asid : Asid) (tile : Bool) (base len : Nat) (write : Bool) : Option (Fin 64) :=
  (allFin 64).find? fun i =>
    let e := k.locks.get i
    e.v && e.spc == tile && e.asid == asid && (e.dir || write) && overlap e.base.toNat e.len.toNat base len

/-- trapinfo of RANGE_LOCK (R152). -/
def lockInfo (va : DWord) (entry : Fin 64) (write : Bool) : DWord :=
  BitVec.ofNat 64 (va.toNat % 2 ^ 57 + entry.val * 2 ^ 57 + (if write then 2 ^ 63 else 0))

/-! ### The issue checks of an access -/

/-- The outcome of the checks 3 to 5 of R211, R221 and R265 for the lanes of an instruction. -/
inductive Checked where
  | ok (places : List (LaneId × DWord × Place))
  | misaligned (ea : DWord)
  | fault (ea : DWord) (why : BitVec 4)
  | outside (clusters : BitVec 8)
  | locked (ea : DWord) (entry : Fin 64)
deriving DecidableEq, Repr

/-- Targets of a multicast address (R406, R408): the cores with the issuing coreid on the clusters of MASK. -/
def mcastTargets (c : CoreId) (va : DWord) : List CoreId :=
  ((allFin 8).filter fun k => va.getLsbD (28 + k.val)).map fun k => coreAt k (coreidOf c)

/-- A multicast address is well formed (R406): bits [39:36] and [27] are 0. -/
def mcastOk (va : DWord) : Bool := va.toNat / 2 ^ 36 % 16 == 0 && va.toNat / 2 ^ 27 % 2 == 0

/-- The deliveries of a multicast store (R407, R408), or WHY 4. -/
def State.mcastPlaces (s : State) (c : CoreId) (asid : Asid) (va : DWord) (size : Nat) : Except (BitVec 4) (List Place) :=
  let off := va.toNat % 2 ^ 27
  if !s.rooted asid then .error 0
  else if !mcastOk va then .error 4
  else if (mcastTargets c va).any fun k => (s.core k).powner != asid || (s.core k).psize < off + size then .error 4
  else .ok ((mcastTargets c va).map fun k =>
    let pa := vaultPa k (vaultSize - (s.core k).psize + off)
    { dev := s.devid, pa := pa, path := s.pathTo (some c) s.devid pa, ptype := 0, fill := none })

/-- The bits of the MASKs of multicast addresses that lie outside the team's partition (R407). -/
def State.mcastOutside (s : State) (p : PartId) (eas : List DWord) : BitVec 8 :=
  eas.foldl (fun m va =>
    if inMulticast va then
      m ||| (BitVec.ofNat 8 (va.toNat / 2 ^ 28) &&& ~~~(s.parts.get p).clusters)
    else m) 0

/-- The address of a delivery as the range locks of the issuing core see it (R407): the local aperture for its own
vault, none elsewhere. -/
def lockVa (c : CoreId) (va : DWord) : Option DWord :=
  if inMulticast va then
    if (mcastTargets c va).contains c then some (BitVec.ofNat 64 (apertureBase + va.toNat % 2 ^ 27)) else none
  else some va

/-- The places of one lane's access: one, or the deliveries of a multicast store. -/
def State.placesOf (s : State) (c : CoreId) (asid : Asid) (va : DWord) (size : Nat) (write mcast : Bool) :
    Except (BitVec 4) (List Place) :=
  if mcast && inMulticast va then s.mcastPlaces c asid va size
  else (s.translate (some c) asid va size write).map fun p => [p]

/-- The checks 3 to 5 for the lanes of an instruction of the issuing team, each order over all lanes, lowest lane
first. `mcast` allows multicast addresses; `write` makes the access writing (W, and every range of R253). -/
def State.checkLanes (s : State) (eas : List (LaneId × DWord)) (size : Nat) (write mcast : Bool) : Checked :=
  let c := s.cur.core
  let asid := s.t.asid
  match eas.find? fun e => e.2.toNat % size ≠ 0 with
  | some e => .misaligned e.2
  | none =>
    let out := if mcast then s.mcastOutside s.t.part (eas.map (·.2)) else 0
    if out ≠ 0 then .outside out
    else
      let found := eas.map fun e => (e, s.placesOf c asid e.2 size write mcast)
      match found.findSome? fun x => match x.2 with | .error why => some (x.1.2, why) | .ok _ => none with
      | some (ea, why) => .fault ea why
      | none =>
        match eas.findSome? fun e =>
            (lockVa c e.2).bind fun va =>
              ((s.core c).lockHit asid false (va.toNat % 2 ^ 57) size write).map fun i => (e.2, i) with
        | some (ea, i) => .locked ea i
        | none => .ok (found.flatMap fun x => match x.2 with
            | .ok ps => ps.map fun p => (x.1.1, x.1.2, p)
            | .error _ => [])

/-- The trap or stall of failed checks; `kind` is the access kind of a fault entry (R204). -/
def State.refuseAccess (s : State) (kind : BitVec 3) (write : Bool) : Checked → State
  | .ok _ => s.stall
  | .misaligned ea => s.trap .alignFault (BitVec.ofNat 64 (ea.toNat % 2 ^ 57))
  | .fault ea why => s.stallFault ea kind why
  | .outside m => s.trap .partitionFault (m.setWidth 64)
  | .locked ea i => s.trap .rangeLock (lockInfo ea i write)

/-! ### Accesses in flight -/

/-- `y` precedes `x` in program order (R239): an earlier instruction of a fragment that shares a lane. -/
def Access.before (y x : Access) : Bool :=
  y.id < x.id && y.slot == x.slot && y.team == x.team && (y.lanes &&& x.lanes) != 0 && y.instr != x.instr

/-- The places of an access: those of a cell's words (R359), else one. -/
def Access.spans (x : Access) : List (BitVec 10 × BitVec 39 × Nat) :=
  match x.kind with
  | .cell ws => ws.map fun w => (w.dev, w.pa, 8)
  | _ => [(x.dev, x.pa, x.size)]

/-- The accesses touch a common byte. -/
def Access.meets (y x : Access) : Bool :=
  y.spans.any fun a => x.spans.any fun b => a.1 == b.1 && overlap a.2.1.toNat a.2.2 b.2.1.toNat b.2.2

/-- The paths of an access: those of a cell's words, else one. -/
def Access.paths (x : Access) : List Path :=
  match x.kind with
  | .cell ws => ws.map (·.path)
  | _ => [x.path]

/-- Two accesses go, in a part, on one path, the accesses to each package apart (R212). -/
def Access.samePath (y x : Access) : Bool := y.paths.any fun p => x.paths.contains p

/-- Two paths are both the vertical one, or both horizontal: an access to another package counts as horizontal (R199). -/
def Path.besides (a b : Path) : Bool := (a == .vertical) == (b == .vertical)

/-- Two accesses go, in a part, on one of the two paths that releases and acquires order (R199, R212, R247). -/
def Access.besides (y x : Access) : Bool := y.paths.any fun p => x.paths.any p.besides

/-- A write-combining store (R202). -/
def Access.combining (x : Access) : Bool :=
  x.ptype == 1 && (match x.kind with | .store _ => true | _ => false)

/-- The access still has to be performed at .core scope. -/
def Access.open (y : Access) : Bool := !y.done

/-- `y` is locally ordered before the later access `x` of its fragment, where both are in device memory (R202, R212, R240,
R247). -/
def Access.ordered (y x : Access) : Bool :=
  y.before x &&
    (y.meets x || y.id < x.vh ||
     (y.samePath x && ((!y.combining && !x.combining) || y.rel.isSome)) ||
     (y.besides x && (y.acq.isSome || y.id < x.fenced)) ||
     (match x.rel with
      | none => false
      | some r => (y.besides x && y.id < r.same) || y.id < r.any))

/-- `y` keeps `x` from being performed at .core (R202, R209, R212, R259, R363). -/
def Access.blocks (y x : Access) : Bool :=
  y.open && y.id < x.id &&
  (y.ordered x ||
   (y.slot == x.slot && y.team == x.team && y.instr == x.instr && (y.meets x || (y.serial && x.serial))))

/-- `x` may be performed at .core now. -/
def Core.mayPerform (k : Core) (x : Access) : Bool := !k.accs.any fun y => y.blocks x

/-! ### What happens before an access (R242) -/

/-- The mark is on a path of the access. -/
def Mark.onPath (m : Mark) (x : Access) : Bool :=
  m.path.all fun p => x.paths.contains p || ((m.wide || x.rel.any fun r => m.id < r.same) && x.paths.any p.besides)

/-- The mark stands before an access: of the same lanes, on the mark's path or across a fence.vh (R212, R241, R247). -/
def Mark.covers (m : Mark) (x : Access) : Bool :=
  m.slot == x.slot && m.team == x.team && (m.lanes &&& x.lanes) != 0 && m.id ≤ x.id && (m.acq || m.id < x.fenced) &&
    (m.onPath x || m.id < x.vh || x.rel.any fun r => m.id < r.any)

/-- The stores of the core, among those numbered in `ids`, that are not yet performed at .sys. -/
def Core.still (k : Core) (ids : List Nat) : List Nat := ids.filter fun n => k.accs.any fun y => y.done && y.id == n

/-- The stores of the core that happen before `x` and are not yet performed at .sys: those locally ordered before it, those
that its marks name, and what happens before these. -/
def Core.pastOf (k : Core) (x : Access) : List Nat :=
  k.still (firsts (((k.accs.filter fun y => y.done && y.ordered x).flatMap fun y => y.id :: y.past) ++
    (k.marks.filter fun m => m.covers x).flatMap (·.past)))

/-- The marks that still name a store not performed at .sys. -/
def Core.pruneMarks (k : Core) : Core :=
  { k with
    marks := (k.marks.map fun m => { m with past := k.still m.past }).filter fun m => !m.past.isEmpty
    narrow := k.still k.narrow }

/-- A performed access orders what happens before it, `past`, before the accesses that follow it on its path; what it has
observed as an acquire (`wide`), before those to any package (R199, R212). -/
def Core.addMark (k : Core) (x : Access) (acq wide : Bool) (past : List Nat) : Core :=
  if past.isEmpty then k
  else
    { k with marks := k.marks ++ x.paths.map fun p =>
        { slot := x.slot, team := x.team, lanes := x.lanes, path := some p, wide := wide, id := x.id, acq := acq, past := past } }

/-- `x` comes before its turn at .sys (R212, R241 to R243): an earlier store to its bytes, or what happens before a release at
.clus or wider, still has to be performed there. -/
def Core.mayRaise (k : Core) (x : Access) : Bool :=
  !(if x.done then k.accs.takeWhile fun y => y.id != x.id else k.accs).any (fun y => y.done && y.meets x) &&
    (match x.rel with
     | none => true
     | some r => r.scope.toNat < 2 || (k.still (if x.done then x.past else k.pastOf x)).isEmpty)

/-- An access by number. -/
def Core.acc? (k : Core) (id : Nat) : Option Access := k.accs.find? fun a => a.id == id

/-- An access leaves the list. -/
def State.dropAcc (s : State) (c : CoreId) (id : Nat) : State :=
  s.modCore c fun k => { k with accs := k.accs.filter fun a => a.id != id }.pruneMarks

/-- The access is a release at .gang or .core (R248). -/
def Access.narrow (x : Access) : Bool :=
  match x.rel with
  | some r => r.scope.toNat ≤ 1
  | none => false

/-- The release at .gang or .core that a performed access is (R248). -/
def Access.tag (x : Access) (c : CoreId) : List RelTag :=
  match x.rel with
  | some r =>
    if r.scope.toNat ≤ 1 then
      [{ core := c, slot := x.slot, team := x.team, scope := r.scope, past := x.past, raises := x.raises }]
    else []
  | none => []

/-- An access as it is performed: what happens before it, and for a release at .gang or .core what a promotion of it raises:
itself, the earlier ones of its core, and all that happens before these (R248). -/
def Core.performed (k : Core) (x : Access) : Access :=
  let past := k.pastOf x
  { x with done := true, past := past, raises := if x.narrow then firsts (k.narrow ++ past ++ [x.id]) else [] }

/-- The bytes that an access stores reach device memory (R443); the tags of R248 follow them. -/
def State.storeBytes (s : State) (c : CoreId) (x : Access) (bs : List Byte) : State :=
  let a := memIx x.dev x.pa
  if s.bad a then s.storeUnit (s.keyOf x.part) a bs
  else
    { s.storeUnit (s.keyOf x.part) a bs with relTags := tagBytes s.relTags a bs.length (x.tag c) }

/-- A store already performed at .core is performed at .sys; what happens before it stands before its fragment's later
accesses as before. -/
def State.raise (s : State) (c : CoreId) (x : Access) : State :=
  match x.kind with
  | .store bs => ((s.storeBytes c x bs).modCore c fun k => k.addMark x true false x.past).dropAcc c x.id
  | _ => s

/-- The stores of a list, in order, that are wanted or that share a byte with a wanted later one. -/
def withEarlier (want : Access → Bool) : List Access → List Access
  | [] => []
  | x :: xs =>
    let r := withEarlier want xs
    if want x || r.any fun y => x.meets y then x :: r else r

/-- The stores of a core performed at .core that are wanted are performed at .sys, in their order, with the earlier ones to
their bytes. -/
def State.raiseSome (s : State) (c : CoreId) (want : Access → Bool) : State :=
  (withEarlier want ((s.core c).accs.filter (·.done))).foldl (fun s x => s.raise c x) s

/-- Every store of a core that is performed at .core is performed at .sys. -/
def State.raiseAll (s : State) (c : CoreId) : State := s.raiseSome c fun _ => true

/-- The last store of core `c` performed at .core to a byte (R34, R243). -/
def Core.lastStore (k : Core) (part : PartId) (dev : BitVec 10) (pa : Nat) : Option Access :=
  k.accs.foldl (fun b x =>
    match x.kind with
    | .store _ => if x.done && x.part == part && x.dev == dev && x.pa.toNat ≤ pa && pa < x.pa.toNat + x.size then some x else b
    | _ => b) none

/-- A byte as core `c` sees it: the last of its own stores performed at .core, else device memory (R34). -/
def State.viewByte (s : State) (c : CoreId) (part : PartId) (dev : BitVec 10) (pa : Nat) : Byte :=
  (s.core c).accs.foldl (fun b x =>
    match x.kind with
    | .store bs =>
      if x.done && x.part == part && x.dev == dev && x.pa.toNat ≤ pa && pa < x.pa.toNat + x.size then
        bs.getD (pa - x.pa.toNat) b
      else b
    | _ => b) (s.rdByte (s.keyOf part) (memIx dev (BitVec.ofNat 39 pa)))

/-- Bytes as core `c` sees them. -/
def State.viewN (s : State) (c : CoreId) (part : PartId) (dev : BitVec 10) (pa n : Nat) : List Byte :=
  (List.range n).map fun i => s.viewByte c part dev (pa + i)

/-- R248: an acquire with REM at .clus or wider that reads a byte whose value leads back to a release at .gang or .core of
another core raises that release and the earlier ones of its core, with all that happens before them. -/
def State.promote (s : State) (c : CoreId) (x : Access) : State :=
  match x.acq with
  | none => s
  | some scope =>
    if !x.rem || scope.toNat ≤ 1 then s
    else
      let ts := (List.range x.size).flatMap fun i => s.tagsAt (memIx x.dev x.pa + i)
      (firsts ((ts.filter fun t => t.core != c).map (·.core))).foldl (fun s p =>
        s.raiseSome p fun y => ts.any fun t => t.core == p && t.raises.contains y.id) s

/-- A release of gang slot `i` and the access `x` include each other by their scopes, on one core (R238, R241). -/
def scopesMeet (slot team : SlotId) (rel acq : BitVec 3) (x : Access) : Bool :=
  (1 ≤ rel.toNat && 1 ≤ acq.toNat) || (slot == x.slot && team == x.team)

/-- The stores of the core that happen before a release of the core whose value `x` reads, and that release (R241): read from
a store not yet performed at .sys, or through the tags of the bytes. -/
def State.observed (s : State) (c : CoreId) (x : Access) (scope : BitVec 3) : List Nat :=
  (List.range x.size).flatMap fun i =>
    match (s.core c).lastStore x.part x.dev (x.pa.toNat + i) with
    | some y =>
      (match y.rel with
       | some r => if scopesMeet y.slot y.team r.scope scope x then y.id :: y.past else []
       | none => [])
    | none => (s.tagsAt (memIx x.dev x.pa + i)).flatMap fun t =>
        if t.core == c && scopesMeet t.slot t.team t.scope scope x then t.past else []

/-- A load or atomic `x` has read its bytes (R241, R242, R247): an acquire stands after the releases that it reads, any other
read does so from a later fence with ACQ on; what happens before `x` itself stands before what follows it. -/
def State.noteRead (s : State) (c : CoreId) (x : Access) : State :=
  let k := s.core c
  let own := k.pastOf x
  let seen := k.still (firsts (s.observed c x (x.acq.getD 1)))
  s.modCore c fun k =>
    if x.acq.isSome then k.addMark x true true (firsts (own ++ seen))
    else (k.addMark x true false own).addMark x false true seen

/-- The store `x` is performed at .core: it is the last of the core's stores in the order of its bytes (R34, R243), and a
release at .gang or .core among those that a promotion raises (R248). -/
def Core.perform (k : Core) (x : Access) : Core :=
  let y := k.performed x
  { k with accs := (k.accs.filter fun a => a.id != x.id) ++ [y], narrow := if x.narrow then y.raises else k.narrow }

/-! ### Issuing accesses -/

/-- An open access of the issuing fragment's program order with a number below `n`. -/
def State.openBelow (s : State) (n : Nat) : Bool :=
  s.curCore.accs.any fun y =>
    y.open && y.id < n && y.slot == s.cur.slot && y.team == s.g.team && (y.lanes &&& s.em) != 0

/-- An access of the issuing fragment's program order, or a store that happens before what it does next, is not yet
performed at .sys (R242, R442). -/
def State.unraised (s : State) : Bool :=
  (s.curCore.accs.any fun y =>
    y.slot == s.cur.slot && y.team == s.g.team && (y.lanes &&& s.em) != 0) ||
  (s.curCore.marks.any fun m =>
    m.slot == s.cur.slot && m.team == s.g.team && (m.lanes &&& s.em) != 0 && (m.acq || m.id < s.f.acqSeq) &&
      !(s.curCore.still m.past).isEmpty)

/-- A write-combining store of the fragment that is not yet performed (R202). -/
def State.openCombining (s : State) : Bool :=
  s.curCore.accs.any fun y =>
    y.open && y.combining && y.slot == s.cur.slot && y.team == s.g.team && (y.lanes &&& s.em) != 0

/-- The fragment's next memory access may issue: what stood before its last fence.vh is performed (R247). -/
def State.memReady (s : State) : Bool := !s.openBelow s.f.vhSeq

/-- The fragment's next tile access may issue (R240). -/
def State.tileReady (s : State) : Bool := !s.openBelow (Nat.max s.f.vhSeq s.f.tileSeq)

/-- Every earlier access of the fragment is performed at .core (R250, R274). -/
def State.quiet (s : State) : Bool := !s.openBelow s.curCore.seq

/-- An access at a strongly ordered page (R202). -/
def anyStrong (ps : List (LaneId × DWord × Place)) : Bool := ps.any fun p => p.2.2.ptype == 3

/-- The accesses of an instruction may issue now: ordering of R202 and R247. An access at a strongly ordered page is a
release at .sys: what it orders is performed there first. -/
def State.mayIssue (s : State) (ps : List (LaneId × DWord × Place)) (rel : Bool) : Bool :=
  s.memReady && (!anyStrong ps || !s.unraised) && (!(rel || anyStrong ps) || !s.openCombining)

/-- Accesses numbered below this stand before what the issuing fragment does next on either path, where that is a release, an
acquire or a fence (`sync`) or anything else (R240, R247): those before its last fence.vh, and with `sync` those before a tile
access of it. -/
def State.crossed (s : State) (sync : Bool) : Nat := if sync then Nat.max s.f.vhSeq s.f.viaTile else s.f.vhSeq

/-- What a store or atomic of the issuing fragment orders before it: its own release (scope `rel`), the fragment's
last fence with REL, or a strongly ordered page (R202, R212, R247). -/
def State.relInfo (s : State) (rel : Option (BitVec 3)) (strong : Bool) : Option RelInfo :=
  let seq := s.curCore.seq
  if strong then some { scope := 4, same := seq, any := seq }
  else
    match rel, s.f.relFence with
    | none, none => none
    | some sc, none => some { scope := sc, same := seq, any := s.crossed true }
    | none, some r => some { scope := r.1, same := r.2, any := s.f.vhSeq }
    | some sc, some r =>
      some { scope := if sc.toNat < r.1.toNat then r.1 else sc, same := seq, any := s.crossed true }

/-- What the accesses of one instruction have in common. -/
structure Req where
  kind : AccKind
  size : Nat
  acq : Option (BitVec 3)
  rem : Bool
  rel : Option (BitVec 3)
  dst : Option (Nat × LaneId × Nat)
  leaf : Option LeafReq
  serial : Bool
deriving DecidableEq, Repr

/-- An access of the issuing instruction. -/
def State.newAcc (s : State) (ea : DWord) (p : Place) (r : Req) : Access :=
  let strong := p.ptype == 3
  let writes := match r.kind with | .load => false | .source .. => false | _ => true
  { id := s.curCore.seq, slot := s.cur.slot, team := s.g.team, lanes := s.em, instr := s.curCore.instrs, dev := p.dev, pa := p.pa,
    size := r.size, va := ea, asid := s.t.asid, part := s.t.part, path := p.path, ptype := p.ptype, kind := r.kind,
    acq := if strong then some 4 else r.acq, rem := r.rem,
    rel := if writes then s.relInfo r.rel strong else none, serial := r.serial, steep := s.t.steep, fenced := s.f.acqSeq,
    vh := s.crossed (strong || r.acq.isSome || r.rel.isSome), done := false, past := [], raises := [], dst := r.dst, leaf := r.leaf }

/-- One access of the issuing instruction enters the core's list. -/
def State.pushAcc (s : State) (ea : DWord) (p : Place) (r : Req) : State :=
  (s.fill s.cur.core p.fill).modK fun k => { k with seq := k.seq + 1, accs := k.accs ++ [s.newAcc ea p r] }

/-- The issuing fragment's tile accesses wait for its accesses so far (R240). -/
def State.markTiles (s : State) : State :=
  let n := s.curCore.seq
  s.modG fun g => g.modFrag s.cur.frag fun f => { f with tileSeq := n }

/-- The issuing fragment makes a tile access (R240): what stands before it stands before the next release, acquire or fence. -/
def State.noteTile (s : State) : State :=
  s.modG fun g => g.modFrag s.cur.frag fun f => { f with viaTile := Nat.max f.viaTile (Nat.max f.vhSeq f.tileSeq) }

/-- A release, an acquire or a fence of the issuing fragment: what stands before its tile accesses stands before all that follows,
on either path (R240). Those accesses are performed at .core already, so nothing waits. -/
def State.crossTiles (s : State) : State :=
  s.modG fun g => g.modFrag s.cur.frag fun f => { f with vhSeq := Nat.max f.vhSeq f.viaTile }

/-- The fragment's memory and tile accesses wait for its accesses so far (R202, R247). -/
def State.markVh (s : State) : State :=
  let n := s.curCore.seq
  s.modG fun g => g.modFrag s.cur.frag fun f => { f with vhSeq := n, tileSeq := n }

/-- The bytes `[a, a + n)` and the addresses from `lo` up to but without `hi` have one in common. -/
def meetsWindow (a n lo hi : Nat) : Bool := a < hi && lo < a + n

/-- A byte of the range lies in the aperture or the multicast window (R200, R406); a range may go on past the last address at 0. -/
def touchesAperture (va : DWord) (n : Nat) : Bool :=
  let m := Nat.max n 1
  let hit (a : Nat) : Bool :=
    meetsWindow a m apertureBase (apertureBase + 0x8000000) || meetsWindow a m 0x00FFFF0000000000 0x00FFFF0FF8000000
  hit va.toNat || (2 ^ 64 < va.toNat + m && (meetsWindow 0 (va.toNat + m - 2 ^ 64) apertureBase (apertureBase + 0x8000000) ||
    meetsWindow 0 (va.toNat + m - 2 ^ 64) 0x00FFFF0000000000 0x00FFFF0FF8000000))

/-- A team has made accesses to the ranges; those in the aperture or the multicast window bind it to its core (R201). -/
def State.noteRanges (s : State) (c : CoreId) (ti : SlotId) (rs : List (DWord × Nat)) : State :=
  if rs.any fun r => touchesAperture r.1 r.2 then s.modCore c fun k => k.modTeam ti fun t => { t with usedAperture := true }
  else s

/-- The issuing team has made accesses to the ranges (R201). -/
def State.noteOwn (s : State) (rs : List (DWord × Nat)) : State := s.noteRanges s.cur.core s.g.team rs

/-- The accesses `ps` of the issuing instruction, to the lanes' addresses `eas`, are all listed: the instruction number moves
on; an acquire, a release or a strongly ordered page leaves its mark (R202, R240); an aperture access its own (R201). -/
def State.endAccs (s : State) (eas : List (LaneId × DWord)) (ps : List (LaneId × DWord × Place)) (sync : Bool) : State :=
  let s1 := s.modK fun k => { k with instrs := k.instrs + 1 }
  let s2 := if anyStrong ps then s1.markVh else if sync then s1.markTiles.crossTiles else s1
  s2.noteOwn (eas.map fun e => (e.2, 1))

/-- Loads of `size` bytes that the issuing instruction makes at its issue, its fragment held until they have their data: each is
performed at once (R241, R247), and a strongly ordered page leaves its mark (R202). -/
def State.loadsNow (s : State) (ps : List (LaneId × DWord × Place)) (size : Nat) : State :=
  (ps.foldl (fun (s : State) x =>
    let a := s.newAcc x.2.1 x.2.2
      { kind := .load, size := size, acq := none, rem := false, rel := none, dst := none, leaf := none, serial := false }
    ((s.fill s.cur.core x.2.2.fill).modK fun k => { k with seq := k.seq + 1 }).noteRead s.cur.core a) s).endAccs
    (ps.map fun x => (x.1, x.2.1)) ps false

/-- The words of a block of `len` bytes that the issuing instruction reads at its issue, each with its place. -/
def State.blockPlaces (s : State) (va : DWord) (len : Nat) : List (LaneId × DWord × Place) :=
  (List.range (len / 8)).filterMap fun i =>
    let a := va + BitVec.ofNat 64 (8 * i)
    match s.translate (some s.cur.core) s.t.asid a 8 false with
    | .ok p => some (0, a, p)
    | .error _ => none

/-! ### Engine accesses -/

/-- Why an engine access ends (R281, R282). -/
inductive EngErr where
  | xlate (va : DWord) (why : BitVec 4)
  | bad (va : DWord) (dev : BitVec 10) (pa : BitVec 39)
deriving DecidableEq, Repr

/-- Who makes an engine access: the core, if any, the partition and the address space. -/
structure Party where
  core : Option CoreId
  part : PartId
  asid : Asid
deriving DecidableEq, Repr

/-- A byte range cut at 32-byte units, so that each piece lies in one unit and one page. -/
def cut : Nat → DWord → Nat → List (DWord × Nat)
  | 0, _, _ => []
  | fuel + 1, va, len =>
    if len = 0 then []
    else
      let n := Nat.min len (32 - va.toNat % 32)
      (va, n) :: cut fuel (va + BitVec.ofNat 64 n) (len - n)

/-- The pieces of a byte range. -/
def pieces (va : DWord) (len : Nat) : List (DWord × Nat) := cut (len / 32 + 2) va len

/-- One piece read by an engine: what its core sees (R250), or device memory for a party on no core. -/
def State.engPiece (s : State) (w : Party) (va : DWord) (n : Nat) : Except EngErr (List Byte) :=
  match s.translate w.core w.asid va n false with
  | .error why => .error (.xlate va why)
  | .ok p =>
    if s.bad (memIx p.dev p.pa) then .error (.bad va p.dev p.pa)
    else
      match w.core with
      | some c => .ok (s.viewN c w.part p.dev p.pa.toNat n)
      | none => .ok (s.rdN (s.keyOf w.part) (memIx p.dev p.pa) n)

/-- Pieces read in order; the first error ends the read. -/
def State.engPieces (s : State) (w : Party) : List (DWord × Nat) → Except EngErr (List Byte)
  | [] => .ok []
  | (va, n) :: rest =>
    match s.engPiece w va n with
    | .error e => .error e
    | .ok bs =>
      match State.engPieces s w rest with
      | .error e => .error e
      | .ok cs => .ok (bs ++ cs)

/-- An engine reads a range of device memory. -/
def State.engRead (s : State) (w : Party) (va : DWord) (len : Nat) : Except EngErr (List Byte) :=
  s.engPieces w (pieces va len)

/-- The first piece of a range that does not translate for a reader, with the WHY of its fault. -/
def State.engFault (s : State) (w : Party) (va : DWord) (len : Nat) : Option (DWord × BitVec 4) :=
  (pieces va len).findSome? fun x =>
    match s.translate w.core w.asid x.1 x.2 false with | .error why => some (x.1, why) | .ok _ => none

/-- A range read by an engine whose whole is translated before an error of any part is reported. -/
def State.engWhole (s : State) (w : Party) (va : DWord) (len : Nat) : Except EngErr (List Byte) :=
  match s.engFault w va len with
  | some (a, why) => .error (.xlate a why)
  | none => s.engRead w va len

/-- The range can be written by an engine: every piece translates with W. -/
def State.engMayWrite (s : State) (w : Party) (va : DWord) (len : Nat) : Except EngErr Unit :=
  match (pieces va len).findSome? fun x =>
      match s.translate w.core w.asid x.1 x.2 true with | .error why => some (x.1, why) | .ok _ => none with
  | some (va, why) => .error (.xlate va why)
  | none => .ok ()

/-- One piece written by an engine at .sys (R254, R283); the core's own stores that are performed are raised first. -/
def State.engPut (s : State) (w : Party) (va : DWord) (bs : List Byte) : State :=
  match s.translate w.core w.asid va bs.length true with
  | .error _ => s
  | .ok p =>
    let a := memIx p.dev p.pa
    { s.storeUnit (s.keyOf w.part) a bs with relTags := tagBytes s.relTags a bs.length [] }

/-- Bytes written piece by piece. -/
def State.engPuts (s : State) (w : Party) : List (DWord × Nat) → List Byte → State
  | [], _ => s
  | (va, n) :: rest, bs => State.engPuts (s.engPut w va (bs.take n)) w rest (bs.drop n)

/-- The core's own performed stores are raised, where the party stands on a core (R250). -/
def State.raiseFor (s : State) (w : Party) : State :=
  match w.core with
  | some c => s.raiseAll c
  | none => s

/-- An engine writes a range of device memory. -/
def State.engWrite (s : State) (w : Party) (va : DWord) (bs : List Byte) : State :=
  (s.raiseFor w).engPuts w (pieces va bs.length) bs

end Sys2Proof.Machine
end

