-- ==== Sys2Proof/Machine/Sync.lean ====
section
/-!
DEFINITION. fence (R245 to R247) and the named barriers (R268 to R274).
-/
namespace Sys2Proof.Machine

/-! ### fence -/

/-- The last fence with REL after one at scope `s` issued at access number `n` (R247). -/
def joinRel (old : Option (BitVec 3 × Nat)) (s : BitVec 3) (n : Nat) : BitVec 3 × Nat :=
  match old with
  | none => (s, n)
  | some o => (if s.toNat < o.1.toNat then o.1 else s, n)

/-- FENCE (R247). With write-combining stores of the fragment still to be performed it waits (R202). The scope of ACQ is not
kept: an earlier load stands after the release it has read where that release's scope allows it (log 54). -/
def execFence (v r q : Bool) (sc : BitVec 3) (s : State) : Host.Outcome State Fault Refusal :=
  s.legal (.fence v r q sc)
    (if s.openCombining then s.stall
     else
       let n := s.curCore.seq
       let s1 := if v then s.markVh else s.markTiles.crossTiles
       let s2 := if r then
           s1.modG fun g => g.modFrag s.cur.frag fun f => { f with relFence := some (joinRel f.relFence sc n) }
         else s1
       let s3 := if q then s2.modG fun g => g.modFrag s.cur.frag fun f => { f with acqSeq := n } else s2
       s3.completeU 4 true)

/-! ### Barriers -/

/-- The state with a barrier of a team changed. -/
def State.modBar (s : State) (c : CoreId) (ti : SlotId) (n : BitVec 4) (f : Barrier → Barrier) : State :=
  s.modCore c fun k => k.modTeam ti fun t =>
    { t with bars := t.bars.set (Fin.ofNat 16 n.toNat) (f (t.bars.get (Fin.ofNat 16 n.toNat))) }

/-- A barrier of a team. -/
def State.barOf (s : State) (c : CoreId) (ti : SlotId) (n : BitVec 4) : Barrier :=
  ((s.core c).team ti).bars.get (Fin.ofNat 16 n.toNat)

/-- The gang slots of a team, by ascending gangid. -/
def State.teamSlots (s : State) (c : CoreId) (ti : SlotId) : List SlotId :=
  let mine := (allFin 16).filter fun i => (s.gangAt c i).live && (s.gangAt c i).team == ti
  (List.range 16).filterMap fun g => mine.find? fun i => (s.gangAt c i).gangid.toNat == g

/-- The fragment of a gang that waits as `p` says, if one does. -/
def Gang.waiting? (g : Gang) (p : Wait → Bool) : Option FragId :=
  (allFin 32).find? fun i => (g.frags.get i).valid && p (g.frags.get i).wait

/-- A fragment goes on behind the instruction it waited at; a late failure of the window that the instruction has closed is
then taken (R57). -/
def State.goOn (s : State) (c : CoreId) (i : SlotId) (f : FragId) (size : Nat) : State :=
  (s.modGangAt c i fun g =>
    ((g.modFrag f fun x => { x with wait := .none }).advance { core := c, slot := i, hnd := false, frag := f }
      ((g.frags.get f).pc + BitVec.ofNat 64 size)).settle).deliver c i

/-- The stores of a core that stand before what a gang does next, on either path: its own, and those it has observed (R274). -/
def State.gangPast (s : State) (c : CoreId) (i : SlotId) : List Nat :=
  let k := s.core c
  let g := s.gangAt c i
  k.still (firsts (((k.accs.filter fun y => y.done && y.slot == i && y.team == g.team).flatMap fun y => y.id :: y.past) ++
    (k.marks.filter fun m => m.slot == i && m.team == g.team &&
      (m.acq || g.frags.toList.any fun f => f.valid && m.id < f.acqSeq)).flatMap (·.past)))

/-- What the completed phases of a barrier have ordered stands before the later accesses of the lanes `em` of a gang, on
either path (R274). -/
def State.observeBar (s : State) (c : CoreId) (i : SlotId) (em : BitVec 32) (n : BitVec 4) : State :=
  let g := s.gangAt c i
  let past := (s.core c).still (s.barOf c g.team n).given
  if past.isEmpty then s
  else s.modCore c fun k =>
    { k with
      seq := k.seq + 1
      marks := k.marks ++
        [{ slot := i, team := g.team, lanes := em, path := none, wide := true, id := k.seq, acq := true, past := past }] }

/-- Every fragment waiting at bar on a name is released (R271), behind the completed phase (R274). -/
def State.releaseBar (s : State) (c : CoreId) (ti : SlotId) (n : BitVec 4) : State :=
  (s.teamSlots c ti).foldl (fun s i =>
    match (s.gangAt c i).waiting? fun w => w == .barrier n with
    | some f => (s.observeBar c i (BitVec.allOnes 32) n).goOn c i f 4
    | none => s) s

/-- trapinfo of BARRIER_FAULT (R152). -/
def barInfo (n : BitVec 4) (c exp : Nat) : DWord := BitVec.ofNat 64 (n.toNat + c % 32 * 16 + exp * 512)

/-- The arrival itself (R271): the phase may complete, and then the waiters go on; else a bar waits and a bara goes on. -/
def State.arriveNow (s : State) (c : CoreId) (i : SlotId) (f : FragId) (n : BitVec 4) (cnt : Nat) (bar : Bool) : State :=
  let ti := (s.gangAt c i).team
  let b := s.barOf c ti n
  let exp := if b.exp = 0 then cnt else b.exp
  let coming := firsts (b.coming ++ s.gangPast c i)
  if b.arr + 1 = exp then
    let s1 := (s.modBar c ti n fun b =>
      { phase := b.phase + 1, exp := 0, arr := 0, arrived := 0, coming := [], given := firsts (b.given ++ coming) }).releaseBar
      c ti n
    (if bar then s1.observeBar c i (BitVec.allOnes 32) n else s1).goOn c i f 4
  else
    let s1 := s.modBar c ti n fun b =>
      { b with
        exp := exp, arr := b.arr + 1, arrived := b.arrived ||| BitVec.twoPow 16 (s.gangAt c i).gangid.toNat
        coming := coming }
    if bar then s1.modGangAt c i fun g => g.modFrag f fun x => { x with wait := .barrier n }
    else s1.goOn c i f 4

/-- A held arrival enters the new phase (R271): check 5 of R270, then the arrival. -/
def State.enterHeld (s : State) (c : CoreId) (n : BitVec 4) (i : SlotId) : State :=
  let g := s.gangAt c i
  match g.waiting? (fun w => match w with | .arrival m _ _ => m == n | _ => false) with
  | none => s
  | some f =>
    match (g.frags.get f).wait with
    | .arrival _ cnt bar =>
      let exp := (s.barOf c g.team n).exp
      if exp ≠ 0 && exp ≠ cnt then
        s.trapAt { core := c, slot := i, hnd := false, frag := f } .barrierFault (g.frags.get f).pc (barInfo n cnt exp) 0
      else s.arriveNow c i f n cnt bar
    | _ => s

/-- Gangs of a team that have not exited and have not arrived on a name (R272). -/
def State.notArrived (s : State) (c : CoreId) (ti : SlotId) (n : BitVec 4) : Nat :=
  ((s.teamSlots c ti).filter fun i =>
    (s.gangAt c i).nfrag != 0 && !(s.barOf c ti n).arrived.getLsbD (s.gangAt c i).gangid.toNat).length

/-- The current phase of a name can no longer complete (R272). -/
def State.unreachable (s : State) (c : CoreId) (ti : SlotId) (n : BitVec 4) : Bool :=
  let b := s.barOf c ti n
  b.exp != 0 && b.arr + s.notArrived c ti n < b.exp

/-- An unreachable phase ends (R272): the waiters trap and the phase is cleared. -/
def State.endPhase (s : State) (c : CoreId) (ti : SlotId) (n : BitVec 4) : State :=
  let exp := (s.barOf c ti n).exp
  let s1 := (s.teamSlots c ti).foldl (fun s i =>
    match (s.gangAt c i).waiting? fun w => w == .barrier n with
    | some f =>
      s.trapAt { core := c, slot := i, hnd := false, frag := f } .barrierFault ((s.gangAt c i).frags.get f).pc
        (barInfo n exp exp) 0
    | none => s) s
  s1.modBar c ti n fun b => { b with exp := 0, arr := 0, arrived := 0, coming := [] }

/-- The held arrivals on a name arrive, in ascending gangid (R271), each followed by the test of R272. -/
def State.enterAllHeld (s : State) (c : CoreId) (ti : SlotId) (n : BitVec 4) : State :=
  (s.teamSlots c ti).foldl (fun s i =>
    let s1 := s.enterHeld c n i
    if s1.unreachable c ti n then s1.endPhase c ti n else s1) s

/-- The test of R272 on a name: an unreachable phase ends, and held arrivals arrive. -/
def State.testBar (s : State) (c : CoreId) (ti : SlotId) (n : BitVec 4) : State :=
  if s.unreachable c ti n then (s.endPhase c ti n).enterAllHeld c ti n else s

/-- The test of R272 on every name, after an exit. -/
def State.checkBars (s : State) (c : CoreId) (ti : SlotId) : State :=
  (List.range 16).foldl (fun s n => s.testBar c ti (BitVec.ofNat 4 n)) s

/-- An arrival after the checks, while the fragment waits with it (R271): held where the gang has arrived already, else made; a
completed phase lets the held arrivals in, and R272 tests any other. -/
def State.arrive (s : State) (n : BitVec 4) (cnt : Nat) (bar : Bool) : State :=
  let c := s.cur.core
  let ti := s.g.team
  let b := s.barOf c ti n
  if b.arrived.getLsbD s.g.gangid.toNat then s.stall
  else
    let s1 := s.arriveNow c s.cur.slot s.cur.frag n cnt bar
    (if (s1.barOf c ti n).phase ≠ b.phase then s1.enterAllHeld c ti n else s1.testBar c ti n).stall

/-- The pending results of the issuing fragment, or handler, that are not yet there. -/
def State.awaited (s : State) : Bool := s.g.pend.any fun p => p.ofCur s.cur && !p.ready

/-- The count of an arrival (R269): the field, 0 for ngang, or the lowest active lane of `va`. -/
def State.barCount (s : State) (a : RegField) (r : Bool) (cnt : BitVec 5) : Nat :=
  if r then (half (s.v a s.lowLane).bits false).toNat else if cnt.toNat = 0 then s.t.ngang else cnt.toNat

/-- bar and bara after the encoding check: the checks of R270 in order, then the arrival of R271. The pending results are
written first and the earlier accesses are performed at .core (R274). The instruction is the last of the windows that it closes:
a late failure of one of them is taken once it has ended (R52, R57, log 45). -/
def State.barrier (s : State) (a : RegField) (r : Bool) (cnt : BitVec 5) (n : BitVec 4) (bar : Bool) : State :=
  let g := s.g
  if 2 ≤ g.nfrag || g.intrap then s.trapIllegalConv
  else if r && (s.v a s.lowLane).g0 then
    s.trap .guessEscape (BitVec.ofNat 64 (2 ^ s.lowLane.val + a.toNat * 2 ^ 32))
  else
    let c := s.barCount a r cnt
    let b := s.barOf s.cur.core g.team n
    if c = 0 || s.t.ngang < c then s.trap .barrierFault (barInfo n c 0)
    else if !b.arrived.getLsbD g.gangid.toNat && b.exp ≠ 0 && b.exp ≠ c then s.trap .barrierFault (barInfo n c b.exp)
    else if s.awaited || !s.quiet then s.stall
    else
      (((s.countIssue true).setWait (.arrival n c bar)).deliver s.cur.core s.cur.slot).arrive n c bar

/-- BAR (R271). -/
def execBar (a : RegField) (r : Bool) (c : BitVec 5) (n : BitVec 4) (s : State) : Host.Outcome State Fault Refusal :=
  s.legal (.bar a r c n) (s.barrier a r c n true)

/-- BARA (R271). -/
def execBara (a : RegField) (r : Bool) (c : BitVec 5) (n : BitVec 4) (s : State) : Host.Outcome State Fault Refusal :=
  s.legal (.bara a r c n) (s.barrier a r c n false)

/-- The value that barq reads (R273). -/
def State.barWord (s : State) (n : BitVec 4) : DWord :=
  let b := s.barOf s.cur.core s.g.team n
  let mine := b.arrived.getLsbD s.g.gangid.toNat
  let held := (s.g.waiting? fun w => match w with | .arrival m _ _ => m == n | _ => false).isSome
  BitVec.ofNat 64 (b.arr + b.exp * 256 + bitTo held 14 + bitTo mine 15 + b.phase.toNat * 65536)

/-- BARQ (R273): it shows the completed phases, and stands behind them (R274). -/
def execBarq (d : RegField) (n : BitVec 4) (s : State) : Host.Outcome State Fault Refusal :=
  s.legal (.barq d n) (((s.observeBar s.cur.core s.cur.slot s.em n).writeU d (s.barWord n)).completeU 4 true)

end Sys2Proof.Machine
end

