-- ==== Sys2Proof/Machine/Control.lean ====
section
/-!
DEFINITION. Control flow (R136 to R151), emwr (R146) and the trap instructions (R154 to R157).
-/
namespace Sys2Proof.Machine

/-! ### Transfers -/

/-- The issuing fragment, or the handler, moves to one address; the windows it closes are written (R52). -/
def State.jump (s : State) (a : DWord) : State := ((s.countIssue true).setPc a).finish

/-- R20 for the lanes of the issuing fragment. A divergent outcome in a handler is DOUBLE_FAULT (R156); elsewhere the
results that the split writes first are waited for (R52). -/
def State.transfer (s : State) (dest : LaneId → DWord) (rcv : DWord) : State :=
  if divergent s.lanes dest then
    if s.cur.hnd then s.trapIllegalConv
    else if s.awaited then s.stall
    else ((s.countIssue true).modG fun g => g.branch s.cur.frag dest rcv).finish
  else s.jump (dest s.lowLane)

/-- The reconvergence address of a displacement (R136). -/
def State.rcvOf (s : State) (r : BitVec 16) : DWord := if r = 0 then 0 else s.pc + wordDisp r

/-- BR (R137). -/
def execBr (lit : Word) (s : State) : Host.Outcome State Fault Refusal :=
  s.legal (.br lit) (s.jump (s.pc + wordDisp lit))

/-- A lane takes the branch (R138). -/
def State.takes (s : State) (a : RegField) (v neg : Bool) (l : LaneId) : Bool :=
  (if v then half (s.v a l).bits false != 0 else (s.m a).getLsbD l.val) != neg

/-- BC (R138, R139). -/
def execBc (a : RegField) (v neg g : Bool) (t r : BitVec 16) (s : State) : Host.Outcome State Fault Refusal :=
  s.legal (.bc a v neg g t r)
    (match if v && !g then s.guessInfo [(a, true, false)] else none with
     | some info => s.trap .guessEscape info
     | none => s.transfer (fun l => if s.takes a v neg l then s.pc + wordDisp t else s.pc + 8) (s.rcvOf r))

/-- The entry that a lane's index selects (R140). -/
def State.brxTarget (s : State) (a : RegField) (n : BitVec 16) (l : LaneId) : DWord :=
  let i := (half (s.v a l).bits false).toNat
  s.pc + 8 + BitVec.ofNat 64 (8 * Nat.min i n.toNat)

/-- BRX (R140). -/
def execBrx (a : RegField) (g : Bool) (n r : BitVec 16) (s : State) : Host.Outcome State Fault Refusal :=
  s.legal (.brx a g n r)
    (match if g then none else s.guessInfo [(a, true, false)] with
     | some info => s.trap .guessEscape info
     | none => s.transfer (s.brxTarget a n) (s.rcvOf r))

/-- CALL (R137). -/
def execCall (d : RegField) (lit : Word) (s : State) : Host.Outcome State Fault Refusal :=
  s.legal (.call d lit) ((s.writeV d fun _ => VCell.both (s.pc + 8) false).jump (s.pc + wordDisp lit))

/-- RET (R141). -/
def execRet (a : RegField) (g : Bool) (s : State) : Host.Outcome State Fault Refusal :=
  s.legal (.ret a g)
    (match if g then none else s.guessInfo [(a, true, true)] with
     | some info => s.trap .guessEscape info
     | none =>
       match s.lanes.find? fun l => (s.v a l).bits.toNat % 4 ≠ 0 with
       | some l => s.trap .alignFault (BitVec.ofNat 64 ((s.v a l).bits.toNat % 2 ^ 57))
       | none => s.transfer (fun l => (s.v a l).bits) 0)

/-- The fragments that regang fuses (R23): those at its address, but one whose handler runs or that holds a trap. -/
def Gang.standing (g : Gang) (a : DWord) : List FragId :=
  (allFin 32).filter fun i =>
    let f := g.frags.get i
    f.valid && f.pc == a && !g.inHandler i && f.wait != .held

/-- REGANG (R23). -/
def execRegang (s : State) : Host.Outcome State Fault Refusal :=
  s.legal .regang
    (if s.cur.hnd then s.trapIllegalConv
     else
       ((s.countIssue true).modG fun g =>
         let is := g.standing (g.frags.get s.cur.frag).pc
         g.fuseInto s.cur.frag is ((g.frags.get s.cur.frag).pc + 4) (g.commonJoin is)).finish)

/-! ### Loops -/

/-- LOOP (R147, R149). -/
def execLoop (d a : RegField) (w : BitVec 9) (s : State) : Host.Outcome State Fault Refusal :=
  s.legal (.loop d a w)
    (let endA := s.pc + 8 + BitVec.ofNat 64 (4 * w.toNat)
     let c := half (s.u a) false
     let g := s.g
     if s.cur.hnd || 2 ≤ g.nfrag || 3 ≤ g.loops.length || (g.loops.any fun r => r.counter == d.toNat) ||
        (match g.loops with | [] => false | r :: _ => r.endAddr.toNat ≤ endA.toNat) then s.trapIllegalConv
     else if c = 0 then s.jump endA
     else
       (s.modG fun g =>
         { g with lc := g.lc.set (lcIx d.toNat) c,
                  loops := { counter := d.toNat, start := s.pc + 8, endAddr := endA, lanes := s.em } :: g.loops }).jump
         (s.pc + 8))

/-- LBRK (R149, R150). -/
def execLbrk (a : RegField) (s : State) : Host.Outcome State Fault Refusal :=
  s.legal (.lbrk a)
    (if s.cur.hnd || 2 ≤ s.g.nfrag then s.trapIllegalConv
     else
       match s.g.loops with
       | [] => s.trapIllegalConv
       | r :: rest =>
         if s.u a = 0 then s.jump (s.pc + 4) else (s.modG fun g => { g with loops := rest }).jump r.endAddr)

/-! ### Yield, nop, exit -/

/-- YIELD (R143); in a handler it acts as nop (R156). -/
def execYield (s : State) : Host.Outcome State Fault Refusal :=
  s.legal .yield
    (let s1 := if s.cur.hnd then s else s.modG fun g => g.modFrag s.cur.frag fun f => { f with yield := 64 }
     s1.jump (s.pc + 4))

/-- NOP (R142). -/
def execNop (s : State) : Host.Outcome State Fault Refusal :=
  s.legal .nop (s.jump (s.pc + 4))

/-- The loop records without the lanes that exit; a record left without lanes is popped (R151). -/
def dropLanes (em : BitVec 32) (rs : List LoopRec) : List LoopRec :=
  (rs.map fun r => { r with lanes := r.lanes &&& ~~~em }).filter fun r => r.lanes != 0

/-- The slots of a team whose gangs have all exited are released (R31). -/
def State.releaseTeam (s : State) (c : CoreId) (ti : SlotId) : State :=
  if (s.teamSlots c ti).all fun i => (s.gangAt c i).nfrag == 0 then
    s.modCore c fun k =>
      ((s.teamSlots c ti).foldl (fun k i => k.modGang i fun g => { g with live := false }) k).modTeam ti fun t =>
        { t with allExited := true }
  else s

/-- A gang without a live lane has exited (R24): its lease and held A end (R312, R317), nothing more is delivered to it and its
late slots cover nothing any more (R228), the barriers are tested (R272), and the team's slots may be released (R31). -/
def State.gangExit (s : State) (c : CoreId) (i : SlotId) : State :=
  if (s.gangAt c i).nfrag ≠ 0 then s
  else
    let ti := (s.gangAt c i).team
    let s1 := s.modCore c fun k =>
      (k.endLease i).modGang i fun g => { g with heldA := none, pend := [], late := [], heldTraps := [], intrap := false }
    ({ s1 with reports := s1.reports ++ lostErrors ((s.gangAt c i).late.flatMap LateSlot.lanes) }.checkBars c ti).releaseTeam c ti

/-- The lanes of a fragment exit (R24, R144, R151): it has no next instruction, takes no trap that was held for it, and no result
of another fragment writes its lanes (R17). -/
def Gang.exitFrag (g : Gang) (f : FragId) : Gang :=
  let em := (g.frags.get f).mask
  { g.setFrag f Frag.reset with
    exited := g.exited ||| em, loops := dropLanes em g.loops, heldTraps := g.heldTraps.filter fun h => h.frag != f
    debugHalt := g.debugHalt.map fun n => ((g.heldTraps.take n).filter fun h => h.frag != f).length
    pend := g.pend.map (·.without em) }

/-- Between two states the issuing gang has taken or held a trap. -/
def State.trapsBefore (s t : State) : Bool :=
  (t.g.intrap && !s.g.intrap) || s.g.heldTraps.length < t.g.heldTraps.length

/-- EXIT (R144): the results of the windows it closes are written first; in a handler, those of the trapped fragment's
windows too, and the handler ends. Outside a handler a result that fails traps before the lanes exit. -/
def execExit (s : State) : Host.Outcome State Fault Refusal :=
  s.legal .exit
    (if s.g.pend.any fun p => p.frag == s.cur.frag && !p.ready then s.stall
     else
       let c := s.cur.core
       let i := s.cur.slot
       let s1 := (s.countIssue true).modG fun g =>
         { g with pend := g.pend.map fun p => if p.frag == s.cur.frag then { p with closed := true, left := 0 } else p }
       let s2 := s1.deliver c i
       if s2.t.halted || (!s.cur.hnd && s.trapsBefore s2) then s2.stall
       else if s2.g.pend.any fun p => p.frag == s.cur.frag then s.stall
       else
         let s3 := s2.modG fun g =>
           ({ g.exitFrag s.cur.frag with
              intrap := if s.cur.hnd then false else g.intrap
              latch := if s.cur.hnd then [] else g.latch } : Gang).settle
         ((s3.takeHeld c i).gangExit c i).stall)

/-- The issuing fragment splits at emwr (R146): the lanes `gone` wait at `rcv`, the others go on behind it. -/
def State.narrow (s : State) (rcv : DWord) (keep gone : BitVec 32) : State :=
  (s.countIssue false).modG fun g =>
    let base := g.frags.get s.cur.frag
    let pc := if s.cur.hnd then base.pc else base.pc + 4
    let h := if s.cur.hnd then { g.handler with pc := g.handler.pc + 4 } else g.handler
    { (g.setFrag (g.freeFrag []) { base with pc := rcv, mask := gone, ageL := 0, ageU := 0 }).setFrag s.cur.frag
        { base with pc := pc, mask := keep } with handler := h }

/-- A handler whose last lane emwr sends to the join's rcv ends there, as its fragment waits at the join (log 24). -/
def State.leaveHandler (s : State) (rcv : DWord) : State :=
  if s.awaited then s.stall
  else
    let s1 := (s.countIssue true).deliver s.cur.core s.cur.slot
    if s1.t.halted then s1.stall
    else ((s1.modG fun g => { g with trappc := rcv }).returnFromTrap).stall

/-- EMWR (R146). In a handler it narrows the trapped fragment, whose EM is the handler's (log 24). -/
def execEmwr (a : RegField) (s : State) : Host.Outcome State Fault Refusal :=
  s.legal (.emwr a)
    (let keep := s.em &&& s.m a
     let gone := s.em &&& ~~~(s.m a)
     if gone = 0 then s.completeU 4 false
     else
       match s.f.join with
       | none => s.trapIllegalConv
       | some j =>
         let rcv := (s.g.joins.get j).rcv
         if keep ≠ 0 then (s.narrow rcv keep gone).finish
         else if s.cur.hnd then s.leaveHandler rcv
         else ((s.countIssue false).setPc rcv).finish)

/-! ### Traps -/

/-- TRAP (R154): SW_TRAP at the next instruction; in a handler a double fault (R156). It closes the fragment's windows, and
a late failure that this brings is held behind its own trap (log 44). -/
def execTrap (i : BitVec 12) (s : State) : Host.Outcome State Fault Refusal :=
  s.legal (.trap i)
    (if s.cur.hnd then s.trap .swTrap (i.setWidth 64)
     else
       let s1 := (s.countIssue true).setPc (s.pc + 4)
       (s1.trapAt s.cur .swTrap (s.pc + 4) (i.setWidth 64) 0).finish)

/-- RTI (R157): by the handler alone; a misaligned trappc is DOUBLE_FAULT (R156). The handler's own results are written
first. -/
def execRti (s : State) : Host.Outcome State Fault Refusal :=
  s.legal .rti
    (if !s.cur.hnd then s.trapIllegalConv
     else if s.g.trappc.toNat % 4 ≠ 0 then s.trap .alignFault (BitVec.ofNat 64 (s.g.trappc.toNat % 2 ^ 57))
     else if s.awaited then s.stall
     else
       let s1 := (s.countIssue true).deliver s.cur.core s.cur.slot
       if s1.t.halted then s1.stall else s1.returnFromTrap.stall)

end Sys2Proof.Machine
end

