-- ==== Sys2Proof/Machine/CrossLane.lean ====
section
/-!
DEFINITION. The cross-lane instructions (R159 to R177, V-form 0x30 to 0x3A) and the completion of an exchange.
-/
namespace Sys2Proof.Machine

/-! ### Exchange within a gang -/

/-- What a source lane supplies (R160): its cell where it is active, else 0 without marks. -/
def State.laneIn (s : State) (a : RegField) (i : Nat) : VCell :=
  if i < 32 && s.em.getLsbD i then s.v a (Fin.ofNat 32 i) else VCell.zero

/-- The source lane of shfl (R163); a value of 32 or more names none. -/
def State.shflLane (s : State) (b : RegField) (f : BitVec 2) (l : LaneId) : Nat :=
  match f.toNat with
  | 0 => (half (s.v b l).bits false).toNat
  | 1 => if b.toNat ≤ l.val then l.val - b.toNat else 32
  | 2 => l.val + b.toNat
  | _ => l.val ^^^ b.toNat

/-- SHFL (R163). -/
def execShfl (d a b : RegField) (h f : BitVec 2) (s : State) : Host.Outcome State Fault Refusal :=
  s.legal (.shfl d a b h f)
    ((s.writeV d fun l =>
      let c := s.laneIn a (s.shflLane b f l)
      let mk := f.toNat == 0 && (s.v b l).g0
      { bits := c.bits, g0 := c.g0 || mk, g1 := c.g1 || mk }).completeV 4 (placed h a b d [d]))

/-- Element `j` of the gang-wide table of gath, with its mark (R164). -/
def State.tableElem (s : State) (a : RegField) (w j : Nat) : Nat × Bool :=
  let k := 64 / w
  let c := s.laneIn a (j / k)
  (elem w c.bits (j % k), if w = 64 then c.marked else c.mark (32 ≤ w * (j % k)))

/-- GATH (R164). -/
def execGath (d a b : RegField) (h w : BitVec 2) (s : State) : Host.Outcome State Fault Refusal :=
  let wd := 8 * 2 ^ w.toNat
  s.legal (.gath d a b h w)
    ((s.writeV d fun l =>
      let c := s.v b l
      let es := (elems wd c.bits).map (s.tableElem a wd)
      if wd = 64 then VCell.both (ofElems wd (es.map (·.1))) (es.any (·.2) || c.marked)
      else
        let k := 32 / wd
        { bits := ofElems wd (es.map (·.1)), g0 := (es.take k).any (·.2) || c.g0,
          g1 := (es.drop k).any (·.2) || c.g1 }).completeV 4 (placed h a b d [d]))

/-- BCAST (R165). -/
def execBcast (d a b : RegField) (h f : BitVec 2) (s : State) : Host.Outcome State Fault Refusal :=
  s.legal (.bcast d a b h f)
    (let c := match f.toNat with
        | 0 => s.laneIn a b.toNat
        | 1 => s.v a s.lowLane
        | _ => VCell.both (s.u a) false
     (s.writeV d fun _ => c).completeV 4 (placed h a a d [d]))

/-! ### Votes -/

/-- The condition of vote and ballot in a lane (R166). -/
def State.holds (s : State) (a : RegField) (l : LaneId) : Bool := half (s.v a l).bits false != 0

/-- The condition of vote over the active lanes (R166). -/
def State.voted (s : State) (a : RegField) (c : BitVec 2) : Bool :=
  match c.toNat with
  | 0 => s.lanes.any (s.holds a)
  | 1 => s.lanes.all (s.holds a)
  | _ => s.lanes.all fun l => half (s.v a l).bits false == half (s.v a s.lowLane).bits false

/-- VOTE (R166). -/
def execVote (d a : RegField) (h : BitVec 2) (g : Bool) (c : BitVec 2) (s : State) : Host.Outcome State Fault Refusal :=
  s.legal (.vote d a h g c)
    (match if g then none else s.guessInfo [(a, true, false)] with
     | some info => s.trap .guessEscape info
     | none => (s.writeU d (if s.voted a c then 1 else 0)).completeV 4 (placed h a a d []))

/-- BALLOT (R167). -/
def execBallot (d a : RegField) (h : BitVec 2) (g : Bool) (s : State) : Host.Outcome State Fault Refusal :=
  s.legal (.ballot d a h g)
    (match if g then none else s.guessInfo [(a, true, false)] with
     | some info => s.trap .guessEscape info
     | none => (s.writeM d (maskOf fun l => s.active l && s.holds a l)).completeV 4 (placed h a a d []))

/-! ### Segmented reduction -/

/-- Element width of a segmented type (R168). -/
def segWidth (t : BitVec 2) : Nat := if t.toNat = 3 then 64 else 32

/-- The operation of a segmented reduction in its type (R168). -/
def segOp (o t : BitVec 2) (acc x : Nat) : Nat :=
  let w := segWidth t
  let signed := t.toNat != 1
  if t.toNat = 2 then
    if o.toNat = 0 then f32.add 0 0 acc x else f32.minmax (o.toNat != 1) false acc x
  else
    match o.toNat with
    | 0 => (acc + x) % 2 ^ w
    | 1 => if intOf w signed x < intOf w signed acc then x else acc
    | _ => if intOf w signed acc < intOf w signed x then x else acc

/-- The inclusive scan of one element position over the active lanes (R169): head bit, value, mark. -/
def segScan (op : Nat → Nat → Nat) : Option (Nat × Bool) → List (Bool × Nat × Bool) → List (Nat × Bool)
  | _, [] => []
  | none, (_, x, mk) :: rest => (x, mk) :: segScan op (some (x, mk)) rest
  | some acc, (hd, x, mk) :: rest =>
    let r := if hd then (x, mk) else (op acc.1 x, acc.2 || mk)
    r :: segScan op (some r) rest

/-- The scan value of the last lane of each lane's segment (R169): the head bits of the lanes, and their scan values. -/
def segLast : List (Bool × Nat × Bool) → List (Nat × Bool)
  | [] => []
  | (_, v) :: rest =>
    let tail := segLast rest
    match rest, tail with
    | (hd, _) :: _, t :: _ => (if hd then v else t) :: tail
    | _, _ => v :: tail

/-- The results of one element position for the active lanes, rising. -/
def State.segElem (s : State) (a b : RegField) (o t : BitVec 2) (scan : Bool) (i : Nat) : List (Nat × Bool) :=
  let w := segWidth t
  let heads := s.lanes.map fun l => (s.m b).getLsbD l.val
  let ins := s.lanes.map fun l =>
    let c := s.v a l
    (elem w c.bits i, if w = 64 then c.marked else c.mark (i == 1))
  let sc := segScan (segOp o t) none (heads.zip ins)
  if scan then sc else segLast (heads.zip sc)

/-- segred and segscan (R169). -/
def State.segment (s : State) (d a b : RegField) (h o t : BitVec 2) (scan : Bool) : State :=
  let w := segWidth t
  let at0 := s.lanes.zip (s.segElem a b o t scan 0)
  let at1 := if w = 64 then [] else s.lanes.zip (s.segElem a b o t scan 1)
  let get (xs : List (LaneId × Nat × Bool)) (l : LaneId) : Nat × Bool :=
    ((xs.find? fun x => x.1 == l).map (·.2)).getD (0, false)
  (s.writeV d fun l =>
    if w = 64 then VCell.both (ofElems 64 [(get at0 l).1]) (get at0 l).2
    else { bits := ofElems 32 [(get at0 l).1, (get at1 l).1], g0 := (get at0 l).2, g1 := (get at1 l).2 }).completeV 4
    (placed h a a d [d])

/-- SEGRED (R169). -/
def execSegred (d a b : RegField) (h o t : BitVec 2) (s : State) : Host.Outcome State Fault Refusal :=
  s.legal (.segred d a b h o t) (s.segment d a b h o t false)

/-- SEGSCAN (R169). -/
def execSegscan (d a b : RegField) (h o t : BitVec 2) (s : State) : Host.Outcome State Fault Refusal :=
  s.legal (.segscan d a b h o t) (s.segment d a b h o t true)

/-! ### Wide accumulators -/

/-- The signed value of a wide accumulator (R84). -/
def wideVal (z : BitVec 320) : Int := z.toInt

/-- One FP32 value added to a wide accumulator and its status (R85). -/
def wideAdd (z : BitVec 320 × BitVec 4) (x : Nat) : BitVec 320 × BitVec 4 :=
  match f32.decode x with
  | .nan => (z.1, z.2 ||| 4)
  | .inf neg => (z.1, z.2 ||| (if neg then 2 else 1))
  | .fin neg m e =>
    let sum := wideVal z.1 + scaled neg m e (-149)
    (BitVec.ofInt 320 sum, if sum < -(2 ^ 319) || 2 ^ 319 ≤ sum then z.2 ||| 8 else z.2)

/-- The FP32 addends that a lane gives to kadd (R170). -/
def kaddends (sel : Nat) (x : DWord) : List Nat :=
  match sel with
  | 0 => elems 32 x
  | 1 => [elem 32 x 0]
  | 2 => [elem 32 x 1]
  | _ => (elems 16 x).map fun b => b * 65536

/-- KADD (R170). The addends enter by ascending lane, and of a lane by ascending element; where a partial sum leaves the range, that
order decides whether ovf is set (log 95: R85 fixes none). -/
def execKadd (d a : RegField) (h : BitVec 2) (g : Bool) (sel : BitVec 2) (s : State) :
    Host.Outcome State Fault Refusal :=
  s.legal (.kadd d a h g sel)
    (match if g then none else s.guessInfo [(a, sel.toNat != 2, sel.toNat != 1)] with
     | some info => s.trap .guessEscape info
     | none =>
       let z := (s.lanes.flatMap fun l => kaddends sel.toNat (s.v a l).bits).foldl wideAdd
         (s.g.k.get (kIx d), s.g.ks.get (kIx d))
       (s.modG fun g => { g with k := g.k.set (kIx d) z.1, ks := g.ks.set (kIx d) z.2 }).completeV 4
         (placed h a a d []))

/-- KCLR (R171); it sets USPLIT in a split gang (R173). -/
def execKclr (d : RegField) (s : State) : Host.Outcome State Fault Refusal :=
  s.legal (.kclr d)
    ((s.modG fun g => { g.noteSplit with k := g.k.set (kIx d) 0, ks := g.ks.set (kIx d) 0 }).completeV 4 none)

/-- The readout of a wide accumulator as FP32 (R86). -/
def readOut (z : BitVec 320) (ks : BitVec 4) (mode draw : Nat) : Nat :=
  if ks.getLsbD 2 || ks.getLsbD 3 || (ks.getLsbD 0 && ks.getLsbD 1) then f32.nan
  else if ks.getLsbD 0 then f32.infinity false
  else if ks.getLsbD 1 then f32.infinity true
  else if z = 0 then 0
  else f32.round mode (wideVal z < 0) (wideVal z).natAbs (-149) false draw

/-- KRD (R172). -/
def execKrd (d a : RegField) (r : BitVec 3) (l : BitVec 4) (s : State) : Host.Outcome State Fault Refusal :=
  s.legal (.krd d a r l)
    (let z := s.g.k.get (kIx a)
     let ks := s.g.ks.get (kIx a)
     let fs := fun (_ : LaneId) => [fun draw => readOut z ks r.toNat draw]
     let wr := wholeWrites d s.lanes fun i =>
       VCell.both (BitVec.ofNat 64 ((s.drawn r.toNat fs i).headD 0 + ks.toNat * 2 ^ 32)) false
     (s.advanceRng r.toNat fs).completeVL 4 none l.toNat { Pending.fresh (.vec d false) s.em with wr := wr })

/-! ### Exchange between gangs -/

/-- The grid of the issuing team. -/
def State.gridOf (s : State) (t : Team) : Option Grid :=
  s.grids.find? fun x => x.gridid == t.gridid && x.part == t.part

/-- The count a pairing table gives a partner and tag (R175). -/
def pairCount (ps : List PairEntry) (team : Word) (gang : BitVec 4) (tag : Byte) : Option Word :=
  (ps.find? fun p => p.team == team && p.gang == gang && p.tag == tag).map (·.count)

/-- The pairing table after one more xchg to a partner and tag (R175). -/
def pairNext (ps : List PairEntry) (team : Word) (gang : BitVec 4) (tag : Byte) : List PairEntry :=
  match pairCount ps team gang tag with
  | none => ps ++ [{ team := team, gang := gang, tag := tag, count := 1 }]
  | some _ =>
    ps.map fun p => if p.team == team && p.gang == gang && p.tag == tag then { p with count := p.count + 1 } else p

/-- The status of xchg at issue, 0 where it may issue (R174). -/
def State.xchgStatus (s : State) (desc : DWord) : Nat :=
  let team : Word := desc.extractLsb' 32 32
  let gang : BitVec 4 := desc.extractLsb' 16 4
  if desc.toNat / 2 ^ 20 % 2 ^ 12 ≠ 0 || desc.toNat / 256 % 256 ≠ 0 then 0x0101
  else if (match s.gridOf s.t with | none => true | some g => g.teams ≤ team.toNat) || s.t.ngang ≤ gang.toNat then 0x0102
  else if team = s.t.teamid && gang = s.g.gangid then 0x0103
  else if (pairCount s.g.pairs team gang (desc.extractLsb' 0 8)).isNone && 64 ≤ s.g.pairs.length then 0x0105
  else 0

/-- XCHG (R174, R175): the gang's data is sent to its partner, and the partner's is awaited. -/
def execXchg (d a b : RegField) (l : BitVec 4) (h : BitVec 2) (s : State) : Host.Outcome State Fault Refusal :=
  s.legal (.xchg d a b l h)
    (let desc := s.u b
     let team : Word := desc.extractLsb' 32 32
     let gang : BitVec 4 := desc.extractLsb' 16 4
     let tag : Byte := desc.extractLsb' 0 8
     if 2 ≤ s.g.nfrag || !s.t.gathered then s.trapIllegalConv
     else if s.xchgStatus desc ≠ 0 then s.trap .engineFault (engineInfo (s.xchgStatus desc) 2)
     else
       let n := (pairCount s.g.pairs team gang tag).getD 0
       let msg : XMsg :=
         { part := s.t.part, grid := s.t.gridid, fromTeam := s.t.teamid, fromGang := s.g.gangid, toTeam := team, toGang := gang, tag := tag,
           n := n, em := s.em, data := (allFin 32).map fun i => s.v a i }
       let s1 := { s.modG fun g => { g with pairs := pairNext g.pairs team gang tag } with xmsgs := s.xmsgs ++ [msg] }
       s1.completeVL 4 (placed h a a d []) l.toNat
         { Pending.fresh (.vec d false) s.em with await := .partner team gang tag n, src := msg.data })

/-- A gang of a team of the grid has not exited: it is resident, or its team is saved (R177). -/
def State.partnerLives (s : State) (t : Team) (team : Word) (gang : BitVec 4) : Bool :=
  (s.saved.any fun x => x.part == t.part && x.gridid == t.gridid && x.teamid == team) ||
  s.cores.toList.any fun k => (allFin 16).any fun i =>
    let g := k.gang i
    let q := k.team g.team
    g.live && g.nfrag != 0 && g.gangid == gang && q.gridid == t.gridid && q.part == t.part && q.teamid == team

/-- The pending result `k` of a gang slot changed. -/
def State.modPend (s : State) (c : CoreId) (i : SlotId) (k : Nat) (f : Pending → Pending) : State :=
  s.modGangAt c i fun g => { g with pend := g.pend.map fun p => if p.id == k then f p else p }

/-- The pending result `k` of a gang slot. -/
def State.pend? (s : State) (c : CoreId) (i : SlotId) (k : Nat) : Option Pending :=
  (s.gangAt c i).pend.find? fun p => p.id == k

/-- The datum is what gang `toGang` of team `toTeam` waits for: the `n`-th of that tag from its partner (R175). -/
def XMsg.reaches (m : XMsg) (toTeam : Word) (toGang : BitVec 4) (team : Word) (gang : BitVec 4) (tag : Byte) (n : Word) : Bool :=
  m.toTeam == toTeam && m.toGang == toGang && m.fromTeam == team && m.fromGang == gang && m.tag == tag && m.n == n

/-- The data for the pending exchange `x` has been sent (R175). -/
def State.exchangeSent (s : State) (x : CoreId × SlotId × Nat) : Bool :=
  let t := s.teamAt x.1 x.2.1
  let g := s.gangAt x.1 x.2.1
  match (s.pend? x.1 x.2.1 x.2.2).map Pending.await with
  | some (Await.partner team gang tag n) =>
    s.xmsgs.any fun m => m.part == t.part && m.grid == t.gridid && m.reaches t.teamid g.gangid team gang tag n
  | _ => false

/-- XCHG_COMPLETE (R175, R176): the partner's data is there, or the partner has exited, or a die link damaged it on its way. -/
def execXchgComplete (c : CoreId) (i : SlotId) (x : XchgEnd) (s : State) : Host.Outcome State Fault Refusal :=
  .next
    (let k := x.result
     match s.pend? c i k with
     | none => s
     | some p =>
       match p.await with
       | .partner team gang tag n =>
         let t := s.teamAt c i
         let g := s.gangAt c i
         let mine := fun (m : XMsg) => m.part == t.part && m.grid == t.gridid && m.reaches t.teamid g.gangid team gang tag n
         match p.dst, s.xmsgs.find? mine with
         | .vec d _, some m =>
           if x.bad || s.xchgErrs.contains (c, i, k) then
             let s1 := { s with xmsgs := s.xmsgs.filter fun x => !mine x, xchgErrs := s.xchgErrs.filter (· != (c, i, k)) }
             (s1.modPend c i k fun p =>
               { p with await := .nothing, fail := some { cause := .uncorrectable, info := 0 } }).deliver c i
           else
             let wr := wholeWrites d (lanesOf p.em) fun l =>
               if m.em.getLsbD l.val then m.data.getD l.val VCell.zero else VCell.zero
             ({ s with xmsgs := s.xmsgs.filter fun x => !mine x }.modPend c i k fun p =>
               { p with await := .nothing, wr := wr }).deliver c i
         | _, _ =>
           if s.partnerLives t team gang then s
           else
             (s.modPend c i k fun p =>
               { p with await := .nothing, fail := some { cause := .engineFault, info := engineInfo 0x0104 2 } }).deliver c i
       | _ => s)

end Sys2Proof.Machine
end

