-- ==== Sys2Proof/Machine/Tiles.lean ====
section
/-!
DEFINITION. Scratchpad tiles (R178 to R194, V-form 0x44 to 0x48). A tile access passes the banks at its issue (log 12).
-/
namespace Sys2Proof.Machine

/-! ### Reaching a tile -/

/-- The size of a tile (R180). -/
def TileEntry.size (t : TileEntry) : Nat := ((t.rowsm1.toNat + 1) * (t.rowbw.toNat + 1) * 4 + 127) / 128 * 128

/-- First scratchpad byte of a tile (R180). -/
def TileEntry.addr (t : TileEntry) : Nat := t.base.toNat * 128

/-- The core a handle names within a cluster (R178). -/
def handleCore (k : ClusId) (h : BitVec 16) : Option CoreId :=
  let n := h.toNat / 64 % 256
  if n < 192 then some (coreAt k n) else none

/-- The table entry of a handle. -/
def handleEntry (h : BitVec 16) : Fin 64 := Fin.ofNat 64 (h.toNat % 64)

/-- The entry that a handle names, where V and GEN agree (R186). -/
def State.tileOf (s : State) (k : ClusId) (h : BitVec 16) : Option (CoreId × TileEntry) :=
  match handleCore k h with
  | none => none
  | some c =>
    let t := (s.core c).tiles.get (handleEntry h)
    if t.v && t.gen.toNat == h.toNat / 16384 then some (c, t) else none

/-- The owner core and first scratchpad byte of an access by a team of core `c`, where R186 permits it. -/
def State.reach (s : State) (c : CoreId) (ti : SlotId) (asid : Asid) (h : BitVec 16) (off size : Nat) :
    Option (CoreId × Nat) :=
  match s.tileOf (clusOf c) h with
  | none => none
  | some (o, t) =>
    let mine := if t.lvl2 then asid == t.asid else o == c && ti == t.team
    if mine && off + size ≤ t.size then some (o, t.addr + off) else none

/-- The handle of a tile address (R179). -/
def tileHandle (a : DWord) : BitVec 16 := a.extractLsb' 32 16
/-- The offset of a tile address (R179). -/
def tileOff (a : DWord) : Nat := a.toNat % 2 ^ 32

/-- A scratchpad word of the range has a double-bit error (R188). -/
def Core.spadErr (k : Core) (a n : Nat) : Bool := k.spadBad.any fun b => overlap b 4 a n

/-- Offset of the first scratchpad word of the range that has a double-bit error (R188). -/
def Core.firstErr (k : Core) (a n : Nat) : Nat := ((List.range (n / 4)).find? fun j => k.spadErr (a + 4 * j) 4).getD 0 * 4

/-- Bytes written to the scratchpad; whole words lose their errors (R188). -/
def Core.spadWrite (k : Core) (a : Nat) (bs : List Byte) : Core :=
  { k with spad := k.spad.writeN a bs,
           spadBad := k.spadBad.filter fun b => !(a ≤ b && b + 4 ≤ a + bs.length) }

/-! ### Allocating and freeing -/

/-- The shape is one of R181. -/
def shapeOk (x : DWord) : Bool :=
  let rows := x.toNat / 65536 % 8192
  let rowb := x.toNat % 65536
  x.toNat < 2 ^ 29 && 1 ≤ rows && rows ≤ 4096 && rowb % 4 == 0 && 4 ≤ rowb

/-- The tiles that a team holds on a core: index and entry. -/
def Core.tilesOf (k : Core) (ti : SlotId) : List (Fin 64 × TileEntry) :=
  ((allFin 64).map fun e => (e, k.tiles.get e)).filter fun x => x.2.v && x.2.team == ti

/-- The lowest free 128-byte-aligned run of `size` bytes in a reservation (R181). -/
def freeRun (base len size : Nat) (tiles : List TileEntry) : Option Nat :=
  let fits (b : Nat) : Bool :=
    base ≤ b && b + size ≤ base + len && !tiles.any fun t => overlap t.addr t.size b size
  let cands := (base :: tiles.map fun t => t.addr + t.size).filter fits
  match cands with
  | [] => none
  | b :: rest => some (rest.foldl Nat.min b)

/-- talloc after the encoding check (R181, R182). -/
def State.allot (s : State) (d a : RegField) (lvl2 : Bool) : State :=
  let x := s.u a
  let rows := x.toNat / 65536 % 8192
  let rowb := x.toNat % 65536
  let size := (rows * rowb + 127) / 128 * 128
  let k := s.curCore
  let refuse (n : Nat) : State := s.trap .tileFault (BitVec.ofNat 64 (0xFFFF + n * 65536))
  if !shapeOk x then refuse 0
  else
    match (allFin 64).find? fun e => !(k.tiles.get e).v with
    | none => refuse 0xFFFFFFFF
    | some e =>
      match freeRun s.t.spadBase s.t.spadLen size ((k.tilesOf s.g.team).map (·.2)) with
      | none => refuse size
      | some b =>
        let gen := (k.tiles.get e).gen
        let entry : TileEntry :=
          { gen := gen, v := true, lvl2 := lvl2, team := s.g.team, asid := s.t.asid, base := BitVec.ofNat 12 (b / 128),
            rowsm1 := BitVec.ofNat 12 (rows - 1), rowbw := BitVec.ofNat 14 (rowb / 4 - 1) }
        let h := gen.toNat * 16384 + coreidOf s.cur.core * 64 + e.val
        ((s.modK fun k => { k with tiles := k.tiles.set e entry }).writeU d (BitVec.ofNat 64 h)).completeV 4 none

/-- TALLOC (R181). -/
def execTalloc (d a : RegField) (v : Bool) (s : State) : Host.Outcome State Fault Refusal :=
  s.legal (.talloc d a v) (s.allot d a v)

/-- The handle of a core's table entry (R179). -/
def entryHandle (c : CoreId) (e : Fin 64) (t : TileEntry) : BitVec 16 :=
  BitVec.ofNat 16 (t.gen.toNat * 16384 + coreidOf c * 64 + e.val)

/-- A tile-table entry freed (R180, R184). -/
def Core.freeTile (k : Core) (e : Fin 64) : Core :=
  let t := k.tiles.get e
  { k with tiles := k.tiles.set e { t with v := false, gen := t.gen + 1 } }

/-- A range-lock entry names a byte of a tile (R184). -/
def Core.tileLocked (k : Core) (h : BitVec 16) : Bool :=
  (allFin 64).any fun i => let e := k.locks.get i; e.v && e.spc && e.base.toNat / 2 ^ 32 % 65536 == h.toNat

/-- A change made in the place of another fragment: the selection is left as it was. -/
def State.asCur (s : State) (cur : Cursor) (f : State → State) : State :=
  let t := f { s with cur := cur }
  { t with cur := s.cur, sel := s.sel }

/-- tfree of a handle (R184): the entry is freed at once, or the fragment waits for the range locks of the tile. -/
def State.tfree (s : State) (h : BitVec 16) : State :=
  match s.tileOf (clusOf s.cur.core) h with
  | some (o, t) =>
    if o = s.cur.core && t.team = s.g.team then
      if s.curCore.tileLocked h then (s.setWait (.tileFree h)).stall
      else (s.modK fun k => k.freeTile (handleEntry h)).completeV 4 none
    else s.trap .tileFault (h.setWidth 64)
  | none => s.trap .tileFault (h.setWidth 64)

/-- TFREE (R184). -/
def execTfree (a : RegField) (s : State) : Host.Outcome State Fault Refusal :=
  s.legal (.tfree a) (s.tfree ((s.u a).extractLsb' 0 16))

/-- The fragment or running handler of a gang slot that waits as `p` says. -/
def State.waiterAt (s : State) (c : CoreId) (i : SlotId) (f : FragId) (p : Wait → Bool) : Option (Cursor × Wait) :=
  let g := s.gangAt c i
  if !g.live then none
  else if g.inHandler f && p g.handler.wait then some ({ core := c, slot := i, hnd := true, frag := f }, g.handler.wait)
  else if (g.frags.get f).valid && p (g.frags.get f).wait then
    some ({ core := c, slot := i, hnd := false, frag := f }, (g.frags.get f).wait)
  else none

/-- A waiting instruction may issue now: its team is not halted nor about to be saved, and its core is not halted
(R156, R389, R396). -/
def State.waiterNow (s : State) (c : CoreId) (i : SlotId) (f : FragId) (p : Wait → Bool) : Option (Cursor × Wait) :=
  let t := s.teamAt c i
  if t.halted || t.stopping.saving || s.noIssue c then none else s.waiterAt c i f p

/-- TILE_ENTRY_FREE (R184): a waiting tfree frees its entry once no range lock names the tile, if the handle still names a tile
of the team then. -/
def execTileEntryFree (c : CoreId) (i : SlotId) (f : FragId) (s : State) : Host.Outcome State Fault Refusal :=
  .next
    (match s.waiterNow c i f fun w => match w with | .tileFree _ => true | _ => false with
     | some (cur, .tileFree h) =>
       if (s.core c).tileLocked h then s
       else s.asCur cur fun s => (s.setWait .none).tfree h
     | _ => s)

/-! ### The checks of a tile access -/

/-- The outcome of the checks 3 to 5 of R188. -/
inductive TileCheck where
  | ok (owner : CoreId) (addrs : List (LaneId × Nat))
  | fault (a : DWord)
  | misaligned (a : DWord)
  | locked (a : DWord) (entry : Fin 64)
deriving DecidableEq, Repr

/-- The checks 3 to 5 of R188 over the active lanes, lowest lane first. Where the lanes name several cores, the lowest lane whose
core is not that of the lowest active lane is the faulting one (log 86). -/
def State.checkTile (s : State) (a : RegField) (size : Nat) (write : Bool) : TileCheck :=
  let c := s.cur.core
  let addrs := s.lanes.map fun l => (l, (s.v a l).bits)
  let first := (tileHandle ((addrs.headD (0, 0)).2)).toNat / 64 % 256
  let place (x : DWord) : Option (CoreId × Nat) :=
    if x.toNat / 2 ^ 48 ≠ 0 || (tileHandle x).toNat / 64 % 256 ≠ first then none
    else s.reach c s.g.team s.t.asid (tileHandle x) (tileOff x) size
  match addrs.find? fun x => (place x.2).isNone with
  | some x => .fault x.2
  | none =>
    match addrs.find? fun x => tileOff x.2 % size ≠ 0 with
    | some x => .misaligned x.2
    | none =>
      let owner := (handleCore (clusOf c) (tileHandle (addrs.headD (0, 0)).2)).getD c
      match addrs.findSome? fun x =>
          ((s.core owner).lockHit s.t.asid true (x.2.toNat % 2 ^ 48) size write).map fun i => (x.2, i) with
      | some (x, i) => .locked x i
      | none => .ok owner (addrs.map fun x => (x.1, ((place x.2).getD (c, 0)).2))

/-- The trap of a failed check (R188). -/
def State.refuseTile (s : State) (write : Bool) : TileCheck → State
  | .ok _ _ => s.stall
  | .fault a => s.trap .tileFault (BitVec.ofNat 64 ((tileHandle a).toNat + tileOff a * 65536))
  | .misaligned a => s.trap .alignFault (BitVec.ofNat 64 (a.toNat % 2 ^ 48))
  | .locked a i => s.trap .rangeLock (BitVec.ofNat 64 (a.toNat % 2 ^ 48 + i.val * 2 ^ 57 + (if write then 2 ^ 63 else 0)))

/-- Bytes of a size code of tld and tst (R187). -/
def tileSize (z : BitVec 2) : Nat := 4 * 2 ^ z.toNat

/-- The writes of a tld in one lane (R189). -/
def tldWrites (d : RegField) (z : BitVec 2) (p : Bool) (l : LaneId) (bs : List Byte) (mk : Bool) : List LaneWrite :=
  let w (i : Nat) : Word := BitVec.ofNat 32 (leNat ((bs.drop (4 * i)).take 4))
  match z.toNat with
  | 0 => [{ reg := d, lane := l, lo := if p then none else some (w 0, mk), hi := if p then some (w 0, mk) else none }]
  | 1 => [{ reg := d, lane := l, lo := some (w 0, mk), hi := some (w 1, mk) }]
  | _ => [{ reg := d, lane := l, lo := some (w 0, mk), hi := some (w 1, mk) },
          { reg := nextReg d, lane := l, lo := some (w 2, mk), hi := some (w 3, mk) }]

/-- The failure of the lowest lane whose data has a double-bit error (R188, R57). -/
def State.tileFail (s : State) (owner : CoreId) (a : RegField) (addrs : List (LaneId × Nat)) (size : Nat) :
    Option Failure :=
  (addrs.find? fun x => (s.core owner).spadErr x.2 size).map fun x =>
    { cause := .uncorrectable, info := BitVec.ofNat 64 ((s.v a x.1).bits.toNat % 2 ^ 48) }

/-- TLD (R189). -/
def execTld (d a : RegField) (g : Bool) (z : BitVec 2) (p : Bool) (l : BitVec 4) (h : BitVec 2) (s : State) :
    Host.Outcome State Fault Refusal :=
  let size := tileSize z
  s.legal (.tld d a g z p l h)
    (match if g then none else s.guessInfo [(a, true, true)] with
     | some info => s.trap .guessEscape info
     | none =>
       match s.checkTile a size false with
       | .ok owner addrs =>
         if !s.tileReady then s.stall
         else
           let wr := addrs.flatMap fun x =>
             tldWrites d z p x.1 ((s.core owner).spad.readN x.2 size) (g && (s.v a x.1).marked)
           s.noteTile.completeVL 4 (placed h a a d []) l.toNat
             { Pending.fresh (.vec d (z.toNat == 2)) s.em with wr := wr, fail := s.tileFail owner a addrs size }
       | r => s.refuseTile false r)

/-- The bytes that tst stores in a lane (R190). -/
def State.tstBytes (s : State) (d : RegField) (z : BitVec 2) (p : Bool) (l : LaneId) : List Byte :=
  match z.toNat with
  | 0 => leBytes 4 (half (s.v d l).bits p).toNat
  | 1 => leBytes 8 (s.v d l).bits.toNat
  | _ => leBytes 8 (s.v d l).bits.toNat ++ leBytes 8 (s.v (nextReg d) l).bits.toNat

/-- The data halves that a store of vector registers reads: .b32 and narrower one half, .b64 both, .b128 a pair. -/
def dataHalves (d : RegField) (whole pair p : Bool) : List (RegField × Bool × Bool) :=
  if pair then [(d, true, true), (nextReg d, true, true)]
  else if whole then [(d, true, true)] else [(d, !p, p)]

/-- TST (R190). -/
def execTst (d a : RegField) (h : BitVec 2) (g p : Bool) (z : BitVec 2) (s : State) :
    Host.Outcome State Fault Refusal :=
  let size := tileSize z
  s.legal (.tst d a h g p z)
    (match if g then none else s.guessInfo ((a, true, true) :: dataHalves d (z.toNat == 1) (z.toNat == 2) p) with
     | some info => s.trap .guessEscape info
     | none =>
       match s.checkTile a size true with
       | .ok owner addrs =>
         if !s.tileReady then s.stall
         else
           (s.modCore owner fun k => addrs.foldl (fun k x => k.spadWrite x.2 (s.tstBytes d z p x.1)) k).noteTile.completeV 4
             (placed h a a d [])
       | r => s.refuseTile true r)

/-! ### Read-modify-write -/

/-- The new value of an atomic (R191, R263): types .n32, .i32, .f32, .b64. -/
def atomNew (op : BitVec 4) (ty : BitVec 2) (old x y : Nat) : Nat :=
  let w := if ty.toNat = 3 then 64 else 32
  let signed := ty.toNat == 1
  let float := ty.toNat == 2
  match op.toNat with
  | 0 => if float then f32.add 0 0 old x else (old + x) % 2 ^ w
  | 1 => if float then f32.minmax false false old x else if intOf w signed x < intOf w signed old then x else old
  | 2 => if float then f32.minmax true false old x else if intOf w signed old < intOf w signed x then x else old
  | 3 => old &&& x
  | 4 => old ||| x
  | 5 => old ^^^ x
  | 6 => x
  | _ => if old = x then y else old

/-- The lanes of a tatom served in ascending order (R191): the core after, and the old values. A lane whose word has a
double-bit error is passed over, and the others are served (log 87). -/
def serveTatom (s : State) (d : RegField) (op : BitVec 4) (ty : BitVec 2) :
    Core → List (LaneId × Nat) → Core × List (LaneId × Nat)
  | k, [] => (k, [])
  | k, (l, a) :: rest =>
    let size := if ty.toNat = 3 then 8 else 4
    if k.spadErr a size then serveTatom s d op ty k rest
    else
      let old := leNat (k.spad.readN a size)
      let c := (s.v d l).bits
      let x := if ty.toNat = 3 then c.toNat else (half c false).toNat
      let new := atomNew op ty old x (half c true).toNat
      let r := serveTatom s d op ty (k.spadWrite a (leBytes size new)) rest
      (r.1, (l, old) :: r.2)

/-- The writes of the old values of an atomic (R191, R263). -/
def atomWrites (d : RegField) (ty : BitVec 2) (olds : List (LaneId × Nat)) : List LaneWrite :=
  olds.map fun x =>
    { reg := d, lane := x.1, lo := some (BitVec.ofNat 32 x.2, false),
      hi := if ty.toNat = 3 then some (BitVec.ofNat 32 (x.2 / 2 ^ 32), false) else none }

/-- TATOM (R191). -/
def execTatom (d a : RegField) (o : BitVec 4) (t : BitVec 2) (l : BitVec 4) (h : BitVec 2) (s : State) :
    Host.Outcome State Fault Refusal :=
  let size := if t.toNat = 3 then 8 else 4
  s.legal (.tatom d a o t l h)
    (match s.guessInfo [(a, true, true), (d, true, true)] with
     | some info => s.trap .guessEscape info
     | none =>
       match s.checkTile a size true with
       | .ok owner addrs =>
         if !s.tileReady then s.stall
         else
           let r := serveTatom s d o t (s.core owner) addrs
           (s.modCore owner fun _ => r.1).noteTile.completeVL 4 (placed h a a d []) l.toNat
             { Pending.fresh (.vec d false) s.em with
               wr := atomWrites d t r.2, fail := s.tileFail owner a addrs size }
       | r => s.refuseTile true r)

end Sys2Proof.Machine
end

