-- ==== Sys2Proof/Machine/LoadStore.lean ====
section
/-!
DEFINITION. Loads, stores and atomics of device memory (R208 to R236, R261 to R267) and the events that resolve them:
deadlines, arriving data, the leaf table (R223 to R225), and the writing of long-latency results.
-/
namespace Sys2Proof.Machine

/-! ### Types of a load (R219) -/

/-- Bytes of a TYPE. -/
def tyBytes (ty : BitVec 4) : Nat :=
  match ty.toNat with
  | 0 => 1 | 1 => 2 | 4 => 1 | 5 => 2 | 3 => 8 | 7 => 8 | 10 => 8 | 11 => 16 | _ => 4

/-- A value of `n` bytes sign-extended to 32 bits. -/
def sext32 (n x : Nat) : Nat := wrap 32 (signedVal (8 * n) (x % 2 ^ (8 * n)))

/-- A value as the TYPE writes it: 32 bits in a half, or 64 bits. -/
def tyExtend (ty : BitVec 4) (x : Nat) : DWord :=
  BitVec.ofNat 64 (match ty.toNat with
    | 0 => x % 2 ^ 8 | 1 => x % 2 ^ 16 | 4 => sext32 1 x | 5 => sext32 2 x
    | 3 => x | 7 => x | 10 => x | 11 => x | _ => x % 2 ^ 32)

/-- The writes of a value in one lane (R222). -/
def tyWrites (d : RegField) (ty : BitVec 4) (part : Bool) (l : LaneId) (x : DWord) (mk : Bool) : List LaneWrite :=
  if wideType ty then [{ reg := d, lane := l, lo := some (half x false, mk), hi := some (half x true, mk) }]
  else [{ reg := d, lane := l, lo := if part then none else some (half x false, mk),
          hi := if part then some (half x false, mk) else none }]

/-! ### The leaf table -/

/-- Entry of a load's PC (R223). -/
def leafIx (pc : DWord) : Fin 64 := Fin.ofNat 64 (pc.toNat / 4)

/-- TAG of a load (R223). -/
def leafTag (q : LeafReq) : BitVec 26 := BitVec.ofNat 26 (q.asid.toNat * 2 ^ 13 + q.pc.toNat / 256 % 2 ^ 13)

/-- The lane's halves that a TYPE uses, as indices of LAST and STRIDE (R223). -/
def leafHalves (q : LeafReq) (l : LaneId) : List Nat :=
  if wideType q.ty then [2 * l.val, 2 * l.val + 1] else [2 * l.val + (if q.part then 1 else 0)]

/-- The value that the halves hold in a sparse list. -/
def leafValue (ws : Words) (hs : List Nat) : Nat := packed 32 (hs.map fun i => (sget 0 ws i).toNat)

/-- Sum in the prediction arithmetic of a TYPE (R219). -/
def leafSum (ty : BitVec 4) (a b : Nat) : Nat := if ty.toNat = 8 then f32.add 0 0 a b else (tyExtend ty (a + b)).toNat

/-- Difference in the prediction arithmetic of a TYPE (R225). -/
def leafDiff (ty : BitVec 4) (a b : Nat) : Nat :=
  if ty.toNat = 8 then f32.sub 0 0 a b else (tyExtend ty (a + 2 ^ 64 - b)).toNat

/-- A prediction hits (R223). -/
def LeafEntry.hits (e : LeafEntry) (q : LeafReq) (l : LaneId) : Bool :=
  e.tag == leafTag q && (leafHalves q l).all fun i => e.valid.getLsbD i

/-- LeafPredict (R224). -/
def Core.predict (k : Core) (q : LeafReq) (l : LaneId) : DWord :=
  let e := k.leaf.get (leafIx q.pc)
  let hs := leafHalves q l
  if k.leafEn && e.hits q l then BitVec.ofNat 64 (leafSum q.ty (leafValue e.last hs) (leafValue e.stride hs)) else 0

/-- Halves of a value written into a sparse list. -/
def leafPut (ws : Words) (hs : List Nat) (x : Nat) : Words :=
  (hs.zip [x, x / 2 ^ 32]).foldl (fun ws p => sset 0 ws p.1 (BitVec.ofNat 32 p.2)) ws

/-- The leaf table after true data (R225). -/
def Core.learn (k : Core) (q : LeafReq) (l : LaneId) (x : DWord) : Core :=
  let e := k.leaf.get (leafIx q.pc)
  let hs := leafHalves q l
  let e' : LeafEntry :=
    if e.hits q l then
      { e with stride := leafPut e.stride hs (leafDiff q.ty x.toNat (leafValue e.last hs)),
               last := leafPut e.last hs x.toNat }
    else
      let e1 := if e.tag = leafTag q then e else { LeafEntry.reset with tag := leafTag q }
      { e1 with last := leafPut e1.last hs x.toNat, stride := leafPut e1.stride hs 0,
                valid := hs.foldl (fun v i => v ||| BitVec.twoPow 64 i) e1.valid }
  { k with leaf := k.leaf.set (leafIx q.pc) e' }

/-! ### ld -/

/-- The limit of a lane (R214): the register's low half, or the class. -/
def State.limitOf (s : State) (b : RegField) (lreg : Bool) (cls : BitVec 4) (l : LaneId) : Nat :=
  if lreg then (half (s.v b l).bits false).toNat else if cls.toNat = 0 then 0 else 2 ^ (cls.toNat + 2)

/-- The pieces of a lane's access: .b128 is two accesses of 8 bytes (R244). -/
def piecesOf (size : Nat) (p : Place) : List (Nat × Place) :=
  if size = 16 then [(0, p), (1, { p with pa := p.pa + 8 })] else [(0, p)]

/-- The accesses of the lanes enter the list, each lane's pieces in order; `kind` gives what a lane's piece does. -/
def State.pushLanes (s : State) (ps : List (LaneId × DWord × Place)) (size : Nat) (r : Req) (kind : LaneId → Nat → AccKind)
    (dst : Option Nat) : State :=
  ps.foldl (fun s x => (piecesOf size x.2.2).foldl (fun s q =>
    s.pushAcc (x.2.1 + BitVec.ofNat 64 (8 * q.1)) q.2
      { r with kind := kind x.1 q.1, size := Nat.min size 8, dst := dst.map fun id => (id, x.1, q.1),
               leaf := if 2 ≤ x.2.2.ptype.toNat then none else r.leaf }) s) s

/-- What a steep level lets the memory side do with a load (R217): batch row activations within the slack, take low-energy
paths, park it behind other requests, and let deadlines below a bound pass on purpose. -/
structure Licence where
  batch : Bool
  lowEnergy : Bool
  park : Bool
  /-- The least limit in cycles whose deadline may not pass on purpose; `none` lets any nonzero one pass. -/
  late : Option Nat
deriving DecidableEq, Repr

/-- The licences of a steep level (R217). They permit and never require, and at every level a deadline may pass without
intent (R218), so LOAD_DEADLINE asks for none of them. -/
def licence (steep : BitVec 3) : Licence :=
  let n := steep.toNat
  { batch := 1 ≤ n, lowEnergy := 2 ≤ n, park := 3 ≤ n
    late := if n ≤ 3 then some 0 else if n = 4 then some 256 else if n = 5 then some 4096 else if n = 6 then some 65536 else none }

/-- A load of this level and limit may be let pass its deadline on purpose (R217). -/
def Licence.letsPass (x : Licence) (limit : Nat) : Bool := limit != 0 && (x.late.all fun n => limit < n)

/-- ld after its checks (R222): the accesses, and the pending result with its lanes' limits. -/
def State.load (s : State) (d b : RegField) (l : BitVec 4) (place : Option RegField) (cls : BitVec 4) (scope : BitVec 3)
    (acq rem : Bool) (ty : BitVec 4) (lreg g p : Bool) (a : RegField) (ps : List (LaneId × DWord × Place)) : State :=
  let id := s.g.nextPend
  let base := s.curCore.seq
  let size := tyBytes ty
  let q : LeafReq := { pc := s.pc, asid := s.t.asid, ty := ty, part := p }
  let r : Req :=
    { kind := .load, size := size, acq := if acq then some scope else none, rem := rem, rel := none, dst := none,
      leaf := if acq || ty.toNat = 11 then none else some q, serial := false }
  let s1 := (s.pushLanes ps size r (fun _ _ => .load) (some id)).endAccs (ps.map fun x => (x.1, x.2.1)) ps acq
  let limit (x : LaneId × DWord × Place) : Nat :=
    if acq || 2 ≤ x.2.2.ptype.toNat then 0 else s.limitOf b lreg cls x.1
  let await : Await :=
    if ty.toNat = 11 then .accesses ((List.range (2 * ps.length)).map (base + ·))
    else .lanes (((List.range ps.length).zip ps).map fun x =>
      ({ lane := x.2.1, ea := x.2.2.1, acc := base + x.1, data := none, bad := none, demanded := false }, limit x.2)) []
  s1.completeVL 8 place l.toNat
    { Pending.fresh (.vec d (ty.toNat == 11)) s.em with
      await := await, ty := ty, part := p, eas := ps.map fun x => (x.1, x.2.1), leaf := !acq
      addrMarks := if g then maskOf fun i => (s.v a i).marked else 0 }

/-- The effective addresses of the active lanes (R209, R222). -/
def State.eas (s : State) (a : RegField) (disp : BitVec 16) (em : BitVec 32) : List (LaneId × DWord) :=
  (lanesOf em).map fun l => (l, (s.v a l).bits + sdisp disp)

/-- LD (R214 to R222). -/
def execLd (d a b : RegField) (l : BitVec 4) (h : BitVec 2) (disp : BitVec 16) (cls : BitVec 4) (scope : BitVec 3)
    (acq rem : Bool) (ty : BitVec 4) (lreg g p : Bool) (s : State) : Host.Outcome State Fault Refusal :=
  s.legal (.ld d a b l h disp cls scope acq rem ty lreg g p)
    (match if g then none else s.guessInfoIn s.em [(a, true, true)] (if lreg then [(b, true, false)] else []) with
     | some info => s.trap .guessEscape info
     | none =>
       match s.checkLanes (s.eas a disp s.em) (tyBytes ty) false false with
       | .ok ps =>
         if !s.mayIssue ps false then s.stall
         else s.load d b l (placed h a b d []) cls scope acq rem ty lreg g p a ps
       | r => s.refuseAccess 1 false r)

/-! ### st, sst, sld -/

/-- Bytes of a size code of st and sst (R208). -/
def stBytes (z : BitVec 3) : Nat := 2 ^ z.toNat

/-- The bytes that a lane of st stores in its piece (R209). -/
def State.stData (s : State) (d : RegField) (z : BitVec 3) (p : Bool) (l : LaneId) (piece : Nat) : List Byte :=
  if z.toNat = 4 then leBytes 8 (s.v (if piece = 0 then d else nextReg d) l).bits.toNat
  else if z.toNat = 3 then leBytes 8 (s.v d l).bits.toNat
  else leBytes (stBytes z) (half (s.v d l).bits p).toNat

/-- ST (R209, R211, R408). -/
def execSt (d a : RegField) (h : BitVec 2) (g p : Bool) (disp : BitVec 16) (scope : BitVec 3) (rel : Bool) (z : BitVec 3)
    (s : State) : Host.Outcome State Fault Refusal :=
  s.legal (.st d a h g p disp scope rel z)
    (match if g then none else s.guessInfo ((a, true, true) :: dataHalves d (z.toNat == 3) (z.toNat == 4) p) with
     | some info => s.trap .guessEscape info
     | none =>
       match s.checkLanes (s.eas a disp s.em) (stBytes z) true true with
       | .ok ps =>
         if !s.mayIssue ps rel then s.stall
         else
           let r : Req :=
             { kind := .load, size := 0, acq := none, rem := false, rel := if rel then some scope else none, dst := none,
               leaf := none, serial := false }
           ((s.pushLanes ps (stBytes z) r (fun l i => .store (s.stData d z p l i)) none).endAccs (s.eas a disp s.em) ps rel).completeV 8
             (placed h a a d [])
       | r => s.refuseAccess 2 true r)

/-- SST (R209, R211, R408). -/
def execSst (d a : RegField) (disp : BitVec 16) (scope : BitVec 3) (rel : Bool) (z : BitVec 3) (s : State) :
    Host.Outcome State Fault Refusal :=
  s.legal (.sst d a disp scope rel z)
    (match s.checkLanes [(s.lowLane, s.u a + sdisp disp)] (stBytes z) true true with
     | .ok ps =>
       if !s.mayIssue ps rel then s.stall
       else
         let r : Req :=
           { kind := .load, size := 0, acq := none, rem := false, rel := if rel then some scope else none, dst := none,
             leaf := none, serial := false }
         ((s.pushLanes ps (stBytes z) r (fun _ _ => .store (leBytes (stBytes z) (s.u d).toNat)) none).endAccs
           [(s.lowLane, s.u a + sdisp disp)] ps rel).completeV 8 none
     | r => s.refuseAccess 2 true r)

/-- Bytes of a size code of sld (R208). -/
def sldBytes (ty : BitVec 3) : Nat :=
  match ty.toNat with
  | 0 => 1 | 1 => 2 | 2 => 4 | 3 => 8 | 4 => 1 | 5 => 2 | _ => 4

/-- A value as sld extends it (R210). -/
def sldExtend (ty : BitVec 3) (x : Nat) : DWord :=
  BitVec.ofNat 64 (if ty.toNat ≤ 3 then x else wrap 64 (signedVal (8 * sldBytes ty) x))

/-- SLD (R210, R211). -/
def execSld (d a : RegField) (l : BitVec 4) (disp : BitVec 16) (scope : BitVec 3) (acq rem : Bool) (ty : BitVec 3)
    (s : State) : Host.Outcome State Fault Refusal :=
  s.legal (.sld d a l disp scope acq rem ty)
    (match s.checkLanes [(s.lowLane, s.u a + sdisp disp)] (sldBytes ty) false false with
     | .ok ps =>
       if !s.mayIssue ps false then s.stall
       else
         let base := s.curCore.seq
         let r : Req :=
           { kind := .load, size := 0, acq := if acq then some scope else none, rem := rem, rel := none, dst := none,
             leaf := none, serial := false }
         ((s.pushLanes ps (sldBytes ty) r (fun _ _ => .load) (some s.g.nextPend)).endAccs (ps.map fun x => (x.1, x.2.1)) ps acq).completeVL 8 none l.toNat
           { Pending.fresh (.uni d) s.em with
             await := .accesses [base], ty := ty.setWidth 4, eas := ps.map fun x => (x.1, x.2.1) }
     | r => s.refuseAccess 1 false r)

/-! ### Guesses -/

/-- The selected halves of gtest and gacc (R229): low, high. -/
def selHalves (sel : BitVec 2) : Bool × Bool := (sel.toNat != 2, sel.toNat != 1)

/-- GTEST (R230). -/
def execGtest (d a : RegField) (h sel : BitVec 2) (s : State) : Host.Outcome State Fault Refusal :=
  s.legal (.gtest d a h sel)
    ((s.writeM d (maskOf fun l =>
      s.active l && (((selHalves sel).1 && (s.v a l).g0) || ((selHalves sel).2 && (s.v a l).g1)))).completeV 4
      (placed h a a d []))

/-- GACC (R231). -/
def execGacc (d a : RegField) (h sel : BitVec 2) (s : State) : Host.Outcome State Fault Refusal :=
  s.legal (.gacc d a h sel) (s.vs1 d a h fun c =>
    { bits := c.bits, g0 := c.g0 && !(selHalves sel).1, g1 := c.g1 && !(selHalves sel).2 })

/-- The halves of the demanded register that a gdemand reads (R232). -/
def demandHalves (d : RegField) (ty : BitVec 4) (p : Bool) : List (RegField × Bool × Bool) :=
  [(d, wideType ty || !p, wideType ty || p)]

/-- A selected half of a lane is marked (R232). -/
def demands (ty : BitVec 4) (p : Bool) (c : VCell) : Bool := if wideType ty then c.marked else c.mark p

/-- The slot, by its order number, and its lane that cover a register's lane with equal TYPE and part (R232). Of several the
slot taken last: the register holds the guess of the load that has written it last. -/
def Gang.slotFor (g : Gang) (d : RegField) (ty : BitVec 4) (p : Bool) (l : LaneId) : Option (Nat × LateLane) :=
  (g.late.filter fun x => x.reg == d && x.ty == ty && x.part == p).reverse.findSome? fun x =>
    (x.lanes.find? fun y => y.lane == l).map fun y => (x.order, y)

/-- The lane of the late slot that covers a register's lane with equal TYPE and part (R232). -/
def Gang.covers (g : Gang) (d : RegField) (ty : BitVec 4) (p : Bool) (l : LaneId) : Option LateLane :=
  (g.slotFor d ty p l).map (·.2)

/-- The late slots with the lanes that a gdemand consumes noted, each in the slot that serves it (R228). -/
def Gang.noteDemand (g : Gang) (d : RegField) (ty : BitVec 4) (p : Bool) (ls : List LaneId) : Gang :=
  let used := ls.filterMap fun l => (g.slotFor d ty p l).map fun y => (y.1, l)
  { g with late := g.late.map fun x =>
      { x with lanes := x.lanes.map fun y => if used.contains (x.order, y.lane) then { y with demanded := true } else y } }

/-- gdemand after its checks (R232): `slots` are the lanes that slots serve, `ps` the lanes that reread. -/
def State.demand (s : State) (d : RegField) (ty : BitVec 4) (p : Bool) (l : BitVec 4) (place : Option RegField)
    (slots : List LateLane) (ps : List (LaneId × DWord × Place)) : State :=
  let base := s.curCore.seq
  let r : Req :=
    { kind := .load, size := 0, acq := none, rem := false, rel := none, dst := none, leaf := none, serial := false }
  let em := maskOf fun i => slots.any (·.lane == i) || ps.any (·.1 == i)
  let s1 := if ps.isEmpty then s else
    ((s.pushLanes ps (tyBytes ty) r (fun _ _ => .load) (some s.g.nextPend)).endAccs (ps.map fun x => (x.1, x.2.1)) ps false).modG fun g =>
      { g with reread := true }
  let waiting := slots.filter fun x => x.data.isNone && x.bad.isNone
  (s1.modG fun g => g.noteDemand d ty p (slots.map (·.lane))).completeVL 4 place l.toNat
    { Pending.fresh (.vec d false) em with
      await := .demand [] (waiting.map (·.acc) ++ (List.range ps.length).map (base + ·))
      wr := slots.flatMap fun x => match x.data with | some v => tyWrites d ty p x.lane v false | none => []
      fail := (slots.find? fun x => x.bad.isSome).map fun x =>
        { cause := .uncorrectable, info := BitVec.ofNat 64 (x.ea.toNat % 2 ^ 57) }
      ty := ty, part := p, eas := slots.map (fun x => (x.lane, x.ea)) ++ ps.map fun x => (x.1, x.2.1) }

/-- GDEMAND (R232). -/
def execGdemand (d a : RegField) (t : BitVec 4) (p g : Bool) (l : BitVec 4) (h : BitVec 2) (s : State) :
    Host.Outcome State Fault Refusal :=
  s.legal (.gdemand d a t p g l h)
    (let want := s.lanes.filter fun i => demands t p (s.v d i)
     let slots := want.filterMap fun i => s.g.covers d t p i
     let again := maskOf fun i => want.contains i && (s.g.covers d t p i).isNone
     match if g then none else s.guessInfoIn again [(a, true, true)] (demandHalves d t p) with
     | some info => s.trap .guessEscape info
     | none =>
       match s.checkLanes (s.eas a 0 again) (tyBytes t) false false with
       | .ok ps =>
         if !ps.isEmpty && !s.mayIssue ps false then s.stall
         else s.demand d t p l (placed h a a d []) slots ps
       | r => s.refuseAccess 1 false r)

/-! ### Atomics (R257 to R267) -/

/-- Bytes of an atomic's type. -/
def atomBytes (ty : BitVec 2) : Nat := if ty.toNat = 3 then 8 else 4

/-- ATOM (R263, R265). -/
def execAtom (d a : RegField) (l : BitVec 4) (h : BitVec 2) (disp : BitVec 16) (op : BitVec 4) (scope : BitVec 3)
    (acq rem rel : Bool) (ty : BitVec 2) (s : State) : Host.Outcome State Fault Refusal :=
  let pair := op.toNat == 7 && ty.toNat == 3
  s.legal (.atom d a l h disp op scope acq rem rel ty)
    (match s.guessInfo ((a, true, true) :: dataHalves d true pair false) with
     | some info => s.trap .guessEscape info
     | none =>
       match s.checkLanes (s.eas a disp s.em) (atomBytes ty) true false with
       | .ok ps =>
         if !s.mayIssue ps rel then s.stall
         else
           let base := s.curCore.seq
           let x (i : LaneId) : DWord := if ty.toNat = 3 then (s.v d i).bits else (half (s.v d i).bits false).setWidth 64
           let y (i : LaneId) : DWord := if ty.toNat = 3 then (s.v (nextReg d) i).bits else (half (s.v d i).bits true).setWidth 64
           let r : Req :=
             { kind := .load, size := 0, acq := if acq then some scope else none, rem := rem,
               rel := if rel then some scope else none, dst := none, leaf := none, serial := false }
           ((s.pushLanes ps (atomBytes ty) r (fun i _ => .atomic op ty (x i) (y i)) (some s.g.nextPend)).endAccs (ps.map fun x => (x.1, x.2.1)) ps
             (acq || rel)).completeVL 8 (placed h a a d []) l.toNat
             { Pending.fresh (.vec d false) s.em with
               await := .accesses ((List.range ps.length).map (base + ·)), ty := if ty.toNat = 3 then 3 else 2
               eas := ps.map fun x => (x.1, x.2.1) }
       | r => s.refuseAccess 3 true r)

/-- SATOM (R264, R265). -/
def execSatom (d a : RegField) (l : BitVec 4) (disp : BitVec 16) (op : BitVec 4) (scope : BitVec 3)
    (acq rem rel : Bool) (ty : BitVec 2) (s : State) : Host.Outcome State Fault Refusal :=
  s.legal (.satom d a l disp op scope acq rem rel ty)
    (match s.checkLanes [(s.lowLane, s.u a + sdisp disp)] (atomBytes ty) true false with
     | .ok ps =>
       if !s.mayIssue ps rel then s.stall
       else
         let base := s.curCore.seq
         let x : DWord := if ty.toNat = 3 then s.u d else (half (s.u d) false).setWidth 64
         let y : DWord := if ty.toNat = 3 then s.u (nextReg d) else (half (s.u d) true).setWidth 64
         let r : Req :=
           { kind := .load, size := 0, acq := if acq then some scope else none, rem := rem,
             rel := if rel then some scope else none, dst := none, leaf := none, serial := false }
         ((s.pushLanes ps (atomBytes ty) r (fun _ _ => .atomic op ty x y) (some s.g.nextPend)).endAccs (ps.map fun x => (x.1, x.2.1)) ps
           (acq || rel)).completeVL 8 none l.toNat
           { Pending.fresh (.uni d) s.em with
             await := .accesses [base], ty := if ty.toNat = 3 then 3 else 2, part := ty.toNat != 3
             eas := ps.map fun x => (x.1, x.2.1) }
     | r => s.refuseAccess 3 true r)

/-! ### Arriving data -/

/-- The failure of a lane joins a pending result; the lowest failing lane is reported (R57, R207, R266). For dld, of which the
spec does not say which failing word is reported, this counts the norm's word as one of lane 31, and of two words of one lane the
first to arrive stays (log 104). -/
def Pending.failAt (p : Pending) (l : LaneId) (ea : DWord) : Pending :=
  let f : Failure := { cause := .uncorrectable, info := BitVec.ofNat 64 (ea.toNat % 2 ^ 57) }
  match p.fail with
  | none => { p with fail := some f }
  | some old =>
    match p.eas.find? fun x => BitVec.ofNat 64 (x.2.toNat % 2 ^ 57) == old.info with
    | some x => if x.1.val ≤ l.val then p else { p with fail := some f }
    | none => p

/-- The writes that arriving data makes in a lane of a vector result; `piece` is the part of a .b128. -/
def Pending.dataWrites (p : Pending) (l : LaneId) (piece : Nat) (x : Nat) (mk : Bool) : List LaneWrite :=
  match p.dst with
  | .vec d pair =>
    if pair then
      let v : DWord := BitVec.ofNat 64 x
      [{ reg := if piece = 0 then d else nextReg d, lane := l, lo := some (half v false, mk), hi := some (half v true, mk) }]
    else tyWrites d p.ty p.part l (tyExtend p.ty x) mk
  | _ => []

/-- Data arrives for a lane of a pending result that the access `id` serves: `x` is none where the data is
uncorrectable. -/
def Pending.take (p : Pending) (id : Nat) (l : LaneId) (piece : Nat) (ea : DWord) (x : Option Nat)
    (place : BitVec 10 × BitVec 39) : Pending :=
  let mk := p.addrMarks.getLsbD l.val
  let got (q : Pending) (mk : Bool) : Pending :=
    match x with
    | none => q.failAt l ea
    | some v =>
      match q.dst with
      | .uni _ => { q with uval := BitVec.ofNat 64 v }
      | .dir _ =>
        if piece < 64 then
          let old := q.dval.getD (piece / 2) 0
          let w : Word := BitVec.ofNat 32 v
          { q with dval := q.dval.set (piece / 2) (if piece % 2 = 1 then w ++ half old false else half old true ++ w) }
        else { q with dnorm := BitVec.ofNat 16 v }
      | .vec _ _ => { q with wr := q.wr ++ q.dataWrites l piece v mk }
  match p.await with
  | .lanes waiting guessed =>
    if waiting.any fun w => w.1.acc == id then
      got { p with await := .lanes (waiting.filter fun w => w.1.acc != id) guessed } mk
    else
      { p with await := .lanes waiting (guessed.map fun w =>
          if w.acc == id then
            match x with
            | some v => { w with data := some (tyExtend p.ty v) }
            | none => { w with bad := some place }
          else w) }
  | .accesses ids => if ids.contains id then got { p with await := .accesses (ids.filter (· != id)) } mk else p
  | .demand ls ids => if ids.contains id then got { p with await := .demand ls (ids.filter (· != id)) } false else p
  | _ => p

/-- A late slot's lane takes its data (R226, R228). -/
def LateSlot.take (y : LateSlot) (id : Nat) (x : Option Nat) (place : BitVec 10 × BitVec 39) : LateSlot :=
  { y with lanes := y.lanes.map fun w =>
      if w.acc == id then
        match x with
        | some v => { w with data := some (tyExtend y.ty v) }
        | none => { w with bad := some place }
      else w }

/-- A pending result or late slot of the gang takes the data of access `id`. -/
def Gang.wants (g : Gang) (id : Nat) : Bool :=
  (g.pend.any fun p => match p.await with
    | .lanes w gs => w.any (·.1.acc == id) || gs.any (·.acc == id)
    | .accesses ids => ids.contains id
    | .demand _ ids => ids.contains id
    | _ => false) || g.late.any fun y => y.lanes.any (·.acc == id)

/-- Where an access's data goes when it has arrived: the pending result, late slot or demand that waits for it; a guessed
lane that nothing covers any longer has its error reported (R227, R228). -/
def State.handOver (s : State) (c : CoreId) (a : Access) (x : Option Nat) : State :=
  match a.dst with
  | none => s
  | some (_, l, piece) =>
    let g := s.gangAt c a.slot
    if !g.live || g.team != a.team || !g.wants a.id then
      match x with
      | none => s.report (.guessError a.dev a.pa)
      | some _ => s
    else
      (s.modGangAt c a.slot fun g =>
        { g with pend := g.pend.map fun p => p.take a.id l piece a.va x (a.dev, a.pa)
                 late := g.late.map fun y => y.take a.id x (a.dev, a.pa) }).deliver c a.slot

/-- The value an sld delivers, or any other access: sld extends by its own size codes (R210). -/
def State.dataValue (s : State) (c : CoreId) (a : Access) (x : Nat) : Nat :=
  match a.dst with
  | none => x
  | some (id, _, _) =>
    match (s.gangAt c a.slot).pend.find? fun p => p.id == id with
    | some p => match p.dst, a.kind with
      | .uni _, .load => (sldExtend (p.ty.setWidth 3) x).toNat
      | _, _ => x
    | none => x

/-- The leaf table learns the true value of a load (R225). -/
def State.learnFrom (s : State) (c : CoreId) (a : Access) (x : Nat) : State :=
  match a.leaf, a.dst with
  | some q, some (_, l, _) => s.modCore c fun k => k.learn q l (tyExtend q.ty x)
  | _, _ => s

/-- A load is performed (R222, R243): it reads what its core sees. -/
def State.performLoad (s : State) (c : CoreId) (a : Access) : State :=
  let s1 := ((s.promote c a).noteRead c a).dropAcc c a.id
  let n := memIx a.dev a.pa
  if s1.bad n then s1.handOver c a none
  else
    let x := leNat (s1.viewN c a.part a.dev a.pa.toNat a.size)
    (s1.learnFrom c a x).handOver c a (some (s1.dataValue c a x))

/-- An atomic is performed whole at the owning die (R257, R263): the core's performed stores to its bytes come first; what it
writes leads back to the releases that it reads, and to itself (R241, R248). -/
def State.performAtomic (s : State) (c : CoreId) (a : Access) (op : BitVec 4) (ty : BitVec 2) (x y : DWord) : State :=
  let s0 := ((s.promote c a).noteRead c a).raiseSome c fun z => z.meets a
  let b := (s0.core c).performed a
  let n := memIx a.dev a.pa
  if s0.badLine n then (s0.dropAcc c a.id).handOver c a none
  else
    let key := s0.keyOf a.part
    let old := leNat (s0.rdN key n a.size)
    let s1 := s0.wrN key n (leBytes a.size (atomNew op ty old x.toNat y.toNat))
    let s2 := { s1 with relTags := tagBytes s1.relTags n a.size (s1.tagsIn a.spans ++ b.tag c) }
    let s3 := (s2.modCore c fun k =>
      { k.addMark b true false b.past with narrow := if b.narrow then b.raises else k.narrow }).dropAcc c a.id
    s3.handOver c a (some (s3.dataValue c a old))

/-- The delta that subtracts a source word (R364). -/
def subDelta (i : Nat) (x : DWord) : DWord := if i = 0 then (0 - half x false : Word).setWidth 64 else x

/-- The words of a cell with what word `i` takes of the source word `x` (R364). -/
def takeSource (ws : List CellWord) (i : Nat) (x : DWord) : List CellWord :=
  ((List.range ws.length).zip ws).map fun y =>
    if y.1 = i then { y.2 with delta := some (subDelta i x) } else y.2

/-- A source word of a cell of sksub is read, as a load (R241, R247, R364); an uncorrectable one drops the update, which is reported once. -/
def State.performSource (s : State) (c : CoreId) (a : Access) (up i : Nat) : State :=
  let s1 := ((s.promote c a).noteRead c a).dropAcc c a.id
  if s1.badN (memIx a.dev a.pa) a.size then
    match (s1.core c).acc? up with
    | some u => (s1.dropAcc c up).report (.droppedStore u.dev u.pa)
    | none => s1
  else
    let x := le64 (s1.viewN c a.part a.dev a.pa.toNat 8)
    s1.modCore c fun k =>
      { k with accs := k.accs.map fun y =>
          if y.id == up then
            match y.kind with
            | .cell ws => { y with kind := .cell (takeSource ws i x) }
            | _ => y
          else y }

/-- LOAD_DATA_ARRIVAL (R222, R225, R263): access `k` of core `c`, a load, a source read or an atomic, is performed and its
data arrives. -/
def execLoadDataArrival (c : CoreId) (k : Nat) (s : State) : Host.Outcome State Fault Refusal :=
  .next
    (match (s.core c).acc? k with
     | none => s
     | some a =>
       match a.kind with
       | .load => if (s.core c).mayPerform a then s.performLoad c a else s
       | .atomic op ty x y =>
         if (s.core c).mayPerform a && (s.core c).mayRaise a then s.performAtomic c a op ty x y else s
       | .source up i => if (s.core c).mayPerform a then s.performSource c a up i else s
       | _ => s)

/-- A lane of a pending ld with a nonzero limit is resolved as a guess (R218, R224). -/
def State.guessLane (s : State) (c : CoreId) (i : SlotId) (k : Nat) (l : LaneId) : State :=
  match s.pend? c i k with
  | none => s
  | some p =>
    match p.await, p.dst with
    | .lanes waiting guessed, .vec d _ =>
      match waiting.find? fun w => w.1.lane == l && w.2 != 0 with
      | none => s
      | some w =>
        let q : LeafReq := { pc := p.pc, asid := (s.teamAt c i).asid, ty := p.ty, part := p.part }
        let v := (s.core c).predict q l
        let s1 := s.modCore c fun k => { k with pcount := if k.pcount = 0xFFFFFFFF then k.pcount else k.pcount + 1 }
        s1.modPend c i k fun p =>
          { p with await := .lanes (waiting.filter fun w => w.1.lane != l) (guessed ++ [w.1])
                   wr := p.wr ++ tyWrites d p.ty p.part l v true }
    | _, _ => s

/-- LOAD_DEADLINE (R215, R218, R224): a lane with a nonzero limit is resolved as a guess. -/
def execLoadDeadline (c : CoreId) (i : SlotId) (k : Nat) (l : LaneId) (s : State) : Host.Outcome State Fault Refusal :=
  .next ((s.guessLane c i k l).deliver c i)

/-- LONG_LATENCY_RESULT (R51, R57): a pending result whose window has closed and whose data is there is written, or its
late failure taken. -/
def execLongLatencyResult (c : CoreId) (i : SlotId) (k : Nat) (s : State) : Host.Outcome State Fault Refusal :=
  .next
    (match s.pend? c i k with
     | some p => if p.closed && p.ready then s.deliver c i else s
     | none => s)

end Sys2Proof.Machine
end

