-- ==== Sys2Proof/Machine/Directional.lean ====
section
/-!
DEFINITION. Directional registers (R338 to R351, V-form 0x60 to 0x6C). A vector is kept exact until Renorm rounds it:
as integers at one scale, or, where two norms differ by no multiple of 256, in the field of t = 2^(D/256), where signs
are decided by an exact test for zero and by bounds on t (log 7).
-/
namespace Sys2Proof.Machine

/-! ### Reading and writing -/

/-- The norm of a directional register, signed (R83, R338). -/
def Gang.norm (g : Gang) (a : RegField) : BitVec 16 := g.dn.get (dIx a)

/-- The four components in a lane's 64 bits (R338). -/
def compsOf (x : DWord) : List Int := (elems 16 x).map (signedVal 16)

/-- The 128 components as instructions read them: 0 throughout for the zero vector (R338). -/
def Gang.comps (g : Gang) (a : RegField) : List Int :=
  if g.norm a = 0x8000 then List.replicate 128 0 else (g.dc.get (dIx a)).toList.flatMap compsOf

/-- The lane's 64 bits that hold components 4l to 4l+3. -/
def dirLane (cs : List Int) (l : LaneId) : DWord := ofElems 16 (((cs.drop (4 * l.val)).take 4).map (wrap 16))

/-- A directional register written: components and norm. -/
def Gang.writeDir (g : Gang) (d : RegField) (cs : List Int) (n : BitVec 16) : Gang :=
  { g.writeN d n with
    dc := g.dc.set (dIx d) (Vector.ofFn (dirLane cs)), pend := g.pend.map fun p => p.after (.dir d) .none }

/-- What Renorm gives: components, norm, and whether the norm was clamped (R339). -/
structure Unit128 where
  c : List Int
  n : BitVec 16
  clamped : Bool
deriving DecidableEq, Repr

/-- The zero vector (R338, R339). -/
def Unit128.zero : Unit128 := { c := List.replicate 128 0, n := 0x8000, clamped := false }

/-- A norm clamped to 0x8001..0x7FFF (R339, R348). -/
def clampNorm (x : Int) : BitVec 16 × Bool :=
  let y := Max.max (-32767) (Min.min 32767 x)
  (BitVec.ofInt 16 y, x != y)

/-- Components and an unclamped norm as a result. -/
def Unit128.of (c : List Int) (n : Int) : Unit128 := { c := c, n := (clampNorm n).1, clamped := (clampNorm n).2 }

/-! ### Renorm of integers at one scale -/

/-- 2^14·y/√S rounded to nearest even, exactly: `k` is the floor of 2^15·|y|/√S. -/
def renormComp (S : Nat) (y : Int) : Int :=
  let q := 2 ^ 30 * y.natAbs ^ 2
  let k := isqrt (q / S)
  let tie := k * k * S = q
  let n : Nat := if k % 2 = 1 && (!tie || k / 2 % 2 = 1) then k / 2 + 1 else k / 2
  if y < 0 then -(n : Int) else n

/-- Renorm of ys · 2^(off/256) (R339): 256·log2 m is off + 128·log2 S, which is never midway between integers. -/
def renormInt (ys : List Int) (off : Int) : Unit128 :=
  let S := ys.foldl (fun n y => n + y.natAbs ^ 2) 0
  if S = 0 then .zero else .of (ys.map (renormComp S)) (off + (bitLen (S ^ 256) / 2 : Nat))

/-! ### The field of t = 2^q·z, z = 2^(r/256), 0 < r < 256 -/

/-- An element a·t² + b·t + c. -/
structure Quad where
  a : Int
  b : Int
  c : Int
deriving DecidableEq, Repr

/-- A number x with x ≤ z·2^p < x + 2: eight square roots of 2^r. -/
def zFix (r p : Nat) : Nat := Nat.repeat (fun x => isqrt (x * 2 ^ p)) 8 (2 ^ (r + p))

/-- The element is 0: 1, t, t² are independent over the rationals, but t² is rational for r = 128. -/
def Quad.isZero (q r : Nat) (e : Quad) : Bool :=
  if r = 128 then e.a * 2 ^ (2 * q + 1) + e.c == 0 && e.b == 0 else e.a == 0 && e.b == 0 && e.c == 0

/-- The element times 2^(2p), and a bound of the error, from x with x ≤ z·2^p < x + 2. -/
def Quad.bounds (q p x : Nat) (e : Quad) : Int × Int :=
  let a := e.a * 4 ^ q
  let b := e.b * 2 ^ q
  (a * x * x + b * x * 2 ^ p + e.c * 4 ^ p, a.natAbs * (4 * x + 4) + b.natAbs * 2 ^ (p + 1))

/-- The sign of a nonzero element, the precision doubling until the bounds decide it. -/
def Quad.signFrom (q r : Nat) (e : Quad) : Nat → Nat → Int → Int
  | fuel, p, x =>
    let v := e.bounds q p x.toNat
    if v.2 < v.1 then 1 else if v.1 < -v.2 then -1
    else
      match fuel with
      | 0 => if v.1 < 0 then -1 else 1
      | fuel + 1 => Quad.signFrom q r e fuel (2 * p) (zFix r (2 * p))

/-- The sign of an element; `x` is z at 1024 bits. -/
def Quad.sign (q r x : Nat) (e : Quad) : Int := if e.isZero q r then 0 else e.signFrom q r 10 1024 x

/-- Largest k of at most `i` bits above the bits of `k` with k²·S ≤ Y. -/
def ratioFrom (ge : Nat → Bool) (k : Nat) : Nat → Nat
  | 0 => k
  | i + 1 => let c := k + 2 ^ i; ratioFrom ge (if ge c then c else k) i

/-- 2^14·y/√S rounded to nearest even for y = a·t + b. -/
def fieldComp (q r x : Nat) (S : Quad) (a b : Int) : Int :=
  let diff (k : Nat) : Quad :=
    { a := 2 ^ 30 * a * a - k * k * S.a, b := 2 ^ 31 * a * b - k * k * S.b, c := 2 ^ 30 * b * b - k * k * S.c }
  let k := ratioFrom (fun k => 0 ≤ (diff k).sign q r x) 0 16
  let tie := (diff k).isZero q r
  let n : Nat := if k % 2 = 1 && (!tie || k / 2 % 2 = 1) then k / 2 + 1 else k / 2
  if (Quad.sign q r x { a := 0, b := a, c := b }) < 0 then -(n : Int) else n

/-- 128·log2 S rounded to an integer; it is never midway between integers. -/
def fieldLog (q r : Nat) (S : Quad) : Nat → Nat → Int → Int
  | fuel, p, x =>
    let v := S.bounds q p x.toNat
    let lo : Int := (bitLen ((v.1 - v.2).toNat ^ 256) / 2 : Nat) - 256 * (p : Int)
    let hi : Int := (bitLen ((v.1 + v.2).toNat ^ 256) / 2 : Nat) - 256 * (p : Int)
    if lo = hi then lo
    else
      match fuel with
      | 0 => lo
      | fuel + 1 => fieldLog q r S fuel (2 * p) (zFix r (2 * p))

/-- Renorm of (a·t + b)·2^(off/256), t = 2^(D/256), D no multiple of 256. -/
def renormField (as bs : List Int) (D : Nat) (off : Int) : Unit128 :=
  let q := D / 256
  let r := D % 256
  let S : Quad :=
    { a := as.foldl (fun n a => n + a * a) 0, b := 2 * (List.zipWith (· * ·) as bs).foldl (· + ·) 0,
      c := bs.foldl (fun n b => n + b * b) 0 }
  if S.a = 0 && S.c = 0 then .zero
  else
    let x := zFix r 1024
    .of (List.zipWith (fieldComp q r x S) as bs) (off + fieldLog q r S 6 1024 x)

/-- Renorm of as·2^(na/256) + bs·2^(nb/256), components in units of 2^-14 (R339, R346). -/
def renormSum (as : List Int) (na : Int) (bs : List Int) (nb : Int) : Unit128 :=
  let na := if as.all (· == 0) then nb else na
  let nb := if bs.all (· == 0) then na else nb
  let off := Min.min na nb - 14 * 256
  let D := (na - nb).natAbs
  let big := if nb ≤ na then as else bs
  let small := if nb ≤ na then bs else as
  if D % 256 = 0 then renormInt (List.zipWith (fun a b => a * 2 ^ (D / 256) + b) big small) off
  else renormField big small D off

/-! ### Values of vector registers -/

/-- The elements that dfrom and dmulv read, in component order (R344). -/
def State.dirElems (s : State) (a : RegField) (wide : Bool) : List FVal :=
  (allFin 32).flatMap fun l =>
    if wide then (elems 32 (s.v a l).bits ++ elems 32 (s.v (nextReg a) l).bits).map f32.decode
    else (elems 16 (s.v a l).bits).map bf16.decode

/-- The values times 2^(-e) as integers, where all are finite; every exponent is at least e. -/
def asInts (e : Int) : List FVal → Option (List Int)
  | [] => some []
  | .fin n m d :: rest => (asInts e rest).map (scaled n m d e :: ·)
  | _ :: _ => none

/-- An exponent below every FP32 value. -/
def lowExp : Int := -160

/-- The result of an instruction that renormalises is written (R339). -/
def State.writeUnit (s : State) (d : RegField) (x : Unit128) : State :=
  s.modG fun g => (g.writeDir d x.c x.n).noteClamp x.clamped

/-- A component instruction: the whole gang is needed (R340). -/
def State.component (s : State) (t : State) : State := if s.whole then t else s.trapIllegalConv

/-! ### Conversion -/

/-- DFROM (R344). -/
def execDfrom (d a : RegField) (h : BitVec 2) (g f : Bool) (s : State) : Host.Outcome State Fault Refusal :=
  s.legal (.dfrom d a h g f) (s.component
    (match if g then none else s.guessInfo ((a, true, true) :: if f then [(nextReg a, true, true)] else []) with
     | some info => s.trap .guessEscape info
     | none =>
       let x := match asInts lowExp (s.dirElems a f) with
         | none => Unit128.zero
         | some ys => renormInt ys (256 * lowExp)
       (s.writeUnit d x).completeV 4 (placed h a a d [])))

/-- c·2^-14·2^(n/256) rounded to a format (R345). -/
def dirValue (f : Fmt) (mode draw : Nat) (c : Int) (n : Int) : Nat :=
  if c = 0 then 0
  else
    let q := n / 256
    let r := (n % 256).toNat
    if r = 0 then f.round mode (c < 0) c.natAbs (q - 14) false draw
    else settleAt f mode draw fun p =>
      { a := c * (zFix r p : Nat), err := 2 * c.natAbs + 1, e := q - 14 - (p : Int) }

/-- DTO (R345). -/
def execDto (d a : RegField) (r : BitVec 3) (f : Bool) (s : State) : Host.Outcome State Fault Refusal :=
  s.legal (.dto d a r f) (s.component
    (let fmt := if f then f32 else bf16
     let mode := r.toNat
     let n := (s.g.norm a).toInt
     let cs := s.g.comps a
     let fs := fun (l : LaneId) => ((cs.drop (4 * l.val)).take 4).map fun c draw => dirValue fmt mode draw c n
     let t := s.advanceRng mode fs
     let res := s.drawn mode fs
     (if f then
       (t.writeV d fun l => VCell.both (ofElems 32 ((res l).take 2)) false).writeV (nextReg d) fun l =>
         VCell.both (ofElems 32 ((res l).drop 2)) false
      else t.writeV d fun l => VCell.both (ofElems 16 (res l)) false).completeV 4 none))

/-! ### Arithmetic -/

/-- DADD (R346). -/
def execDadd (d a b : RegField) (s : State) : Host.Outcome State Fault Refusal :=
  s.legal (.dadd d a b) (s.component
    ((s.writeUnit d (renormSum (s.g.comps a) (s.g.norm a).toInt (s.g.comps b) (s.g.norm b).toInt)).completeV 4 none))

/-- DSUB (R346). -/
def execDsub (d a b : RegField) (s : State) : Host.Outcome State Fault Refusal :=
  s.legal (.dsub d a b) (s.component
    ((s.writeUnit d (renormSum (s.g.comps a) (s.g.norm a).toInt ((s.g.comps b).map (- ·))
      (s.g.norm b).toInt)).completeV 4 none))

/-- DMULV (R346). -/
def execDmulv (d a b : RegField) (h : BitVec 2) (g : Bool) (s : State) : Host.Outcome State Fault Refusal :=
  s.legal (.dmulv d a b h g) (s.component
    (match if g then none else s.guessInfo [(b, true, true)] with
     | some info => s.trap .guessEscape info
     | none =>
       let x := match asInts lowExp (s.dirElems b false) with
         | none => Unit128.zero
         | some ys => renormInt (List.zipWith (· * ·) (s.g.comps a) ys) ((s.g.norm a).toInt + 256 * (lowExp - 14))
       (s.writeUnit d x).completeV 4 (placed h a b d [])))

/-- DNEG (R346): not renormalised; a component of 0x8000 becomes 0x7FFF (R82). -/
def execDneg (d a : RegField) (s : State) : Host.Outcome State Fault Refusal :=
  s.legal (.dneg d a) (s.component
    ((s.modG fun g => g.writeDir d ((g.comps a).map fun c => Min.min 32767 (-c)) (g.norm a)).completeV 4 none))

/-- DNORM (R346). -/
def execDnorm (d a : RegField) (s : State) : Host.Outcome State Fault Refusal :=
  s.legal (.dnorm d a) (s.component
    ((s.writeUnit d (renormInt (s.g.comps a) ((s.g.norm a).toInt - 14 * 256))).completeV 4 none))

/-- The value of ddot (R347). -/
def dotValue (as bs : List Int) (na nb : BitVec 16) : Nat :=
  if na = 0x8000 || nb = 0x8000 then 0
  else
    let P := (List.zipWith (· * ·) as bs).foldl (· + ·) 0
    let M := na.toInt + nb.toInt
    let q := M / 256
    let r := (M % 256).toNat
    if P = 0 then 0
    else if r = 0 then f32.round 0 (P < 0) P.natAbs (q - 28) false 0
    else settleAt f32 0 0 fun p => { a := P * (zFix r p : Nat), err := 2 * P.natAbs + 1, e := q - 28 - (p : Int) }

/-- DDOT (R347). -/
def execDdot (d a b : RegField) (l : BitVec 4) (s : State) : Host.Outcome State Fault Refusal :=
  s.legal (.ddot d a b l) (s.component
    (s.completeVL 4 none l.toNat
      { Pending.fresh (.uni d) s.em with
        uval := BitVec.ofNat 64 (dotValue (s.g.comps a) (s.g.comps b) (s.g.norm a) (s.g.norm b)) }))

/-! ### Norms -/

/-- DSCL (R348). -/
def execDscl (d a : RegField) (s : State) : Host.Outcome State Fault Refusal :=
  s.legal (.dscl d a)
    (let x : BitVec 16 := (s.u a).extractLsb' 0 16
     let n := s.g.norm d
     let r := if n = 0x8000 then (n, false) else clampNorm (n.toInt + x.toInt)
     (s.modG fun g => (g.writeN d r.1).noteClamp r.2).completeV 4 none)

/-- DSETN (R348). -/
def execDsetn (d a : RegField) (s : State) : Host.Outcome State Fault Refusal :=
  s.legal (.dsetn d a)
    (let x : BitVec 16 := (s.u a).extractLsb' 0 16
     (s.modG fun g => g.writeN d (if g.norm d = 0x8000 then 0x8000 else x)).completeV 4 none)

/-- The unit invariant of R339. -/
def unitHolds (cs : List Int) : Bool :=
  (cs.foldl (fun n c => n + c * c) 0 - 2 ^ 28 : Int).natAbs < 2 ^ 18

/-- DTEST (R349): U tests the unit invariant. -/
def execDtest (d a : RegField) (u : Bool) (s : State) : Host.Outcome State Fault Refusal :=
  s.legal (.dtest d a u)
    (if u then
       s.component ((s.writeU d (if s.g.norm a = 0x8000 || unitHolds (s.g.comps a) then 1 else 0)).completeV 4 none)
     else (s.writeU d ((s.g.norm a).signExtend 64)).completeV 4 none)

/-! ### Records in memory -/

/-- The 65 accesses of a record, each with the lane whose components it carries; the norm's has lane 31 (R350, R351). -/
def recordEas (ea : DWord) : List (LaneId × DWord) :=
  (List.range 65).map fun i => (Fin.ofNat 32 (Nat.min (i / 2) 31), ea + BitVec.ofNat 64 (4 * i))

/-- The accesses of a record enter the list. -/
def State.pushRecord (s : State) (ps : List (LaneId × DWord × Place)) (kind : Nat → AccKind) (dst : Option Nat) : State :=
  ((List.range 65).zip ps).foldl (fun s x =>
    s.pushAcc x.2.2.1 x.2.2.2
      { kind := kind x.1, size := 4, acq := none, rem := false, rel := none, dst := dst.map fun id => (id, x.2.1, x.1),
        leaf := none, serial := false }) s

/-- DLD (R350, R351). -/
def execDld (d a : RegField) (l : BitVec 4) (s : State) : Host.Outcome State Fault Refusal :=
  s.legal (.dld d a l) (s.component
    (match s.checkLanes (recordEas (s.u a)) 4 false false with
     | .ok ps =>
       if !s.mayIssue ps false then s.stall
       else
         let base := s.curCore.seq
         ((s.pushRecord ps (fun _ => .load) (some s.g.nextPend)).endAccs (recordEas (s.u a)) ps false).completeVL 4 none l.toNat
           { Pending.fresh (.dir d) s.em with
             await := .accesses ((List.range 65).map (base + ·)), eas := ps.map fun x => (x.1, x.2.1)
             dval := List.replicate 32 0 }
     | r => s.refuseAccess 1 false r))

/-- The bytes of the `i`-th word of a record (R350). -/
def Gang.recordWord (g : Gang) (a : RegField) (i : Nat) : List Byte :=
  if i = 64 then leBytes 4 (g.norm a).toNat
  else leBytes 4 (half (dirLane (g.comps a) (Fin.ofNat 32 (i / 2))) (i % 2 == 1)).toNat

/-- DST (R350, R351). -/
def execDst (d a : RegField) (s : State) : Host.Outcome State Fault Refusal :=
  s.legal (.dst d a) (s.component
    (match s.checkLanes (recordEas (s.u a)) 4 true false with
     | .ok ps =>
       if !s.mayIssue ps false then s.stall
       else ((s.pushRecord ps (fun i => .store (s.g.recordWord d i)) none).endAccs (recordEas (s.u a)) ps false).completeV 4 none
     | r => s.refuseAccess 2 true r))

end Sys2Proof.Machine
end

