-- ==== Sys2Proof/Machine/Crypto.lean ====
section
/-!
DEFINITION. The algorithms that R420, R422 and R423 name: SHA-384 (and SHA-256 and SHA-512, on which the others rest), RSASSA-PSS
with RSA-3072, SLH-DSA-SHA2-192s, P-384 and the keys of a session. The rules name them and the documents that define them; what those
documents say is taken from outside the spec (log 108, PRESUMED).
-/
namespace Sys2Proof.Machine

/-! ### Numbers and bytes, most significant first -/

/-- The big-endian value of bytes. -/
def beNat (bs : List Byte) : Nat := bs.foldl (fun n b => 256 * n + b.toNat) 0

/-- The `n` big-endian bytes of a value. -/
def beBytes (n v : Nat) : List Byte := (leBytes n v).reverse

/-- The bytes of one list XORed with those of another. -/
def xorBytes (xs ys : List Byte) : List Byte := List.zipWith (· ^^^ ·) xs ys

/-- `b ^ e` modulo `m`; `fuel` bounds the bits of `e`. -/
def powMod (m : Nat) : (fuel b e : Nat) → Nat
  | 0, _, _ => 1 % m
  | fuel + 1, b, e =>
    let h := powMod m fuel (b * b % m) (e / 2)
    if e % 2 = 1 then b * h % m else h

/-! ### SHA-2 (FIPS 180-4) -/

/-- The constants of SHA-384 and SHA-512, sixteen at a time. -/
def shaK0 : List DWord :=
  [0x428A2F98D728AE22, 0x7137449123EF65CD, 0xB5C0FBCFEC4D3B2F, 0xE9B5DBA58189DBBC,
   0x3956C25BF348B538, 0x59F111F1B605D019, 0x923F82A4AF194F9B, 0xAB1C5ED5DA6D8118,
   0xD807AA98A3030242, 0x12835B0145706FBE, 0x243185BE4EE4B28C, 0x550C7DC3D5FFB4E2,
   0x72BE5D74F27B896F, 0x80DEB1FE3B1696B1, 0x9BDC06A725C71235, 0xC19BF174CF692694]
def shaK1 : List DWord :=
  [0xE49B69C19EF14AD2, 0xEFBE4786384F25E3, 0x0FC19DC68B8CD5B5, 0x240CA1CC77AC9C65,
   0x2DE92C6F592B0275, 0x4A7484AA6EA6E483, 0x5CB0A9DCBD41FBD4, 0x76F988DA831153B5,
   0x983E5152EE66DFAB, 0xA831C66D2DB43210, 0xB00327C898FB213F, 0xBF597FC7BEEF0EE4,
   0xC6E00BF33DA88FC2, 0xD5A79147930AA725, 0x06CA6351E003826F, 0x142929670A0E6E70]
def shaK2 : List DWord :=
  [0x27B70A8546D22FFC, 0x2E1B21385C26C926, 0x4D2C6DFC5AC42AED, 0x53380D139D95B3DF,
   0x650A73548BAF63DE, 0x766A0ABB3C77B2A8, 0x81C2C92E47EDAEE6, 0x92722C851482353B,
   0xA2BFE8A14CF10364, 0xA81A664BBC423001, 0xC24B8B70D0F89791, 0xC76C51A30654BE30,
   0xD192E819D6EF5218, 0xD69906245565A910, 0xF40E35855771202A, 0x106AA07032BBD1B8]
def shaK3 : List DWord :=
  [0x19A4C116B8D2D0C8, 0x1E376C085141AB53, 0x2748774CDF8EEB99, 0x34B0BCB5E19B48A8,
   0x391C0CB3C5C95A63, 0x4ED8AA4AE3418ACB, 0x5B9CCA4F7763E373, 0x682E6FF3D6B2B8A3,
   0x748F82EE5DEFB2FC, 0x78A5636F43172F60, 0x84C87814A1F0AB72, 0x8CC702081A6439EC,
   0x90BEFFFA23631E28, 0xA4506CEBDE82BDE9, 0xBEF9A3F7B2C67915, 0xC67178F2E372532B]
def shaK4 : List DWord :=
  [0xCA273ECEEA26619C, 0xD186B8C721C0C207, 0xEADA7DD6CDE0EB1E, 0xF57D4F7FEE6ED178,
   0x06F067AA72176FBA, 0x0A637DC5A2C898A6, 0x113F9804BEF90DAE, 0x1B710B35131C471B,
   0x28DB77F523047D84, 0x32CAAB7B40C72493, 0x3C9EBE0A15C9BEBC, 0x431D67C49C100D4C,
   0x4CC5D4BECB3E42B6, 0x597F299CFC657E2A, 0x5FCB6FAB3AD6FAEC, 0x6C44198C4A475817]

/-- The first hash values of SHA-512, whose upper halves are those of SHA-256, and of SHA-384. -/
def sha512Init : List DWord :=
  [0x6A09E667F3BCC908, 0xBB67AE8584CAA73B, 0x3C6EF372FE94F82B, 0xA54FF53A5F1D36F1,
   0x510E527FADE682D1, 0x9B05688C2B3E6C1F, 0x1F83D9ABFB41BD6B, 0x5BE0CD19137E2179]
def sha384Init : List DWord :=
  [0xCBBB9D5DC1059ED8, 0x629A292A367CD507, 0x9159015A3070DD17, 0x152FECD8F70E5939,
   0x67332667FFC00B31, 0x8EB44A8768581511, 0xDB0C2E0D64F98FA7, 0x47B5481DBEFA4FA4]

/-- The 80 constants of SHA-384 and SHA-512; the upper halves of the first 64 are those of SHA-256. -/
def shaK : List DWord := shaK0 ++ shaK1 ++ shaK2 ++ shaK3 ++ shaK4

/-- A hash of the family: the bytes of a word, the constants, the first value, and the amounts of the four functions: three rotations,
or two and a shift. -/
structure Sha2 (w : Nat) where
  wordBytes : Nat
  consts : List (BitVec w)
  init : List (BitVec w)
  up0 : Nat × Nat × Nat
  up1 : Nat × Nat × Nat
  low0 : Nat × Nat × Nat
  low1 : Nat × Nat × Nat

/-- Three rotations combined. -/
def upSigma {w : Nat} (r : Nat × Nat × Nat) (x : BitVec w) : BitVec w := x.rotateRight r.1 ^^^ x.rotateRight r.2.1 ^^^ x.rotateRight r.2.2

/-- Two rotations and a shift combined. -/
def lowSigma {w : Nat} (r : Nat × Nat × Nat) (x : BitVec w) : BitVec w := x.rotateRight r.1 ^^^ x.rotateRight r.2.1 ^^^ x >>> r.2.2

/-- `n` more words of the message schedule, newest first. -/
def Sha2.extend {w : Nat} (h : Sha2 w) : Nat → List (BitVec w) → List (BitVec w)
  | 0, ws => ws
  | n + 1, ws =>
    h.extend n ((lowSigma h.low1 (ws.getD 1 0) + ws.getD 6 0 + lowSigma h.low0 (ws.getD 14 0) + ws.getD 15 0) :: ws)

/-- One round on the eight working words. -/
def Sha2.round {w : Nat} (h : Sha2 w) (v : List (BitVec w)) (k x : BitVec w) : List (BitVec w) :=
  match v with
  | [a, b, c, d, e, f, g, z] =>
    let t := z + upSigma h.up1 e + ((e &&& f) ^^^ (~~~e &&& g)) + k + x
    [t + upSigma h.up0 a + ((a &&& b) ^^^ (a &&& c) ^^^ (b &&& c)), a, b, c, d + t, e, f, g]
  | _ => v

/-- A block taken into the hash value. -/
def Sha2.block {w : Nat} (h : Sha2 w) (v : List (BitVec w)) (bs : List Byte) : List (BitVec w) :=
  let first := (List.range 16).map fun i => BitVec.ofNat w (beNat ((bs.drop (h.wordBytes * i)).take h.wordBytes))
  let ws := (h.extend (h.consts.length - 16) first.reverse).reverse
  List.zipWith (· + ·) v ((h.consts.zip ws).foldl (fun v x => h.round v x.1 x.2) v)

/-- `n` blocks taken in. -/
def Sha2.blocks {w : Nat} (h : Sha2 w) : Nat → List (BitVec w) → List Byte → List (BitVec w)
  | 0, v, _ => v
  | n + 1, v, bs => h.blocks n (h.block v (bs.take (16 * h.wordBytes))) (bs.drop (16 * h.wordBytes))

/-- The padded message: a 1 bit, zeros, and the length in bits in two words. -/
def Sha2.pad {w : Nat} (h : Sha2 w) (bs : List Byte) : List Byte :=
  let m := 16 * h.wordBytes
  let used := (bs.length + 1 + 2 * h.wordBytes) % m
  bs ++ [0x80] ++ List.replicate ((m - used) % m) 0 ++ beBytes (2 * h.wordBytes) (8 * bs.length)

/-- The hash of bytes, all its words. -/
def Sha2.hash {w : Nat} (h : Sha2 w) (bs : List Byte) : List Byte :=
  let p := h.pad bs
  (h.blocks (p.length / (16 * h.wordBytes)) h.init p).flatMap fun x => beBytes h.wordBytes x.toNat

/-- SHA-512 and SHA-384 differ in their first values and in the length kept; SHA-256 has words of 32 bits. -/
def sha512Kind (init : List DWord) : Sha2 64 :=
  { wordBytes := 8, consts := shaK, init := init, up0 := (28, 34, 39), up1 := (14, 18, 41), low0 := (1, 8, 7), low1 := (19, 61, 6) }
def sha256Kind : Sha2 32 :=
  { wordBytes := 4, consts := (shaK.take 64).map fun x => x.extractLsb' 32 32, init := sha512Init.map fun x => x.extractLsb' 32 32
    up0 := (2, 13, 22), up1 := (6, 11, 25), low0 := (7, 18, 3), low1 := (17, 19, 10) }

/-- The three hashes. -/
def sha512 (bs : List Byte) : List Byte := (sha512Kind sha512Init).hash bs
def sha384 (bs : List Byte) : List Byte := ((sha512Kind sha384Init).hash bs).take 48
def sha256 (bs : List Byte) : List Byte := sha256Kind.hash bs

/-- MGF1 (RFC 8017): `n` bytes from a seed. -/
def mgf1 (hash : List Byte → List Byte) (hlen : Nat) (seed : List Byte) (n : Nat) : List Byte :=
  ((List.range ((n + hlen - 1) / hlen)).flatMap fun i => hash (seed ++ beBytes 4 i)).take n

/-! ### RSASSA-PSS (RFC 8017) with RSA-3072, SHA-384 and a 48-byte salt -/

/-- The encoded message `em` of 384 bytes agrees with the message. -/
def pssOk (msg em : List Byte) : Bool :=
  let masked := em.take 335
  let h := (em.drop 335).take 48
  let db := match xorBytes masked (mgf1 sha384 48 h 335) with
    | x :: xs => (x &&& 0x7F) :: xs
    | [] => []
  em.getD 383 0 == 0xBC && (masked.headD 0).toNat < 128 && (db.take 286).all (· == 0) && db.getD 286 0 == 1 &&
    sha384 (List.replicate 8 0 ++ sha384 msg ++ db.drop 287) == h

/-- The RSA check of R420. -/
def rsaPssOk (k : PubKeys) (msg sig : List Byte) : Bool :=
  let s := beNat sig
  2 ^ 3071 ≤ k.rsaN && k.rsaN < 2 ^ 3072 && sig.length == 384 && s < k.rsaN && pssOk msg (beBytes 384 (powMod k.rsaN 3072 s k.rsaE))

/-! ### SLH-DSA-SHA2-192s (FIPS 205): n = 24, h = 63, d = 7, h' = 9, a = 14, k = 17, w = 16, m = 39 -/

/-- A compressed address: layer, tree, type and three words. -/
structure SlhAdrs where
  layer : Nat
  tree : Nat
  type : Nat
  w0 : Nat
  w1 : Nat
  w2 : Nat

/-- The 22 bytes of a compressed address. -/
def SlhAdrs.bytes (x : SlhAdrs) : List Byte :=
  beBytes 1 x.layer ++ beBytes 8 x.tree ++ beBytes 1 x.type ++ beBytes 4 x.w0 ++ beBytes 4 x.w1 ++ beBytes 4 x.w2

/-- F, and H and T_l, under a public seed. -/
def slhF (seed : List Byte) (x : SlhAdrs) (m : List Byte) : List Byte := (sha256 (seed ++ List.replicate 40 0 ++ x.bytes ++ m)).take 24
def slhH (seed : List Byte) (x : SlhAdrs) (m : List Byte) : List Byte := (sha512 (seed ++ List.replicate 104 0 ++ x.bytes ++ m)).take 24

/-- The `i`-th string of 24 bytes. -/
def nth24 (bs : List Byte) (i : Nat) : List Byte := (bs.drop (24 * i)).take 24

/-- `n` digits of `b` bits of a string, most significant first. -/
def digitsOf (bs : List Byte) (b n : Nat) : List Nat :=
  let x := beNat bs
  (List.range n).map fun i => x / 2 ^ (8 * bs.length - b * (i + 1)) % 2 ^ b

/-- The root that a leaf and its path give; `h` is the height of the leaf's parent, `i` the index of the leaf and `x` the address but
for these. -/
def slhPath (seed : List Byte) (x : SlhAdrs) : List (List Byte) → (h i : Nat) → List Byte → List Byte
  | [], _, _, node => node
  | p :: ps, h, i, node =>
    slhPath seed x ps (h + 1) (i / 2)
      (slhH seed { x with w1 := h, w2 := i / 2 } (if i % 2 = 0 then node ++ p else p ++ node))

/-- `n` steps of a WOTS+ chain from position `j` on. -/
def slhChain (seed : List Byte) (x : SlhAdrs) : Nat → Nat → List Byte → List Byte
  | 0, _, m => m
  | n + 1, j, m => slhChain seed x n (j + 1) (slhF seed { x with w2 := j } m)

/-- The digits of a WOTS+ message with those of its checksum. -/
def wotsDigits (m : List Byte) : List Nat :=
  let ds := digitsOf m 4 48
  ds ++ digitsOf (beBytes 2 (16 * (ds.map fun d => 15 - d).foldl (· + ·) 0)) 4 3

/-- The WOTS+ public key that a signature of a message gives. -/
def wotsKey (seed : List Byte) (layer tree leaf : Nat) (sig m : List Byte) : List Byte :=
  let ds := wotsDigits m
  let ends := (List.range 51).flatMap fun i =>
    let d := ds.getD i 0
    slhChain seed { layer := layer, tree := tree, type := 0, w0 := leaf, w1 := i, w2 := 0 } (15 - d) d (nth24 sig i)
  slhH seed { layer := layer, tree := tree, type := 1, w0 := leaf, w1 := 0, w2 := 0 } ends

/-- The root of a tree of the hypertree that a signature of a message gives. -/
def xmssRoot (seed : List Byte) (layer tree leaf : Nat) (sig m : List Byte) : List Byte :=
  slhPath seed { layer := layer, tree := tree, type := 2, w0 := 0, w1 := 0, w2 := 0 } ((List.range 9).map fun i => nth24 sig (51 + i)) 1 leaf
    (wotsKey seed layer tree leaf sig m)

/-- The root of the hypertree: `n` layers from `layer` on. -/
def hyperRoot (seed : List Byte) : (n layer tree leaf : Nat) → (sig m : List Byte) → List Byte
  | 0, _, _, _, _, m => m
  | n + 1, layer, tree, leaf, sig, m =>
    hyperRoot seed n (layer + 1) (tree / 2 ^ 9) (tree % 2 ^ 9) (sig.drop (24 * 60)) (xmssRoot seed layer tree leaf sig m)

/-- The FORS public key that a signature gives. -/
def forsKey (seed : List Byte) (tree leaf : Nat) (sig md : List Byte) : List Byte :=
  let x : SlhAdrs := { layer := 0, tree := tree, type := 3, w0 := leaf, w1 := 0, w2 := 0 }
  let is := digitsOf md 14 17
  let roots := (List.range 17).flatMap fun i =>
    let part := sig.drop (24 * 15 * i)
    let ix := i * 2 ^ 14 + is.getD i 0
    slhPath seed x ((List.range 14).map fun j => nth24 part (j + 1)) 1 ix (slhF seed { x with w2 := ix } (nth24 part 0))
  slhH seed { x with type := 4 } roots

/-- The SLH-DSA check of R420, of a message without a context. -/
def slhDsaOk (k : PubKeys) (msg sig : List Byte) : Bool :=
  let seed := k.slh.take 24
  let root := k.slh.drop 24
  let r := sig.take 24
  let inner := sha512 (r ++ seed ++ root ++ ([0, 0] ++ msg))
  let dg := mgf1 sha512 64 (r ++ seed ++ inner) 39
  let tree := beNat ((dg.drop 30).take 7) % 2 ^ 54
  let leaf := beNat (dg.drop 37) % 2 ^ 9
  k.slh.length == 48 && sig.length == 16224 &&
    hyperRoot seed 7 0 tree leaf (sig.drop (24 * 256)) (forsKey seed tree leaf (sig.drop 24) (dg.take 30)) == root

/-! ### Two signatures (R420) -/

/-- Bytes verify under a pair of keys: both checks are made, the RSA one first, and both pass over the same bytes. -/
def bothOk (k : PubKeys) (bytes rsaSig slhSig : List Byte) : Bool :=
  let rsa := rsaPssOk k bytes rsaSig
  let slh := slhDsaOk k bytes slhSig
  rsa && slh

/-! ### P-384 (R422) -/

/-- The prime, the constant, the base point and the order of the curve. -/
def p384 : Nat := 2 ^ 384 - 2 ^ 128 - 2 ^ 96 + 2 ^ 32 - 1
def p384B : Nat := 0xB3312FA7E23EE7E4988E056BE3F82D19181D9C6EFE8141120314088F5013875AC656398D8A2ED19D2A85C8EDD3EC2AEF
def p384G : Nat × Nat :=
  (0xAA87CA22BE8B05378EB1C71EF320AD746E1D3B628BA79B9859F741E082542A385502F25DBF55296C3A545E3872760AB7,
   0x3617DE4A96262C6F5D9E98BF9292DC29F8F41DBD289A147CE9DA3113B5F0B8C00A60B1CE1D7E819D7A431D7C90EA0E5F)
def p384N : Nat := 0xFFFFFFFFFFFFFFFFFFFFFFFFFFFFFFFFFFFFFFFFFFFFFFFFC7634D81F4372DDF581A0DB248B0A77AECEC196ACCC52973

/-- The inverse modulo the prime. -/
def p384Inv (x : Nat) : Nat := powMod p384 384 x (p384 - 2)

/-- A point of the curve, but for the point at infinity. -/
def onP384 (a : Nat × Nat) : Bool :=
  a.1 < p384 && a.2 < p384 && (a.2 * a.2 + 3 * a.1) % p384 == (a.1 * a.1 * a.1 + p384B) % p384

/-- The sum of two points; `none` is the point at infinity. -/
def p384Add : Option (Nat × Nat) → Option (Nat × Nat) → Option (Nat × Nat)
  | none, b => b
  | a, none => a
  | some a, some b =>
    if a.1 = b.1 && (a.2 + b.2) % p384 = 0 then none
    else
      let l := if a.1 = b.1 then (3 * a.1 * a.1 + p384 - 3) * p384Inv (2 * a.2 % p384) % p384
        else (b.2 + p384 - a.2) * p384Inv ((b.1 + p384 - a.1) % p384) % p384
      let x := (l * l + 2 * p384 - a.1 - b.1) % p384
      some (x, (l * (a.1 + p384 - x) + p384 - a.2) % p384)

/-- A multiple of a point; `fuel` bounds the bits. -/
def p384Mul : (fuel k : Nat) → Option (Nat × Nat) → Option (Nat × Nat)
  | 0, _, _ => none
  | fuel + 1, k, a =>
    let h := p384Mul fuel (k / 2) (p384Add a a)
    if k % 2 = 1 then p384Add a h else h

/-! ### The keys of a session (DSP0274, RFC 2104, RFC 5869) -/

/-- HMAC with SHA-384. -/
def hmac384 (key msg : List Byte) : List Byte :=
  let k := if 128 < key.length then sha384 key else key
  let k := k ++ List.replicate (128 - k.length) 0
  sha384 (k.map (· ^^^ 0x5C) ++ sha384 (k.map (· ^^^ 0x36) ++ msg))

/-- HKDF-Expand with SHA-384 to at most one hash length. -/
def hkdf384 (secret info : List Byte) (n : Nat) : List Byte := (hmac384 secret (info ++ [1])).take n

/-- The bytes of a label. -/
def labelBytes (x : String) : List Byte := x.toList.map fun c => BitVec.ofNat 8 c.toNat

/-- The info string of SPDM 1.3: the length, the version, a label and a context. -/
def binStr (n : Nat) (label : String) (context : List Byte) : List Byte :=
  leBytes 2 n ++ labelBytes "spdm1.3 " ++ labelBytes label ++ context

/-- The handshake secret of a session, from the shared secret. -/
def handshakeSecret (shared : List Byte) : List Byte := hmac384 (List.replicate 48 0) shared

/-- The AES-256-GCM key of a direction of a session once it is finished, from the handshake secret and the hash of the whole exchange:
of the requester, or of the responder. -/
def sessionKey (hs th : List Byte) (responder : Bool) : Nat :=
  let master := hmac384 (hkdf384 hs (binStr 48 "derived" []) 48) (List.replicate 48 0)
  let secret := hkdf384 master (binStr 48 (if responder then "rsp app data" else "req app data") th) 48
  beNat (hkdf384 secret (binStr 32 "key" []) 32)

/-- The key that follows a key (R428). -/
def nextKeyOf (key : Nat) : Nat := beNat (hkdf384 (beBytes 32 key) (binStr 32 "traffic upd" []) 32)

end Sys2Proof.Machine
end

