-- ==== Sys2Proof/Machine/Batches.lean ====
section
/-!
DEFINITION. What the engines share: the range-lock table (R251 to R256), batches and failure records (R277 to R279),
the order of operations by their ranges (R282), and the places of tile ranges.
-/
namespace Sys2Proof.Machine

/-! ### Ranges -/

/-- The number under which the table knows an operation of the copy, collective or link engine. -/
def engKey (id : Nat) : Nat := 2 * id
/-- The number under which the table knows a matrix operation. -/
def matKey (id : Nat) : Nat := 2 * id + 1

/-- The core whose table holds a range of an operation issued on core `c` (R252). -/
def Range.table (c : CoreId) (r : Range) : CoreId :=
  if r.tile then (handleCore (clusOf c) (tileHandle r.base)).getD c else c

/-- The ranges that are registered: those of length 0 are not (R252). -/
def realRanges (rs : List Range) : List Range := rs.filter fun r => r.len != 0

/-- The tables have free entries for all the ranges (R252). -/
def State.roomFor (s : State) (c : CoreId) (rs : List Range) : Bool :=
  (realRanges rs).all fun r =>
    ((realRanges rs).filter fun q => q.table c == r.table c).length ≤
      (s.core (r.table c)).locks.toList.countP fun e => !e.v

/-- One range enters the lowest free entry of a table (R251). -/
def Core.register (k : Core) (slot team : SlotId) (asid : Asid) (c : CoreId) (key : Nat) (r : Range) : Core :=
  match (allFin 64).find? fun i => !(k.locks.get i).v with
  | none => k
  | some i =>
    let e : LockEntry :=
      { v := true, dir := r.dst, spc := r.tile, eng := r.eng, slot := slot, team := team, asid := asid, base := r.base,
        len := BitVec.ofNat 40 r.len, opCore := c, op := key }
    { k with locks := k.locks.set i e }

/-- All the ranges of an operation are registered together (R252). -/
def State.register (s : State) (c : CoreId) (slot team : SlotId) (asid : Asid) (key : Nat) (rs : List Range) : State :=
  (realRanges rs).foldl (fun s r => s.modCore (r.table c) fun k => k.register slot team asid c key r) s

/-- The entries of an operation leave a table (R254). -/
def Core.unregister (k : Core) (c : CoreId) (key : Nat) : Core :=
  { k with locks := k.locks.map fun e => if e.v && e.opCore == c && e.op == key then LockEntry.reset else e }

/-- The entries of an operation leave every table (R254). -/
def State.unregister (s : State) (c : CoreId) (key : Nat) (rs : List Range) : State :=
  (firsts ((realRanges rs).map (·.table c))).foldl (fun s t => s.modCore t fun k => k.unregister c key) s

/-- The entry is that of a range. -/
def LockEntry.holds (e : LockEntry) (r : Range) : Bool :=
  e.dir == r.dst && e.spc == r.tile && e.base == r.base && e.len == BitVec.ofNat 40 r.len

/-- The entries of some ranges of an operation are freed: the engine's last access to them has been performed (R254). -/
def State.freeRanges (s : State) (c : CoreId) (key : Nat) (rs : List Range) : State :=
  (realRanges rs).foldl (fun s r => s.modCore (r.table c) fun k =>
    { k with locks := k.locks.map fun e => if e.v && e.opCore == c && e.op == key && e.holds r then LockEntry.reset else e }) s

/-- The core's issue journal has room (R280, R299, R311): each engine and matrix operation of its teams holds an entry. -/
def Core.journalRoom (k : Core) : Bool := k.eng.countP (·.home.isNone) + k.mat.length < 256

/-- Two ranges share a byte. -/
def Range.meets (a b : Range) : Bool := a.tile == b.tile && overlap a.base.toNat a.len b.base.toNat b.len

/-- A destination of one operation overlaps a range of the other (R282). -/
def rangesConflict (as bs : List Range) : Bool := as.any fun a => bs.any fun b => (a.dst || b.dst) && a.meets b

/-- The accesses of a fragment below a number are performed (R250): `lanes` are the fragment's. -/
def Core.drained (k : Core) (slot team : SlotId) (lanes : BitVec 32) (n : Nat) : Bool :=
  !k.accs.any fun y => y.open && y.id < n && y.slot == slot && y.team == team && (y.lanes &&& lanes) != 0

/-! ### Tile sides -/

/-- The owner core and scratchpad byte of a tile address as an engine of core `c` reaches it: its checks were made at
issue (R188, R287, log 25). -/
def State.engTile (s : State) (c : CoreId) (a : DWord) : CoreId × Nat :=
  let o := (handleCore (clusOf c) (tileHandle a)).getD c
  (o, ((s.core o).tiles.get (handleEntry (tileHandle a))).addr + tileOff a)

/-- A tile address permits an access of `size` bytes from its offset by the issuing team (R179, R186). -/
def State.tileSpan (s : State) (a : DWord) (size : Nat) : Bool :=
  a.toNat / 2 ^ 48 == 0 && (s.reach s.cur.core s.g.team s.t.asid (tileHandle a) (tileOff a) size).isSome

/-- The trap of a tile address that R186 does not permit (R152). -/
def State.trapTile (s : State) (a : DWord) : State :=
  s.trap .tileFault (BitVec.ofNat 64 ((tileHandle a).toNat + tileOff a * 65536))

/-- The trap of a misaligned tile address (R152). -/
def State.trapTileAlign (s : State) (a : DWord) : State := s.trap .alignFault (BitVec.ofNat 64 (a.toNat % 2 ^ 48))

/-- The checks 3 to 5 of R188 for one span of a tile that the issuing fragment reads or writes at issue. -/
def State.checkSpan (s : State) (a : DWord) (size align : Nat) (write : Bool) : TileCheck :=
  if !s.tileSpan a size then .fault a
  else if tileOff a % align ≠ 0 then .misaligned a
  else
    let p := s.engTile s.cur.core a
    match (s.core p.1).lockHit s.t.asid true (a.toNat % 2 ^ 48) size write with
    | some i => .locked a i
    | none => .ok p.1 [(0, p.2)]

/-! ### Batches -/

/-- The gang in a slot is still the one that issued an operation. -/
def State.issuerLives (s : State) (c : CoreId) (i ti : SlotId) : Bool :=
  (s.gangAt c i).live && (s.gangAt c i).team == ti

/-- A class of a gang changed. -/
def Gang.modBatches (g : Gang) (cls : Fin 4) (f : Batches → Batches) : Gang :=
  { g with batches := g.batches.set cls (f (g.batches.get cls)) }

/-- An engine operation belongs to a resident team. -/
def EngOp.ofTeam (o : EngOp) (ti : SlotId) : Bool := o.home.isNone && o.team == ti

/-- An operation of the batch has not completed (R278). -/
def Core.unfinished (k : Core) (i ti : SlotId) (cls : Fin 4) (b : Nat) : Bool :=
  (k.eng.any fun o => o.ofTeam ti && o.slot == i && o.cls == cls && o.batch == b) ||
    (cls == 2 && k.mat.any fun o => o.slot == i && o.team == ti && o.batch == b)

/-- Sealed batches finish in sealing order (R278). -/
def dropFinished (unfinished : Nat → Bool) : List Nat → List Nat
  | [] => []
  | b :: rest => if unfinished b then b :: rest else dropFinished unfinished rest

/-- The sealed batches of a class that have finished leave the list (R278). -/
def State.settleBatches (s : State) (c : CoreId) (i ti : SlotId) (cls : Fin 4) : State :=
  if s.issuerLives c i ti then
    s.modGangAt c i fun g => g.modBatches cls fun b =>
      { b with sealedB := dropFinished ((s.core c).unfinished i ti cls) b.sealedB }
  else s

/-- The record of the earliest-issued operation of some (R298). -/
def earliest (rs : List FailRec) : Option FailRec :=
  rs.foldl (fun m r => match m with
    | none => some r
    | some x => if r.op < x.op then some r else some x) none

/-- The earliest failure record of a batch (R393). -/
def recOf (rs : List FailRec) (n : Nat) : Option FailRec := earliest (rs.filter fun r => r.batch == n)

/-- The 16 bytes of a failure record (log 28). -/
def failBytes (r : Option FailRec) : List Byte :=
  match r with
  | some r => leBytes 8 r.fail.info.toNat ++ leBytes 8 r.fail.cause.code.toNat
  | none => leBytes 16 0

/-- The batches of a class as a gang block holds them (R393, log 28): the next number, the count of unfinished sealed batches, and
the earliest failure record of the open batch and of each of those. -/
def classBytes (b : Batches) : List Byte :=
  leBytes 2 b.next ++ leBytes 1 b.sealedB.length ++ (b.next :: b.sealedB).flatMap fun n => failBytes (recOf b.recs n)

/-- The stores of the core that happen before an operation that a fragment with the lanes `lanes` has issued at access number `n`:
its earlier accesses on either path, and what stands before these (R242, R250). -/
def Core.opPast (k : Core) (slot team : SlotId) (lanes : BitVec 32) (n fenced : Nat) : List Nat :=
  k.still (firsts (((k.accs.filter fun y =>
      y.done && y.id < n && y.slot == slot && y.team == team && (y.lanes &&& lanes) != 0).flatMap fun y => y.id :: y.past) ++
    (k.marks.filter fun m => m.slot == slot && m.team == team && (m.lanes &&& lanes) != 0 && m.id < n &&
      (m.acq || m.id < fenced)).flatMap (·.past)))

/-- An operation of a batch has completed: a bwait that observes it stands behind what happens before the operation (R250). -/
def State.noteDone (s : State) (c : CoreId) (i ti : SlotId) (cls : Fin 4) (batch : Nat) (lanes : BitVec 32) (n fenced : Nat) :
    State :=
  if s.issuerLives c i ti then
    let k := s.core c
    s.modGangAt c i fun g => g.modBatches cls fun b =>
      { b with past := (b.past.filter fun x => !(k.still [x.2]).isEmpty) ++ (k.opPast i ti lanes n fenced).map fun x => (batch, x) }
  else s

/-- A failed operation leaves a record in its batch (R279). -/
def State.recordFailure (s : State) (c : CoreId) (i ti : SlotId) (cls : Fin 4) (batch : Nat) (op : Nat)
    (f : Failure) : State :=
  if s.issuerLives c i ti then
    s.modGangAt c i fun g => g.modBatches cls fun b => { b with recs := b.recs ++ [{ batch := batch, op := op, fail := f }] }
  else s

/-- The engine operation of a resident team has made accesses to its ranges: those in the aperture bind the team (R201). -/
def State.noteOp (s : State) (c : CoreId) (o : EngOp) : State :=
  if o.home.isSome then s
  else s.noteRanges c o.team ((o.ranges.filter fun r => !r.tile && r.len != 0).map fun r => (r.base, r.len))

/-- The entries of the ranges of an engine operation that satisfy `p` are freed (R254). -/
def State.freeHeld (s : State) (c : CoreId) (o : EngOp) (p : Range → Bool) : State :=
  (s.freeRanges c (engKey o.id) (o.ranges.filter p)).modCore c fun k =>
    { k with eng := k.eng.map fun x => if x.id == o.id then { x with held := x.held.filter fun r => !p r } else x }

/-- Failure with an engine's status code (R152, R284). -/
def engFailure (code engine : Nat) : Failure := { cause := .engineFault, info := engineInfo code engine }

/-- Failure by an uncorrectable error (R152). -/
def badFailure (a : DWord) : Failure := { cause := .uncorrectable, info := BitVec.ofNat 64 (a.toNat % 2 ^ 57) }

end Sys2Proof.Machine
end

