-- ==== Sys2Proof/Machine/Matrix.lean ====
section
/-!
DEFINITION. The matrix engine (R310 to R323, V-form 0x50 to 0x56): accumulator tiles, leases, the issue of matrix
operations, their order, and the steps of mma, mzero, mld and mst.
-/
namespace Sys2Proof.Machine

/-! ### Accumulator memory (R310) -/

/-- Place of element `e` of the team's tile `n` in accumulator memory. -/
def Core.accIx (k : Core) (ti : SlotId) (n e : Nat) : Nat := ((k.team ti).atiles.getD n 0).val * 4096 + e

/-- An accumulator element. -/
def Core.accRd (k : Core) (ti : SlotId) (n e : Nat) : Word := sget 0 k.acc (k.accIx ti n e)

/-- An accumulator element written; a whole write clears its error. -/
def Core.accWr (k : Core) (ti : SlotId) (n e : Nat) (x : Word) : Core :=
  { k with acc := sset 0 k.acc (k.accIx ti n e) x, accBad := k.accBad.filter fun i => i != k.accIx ti n e }

/-- Elements written. -/
def Core.accWrs (k : Core) (ti : SlotId) (xs : List (Nat × Nat × Word)) : Core :=
  xs.foldl (fun k x => k.accWr ti x.1 x.2.1 x.2.2) k

/-- The failing location of an accumulator element (R310). -/
def accLoc (n e : Nat) : DWord := BitVec.ofNat 64 (2 ^ 56 + n % 16 * 4096 + e % 4096)

/-- The first of the elements with a double-bit error, as a location. -/
def Core.accErr (k : Core) (ti : SlotId) (xs : List (Nat × Nat)) : Option DWord :=
  (xs.find? fun x => k.accBad.contains (k.accIx ti x.1 x.2)).map fun x => accLoc x.1 x.2

/-- The elements of a 16×16 block of a tile (R319), row by row. -/
def blockElems (n R C : Nat) : List (Nat × Nat) :=
  (List.range 16).flatMap fun i => (List.range 16).map fun j => (n, 64 * (16 * R + i) + 16 * C + j)

/-! ### Scratchpad sides of an operation -/

/-- The first word with a double-bit error of the first of the spans that has one, as a location (R188, R281, R324). -/
def State.spanErr (s : State) (c : CoreId) (xs : List (DWord × Nat)) : Option DWord :=
  xs.findSome? fun x =>
    let p := s.engTile c x.1
    if (s.core p.1).spadErr p.2 x.2 then some (BitVec.ofNat 64 ((x.1.toNat + (s.core p.1).firstErr p.2 x.2) % 2 ^ 48)) else none

/-- Bytes of a span. -/
def State.spanRead (s : State) (c : CoreId) (a : DWord) (n : Nat) : List Byte :=
  let p := s.engTile c a
  (s.core p.1).spad.readN p.2 n

/-- Bytes written to a span. -/
def State.spanWrite (s : State) (c : CoreId) (a : DWord) (bs : List Byte) : State :=
  let p := s.engTile c a
  s.modCore p.1 fun k => k.spadWrite p.2 bs

/-- A tile address moved by bytes. -/
def off (a : DWord) (n : Nat) : DWord := a + BitVec.ofNat 64 n

/-! ### The lease (R312, R313) -/

/-- A lease request joins the queue, unless the gang has one there. -/
def Core.requestLease (k : Core) (i : SlotId) (n : Nat) : Core :=
  if k.leaseQ.any fun r => r.1 == i then k else { k with leaseQ := k.leaseQ ++ [(i, n)] }

/-- Another gang waits for the lease. -/
def Core.leaseWanted (k : Core) (i : SlotId) : Bool := k.leaseQ.any fun r => r.1 != i

/-- An instruction that the lease counts has issued (R312). -/
def State.countLease (s : State) (c : CoreId) (i : SlotId) : State :=
  if (s.core c).holder == some i then
    s.modCore c fun k =>
      let n := (k.gang i).left - 1
      let k1 := { k.modGang i (fun g => { g with left := n }) with leaseIdle := 0 }
      if n = 0 then k1.endLease i else k1
  else s

/-- mrel and mlease with the count 0 (R313). -/
def State.releaseLease (s : State) : State :=
  (if s.curCore.holder == some s.cur.slot then s.modK fun k => k.endLease s.cur.slot else s).completeV 4 none

/-- mlease with a count (R313). -/
def State.askLease (s : State) (n : Nat) : State :=
  let i := s.cur.slot
  let k := s.curCore
  if n = 0 then s.releaseLease
  else if k.holder == some i && !k.leaseWanted i then (s.modG fun g => { g with left := n }).completeV 4 none
  else if k.leaseQ.any fun r => r.1 == i then (s.setWait .lease).stall
  else
    let s1 := if k.holder == some i then s.modK fun k => k.endLease i else s
    ((s1.modK fun k => k.requestLease i n).setWait .mlease).stall

/-- MLEASE (R313). -/
def execMlease (n : BitVec 6) (s : State) : Host.Outcome State Fault Refusal :=
  s.legal (.mlease n) (s.askLease (n.toNat + 1))

/-- MLEASE_REG (R313). -/
def execMleaseReg (a : RegField) (s : State) : Host.Outcome State Fault Refusal :=
  s.legal (.mleaseReg a) (s.askLease ((s.u a).toNat % 2 ^ 16))

/-- MREL (R313). -/
def execMrel (s : State) : Host.Outcome State Fault Refusal := s.legal .mrel s.releaseLease

/-- The fragments that wait for the gang's lease go on (R312): those that will issue again, then an mlease, which is
complete. -/
def State.wakeLease (s : State) (c : CoreId) (i : SlotId) : State :=
  let s1 := s.modGangAt c i fun g =>
    ({ g with
       frags := g.frags.map fun f => if f.wait == .lease then { f with wait := .none } else f
       handler := if g.handler.wait == .lease then { g.handler with wait := .none } else g.handler } : Gang).settle
  match (allFin 32).findSome? fun f => s1.waiterAt c i f fun w => w == .mlease with
  | some (cur, _) => s1.asCur cur fun s => (s.setWait .none).completeV 4 none
  | none => s1

/-- LEASE_GRANT (R312): the oldest request is granted once no gang holds the lease. -/
def execLeaseGrant (c : CoreId) (s : State) : Host.Outcome State Fault Refusal :=
  .next
    (match (s.core c).holder, (s.core c).leaseQ with
     | none, (i, n) :: rest =>
       (s.modCore c fun k =>
         { k.modGang i (fun g => { g with left := n }) with holder := some i, leaseQ := rest, leaseIdle := 0 }).wakeLease c i
     | _, _ => s)

/-- LEASE_IDLE_END (R312). -/
def execLeaseIdleEnd (c : CoreId) (s : State) : Host.Outcome State Fault Refusal :=
  .next
    (match (s.core c).holder with
     | some i => if (s.core c).leaseWanted i && 4096 ≤ (s.core c).leaseIdle then s.modCore c fun k => k.endLease i else s
     | none => s)

/-! ### Issue of a matrix operation (R280, R311) -/

/-- The vd, va and mod fields of an operation's word. -/
def MatOp.vd (m : MatOp) : Nat := (fld m.word 18 6).toNat
def MatOp.va (m : MatOp) : Nat := (fld m.word 12 6).toNat
def MatOp.modField (m : MatOp) : Nat := (fld m.word 0 4).toNat

/-- The lease counts the operation (R312). -/
def MatOp.leased (m : MatOp) : Bool :=
  m.byMres || (match m.kind with | .mma => true | .attn => true | .amerge => true | .anorm => true | _ => false)

/-- Bytes of the instruction that issued the operation. -/
def MatOp.bytes (m : MatOp) : Nat :=
  if m.byMres then 4 else match m.kind with | .mma => 8 | .attn => 8 | _ => 4

/-- What mma leaves held (R317). -/
def Gang.holdA (g : Gang) (m : MatOp) : Gang :=
  match m.kind, m.byMres with
  | .mma, false =>
    let v : RegField := fld m.word 12 6
    let new : HeldA := { reg := v, img := m.aimg, marks := m.amarks }
    let held : Option HeldA := match (fld m.word 4 2).toNat with
      | 0 => none
      | 1 => some (g.heldA.getD new)
      | _ => some new
    { g with heldA := held, latch := if held.isSome then [] else g.latch }
  | _, _ => g

/-- The operation enters the matrix queue: its ranges are registered, it enters the journal and joins the open batch of class
2, the lease counts it, and the fragment goes on (R280, R311). -/
def State.admitMat (s : State) (m : MatOp) : State :=
  let c := s.cur.core
  let i := s.cur.slot
  let id := s.curCore.nextMat
  let batch := (s.g.batches.get 2).next
  let s1 := s.register c i s.g.team s.t.asid (matKey id) m.ranges
  let s2 := s1.modK fun k =>
    { k with nextMat := id + 1, seq := k.seq + 1
             mat := k.mat ++ [{ m with id := id, ord := s.g.nextOp, batch := batch, fence := s.g.mfence, seq := s.curCore.seq,
                                       fenced := s.f.acqSeq, lanes := s.em }] }
  (((if m.leased then s2.countLease c i else s2).completeV m.bytes none)).modG fun g => { g.holdA m with nextOp := g.nextOp + 1 }

/-- There is room for the operation (R252, R280, R311). -/
def State.matRoom (s : State) (m : MatOp) : Bool :=
  s.curCore.mat.length < 32 && s.curCore.journalRoom && s.roomFor s.cur.core m.ranges

/-- A matrix operation whose checks have passed: the lease (R312), then room (R280). -/
def State.issueMat (s : State) (m : MatOp) : State :=
  let i := s.cur.slot
  if m.leased && s.curCore.holder != some i then
    ((s.modK fun k => k.requestLease i (Nat.max 1 s.g.left)).setWait .lease).stall
  else if s.matRoom m then s.admitMat m
  else (s.setWait (.matrix m)).stall

/-- An operation as its instruction makes it; admission fills in the rest. -/
def State.matOp (s : State) (kind : MatKind) (ops aux : List DWord) (aimg : AImage) (ranges : List Range) : MatOp :=
  { id := 0, ord := 0, slot := s.cur.slot, team := s.g.team, kind := kind, word := s.iword, lit := s.ilit, ops := ops, aux := aux,
    aimg := aimg, amarks := [], step := 0, cleared := false, batch := 0, fence := 0, seq := 0, fenced := 0, lanes := 0, byMres := false,
    ranges := ranges }

/-- A scratchpad range of a matrix operation: ENG 3 (R311). -/
def matRange (dst : Bool) (a : DWord) (n : Nat) : Range :=
  { dst := dst, tile := true, eng := 3, base := BitVec.ofNat 64 (a.toNat % 2 ^ 48), len := n }

/-- The trap of an accumulator tile at or beyond atiles (R97). -/
def State.trapAcc (s : State) (n : Nat) : State := s.trap .tileFault (BitVec.ofNat 64 n)

/-- The first tile at or beyond atiles of a run of `n` tiles from `d` (R97). -/
def State.beyond (s : State) (d n : Nat) : Option Nat :=
  let m := s.t.atiles.length
  if d + n ≤ m then none else some (Nat.max d m)

/-! ### The operands of mma (R315, R316) -/

/-- The format block (R315). -/
structure MmaFmt where
  af : Nat
  bf : Nat
  ablk : Bool
  bblk : Bool
  asc : BitVec 16
  bsc : BitVec 16
  asoff : Nat
  bsoff : Nat
  spare : Nat
deriving DecidableEq, Repr

/-- The fields of a format block. -/
def mmaFmt (x : DWord) : MmaFmt :=
  { af := (fld x 60 4).toNat, bf := (fld x 56 4).toNat, ablk := bitAt x 55, bblk := bitAt x 54, asc := fld x 32 16,
    bsc := fld x 16 16, asoff := (fld x 8 8).toNat, bsoff := (fld x 0 8).toNat, spare := (fld x 48 6).toNat }

/-- Bits of an element of a format. -/
def fmtBits (f : Nat) : Nat := match f with | 0 => 16 | 4 => 4 | _ => 8

/-- Depth of a format. -/
def fmtDepth (f : Nat) : Nat := 512 / fmtBits f

/-- The block rule of a format. -/
def blkOk (f : Nat) (blk : Bool) : Bool := match f with | 0 => !blk | 3 => blk | 4 => blk | _ => true

/-- The format block is valid (R315). -/
def MmaFmt.valid (m : MmaFmt) : Bool :=
  m.af ≤ 4 && m.bf ≤ 4 && fmtDepth m.af == fmtDepth m.bf && blkOk m.af m.ablk && blkOk m.bf m.bblk &&
  (m.ablk || (m.asc == 0 && m.asoff == 0)) && (m.bblk || (m.bsc == 0 && m.bsoff == 0)) && m.spare == 0

/-- Address of the A scales. -/
def MmaFmt.ascale (m : MmaFmt) : DWord := BitVec.ofNat 64 (m.asc.toNat * 2 ^ 32 + m.asoff * 256)
/-- Address of the B scales. -/
def MmaFmt.bscale (m : MmaFmt) : DWord := BitVec.ofNat 64 (m.bsc.toNat * 2 ^ 32 + m.bsoff * 256)
/-- Bytes of a scale range. -/
def MmaFmt.scaleBytes (m : MmaFmt) : Nat := 64 * fmtDepth m.af / 32

/-- The scratchpad spans that an mma reads: B and the scales. -/
def MmaFmt.spans (m : MmaFmt) (b : DWord) : List (DWord × Nat) :=
  (b, 4096) :: ((if m.ablk then [(m.ascale, m.scaleBytes)] else []) ++ if m.bblk then [(m.bscale, m.scaleBytes)] else [])

/-- A term of a PT2 weight as a value (R80). -/
def pt2Fin (b : Nat) : FVal := .fin (pt2Term b < 0) (pt2Term b).natAbs (-6)

/-- The values that an element adds to a product (R69, R78, R80): one; of a PT2 weight its terms, a term with shift code 7 left out,
or 0 where both are. The product with an operand is the sum of its products with the terms: shift and add. -/
def mmaTerms (f x : Nat) : List FVal :=
  match f with
  | 0 => [bf16.decode x]
  | 1 => [e4m3.decode x]
  | 2 => [e5m2.decode x]
  | 3 =>
    let ts := ([x / 16, x % 16].filter fun b => b % 8 != 7).map pt2Fin
    if ts.isEmpty then [.fin false 0 0] else ts
  | _ => [e2m1.decode x]

/-- A value times its scale (R78, R316). -/
def scaledBy (sc : Option Nat) (v : FVal) : FVal :=
  match sc with
  | none => v
  | some 255 => .nan
  | some e =>
    match v with
    | .fin n m d => .fin n m (d + e - 127)
    | v => v

/-- Element (i, r) of A in its image (R316). -/
def aElem (f : Nat) (a : AImage) (i r : Nat) : Nat :=
  let w := fmtBits f
  elem w (a.getD (32 * (i / 4) + 8 * (i % 4) + r * w / 64) 0) (r % (64 / w))

/-- Element `j` of bytes. -/
def byteElem (f : Nat) (bs : List Byte) (j : Nat) : Nat :=
  let w := fmtBits f
  if w = 16 then leNat ((bs.drop (2 * j)).take 2)
  else if w = 8 then (bs.getD j 0).toNat
  else (bs.getD (j / 2) 0).toNat / 16 ^ (j % 2) % 16

/-- The depth indices that take part (R319, R320). -/
def usedDepths (k : Nat) (spa spb : Bool) (aux : List DWord) : List Nat :=
  let bit (q r : Nat) : Bool := (aux.getD (q + r / 64) 0).getLsbD (r % 64)
  (List.range k).filter fun r => (!spa || bit 0 r) && (!spb || bit (if spa then 2 else 0) r)

/-- Runs of `n` of a list. -/
def runsOf (n : Nat) : Nat → List Nat → List (List Nat)
  | 0, _ => []
  | _, [] => []
  | fuel + 1, xs => xs.take n :: runsOf n fuel (xs.drop n)

/-- The groups of an mma (R319). -/
def MatOp.groups (m : MatOp) : List (List Nat) :=
  runsOf 8 16 (usedDepths (fmtDepth (mmaFmt (m.ops.getD 1 0)).af) (bitAt m.lit 19) (bitAt m.lit 18) m.aux)

/-- Acc of R319. -/
def accumulate (c : Nat) (S : FVal) : Nat :=
  match f32.decode c, S with
  | .nan, _ => f32.nan
  | _, .nan => f32.nan
  | v, .inf n => f32.ofVal 0 0 (FVal.add 0 v (.inf n))
  | v, .fin n m e => if m = 0 then c else f32.ofVal 0 0 (FVal.add 0 v (.fin n m e))

/-- The exact sum of products of one element. -/
def dotVals (xs ys : List FVal) : FVal := (List.zipWith FVal.mul xs ys).foldl (FVal.add 0) (.fin false 0 0)

/-- The exact sum of products of one element whose operands are sums of terms (R80, R319). -/
def dotTerms (xs ys : List (List FVal)) : FVal :=
  ((List.zipWith (fun as bs => as.flatMap fun a => bs.map a.mul) xs ys).flatten).foldl (FVal.add 0) (.fin false 0 0)

/-- The spans that one step of mma reads: the B rows of the group and their scales. -/
def stepSpans (m : MmaFmt) (b : DWord) (g : List Nat) (R C : Nat) : List (DWord × Nat) :=
  let w := fmtBits m.bf
  let nb := fmtDepth m.af / 32
  (g.map fun r => (off b (8 * w * r + 2 * w * C), 2 * w)) ++
  (if m.ablk then (List.range 16).flatMap fun i => g.map fun r => (off m.ascale ((16 * R + i) * nb + r / 32), 1) else []) ++
  (if m.bblk then g.map fun r => (off m.bscale (64 * (r / 32) + 16 * C), 16) else [])

/-- One step of mma (R319): group `g`, block (R, C). -/
def State.mmaStep (s : State) (c : CoreId) (m : MatOp) : Except DWord State :=
  let f := mmaFmt (m.ops.getD 1 0)
  let b := m.ops.getD 0 0
  let g := m.groups.getD (m.step / 16) []
  let R := m.step / 4 % 4
  let C := m.step % 4
  match s.spanErr c (stepSpans f b g R C), (s.core c).accErr m.team (blockElems m.vd R C) with
  | some a, _ => .error a
  | none, some a => .error a
  | none, none =>
    let w := fmtBits f.bf
    let nb := fmtDepth f.af / 32
    let asc (i r : Nat) : Option Nat :=
      if f.ablk then some (leNat (s.spanRead c (off f.ascale (i * nb + r / 32)) 1)) else none
    let bsc (r j : Nat) : Option Nat :=
      if f.bblk then some (leNat (s.spanRead c (off f.bscale (64 * (r / 32) + j)) 1)) else none
    let rows := (List.range 16).map fun i => g.map fun r =>
      (mmaTerms f.af (aElem f.af m.aimg (16 * R + i) r)).map (scaledBy (asc (16 * R + i) r))
    let segs := g.map fun r => (r, s.spanRead c (off b (8 * w * r + 2 * w * C)) (2 * w))
    let cols := (List.range 16).map fun j => segs.map fun x =>
      (mmaTerms f.bf (byteElem f.bf x.2 j)).map (scaledBy (bsc x.1 (16 * C + j)))
    let news := ((List.range 16).zip rows).flatMap fun x => ((List.range 16).zip cols).map fun y =>
      let e := 64 * (16 * R + x.1) + 16 * C + y.1
      (m.vd, e, BitVec.ofNat 32 (accumulate ((s.core c).accRd m.team m.vd e).toNat (dotTerms x.2 y.2)))
    .ok (s.modCore c fun k => k.accWrs m.team news)

/-- The 16 registers of A in all lanes (R316, R317). -/
def State.aImage (s : State) (a : RegField) : AImage :=
  (List.range 16).flatMap fun q => (allFin 32).map fun l => (s.v (a + BitVec.ofNat 6 q) l).bits

/-- The marks of a register: g0 of lane l in bit 2l, g1 in bit 2l + 1 (R317, R393). -/
def markWord (r : VReg) : Nat :=
  ((List.range 32).zip r.toList).foldl (fun m x => m + bitTo x.2.g0 (2 * x.1) + bitTo x.2.g1 (2 * x.1 + 1)) 0

/-- The marks of the 16 registers of A (R317). -/
def State.aMarks (s : State) (a : RegField) : List DWord :=
  (List.range 16).map fun q => BitVec.ofNat 64 (markWord (s.g.v.get (vIx (a + BitVec.ofNat 6 q))))

/-- The four bitmap registers that SM names (R320, R325); with SPA or SPB alone the last two, which hold no bitmap, are 0 (log 101). -/
def State.bitmaps (s : State) (sm : RegField) (spa spb : Bool) : List DWord :=
  if spa && spb then (List.range 4).map fun i => s.u (sm + BitVec.ofNat 6 i)
  else if spa || spb then [s.u sm, s.u (nextReg sm), 0, 0]
  else [0, 0, 0, 0]

/-- The checks 4 and 5 of R318 on an mma's tiles, then its issue. -/
def State.checkMma (s : State) (m : MatOp) : State :=
  let b := m.ops.getD 0 0
  let spans := (mmaFmt (m.ops.getD 1 0)).spans b
  match s.beyond m.vd 1 with
  | some n => s.trapAcc n
  | none =>
    match spans.find? fun x => !s.tileSpan x.1 x.2 with
    | some x => s.trapTile x.1
    | none =>
      if tileOff b % 128 ≠ 0 then s.trapTileAlign b
      else s.issueMat { m with ranges := spans.map fun x => matRange false x.1 x.2 }

/-- The register named by the held A. -/
def Gang.heldFrom (g : Gang) : Option RegField := g.heldA.map (·.reg)

/-- MMA (R314 to R320). -/
def execMma (d a b : RegField) (h : BitVec 2) (g : Bool) (sf sm : RegField) (spa spb : Bool) (s : State) :
    Host.Outcome State Fault Refusal :=
  s.legal (.mma d a b h g sf sm spa spb)
    (let held := h.toNat == 1 && s.g.heldA.isSome
     if !s.whole || !(mmaFmt (s.u sf)).valid || (held && s.g.heldFrom != some a) then s.trapIllegalConv
     else
       match (if g || held then none
              else s.guessInfo ((List.range 16).map fun q => (a + BitVec.ofNat 6 q, true, true))) with
       | some info => s.trap .guessEscape info
       | none =>
         let x : HeldA := match held, s.g.heldA with
           | true, some x => x
           | _, _ => { reg := a, img := s.aImage a, marks := s.aMarks a }
         s.checkMma { s.matOp .mma [s.u b, s.u sf, 0, 0] (s.bitmaps sm spa spb) x.img [] with amarks := x.marks })

/-! ### mfence, mzero, mld, mst -/

/-- MFENCE (R322). -/
def execMfence (s : State) : Host.Outcome State Fault Refusal :=
  s.legal .mfence ((s.modG fun g => { g with mfence := s.curCore.nextMat }).completeV 4 none)

/-- MZERO (R323). -/
def execMzero (d : RegField) (c : BitVec 4) (s : State) : Host.Outcome State Fault Refusal :=
  s.legal (.mzero d c)
    (match s.beyond d.toNat (c.toNat + 1) with
     | some n => s.trapAcc n
     | none => s.issueMat (s.matOp .mzero [] [] [] []))

/-- Bytes of an accumulator tile in the scratchpad (R323). -/
def tileBytes (f : Bool) : Nat := if f then 8192 else 16384

/-- The checks of mld and mst (R323), then the issue. -/
def State.moveTile (s : State) (kind : MatKind) (d a : RegField) (f dst : Bool) : State :=
  match s.beyond d.toNat 1 with
  | some n => s.trapAcc n
  | none =>
    if !s.tileSpan (s.u a) (tileBytes f) then s.trapTile (s.u a)
    else if tileOff (s.u a) % 128 ≠ 0 then s.trapTileAlign (s.u a)
    else s.issueMat (s.matOp kind [s.u a] [] [] [matRange dst (s.u a) (tileBytes f)])

/-- MLD (R323). -/
def execMld (d a : RegField) (f : Bool) (s : State) : Host.Outcome State Fault Refusal :=
  s.legal (.mld d a f) (s.moveTile .mld d a f false)

/-- MST (R323). -/
def execMst (d a : RegField) (f : Bool) (s : State) : Host.Outcome State Fault Refusal :=
  s.legal (.mst d a f) (s.moveTile .mst d a f true)

/-- Zero in a block (R323). -/
def State.mzeroStep (s : State) (c : CoreId) (m : MatOp) : State :=
  s.modCore c fun k => k.accWrs m.team ((blockElems (m.vd + m.step / 16) (m.step / 4 % 4) (m.step % 4)).map fun x =>
    (x.1, x.2, 0))

/-- The bytes of row `i` of a block in the scratchpad: address and length. -/
def rowSpan (a : DWord) (f : Bool) (i C : Nat) : DWord × Nat :=
  if f then (off a (128 * i + 32 * C), 32) else (off a (256 * i + 64 * C), 64)

/-- A step of mld (R323). -/
def State.mldStep (s : State) (c : CoreId) (m : MatOp) : Except DWord State :=
  let a := m.ops.getD 0 0
  let f := m.modField % 2 == 1
  let R := m.step / 4 % 4
  let C := m.step % 4
  match s.spanErr c ((List.range 16).map fun i => rowSpan a f (16 * R + i) C) with
  | some e => .error e
  | none =>
    let news := (List.range 16).flatMap fun i =>
      let sp := rowSpan a f (16 * R + i) C
      let bs := s.spanRead c sp.1 sp.2
      (List.range 16).map fun j =>
        (m.vd, 64 * (16 * R + i) + 16 * C + j,
          BitVec.ofNat 32 (if f then f32.ofVal 0 0 (bf16.decode (leNat ((bs.drop (2 * j)).take 2)))
            else leNat ((bs.drop (4 * j)).take 4)))
    .ok (s.modCore c fun k => k.accWrs m.team news)

/-- A step of mst (R323). -/
def State.mstStep (s : State) (c : CoreId) (m : MatOp) : Except DWord State :=
  let a := m.ops.getD 0 0
  let f := m.modField % 2 == 1
  let R := m.step / 4 % 4
  let C := m.step % 4
  match (s.core c).accErr m.team (blockElems m.vd R C) with
  | some e => .error e
  | none =>
    .ok ((List.range 16).foldl (fun s i =>
      let bs := (List.range 16).flatMap fun j =>
        let x := ((s.core c).accRd m.team m.vd (64 * (16 * R + i) + 16 * C + j)).toNat
        if f then leBytes 2 (bf16.ofVal 0 0 (f32.decode x)) else leBytes 4 x
      s.spanWrite c (rowSpan a f (16 * R + i) C).1 bs) s)

/-! ### Order (R321, R322) -/

/-- The shape of an operation (R321). -/
def MatOp.shape (m : MatOp) : Nat × Nat × Nat :=
  match m.kind with
  | .mma => let f := mmaFmt (m.ops.getD 1 0); (0, f.af, f.bf)
  | .mzero => (2, 0, 0)
  | .mld => (3, 0, 0)
  | .mst => (4, 0, 0)
  | _ => (1, 0, 0)

/-- The accumulator tiles that an operation names. -/
def MatOp.tiles (m : MatOp) : List Nat :=
  match m.kind with
  | .mzero => (List.range (m.modField + 1)).map (m.vd + ·)
  | .attn => (List.range 7).map (m.vd + ·)
  | .anorm => (List.range 7).map (m.vd + ·)
  | .amerge => (List.range 7).map (m.vd + ·) ++ (List.range 7).map (m.va + ·)
  | _ => [m.vd]

/-- `x`, an earlier operation of the gang, must complete before `m` starts (R282, R321, R322). -/
def MatOp.orders (x m : MatOp) : Bool :=
  x.id < m.id && x.slot == m.slot && x.team == m.team &&
  (x.id < m.fence || (x.shape == m.shape && x.tiles.any m.tiles.contains) || rangesConflict x.ranges m.ranges)

/-- The operation may make a step now (R250, R321). -/
def Core.mayStep (k : Core) (m : MatOp) : Bool :=
  k.drained m.slot m.team m.lanes m.seq && !k.mat.any fun x => x.orders m

end Sys2Proof.Machine
end

