-- ==== Sys2Proof/Machine/Attention.lean ====
section
/-!
DEFINITION. Attention tiles (R329 to R333, V-form 0x59 to 0x5B), stop records (R324 to R327, 0x57 and 0x58), and
MATRIX_STEP, which makes one step of an operation of the matrix engine (R311).
-/
namespace Sys2Proof.Machine

/-! ### Triples (R329) -/

/-- A row record of a triple. -/
structure RowRec where
  e : BitVec 16
  nan : Bool
  ovf : Bool
  flr : Bool
  vw : BitVec 8
  xl : BitVec 96
deriving DecidableEq, Repr

/-- Bits [23:16] of a row record's first word. -/
def RowRec.flags (r : RowRec) : Nat := bitTo r.nan 0 + bitTo r.ovf 1 + bitTo r.flr 2

/-- The four elements that hold a row record. -/
def rowElems (t i : Nat) : List (Nat × Nat) := (List.range 4).map fun q => (t + 6, 4 * i + q)

/-- The three elements that hold XO of row `i`, dimension `d`. -/
def outElems (t i d : Nat) : List (Nat × Nat) :=
  (List.range 3).map fun q => let w := 3 * (128 * i + d) + q; (t + w / 4096, w % 4096)

/-- Elements as one number. -/
def Core.accNum (k : Core) (ti : SlotId) (xs : List (Nat × Nat)) : Nat :=
  packed 32 (xs.map fun x => (k.accRd ti x.1 x.2).toNat)

/-- A number written over elements. -/
def Core.accPut (k : Core) (ti : SlotId) (xs : List (Nat × Nat)) (n : Nat) : Core :=
  k.accWrs ti (((List.range xs.length).zip xs).map fun x => (x.2.1, x.2.2, BitVec.ofNat 32 (n / 2 ^ (32 * x.1))))

/-- The record of row `i`. -/
def Core.rowRec (k : Core) (ti : SlotId) (t i : Nat) : RowRec :=
  let n := k.accNum ti (rowElems t i)
  { e := BitVec.ofNat 16 n, nan := n.testBit 16, ovf := n.testBit 17, flr := n.testBit 18,
    vw := BitVec.ofNat 8 (n / 2 ^ 24), xl := BitVec.ofNat 96 (n / 2 ^ 32) }

/-- The record of row `i` written. -/
def Core.putRow (k : Core) (ti : SlotId) (t i : Nat) (r : RowRec) : Core :=
  k.accPut ti (rowElems t i) (r.e.toNat + r.flags * 2 ^ 16 + r.vw.toNat * 2 ^ 24 + r.xl.toNat * 2 ^ 32)

/-- XO of a row. -/
def Core.outs (k : Core) (ti : SlotId) (t i : Nat) : List (BitVec 96) :=
  (List.range 128).map fun d => BitVec.ofNat 96 (k.accNum ti (outElems t i d))

/-- XO of a row written. -/
def Core.putOuts (k : Core) (ti : SlotId) (t i : Nat) (xs : List (BitVec 96)) : Core :=
  ((List.range 128).zip xs).foldl (fun k x => k.accPut ti (outElems t i x.1) x.2.toNat) k

/-- A row's elements: record and value sums. -/
def wholeRow (t i : Nat) : List (Nat × Nat) := rowElems t i ++ (List.range 128).flatMap (outElems t i)

/-- The empty row (R330). -/
def RowRec.empty : RowRec := { e := 0x8000, nan := false, ovf := false, flr := false, vw := 0, xl := 0 }

/-- A row with its sums. -/
structure Row where
  r : RowRec
  xo : List (BitVec 96)
deriving DecidableEq, Repr

/-- A row read. -/
def Core.row (k : Core) (ti : SlotId) (t i : Nat) : Row := { r := k.rowRec ti t i, xo := k.outs ti t i }
/-- A row written. -/
def Core.setRow (k : Core) (ti : SlotId) (t i : Nat) (w : Row) : Core := (k.putRow ti t i w.r).putOuts ti t i w.xo

/-- A sum shifted right toward zero: the result, and whether a nonzero bit was dropped (R331). -/
def shiftZero (x : BitVec 96) (n : Nat) : BitVec 96 × Bool :=
  let q := x.toInt.tdiv (2 ^ n)
  (BitVec.ofInt 96 q, q * 2 ^ n != x.toInt)

/-- A row whose sums are shifted right by `n` bits toward zero. -/
def Row.shift (w : Row) (n : Nat) : Row :=
  let xl := shiftZero w.r.xl n
  let xo := w.xo.map fun x => shiftZero x n
  { r := { w.r with xl := xl.1, flr := w.r.flr || xl.2 || xo.any (·.2) }, xo := xo.map (·.1) }

/-- A 96-bit sum, and whether it left the range (R331). -/
def addWide (x : BitVec 96) (y : Int) : BitVec 96 × Bool :=
  let z := x.toInt + y
  (BitVec.ofInt 96 z, z < -(2 ^ 95) || 2 ^ 95 ≤ z)

/-- A row with addends for XL and each XO. -/
def Row.add (w : Row) (l : Int) (os : List Int) : Row :=
  let xl := addWide w.r.xl l
  let xo := List.zipWith addWide w.xo os
  { r := { w.r with xl := xl.1, ovf := w.r.ovf || xl.2 || xo.any (·.2) }, xo := xo.map (·.1) }

/-- m·2^e rounded toward zero, and whether a nonzero bit was dropped (TZ of R331). -/
def towardZero (neg : Bool) (m : Nat) (e : Int) : Int × Bool :=
  let n := if 0 ≤ e then m * 2 ^ e.toNat else m / 2 ^ (-e).toNat
  (if neg then -(n : Int) else n, e < 0 && m % 2 ^ (-e).toNat != 0)

/-! ### attn (R330, R331) -/

/-- Fields of S[sa+3]. -/
def attnVw (x : DWord) : BitVec 8 := fld x 24 8
def attnCausal (x : DWord) : Bool := bitAt x 23
def attnInit (x : DWord) : Bool := bitAt x 22
def attnDiag (x : DWord) : Int := (fld x 0 16).toInt

/-- The reserved bits are 0 and VW is −126 to 127 (R330). -/
def attnOk (q k v x : DWord) : Bool :=
  [q, k, v].all (fun a => a.toNat / 2 ^ 48 == 0) && x.toNat / 2 ^ 32 == 0 && fld x 16 6 == 0 && -126 ≤ (attnVw x).toInt

/-- s − floor(s) and floor(s) of a finite value. -/
def splitFloor (neg : Bool) (m : Nat) (e : Int) : Int × FVal :=
  if 0 ≤ e then ((if neg then -1 else 1) * (m : Int) * 2 ^ e.toNat, .fin false 0 0)
  else
    let x : Int := if neg then -(m : Int) else m
    let u : Int := 2 ^ (-e).toNat
    (x / u, .fin false (x % u).toNat e)

/-- The value m·2^e with sign is below an integer. -/
def valLt (neg : Bool) (m : Nat) (e : Int) (b : Int) : Bool :=
  let x : Int := if neg then -(m : Int) else m
  if 0 ≤ e then x * 2 ^ e.toNat < b else x < b * 2 ^ (-e).toNat

/-- A weighted row of values added to a row (R331): `p` is m·2^e. -/
def Row.addValues (w : Row) (m : Nat) (e : Int) (vw : BitVec 8) (vs : List FVal) : Row :=
  let base : Int := 62 - w.r.e.toInt
  let l := towardZero false m (e + base)
  let ts := vs.map fun v => match v with
    | .fin n vm ve => some (towardZero n (m * vm) (e + ve + base - vw.toInt))
    | _ => none
  let w1 := w.add l.1 (ts.map fun t => match t with | some x => x.1 | none => 0)
  { w1 with r := { w1.r with
      nan := w1.r.nan || ts.any (·.isNone)
      flr := w1.r.flr || l.2 || ts.any fun t => match t with | some x => x.2 | none => false } }

/-- Rescale of R331. -/
def Row.rescale (w : Row) (enew : Int) : Row :=
  if w.r.e = 0x8000 then { w with r := { w.r with e := BitVec.ofInt 16 enew } }
  else if w.r.e.toInt < enew then
    let w1 := w.shift (enew - w.r.e.toInt).toNat
    { w1 with r := { w1.r with e := BitVec.ofInt 16 enew } }
  else w

/-- A flag of a row set. -/
def Row.markNan (w : Row) : Row := { w with r := { w.r with nan := true } }
def Row.markOvf (w : Row) : Row := { w with r := { w.r with ovf := true } }
def Row.markFlr (w : Row) : Row := { w with r := { w.r with flr := true } }

/-- One key folded into one row (R331): `score` is s. -/
def Row.fold (w : Row) (score : Nat) (vw : BitVec 8) (vs : List FVal) : Row :=
  match f32.decode score with
  | .nan => w.markNan
  | .inf neg => if neg then w else w.markNan
  | .fin neg m e =>
    if valLt neg m e (-32767) then w.markFlr
    else if !valLt neg m e 32767 then w.markOvf
    else if w.r.e ≠ 0x8000 && w.r.vw ≠ vw then w.markNan
    else
      let sp := splitFloor neg m e
      let n := sp.1
      match f32.decode (fexp2Val f32 0 0 sp.2) with
      | .fin _ gm ge =>
        let enew := if w.r.e = 0x8000 then n + 1 else Max.max w.r.e.toInt (n + 1)
        let w1 := w.rescale enew
        ({ w1 with r := { w1.r with vw := vw } } : Row).addValues gm (ge + n) vw vs
      | _ => w.markNan

/-- A row of 128 BF16 elements of a scratchpad tile. -/
def State.bfRow (s : State) (c : CoreId) (a : DWord) (i : Nat) : List FVal :=
  let bs := s.spanRead c (off a (256 * i)) 256
  (List.range 128).map fun d => bf16.decode (leNat ((bs.drop (2 * d)).take 2))

/-- The next key that the mask uses, from `j` on (R331). -/
def keyFrom (mask : DWord) (j : Nat) : Option Nat := (List.range 64).find? fun i => j ≤ i && mask.getLsbD i

/-- The operation still has a step to make. -/
def MatOp.attnMore (m : MatOp) : Bool :=
  (attnInit (m.aux.getD 0 0) && !m.cleared) || (keyFrom (m.aux.getD 1 0) m.step).isSome

/-- The step of INIT (R331). -/
def State.attnClear (s : State) (c : CoreId) (m : MatOp) : State :=
  s.modCore c fun k => (List.range 64).foldl (fun k i =>
    k.setRow m.team m.vd i { r := .empty, xo := List.replicate 128 0 }) k

/-- The rows that key `j` concerns (R330, R331). -/
def attnRows (x : DWord) (j : Nat) : List Nat :=
  (List.range 64).filter fun (i : Nat) => !attnCausal x || (j : Int) ≤ (i : Int) + attnDiag x

/-- A step of a key that is still to be made reads its ranges: the key concerns a row. -/
def MatOp.attnReads (m : MatOp) : Bool :=
  (List.range 64).any fun j => m.step ≤ j && (m.aux.getD 1 0).getLsbD j && !(attnRows (m.aux.getD 0 0) j).isEmpty

/-- The step of key `j` (R331). -/
def State.attnKey (s : State) (c : CoreId) (m : MatOp) (j : Nat) : Except DWord State :=
  let x := m.aux.getD 0 0
  let q := m.ops.getD 0 0
  let kk := m.ops.getD 1 0
  let v := m.ops.getD 2 0
  let rows := attnRows x j
  let spans := if rows.isEmpty then []
    else (off kk (256 * j), 256) :: (off v (256 * j), 256) :: rows.map fun i => (off q (256 * i), 256)
  match s.spanErr c spans, (s.core c).accErr m.team (rows.flatMap (wholeRow m.vd)) with
  | some a, _ => .error a
  | none, some a => .error a
  | none, none =>
    let kv := s.bfRow c kk j
    let vs := s.bfRow c v j
    .ok (s.modCore c fun k => rows.foldl (fun k i =>
      let sum := dotVals (s.bfRow c q i) kv
      let score := f32.ofVal 0 0 (FVal.mul (f32.decode m.lit.toNat) sum)
      k.setRow m.team m.vd i ((k.row m.team m.vd i).fold score (attnVw x) vs)) k)

/-- A step of attn: the state, and the operation after it. Its STEP is then the last folded key plus 1, also before a gap of the mask
(log 100). -/
def State.attnStep (s : State) (c : CoreId) (m : MatOp) : Except DWord (State × MatOp) :=
  if attnInit (m.aux.getD 0 0) && !m.cleared then .ok (s.attnClear c m, { m with cleared := true })
  else
    match keyFrom (m.aux.getD 1 0) m.step with
    | none => .ok (s, { m with step := 64 })
    | some j => (s.attnKey c m j).map fun t => (t, { m with step := j + 1 })

/-- The first failing tile among three spans of 16 KiB, or of a range (R186). -/
def State.badSpan (s : State) (xs : List (DWord × Nat)) : Option DWord :=
  (xs.find? fun x => !s.tileSpan x.1 x.2).map (·.1)

/-- The checks 3 to 6 of attn (R330), then its issue. -/
def State.checkAttn (s : State) (m : MatOp) : State :=
  match s.beyond m.vd 7 with
  | some n => s.trapAcc n
  | none =>
    match s.badSpan ((m.ops.take 3).map fun a => (a, 16384)) with
    | some a => s.trapTile a
    | none =>
      match (m.ops.take 3).find? fun a => tileOff a % 256 ≠ 0 with
      | some a => s.trapTileAlign a
      | none => s.issueMat { m with ranges := (m.ops.take 3).map fun a => matRange false a 16384 }

/-- ATTN (R330, R331). -/
def execAttn (d a b : RegField) (sigma : Word) (s : State) : Host.Outcome State Fault Refusal :=
  s.legal (.attn d a b sigma)
    (let r (i : Nat) : DWord := s.u (a + BitVec.ofNat 6 i)
     if !attnOk (r 0) (r 1) (r 2) (r 3) then s.trapIllegalConv
     else s.checkAttn (s.matOp .attn [r 0, r 1, r 2] [r 3, s.u b, 0, 0] [] []))

/-! ### amerge, anorm (R332, R333) -/

/-- A row merged into another (R332). -/
def Row.merge (t u : Row) : Row :=
  let t1 : Row := { t with r := { t.r with nan := t.r.nan || u.r.nan, ovf := t.r.ovf || u.r.ovf, flr := t.r.flr || u.r.flr } }
  if u.r.e = 0x8000 then t1
  else if t.r.e = 0x8000 then { r := { t1.r with e := u.r.e, vw := u.r.vw, xl := u.r.xl }, xo := u.xo }
  else if t.r.vw ≠ u.r.vw then t1.markNan
  else
    let em := Max.max t.r.e.toInt u.r.e.toInt
    let a := t1.shift (em - t.r.e.toInt).toNat
    let b := u.shift (em - u.r.e.toInt).toNat
    ({ a with r := { a.r with e := BitVec.ofInt 16 em, flr := a.r.flr || b.r.flr } } : Row).add b.r.xl.toInt
      (b.xo.map (·.toInt))

/-- AMERGE (R332). -/
def execAmerge (d a : RegField) (s : State) : Host.Outcome State Fault Refusal :=
  s.legal (.amerge d a)
    (match s.beyond d.toNat 7, s.beyond a.toNat 7 with
     | some n, _ => s.trapAcc n
     | none, some n => s.trapAcc n
     | none, none => s.issueMat (s.matOp .amerge [] [] [] []))

/-- A step of amerge: row `step`. -/
def State.amergeStep (s : State) (c : CoreId) (m : MatOp) : Except DWord State :=
  match (s.core c).accErr m.team (wholeRow m.vd m.step ++ wholeRow m.va m.step) with
  | some a => .error a
  | none =>
    .ok (s.modCore c fun k =>
      k.setRow m.team m.vd m.step ((k.row m.team m.vd m.step).merge (k.row m.team m.va m.step)))

/-- An element of anorm (R333). -/
def normElem (f : Fmt) (r : RowRec) (xo : BitVec 96) : Nat :=
  if r.e = 0x8000 then 0
  else if r.nan || r.ovf || r.xl = 0 then f.nan
  else
    let x := xo.toInt
    let l := r.xl.toInt
    let num := x.natAbs * 2 ^ 200
    f.round 0 (x ≠ 0 && (x < 0) != (l < 0)) (num / l.natAbs) (r.vw.toInt - 200) (num % l.natAbs != 0) 0

/-- Bytes of the range that anorm writes. -/
def normBytes (f : Bool) : Nat := if f then 16384 else 32768

/-- ANORM (R333). -/
def execAnorm (d a : RegField) (f : Bool) (s : State) : Host.Outcome State Fault Refusal :=
  s.legal (.anorm d a f)
    (match s.beyond d.toNat 7 with
     | some n => s.trapAcc n
     | none =>
       if !s.tileSpan (s.u a) (normBytes f) then s.trapTile (s.u a)
       else if tileOff (s.u a) % 256 ≠ 0 then s.trapTileAlign (s.u a)
       else s.issueMat (s.matOp .anorm [s.u a] [] [] [matRange true (s.u a) (normBytes f)]))

/-- A step of anorm: row `step`. -/
def State.anormStep (s : State) (c : CoreId) (m : MatOp) : Except DWord State :=
  match (s.core c).accErr m.team (wholeRow m.vd m.step) with
  | some a => .error a
  | none =>
    let f := m.modField % 2 == 1
    let w := (s.core c).row m.team m.vd m.step
    let bs := w.xo.flatMap fun x => if f then leBytes 2 (normElem bf16 w.r x) else leBytes 4 (normElem f32 w.r x)
    .ok (s.spanWrite c (off (m.ops.getD 0 0) ((if f then 256 else 512) * m.step)) bs)

/-! ### Stop records (R325) -/

/-- The stop record of an operation. R325 gives TYPE 1 to mma and 2 to attn; the record of another operation that a pre-emption has
stopped (R328) has TYPE 0 (log 105). -/
def MatOp.record (m : MatOp) (cause : Word) (fault : DWord) : StopRec :=
  let mma := m.kind == .mma
  { kind := if mma then 1 else if m.kind == .attn then 2 else 0, cause := cause, step := m.step
    depth := if mma then BitVec.ofNat 16 ((m.groups.getD (m.step / 16) []).headD 0) else if m.cleared then 1 else 0
    row := if mma then BitVec.ofNat 8 (m.step / 4 % 4) else 0
    col := if mma then BitVec.ofNat 8 (m.step % 4) else 0
    word := m.word, lit := m.lit, ops := m.ops, aux := m.aux, fault := fault, aimg := m.aimg }

/-- A list made `n` long with zeros. -/
def padTo (n : Nat) (xs : List DWord) : List DWord := (xs ++ List.replicate n 0).take n

/-- Registers as bytes. -/
def dwordBytes (xs : List DWord) : List Byte := xs.flatMap fun x => leBytes 8 x.toNat

/-- The 4192 bytes of a record (R325). -/
def StopRec.bytes (r : StopRec) : List Byte :=
  leBytes 4 r.kind ++ leBytes 4 r.cause.toNat ++ leBytes 4 r.step ++ leBytes 2 r.depth.toNat ++ [r.row, r.col] ++
  leBytes 4 r.word.toNat ++ leBytes 4 r.lit.toNat ++ dwordBytes (padTo 4 r.ops) ++ dwordBytes (padTo 4 r.aux) ++
  leBytes 8 r.fault.toNat ++ dwordBytes (padTo 512 r.aimg)

/-- The bytes that msave writes for a slot (R326). -/
def stopBytes (r : Option StopRec) : List Byte :=
  match r with
  | some r => r.bytes
  | none => List.replicate 4192 0

/-- The number in `n` bytes from an offset. -/
def fieldAt (bs : List Byte) (o n : Nat) : Nat := leNat ((bs.drop o).take n)

/-- 64-bit words from an offset. -/
def dwordsAt (bs : List Byte) (o n : Nat) : List DWord := (List.range n).map fun i => BitVec.ofNat 64 (fieldAt bs (o + 8 * i) 8)

/-- A record read back. -/
def StopRec.parse (bs : List Byte) : StopRec :=
  let kind := fieldAt bs 0 4
  { kind := kind, cause := BitVec.ofNat 32 (fieldAt bs 4 4), step := fieldAt bs 8 4,
    depth := BitVec.ofNat 16 (fieldAt bs 0xC 2), row := BitVec.ofNat 8 (fieldAt bs 0xE 1),
    col := BitVec.ofNat 8 (fieldAt bs 0xF 1), word := BitVec.ofNat 32 (fieldAt bs 0x10 4),
    lit := BitVec.ofNat 32 (fieldAt bs 0x14 4), ops := dwordsAt bs 0x18 4, aux := dwordsAt bs 0x38 4,
    fault := BitVec.ofNat 64 (fieldAt bs 0x58 8), aimg := if kind = 1 then dwordsAt bs 0x60 512 else [] }

/-- MSAVE (R326): the slot's record is written at issue and the slot emptied. -/
def execMsave (a : RegField) (s : State) : Host.Outcome State Fault Refusal :=
  s.legal (.msave a)
    (match s.checkSpan (s.u a) 4192 32 true with
     | .ok _ _ =>
       if !s.tileReady then s.stall
       else
         ((s.spanWrite s.cur.core (s.u a) (stopBytes s.g.stopSlot)).noteTile.modG fun g =>
           { g with stopSlot := none }).completeV 4 none
     | r => s.refuseTile true r)

/-- The operation that a record resumes (R327). -/
def State.resumed (s : State) (r : StopRec) : MatOp :=
  { s.matOp (if r.kind = 1 then .mma else .attn) r.ops r.aux r.aimg [] with
    word := r.word, lit := r.lit, step := r.step, cleared := r.depth != 0, byMres := true }

/-- The record agrees with itself (R327 step 2): it resumes `m`, which has a step left to make, and its format block is a valid one
(log 59). -/
def StopRec.sound (r : StopRec) (m : MatOp) : Bool :=
  match r.kind, decode r.word r.lit with
  | 1, .ok (.mma ..) =>
    (mmaFmt (r.ops.getD 1 0)).valid && r.step < 16 * m.groups.length &&
    r.row.toNat == r.step / 4 % 4 && r.col.toNat == r.step % 4 &&
    r.depth.toNat == (m.groups.getD (r.step / 16) []).headD 0
  | 2, .ok (.attn ..) =>
    let init := attnInit (r.aux.getD 0 0)
    m.attnMore && r.step ≤ 64 && r.depth.toNat ≤ 1 && (r.depth == 0 || init) && (!init || r.step == 0 || r.depth == 1) &&
    attnOk (r.ops.getD 0 0) (r.ops.getD 1 0) (r.ops.getD 2 0) (r.aux.getD 0 0)
  | _, _ => false

/-- MRES (R327). A record of TYPE 0 needs no lease and counts for none (log 99). -/
def execMres (a : RegField) (s : State) : Host.Outcome State Fault Refusal :=
  s.legal (.mres a)
    (match s.checkSpan (s.u a) 4192 32 false with
     | .ok o _ =>
       if !s.tileReady then s.stall
       else
         let p := s.engTile s.cur.core (s.u a)
         if (s.core o).spadErr p.2 4192 then s.trap .uncorrectable (BitVec.ofNat 64 ((s.u a).toNat % 2 ^ 48))
         else
           let r := StopRec.parse (s.spanRead s.cur.core (s.u a) 4192)
           let m := s.resumed r
           if r.kind = 0 then s.noteTile.completeV 4 none
           else if !r.sound m then s.trapIllegalConv
           else if r.kind = 1 then s.noteTile.checkMma m
           else s.noteTile.checkAttn m
     | r => s.refuseTile false r)

/-- MRES_DROP (R327). -/
def execMresDrop (s : State) : Host.Outcome State Fault Refusal :=
  s.legal .mresDrop ((s.modG fun g => { g with stopSlot := none }).completeV 4 none)

/-! ### MATRIX_STEP -/

/-- Steps of an operation other than attn (R311). -/
def MatOp.total (m : MatOp) : Nat :=
  match m.kind with
  | .mma => 16 * m.groups.length
  | .mzero => 16 * (m.modField + 1)
  | .amerge => 64
  | .anorm => 64
  | _ => 16

/-- The operation has made every step. -/
def MatOp.finished (m : MatOp) : Bool :=
  match m.kind with
  | .attn => !m.attnMore
  | _ => m.total ≤ m.step

/-- The effect of the next step, or the location that failed. -/
def State.matEffect (s : State) (c : CoreId) (m : MatOp) : Except DWord (State × MatOp) :=
  let next : MatOp := { m with step := m.step + 1 }
  if m.finished then .ok (s, m)
  else
    match m.kind with
    | .mma => (s.mmaStep c m).map fun t => (t, next)
    | .mzero => .ok (s.mzeroStep c m, next)
    | .mld => (s.mldStep c m).map fun t => (t, next)
    | .mst => (s.mstStep c m).map fun t => (t, next)
    | .attn => s.attnStep c m
    | .amerge => (s.amergeStep c m).map fun t => (t, next)
    | .anorm => (s.anormStep c m).map fun t => (t, next)

/-- An operation leaves the matrix queue (R254, R278). -/
def State.endMat (s : State) (c : CoreId) (m : MatOp) : State :=
  (((s.modCore c fun k => { k with mat := k.mat.filter fun x => x.id != m.id }).unregister c (matKey m.id)
    m.ranges).noteDone c m.slot m.team 2 m.batch m.lanes m.seq m.fenced).settleBatches c m.slot m.team 2

/-- The stop record of a failed operation goes into an empty slot (R324). -/
def State.stopInto (s : State) (c : CoreId) (m : MatOp) (a : DWord) : State :=
  if s.issuerLives c m.slot m.team then
    s.modGangAt c m.slot fun g => { g with stopSlot := match g.stopSlot with | none => some (m.record 0x0A a) | x => x }
  else s

/-- The failure of an operation (R324). -/
def State.failMat (s : State) (c : CoreId) (m : MatOp) (a : DWord) : State :=
  let s1 := s.recordFailure c m.slot m.team 2 m.batch m.ord (badFailure a)
  let s2 := match m.kind with
    | .mma => s1.stopInto c m a
    | .attn => s1.stopInto c m a
    | _ => s1
  s2.endMat c m

/-- After a step that is not its last: the ranges of an attn are free once no step that is still to be made reads them (R254). -/
def State.freeRead (s : State) (c : CoreId) (m : MatOp) : State :=
  if m.kind == .attn && !m.attnReads then s.freeRanges c (matKey m.id) m.ranges else s

/-- MATRIX_STEP (R311, R319 to R324, R331 to R333): operation `k` of core `c` makes its next step. -/
def execMatrixStep (c : CoreId) (k : Nat) (s : State) : Host.Outcome State Fault Refusal :=
  .next
    (match (s.core c).mat.find? fun m => m.id == k with
     | none => s
     | some m =>
       if !(s.core c).mayStep m then s
       else
         match s.matEffect c m with
         | .error a => s.failMat c m a
         | .ok (t, m') =>
           let t1 := t.modCore c fun k => { k with mat := k.mat.map fun x => if x.id == m.id then m' else x }
           if m'.finished then t1.endMat c m' else t1.freeRead c m')

end Sys2Proof.Machine
end

