-- ==== Sys2Proof/Machine/Sketch.lean ====
section
/-!
DEFINITION. Sketches (R354 to R365, V-form 0x70 to 0x74) and STORE_PERFORMED, by which stores and cell updates reach
device memory (R34, R361, R443).
-/
namespace Sys2Proof.Machine

/-! ### Hashes (R356) -/

/-- Mix of R356. -/
def mix (x : Word) : Word :=
  let x := (x ^^^ (x >>> 16)) * 0x7A3DC5B1
  let x := (x ^^^ (x >>> 15)) * 0x4E6B9D27
  x ^^^ (x >>> 16)

/-- H of R356. -/
def sketchHash (seed : DWord) (j : Nat) (key : DWord) (dig : Word) : Word :=
  let x := mix (half key false ^^^ half seed false ^^^ BitVec.ofNat 32 (j * 0x9E3779B9))
  mix (mix (x ^^^ half key true ^^^ half seed true) ^^^ dig)

/-- Global index of an entry's cell in partition `p` (R355, R356). -/
def cellIndex (K : Nat) (seed : DWord) (p : Nat) (key : DWord) (dig : Word) : Nat :=
  p * 2 ^ K + (sketchHash seed p key dig).toNat / 2 ^ (32 - K)

/-- Offset of cell `n` (R355). -/
def cellOff (n : Nat) : Nat := 16 + 24 * n

/-- Bytes of a sketch (R355). -/
def sketchLen (K : Nat) : Nat := 16 + 72 * 2 ^ K

/-- A cell. -/
structure Cell where
  count : Word
  keyx : DWord
  digx : Word
  chkx : Word
deriving DecidableEq, Repr

/-- What inserting (`neg` false) or removing an entry changes (R359). -/
def entryDelta (seed : DWord) (neg : Bool) (key : DWord) (dig : Word) : Cell :=
  { count := if neg then 0xFFFFFFFF else 1, keyx := key, digx := dig, chkx := sketchHash seed 3 key dig }

/-- A cell as three 64-bit words. -/
def Cell.words (c : Cell) : List DWord := [c.count.setWidth 64, c.keyx, c.chkx ++ c.digx]

/-- A cell from three 64-bit words. -/
def cellOf3 (xs : List DWord) : Cell :=
  { count := half (xs.getD 0 0) false, keyx := xs.getD 1 0, digx := half (xs.getD 2 0) false,
    chkx := half (xs.getD 2 0) true }

/-- Word `i` of a cell after an update (R359): word 0 adds to COUNT and keeps the reserved word. -/
def cellWord (i : Nat) (old d : DWord) : DWord :=
  if i = 0 then half old true ++ (half old false + half d false) else old ^^^ d

/-- A cell pure (R356). -/
def Cell.pure (c : Cell) (seed : DWord) : Bool :=
  (c.count == 1 || c.count == 0xFFFFFFFF) && c.chkx == sketchHash seed 3 c.keyx c.digx

/-- A header that R355 allows: K and the reserved word. -/
def headerOk (h : DWord) : Bool := half h true == 0 && 4 ≤ (half h false).toNat && (half h false).toNat ≤ 20

/-- The 64-bit words of bytes. -/
def wordsOf (bs : List Byte) : List DWord := (List.range (bs.length / 8)).map fun j => le64 ((bs.drop (8 * j)).take 8)

/-! ### Sketches in tiles -/

/-- The tile update of one cell. -/
def Core.updateCell (k : Core) (a : Nat) (ds : List DWord) : Core :=
  let old := wordsOf (k.spad.readN a 24)
  let new := ((List.range 3).zip (old.zip ds)).map fun x => cellWord x.1 x.2.1 x.2.2
  k.spadWrite a (new.flatMap fun x => leBytes 8 x.toNat)

/-- The checks of a tile sketch's span and alignment (R360, R362); the range locks of `cells`, each an offset with the
bytes it covers. -/
def State.checkSketchTile (s : State) (a : DWord) (len : Nat) (cells : List (Nat × Nat)) (write : Bool) : TileCheck :=
  if !s.tileSpan a len then .fault a
  else if tileOff a % 8 ≠ 0 then .misaligned a
  else
    let p := s.engTile s.cur.core a
    match cells.findSome? fun x =>
        ((s.core p.1).lockHit s.t.asid true (a.toNat % 2 ^ 48 + x.1) x.2 write).map fun i => (x.1, i) with
    | some (o, i) => .locked (a + BitVec.ofNat 64 o) i
    | none => .ok p.1 [(0, p.2)]

/-! ### Sketches in memory -/

/-- The addresses of the 64-bit words of cells. -/
def cellEas (base : DWord) (cells : List (LaneId × Nat)) : List (LaneId × DWord) :=
  cells.flatMap fun x => (List.range 3).map fun j => (x.1, base + BitVec.ofNat 64 (cellOff x.2 + 8 * j))

/-- The checks of memory addresses of a sketch: alignment of the sketch, then those of R211 on each word. A range-lock
hit is reported at the cell's own address. -/
def State.checkSketch (s : State) (base : DWord) (eas : List (LaneId × DWord)) (write : Bool) : Checked :=
  if base.toNat % 8 ≠ 0 then .misaligned base
  else
    match s.checkLanes eas 8 write false with
    | .locked ea i =>
      let o := (ea - base).toNat
      .locked (if o < 16 then base else base + BitVec.ofNat 64 (cellOff ((o - 16) / 24))) i
    | r => r

/-- An access of the sketch instructions without ordering. -/
def plainReq (kind : AccKind) (size : Nat) : Req :=
  { kind := kind, size := size, acq := none, rem := false, rel := none, dst := none, leaf := none, serial := false }

/-- The update of one cell enters the list: one read-modify-write of its three words at the places `g`, with the deltas that
are known (R359, R361). -/
def State.pushCell (s : State) (g : List (DWord × Place)) (ds : List (Option DWord)) : State :=
  match g with
  | [] => s
  | x :: _ =>
    s.pushAcc x.1 x.2 (plainReq (.cell ((g.zip ds).map fun y =>
      { dev := y.1.2.dev, pa := y.1.2.pa, path := y.1.2.path, delta := y.2 })) 24)

/-! ### skins, skdel -/

/-- skins and skdel (R358 to R361); `neg` removes. -/
def State.sketchEntries (s : State) (d a b : RegField) (h : BitVec 2) (t neg : Bool) : State :=
  let K := s.g.skm.toNat
  let seed := s.g.skseed
  let base := s.u d
  let entry (l : LaneId) : DWord × Word := ((s.v a l).bits, half (s.v b l).bits false)
  let hits : List (LaneId × Nat) := s.lanes.flatMap fun l => (List.range 3).map fun p =>
    (l, cellIndex K seed p (entry l).1 (entry l).2)
  let delta (l : LaneId) : List DWord := (entryDelta seed neg (entry l).1 (entry l).2).words
  match s.guessInfo [(a, true, true), (b, true, false)] with
  | some info => s.trap .guessEscape info
  | none =>
    if t then
      match s.checkSketchTile base (sketchLen K) (hits.map fun x => (cellOff x.2, 24)) true with
      | .ok o ps =>
        let a0 := ((ps.headD (0, 0)).2)
        if !s.tileReady then s.stall
        else if hits.any fun x => (s.core o).spadErr (a0 + cellOff x.2) 24 then
          s.trap .uncorrectable (BitVec.ofNat 64 (base.toNat % 2 ^ 48))
        else
          (s.modCore o fun k => hits.foldl (fun k x => k.updateCell (a0 + cellOff x.2) (delta x.1)) k).noteTile.completeV 4
            (placed h a b d [])
      | r => s.refuseTile true r
    else
      match s.checkSketch base (cellEas base hits) true with
      | .ok ps =>
        if !s.mayIssue ps false then s.stall
        else
          let cells := (List.range hits.length).zip hits
          ((cells.foldl (fun s x =>
            s.pushCell (((ps.drop (3 * x.1)).take 3).map (·.2)) ((delta x.2.1).map some)) s).endAccs (cellEas base hits) ps
            false).completeV 4 (placed h a b d [])
      | r => s.refuseAccess 3 true r

/-- SKINS (R358 to R361). -/
def execSkins (d a b : RegField) (h : BitVec 2) (t : Bool) (s : State) : Host.Outcome State Fault Refusal :=
  s.legal (.skins d a b h t) (s.sketchEntries d a b h t false)

/-- SKDEL (R358 to R361). -/
def execSkdel (d a b : RegField) (h : BitVec 2) (t : Bool) (s : State) : Host.Outcome State Fault Refusal :=
  s.legal (.skdel d a b h t) (s.sketchEntries d a b h t true)

/-! ### skclr -/

/-- The 64-bit words of an empty sketch (R363). -/
def clearWords (K : Nat) (seed : DWord) : List DWord := BitVec.ofNat 64 K :: seed :: List.replicate (9 * 2 ^ K) 0

/-- The addresses of the 64-bit words of a sketch from word `i` on. -/
def wordEas (base : DWord) (i n : Nat) : List (LaneId × DWord) :=
  (List.range n).map fun j => (0, base + BitVec.ofNat 64 (8 * (i + j)))

/-- SKCLR (R362, R363). In memory its stores are performed in ascending address order, the header first. -/
def execSkclr (d : RegField) (t : Bool) (s : State) : Host.Outcome State Fault Refusal :=
  s.legal (.skclr d t)
    (let K := s.g.skm.toNat
     let ws := clearWords K s.g.skseed
     let base := s.u d
     if t then
       match s.checkSketchTile base (sketchLen K) [(0, sketchLen K)] true with
       | .ok o ps =>
         if !s.tileReady then s.stall
         else (s.modCore o fun k => k.spadWrite ((ps.headD (0, 0)).2) (dwordBytes ws)).noteTile.completeV 4 none
       | r => s.refuseTile true r
     else
       match s.checkSketch base (wordEas base 0 ws.length) true with
       | .ok ps =>
         if !s.mayIssue ps false then s.stall
         else
           (((ps.zip ws).foldl (fun s x =>
             s.pushAcc x.1.2.1 x.1.2.2 { plainReq (.store (leBytes 8 x.2.toNat)) 8 with serial := true }) s).endAccs
             (wordEas base 0 ws.length) ps false).completeV 4 none
       | r => s.refuseAccess 2 true r)
where
  /-- 64-bit words as bytes. -/
  dwordBytes (xs : List DWord) : List Byte := xs.flatMap fun x => leBytes 8 x.toNat

/-! ### Reading a sketch at issue -/

/-- What reading part of a sketch at issue gives: its words and the state after the reading, or a trap or wait. -/
inductive SketchRead where
  | ok (s : State) (ws : List DWord)
  | refused (s : State)
deriving DecidableEq, Repr

/-- The 64-bit words `i` to `i + n - 1` of a sketch read at issue, the fragment held (R364, R365): in a tile through the
banks, in memory as loads. Checks as for a load, or as for a store where `write`. An error in a header is reported at the
header's address, one in the `body` at its own. -/
def State.readSketch (s : State) (base : DWord) (tile : Bool) (i n : Nat) (write body : Bool) : SketchRead :=
  if tile then
    match s.checkSketchTile base (8 * (i + n)) [(8 * i, 8 * n)] write with
    | .ok o ps =>
      let a0 := (ps.headD (0, 0)).2 + 8 * i
      if !s.tileReady then .refused s.stall
      else if (s.core o).spadErr a0 (8 * n) then
        let at_ := if body then 8 * i + (s.core o).firstErr a0 (8 * n) else 0
        .refused (s.trap .uncorrectable (BitVec.ofNat 64 (base.toNat % 2 ^ 48 + at_)))
      else .ok s.noteTile (wordsOf ((s.core o).spad.readN a0 (8 * n)))
    | r => .refused (s.refuseTile write r)
  else
    match s.checkSketch base (wordEas base i n) write with
    | .ok ps =>
      if !s.mayIssue ps false || !s.quiet then .refused s.stall
      else
        match ps.find? fun p => s.bad (memIx p.2.2.dev p.2.2.pa) with
        | some p => .refused (s.trap .uncorrectable (BitVec.ofNat 64 ((if body then p.2.1 else base).toNat % 2 ^ 57)))
        | none => .ok (s.loadsNow ps 8) (ps.map fun p => le64 (s.viewN s.cur.core s.t.part p.2.2.dev p.2.2.pa.toNat 8))
    | r => .refused (s.refuseAccess (if write then 3 else 1) write r)

/-! ### sksub -/

/-- The cells of a source in memory read at issue into a tile destination; an uncorrectable cell gives none and is
reported (R364). -/
def State.readCells (s : State) (ps : List (LaneId × DWord × Place)) (n : Nat) : State × List (Option (List DWord)) :=
  let cells := (List.range n).map fun i => (ps.drop (3 * i)).take 3
  let xs := cells.map fun g =>
    if g.any fun p => s.bad (memIx p.2.2.dev p.2.2.pa) then none
    else some (g.map fun p => le64 (s.viewN s.cur.core s.t.part p.2.2.dev p.2.2.pa.toNat 8))
  let bad := cells.filterMap fun g => (g.find? fun p => s.bad (memIx p.2.2.dev p.2.2.pa)).map fun p =>
    Report.droppedStore p.2.2.dev p.2.2.pa
  ({ s with reports := s.reports ++ bad }, xs)

/-- Source cells, each where it was read, subtracted from a tile sketch in ascending order (R364). -/
def Core.subCells (k : Core) (a0 : Nat) (xs : List (Option (List DWord))) : Core :=
  ((List.range xs.length).zip xs).foldl (fun k x =>
    match x.2 with
    | some ws => k.updateCell (a0 + cellOff x.1) (((List.range 3).zip ws).map fun y => subDelta y.1 y.2)
    | none => k) k

/-- A tile source subtracted from a tile destination cell by cell (R364). -/
def State.subTiles (s : State) (o o2 : CoreId) (a0 b0 n : Nat) : State :=
  (List.range n).foldl (fun s i =>
    let ws := wordsOf ((s.core o2).spad.readN (b0 + cellOff i) 24)
    s.modCore o fun k => k.updateCell (a0 + cellOff i) (((List.range 3).zip ws).map fun y => subDelta y.1 y.2)) s

/-- The updates of a destination in memory with constant source cells (R361, R364). -/
def State.pushCells (s : State) (ps : List (LaneId × DWord × Place)) (xs : List (List DWord)) : State :=
  ((List.range xs.length).zip xs).foldl (fun s x =>
    s.pushCell (((ps.drop (3 * x.1)).take 3).map (·.2)) (((List.range 3).zip x.2).map fun y => some (subDelta y.1 y.2))) s

/-- For each cell the reads of the source and the update that waits for them (R364). -/
def State.pushSub (s : State) (src dst : List (LaneId × DWord × Place)) (n : Nat) : State :=
  (List.range n).foldl (fun s i =>
    let up := s.curCore.seq + 3
    let s1 := ((List.range 3).zip (((src.drop (3 * i)).take 3).map (·.2))).foldl (fun s r =>
      s.pushAcc r.2.1 r.2.2 (plainReq (.source up r.1) 8)) s
    s1.pushCell (((dst.drop (3 * i)).take 3).map (·.2)) [none, none, none]) s

/-- The addresses of all cells of a sketch. -/
def allCells (base : DWord) (K : Nat) : List (LaneId × DWord) :=
  cellEas base ((List.range (3 * 2 ^ K)).map fun n => (0, n))

/-- The cells of sksub, once the headers agree (R364). -/
def State.subtract (s : State) (D S : DWord) (st dt : Bool) (K : Nat) : State :=
  let n := 3 * 2 ^ K
  let body := (16, 72 * 2 ^ K)
  let dstT := s.checkSketchTile D (sketchLen K) [body] true
  let srcT := s.checkSketchTile S (sketchLen K) [body] false
  let srcM := s.checkSketch S (allCells S K) false
  let dstM := s.checkSketch D (allCells D K) true
  let bad (a : DWord) : State := s.trap .uncorrectable (BitVec.ofNat 64 (a.toNat % 2 ^ 48))
  match dt, st with
  | true, true =>
    match dstT, srcT with
    | .ok o ps, .ok o2 qs =>
      let a0 := (ps.headD (0, 0)).2
      let b0 := (qs.headD (0, 0)).2
      if (s.core o).spadErr (a0 + 16) body.2 then bad D
      else if (s.core o2).spadErr (b0 + 16) body.2 then bad S
      else (s.subTiles o o2 a0 b0 n).noteTile.completeV 4 none
    | .ok _ _, r => s.refuseTile false r
    | r, _ => s.refuseTile true r
  | true, false =>
    match dstT, srcM with
    | .ok o ps, .ok qs =>
      let a0 := (ps.headD (0, 0)).2
      if (s.core o).spadErr (a0 + 16) body.2 then bad D
      else
        let r := s.readCells qs n
        ((r.1.modCore o fun k => k.subCells a0 r.2).noteTile.loadsNow qs 8).completeV 4 none
    | .ok _ _, r => s.refuseAccess 1 false r
    | r, _ => s.refuseTile true r
  | false, true =>
    match dstM, srcT with
    | .ok ps, .ok o2 qs =>
      let b0 := (qs.headD (0, 0)).2
      if (s.core o2).spadErr (b0 + 16) body.2 then bad S
      else
        let xs := (List.range n).map fun i => wordsOf ((s.core o2).spad.readN (b0 + cellOff i) 24)
        ((s.noteTile.pushCells ps xs).endAccs (allCells D K) ps false).completeV 4 none
    | .ok _, r => s.refuseTile false r
    | r, _ => s.refuseAccess 3 true r
  | false, false =>
    match dstM, srcM with
    | .ok ps, .ok qs => ((s.pushSub qs ps n).endAccs (allCells D K ++ allCells S K) (ps ++ qs) false).completeV 4 none
    | .ok _, r => s.refuseAccess 1 false r
    | r, _ => s.refuseAccess 3 true r

/-- SKSUB (R362, R364): `st` is .stile, `dt` .dtile. Of two sketches that fail a check, the destination is reported (log 102). -/
def execSksub (d a : RegField) (st dt : Bool) (s : State) : Host.Outcome State Fault Refusal :=
  s.legal (.sksub d a st dt)
    (match s.readSketch (s.u d) dt 0 2 true false with
     | .refused t => t
     | .ok s1 hd =>
       match s1.readSketch (s.u a) st 0 2 false false with
       | .refused t => t
       | .ok s2 hs =>
         if !headerOk (hd.getD 0 0) || !headerOk (hs.getD 0 0) || hd != hs then s2.trapIllegalConv
         else s2.subtract (s.u d) (s.u a) st dt ((hd.getD 0 0).toNat % 2 ^ 32))

/-! ### skstat -/

/-- The scan of skstat (R365): cells with a nonzero field, pure cells, and K. -/
def sketchStat (K : Nat) (seed : DWord) (ws : List DWord) : DWord :=
  let cells := (List.range (3 * 2 ^ K)).map fun n => (ws.drop (3 * n)).take 3
  let nz := cells.countP fun c => c.any (· != 0)
  let pure := cells.countP fun c => (cellOf3 c).pure seed
  BitVec.ofNat 64 (nz * 2 ^ 40 + pure * 2 ^ 16 + K)

/-- SKSTAT (R362, R365). -/
def execSkstat (d a : RegField) (t : Bool) (s : State) : Host.Outcome State Fault Refusal :=
  s.legal (.skstat d a t)
    (match s.readSketch (s.u a) t 0 2 false false with
     | .refused r => r
     | .ok s1 h =>
       if !headerOk (h.getD 0 0) then s1.trapIllegalConv
       else
         let K := (h.getD 0 0).toNat % 2 ^ 32
         match s1.readSketch (s.u a) t 2 (9 * 2 ^ K) false true with
         | .refused r => r
         | .ok s2 ws => (s2.writeU d (sketchStat K (h.getD 1 0) ws)).completeV 4 none)

/-! ### Stores reach memory -/

/-- The word `i` of a cell after its update (R359). -/
def State.putWord (s : State) (key i : Nat) (w : CellWord) : State :=
  let n := memIx w.dev w.pa
  s.wrN key n (leBytes 8 (cellWord i (le64 (s.rdN key n 8)) (w.delta.getD 0)).toNat)

/-- A cell update is performed whole by the atomic engine of the die that owns it (R361), after its core's performed stores to
the cell; one that meets an uncorrectable line is dropped whole and reported once. What it writes leads back to the releases that
it reads, and behind a fence with REL to itself (R241, R247, R248). -/
def State.performCell (s : State) (c : CoreId) (a : Access) (ws : List CellWord) : State :=
  let s0 := s.raiseSome c fun z => z.meets a
  let b := (s0.core c).performed a
  let s1 := (s0.modCore c fun k =>
    { k.addMark b true false b.past with narrow := if b.narrow then b.raises else k.narrow }).dropAcc c a.id
  if ws.any fun w => s1.badLine (memIx w.dev w.pa) then s1.report (.droppedStore a.dev a.pa)
  else
    let ts := s1.tagsIn a.spans ++ b.tag c
    let s2 := ((List.range ws.length).zip ws).foldl (fun s x => s.putWord (s1.keyOf a.part) x.1 x.2) s1
    { s2 with relTags := ws.foldl (fun tags w => tagBytes tags (memIx w.dev w.pa) 8 ts) s2.relTags }

/-- The store `a`, performed at .core before or now, is performed at .sys if it is its turn (R443). -/
def State.performSys (s : State) (c : CoreId) (a : Access) : State :=
  let s1 := if a.done then s else s.modCore c fun k => k.perform a
  match (s1.core c).acc? a.id with
  | some b => if (s1.core c).mayRaise b then s1.raise c b else s
  | none => s

/-- A store is performed at .core scope (R34), or at .sys; at a strongly ordered page, or where a unit of it is uncorrectable
(R207), it is performed at .sys alone (R202). -/
def State.performStore (s : State) (c : CoreId) (a : Access) (sys : Bool) : State :=
  if !a.done && !(s.core c).mayPerform a then s
  else if sys || (s.bad (memIx a.dev a.pa) && !a.done) then s.performSys c a
  else if a.done || a.ptype == 3 then s
  else s.modCore c fun k => k.perform a

/-- STORE_PERFORMED (R34, R207, R361, R364, R443): access `k` of core `c` is performed at .core, or at .sys. -/
def execStorePerformed (c : CoreId) (k : Nat) (sys : Bool) (s : State) : Host.Outcome State Fault Refusal :=
  .next
    (match (s.core c).acc? k with
     | none => s
     | some a =>
       match a.kind with
       | .store _ => s.performStore c a sys
       | .cell ws =>
         if sys && ws.all (·.delta.isSome) && (s.core c).mayPerform a && (s.core c).mayRaise a then s.performCell c a ws
         else s
       | _ => s)

end Sys2Proof.Machine
end

