-- ==== Sys2Proof/Machine/Engines.lean ====
section
/-!
DEFINITION. The copy engine (R277 to R291, R296 to R300, U-form 0x60, 0x61, 0x63, 0x64): the issue of engine operations,
copies, gathers and expansions, bseal and bwait, and the translation faults of engine accesses (R281).
-/
namespace Sys2Proof.Machine

/-! ### Those who wait for a fault -/

/-- An engine operation of a core. -/
def Core.op? (k : Core) (id : Nat) : Option EngOp := k.eng.find? fun o => o.id == id

/-- The core with an engine operation changed. -/
def Core.modOp (k : Core) (id : Nat) (f : EngOp → EngOp) : Core :=
  { k with eng := k.eng.map fun o => if o.id == id then f o else o }

/-- A queue by number. -/
def State.queue? (s : State) (q : QueueId) : Option Queue := s.queues.find? fun x => x.num == q

/-- The state with a queue changed. -/
def State.modQueue (s : State) (q : QueueId) (f : Queue → Queue) : State :=
  { s with queues := s.queues.map fun x => if x.num == q then f x else x }

/-- A started packet of a queue. -/
def Queue.pkt? (x : Queue) (i : DWord) : Option Packet := x.pkts.find? fun p => p.idx == i

/-- The queue with a packet changed. -/
def Queue.modPkt (x : Queue) (i : DWord) (f : Packet → Packet) : Queue :=
  { x with pkts := x.pkts.map fun p => if p.idx == i then f p else p }

/-- A translation fault of an engine operation, a queue or a packet waits for its answer. -/
def State.whoFaulted (s : State) : Waiter → Bool
  | .frag .. => false
  | .gone => false
  | .engine c op => ((s.core c).op? op).any (·.faulted)
  | .queue q none => (s.queue? q).any (·.faulted)
  | .queue q (some i) => ((s.queue? q).bind (·.pkt? i)).any (·.faulted)

/-- Its access has been refused (RESP 2). -/
def State.whoRefused (s : State) : Waiter → Bool
  | .frag .. => false
  | .gone => false
  | .engine c op => ((s.core c).op? op).any (·.refused)
  | .queue _ none => false
  | .queue q (some i) => ((s.queue? q).bind (·.pkt? i)).any (·.refused)

/-- Both marks set. -/
def State.setWho (s : State) (w : Waiter) (f r : Bool) : State :=
  match w with
  | .frag .. => s
  | .gone => s
  | .engine c op => s.modCore c fun k => k.modOp op fun o => { o with faulted := f, refused := r }
  | .queue q none => s.modQueue q fun x => { x with faulted := f }
  | .queue q (some i) => s.modQueue q fun x => x.modPkt i fun p => { p with faulted := f, refused := r }

/-- A translation fault of an engine operation (KIND 4, R281) or of a queue (KIND 5, R305) joins the faults of its
partition. -/
def State.whoFault (s : State) (w : Waiter) (part : PartId) (asid : Asid) (va : DWord) (why : BitVec 4) : State :=
  let x : XFault :=
    match w with
    | .engine c op =>
      { va := va, asid := asid, clus := BitVec.ofNat 3 (clusOf c).val, core := BitVec.ofNat 8 (coreidOf c),
        slot := BitVec.ofNat 4 (((s.core c).op? op).elim 0 fun o => o.slot.val), kind := 4, why := why, queue := 0, who := w }
    | .queue q _ =>
      { va := va, asid := asid, clus := 0, core := 0xFF, slot := 0, kind := 5, why := why,
        queue := BitVec.ofNat 17 q.val, who := w }
    | _ => { va := va, asid := asid, clus := 0, core := 0, slot := 0, kind := 4, why := why, queue := 0, who := w }
  (s.setWho w true false).postFault part x

/-! ### The life of an engine operation -/

/-- There is room for an operation of a class (R252, R280, R299, R367, log 17). -/
def State.engRoom (s : State) (cls : Fin 4) (rs : List Range) : Bool :=
  s.roomFor s.cur.core rs && s.curCore.journalRoom && (cls != 3 || s.curCore.eng.countP (·.cls == 3) < 16)

/-- An operation is issued (R280): its ranges are registered, it joins the open batch of its class, and the fragment goes
on. -/
def State.admitEng (s : State) (o : EngOp) : State :=
  let c := s.cur.core
  let id := s.curCore.nextEng
  let o1 : EngOp :=
    { o with id := id, ord := s.g.nextOp, batch := (s.g.batches.get o.cls).next, seq := s.curCore.seq, fenced := s.f.acqSeq,
             lanes := s.em }
  (((s.register c s.cur.slot s.g.team s.t.asid (engKey id) o.ranges).modK fun k =>
    { k with nextEng := id + 1, seq := k.seq + 1, eng := k.eng ++ [o1] }).modG fun g => { g with nextOp := g.nextOp + 1 }).completeU 4 false

/-- A copy that has not begun. -/
def CopyRun.fresh : CopyRun := { row := 0, code := 0, buf := none }

/-- An operation as its instruction makes it; admission fills in the rest. -/
def State.engOp (s : State) (k : EngKind) (cls : Fin 4) (rs : List Range) (ops : List DWord) : EngOp :=
  { id := 0, ord := 0, slot := s.cur.slot, team := s.g.team, cls := cls, batch := 0, kind := k, ranges := rs, held := rs, seq := 0, fenced := 0, lanes := 0,
    asid := s.t.asid, part := s.t.part, faulted := false, refused := false, run := .fresh, home := none, word := s.iword,
    ops := ops }

/-- An earlier-issued operation of the gang's class that must complete first (R282). A collective that runs on while its team is
saved waits for none (R300): the earlier operation is withdrawn then (log 98). -/
def Core.engBlocked (k : Core) (o : EngOp) : Bool :=
  k.eng.any fun x => x.ord < o.ord && x.ofTeam o.team && o.home.isNone && x.slot == o.slot && x.cls == o.cls &&
    rangesConflict x.ranges o.ranges

/-- The operation may make its accesses now (R250, R281, R282). -/
def Core.engReady (k : Core) (o : EngOp) : Bool :=
  !o.faulted && (o.home.isSome || k.drained o.slot o.team o.lanes o.seq) && !k.engBlocked o

/-- A saved team by name. -/
def SavedTeam.is (x : SavedTeam) (p : PartId) (gridid teamid : Word) : Bool :=
  x.part == p && x.gridid == gridid && x.teamid == teamid

/-- A saved gang with the batches of a class changed. -/
def SavedGang.modBatches (g : SavedGang) (cls : Fin 4) (f : Batches → Batches) : SavedGang :=
  { g with batches := g.batches.set cls (f (g.batches.get cls)) }

/-- The state with a saved gang changed. -/
def State.modSaved (s : State) (h : Home) (f : SavedGang → SavedGang) : State :=
  let team (x : SavedTeam) : SavedTeam := { x with gangs := x.gangs.map fun g => if g.gangid == h.gangid then f g else g }
  { s with saved := s.saved.map fun x => if x.is h.part h.gridid h.teamid then team x else x }

/-- Where the batches of a class stand in a gang block (R393). -/
def batchOff (cls : Fin 4) : Nat := 0x6000 + 512 * cls.val

/-- The end of an operation whose team has been saved meanwhile is recorded in the saved batch state (R300): beside the area, and in
the batches of its class in the area (R393). A batch of which no operation runs on or waits in the area has finished. -/
def State.recordSaved (s : State) (c : CoreId) (h : Home) (o : EngOp) (f : Option Failure) : State :=
  match (s.saved.find? fun x => x.is h.part h.gridid h.teamid).bind fun x => x.gangs.find? fun g => g.gangid == h.gangid with
  | none => s
  | some g =>
    let left (b : Nat) : Bool :=
      g.todo.contains (o.cls, b) || (s.core c).eng.any fun x => x.id != o.id && x.home == some h && x.cls == o.cls && x.batch == b
    let g1 := g.modBatches o.cls fun b =>
      { b with sealedB := dropFinished left b.sealedB
               recs := b.recs ++ (f.map fun f => { batch := o.batch, op := o.ord, fail := f }).toList }
    (s.modSaved h fun _ => g1).wrN (s.keyOf h.part) (g.block + batchOff o.cls) (classBytes (g1.batches.get o.cls))

/-- The operation ends (R254, R278), with a failure record if it failed (R279). -/
def State.endEng (s : State) (c : CoreId) (o : EngOp) (f : Option Failure) : State :=
  let s1 := match o.home, f with
    | some h, f => s.recordSaved c h o f
    | none, some f => s.recordFailure c o.slot o.team o.cls o.batch o.ord f
    | none, none => s
  let s2 := (s1.modCore c fun k => { k with eng := k.eng.filter fun x => x.id != o.id }).unregister c (engKey o.id) o.ranges
  if o.home.isNone then
    (s2.noteDone c o.slot o.team o.cls o.batch o.lanes o.seq o.fenced).settleBatches c o.slot o.team o.cls
  else s2

/-- The party that an operation's accesses are made by. -/
def EngOp.party (c : CoreId) (o : EngOp) : Party := { core := some c, part := o.part, asid := o.asid }

/-! ### cpy (R285 to R288) -/

/-- A range wraps past 2^57 (R284). -/
def wraps (a : DWord) (n : Nat) : Bool := 2 ^ 57 < a.toNat % 2 ^ 57 + n

/-- A copy that a descriptor pair asks for (R286): the operation and its length in bytes or rows, or a status code. -/
inductive CopyAsk where
  | refused (code : Nat)
  | nothing
  | ask (k : EngKind) (ranges : List Range)
deriving DecidableEq, Repr

/-- A device-memory or tile range of a copy (R287). -/
def copyRange (dst tile : Bool) (eng : BitVec 3) (a : DWord) (n : Nat) : Range :=
  { dst := dst, tile := tile, eng := eng, base := BitVec.ofNat 64 (a.toNat % (if tile then 2 ^ 48 else 2 ^ 57)), len := n }

/-- The checks of R286 and R287 on the descriptor pair, and what it asks for. -/
def copyAsk (d a b0 b1 : DWord) (dt st : Bool) : CopyAsk :=
  let x := b0.toNat
  if x / 2 ^ 62 = 0 then
    let n := x % 2 ^ 40
    if x / 2 ^ 40 % 2 ^ 22 ≠ 0 then .refused 0x11
    else if (!dt && wraps d n) || (!st && wraps a n) then .refused 0x15
    else if n = 0 then .nothing
    else .ask (.copy d a dt st n) [copyRange true dt 0 d n, copyRange false st 0 a n]
  else if x / 2 ^ 62 = 1 then
    let rb := 4 * (x / 2 ^ 48 % 2 ^ 14 + 1)
    let w := x / 2 ^ 24 % 2 ^ 24
    let n := x % 2 ^ 24
    if dt || st || w = 0 || d.toNat % 4 ≠ 0 || a.toNat % 4 ≠ 0 || b1.toNat % 4 ≠ 0 then .refused 0x11
    else if wraps a (rb * w) || wraps b1 (4 * n) || wraps d (rb * n) then .refused 0x15
    else if n = 0 then .nothing
    else .ask (.gather d a b1 (rb / 4) w n)
      [copyRange true false 1 d (rb * n), copyRange false false 1 a (rb * w), copyRange false false 1 b1 (4 * n)]
  else .refused 0x11

/-- ENGINE_FAULT of the copy engine at issue (R284). -/
def State.trapCopy (s : State) (code : Nat) : State := s.trap .engineFault (engineInfo code 0)

/-- The first tile side that fails the checks of R186 and R287, destination first. -/
def State.badSide (s : State) (rs : List (DWord × Nat)) : Option State :=
  rs.findSome? fun x =>
    if !s.tileSpan x.1 x.2 then some (s.trapTile x.1)
    else if tileOff x.1 % 4 ≠ 0 then some (s.trapTileAlign x.1)
    else none

/-- An engine instruction whose checks have passed (R280): it issues, or its fragment stalls until there is room. -/
def State.issueEng (s : State) (o : EngOp) : State :=
  if s.engRoom o.cls o.ranges then s.admitEng o else (s.setWait (.engine o)).stall

/-- CPY (R285 to R288). -/
def execCpy (d a b : RegField) (t st : Bool) (s : State) : Host.Outcome State Fault Refusal :=
  s.legal (.cpy d a b t st)
    (let sides (n : Nat) : List (DWord × Nat) := (if t then [(s.u d, n)] else []) ++ if st then [(s.u a, n)] else []
     match copyAsk (s.u d) (s.u a) (s.u b) (s.u (nextReg b)) t st with
     | .refused code => s.trapCopy code
     | .nothing =>
       match s.badSide (sides 0) with
       | some t => t
       | none => s.completeU 4 false
     | .ask k rs =>
       match s.badSide (sides ((s.u b).toNat % 2 ^ 40)) with
       | some t => t
       | none => s.issueEng (s.engOp k 0 rs [s.u d, s.u a, s.u b, s.u (nextReg b)]))

/-! ### cpyt (R289 to R291) -/

/-- A cpyt descriptor (R289). -/
structure CpytDesc where
  x : Bool
  esz : Nat
  rows : Nat
  rowb : Nat
  pitch : Nat
deriving DecidableEq, Repr

/-- The fields of a cpyt descriptor. -/
def cpytDesc (b : DWord) : CpytDesc :=
  { x := b.getLsbD 63, esz := b.toNat / 2 ^ 61 % 4, rows := b.toNat / 2 ^ 48 % 2 ^ 13 + 1, rowb := b.toNat / 2 ^ 32 % 2 ^ 16,
    pitch := b.toNat % 2 ^ 32 }

/-- Bytes of an element. -/
def CpytDesc.elt (m : CpytDesc) : Nat := 2 ^ m.esz
/-- Bytes of a source row. -/
def CpytDesc.srow (m : CpytDesc) : Nat := if m.x then m.rowb / 2 + m.rowb / (8 * m.elt) else m.rowb
/-- Bytes between source rows. -/
def CpytDesc.step (m : CpytDesc) : Nat := if m.rows = 1 then 0 else m.pitch
/-- Bytes from the first source byte to the last. -/
def CpytDesc.span (m : CpytDesc) : Nat := (m.rows - 1) * m.step + m.srow

/-- The status code of a cpyt at issue (R284, R289): 0 for none. -/
def cpytCode (a : DWord) (m : CpytDesc) : Nat :=
  if m.esz = 3 || m.rowb % 4 ≠ 0 || m.rowb = 0 || 4096 < m.rows || (m.x && m.rowb % (8 * m.elt) ≠ 0) || (!m.x && m.esz ≠ 0) then
    0x11
  else if (1 < m.rows && m.pitch < m.srow) || wraps a m.span then 0x15
  else 0

/-- What a cpyt asks for (R290). -/
def cpytAsk (d a b : DWord) : EngKind × List Range :=
  let m := cpytDesc b
  (.cpyt d a b, [copyRange true true 0 d (m.rows * m.rowb), copyRange false false 0 a m.span])

/-- CPYT (R289, R290). -/
def execCpyt (d a b : RegField) (s : State) : Host.Outcome State Fault Refusal :=
  s.legal (.cpyt d a b)
    (let m := cpytDesc (s.u b)
     let n := m.rows * m.rowb
     if cpytCode (s.u a) m ≠ 0 then s.trapCopy (cpytCode (s.u a) m)
     else
       match s.badSide [(s.u d, n)] with
       | some t => t
       | none =>
         let k := cpytAsk (s.u d) (s.u a) (s.u b)
         s.issueEng (s.engOp k.1 0 k.2 [s.u d, s.u a, s.u b, s.u (nextReg b)]))

/-- The four dense elements of a group (R291): its kept values and its code; an invalid code gives zeros. -/
def expandGroup (e : Nat) (v0 v1 : List Byte) (code : Nat) : List Byte :=
  let p0 := code % 4
  let p1 := code / 4 % 4
  (List.range 4).flatMap fun i =>
    if p0 < p1 && i = p0 then v0 else if p0 < p1 && i = p1 then v1 else List.replicate e 0

/-- The code of group `j` of a compressed row with `g` groups. -/
def groupCode (e g : Nat) (row : List Byte) (j : Nat) : Nat := (row.getD (2 * e * g + j / 2) 0).toNat / 16 ^ (j % 2) % 16

/-- A compressed row as a dense one (R291). -/
def expandRow (e g : Nat) (row : List Byte) : List Byte :=
  (List.range g).flatMap fun j =>
    expandGroup e ((row.drop (2 * e * j)).take e) ((row.drop (2 * e * j + e)).take e) (groupCode e g row j)

/-- A row has a code whose positions do not rise. -/
def badCodes (e g : Nat) (row : List Byte) : Bool :=
  (List.range g).any fun j => let x := groupCode e g row j; x / 4 % 4 ≤ x % 4

/-! ### COPY_ENGINE_RUN -/

/-- Bytes of a side: a tile of the operation's core, or device memory. -/
def State.readSide (s : State) (w : Party) (tile : Bool) (a : DWord) (n : Nat) : Except EngErr (List Byte) :=
  match tile, w.core with
  | true, some c =>
    match s.spanErr c [(a, n)] with
    | some e => .error (.bad e 0 0)
    | none => .ok (s.spanRead c a n)
  | _, _ => s.engRead w a n

/-- A side can be written. -/
def State.maySide (s : State) (w : Party) (tile : Bool) (a : DWord) (n : Nat) : Except EngErr Unit :=
  if tile then .ok () else s.engMayWrite w a n

/-- Bytes written to a side. -/
def State.writeSide (s : State) (w : Party) (tile : Bool) (a : DWord) (bs : List Byte) : State :=
  match tile, w.core with
  | true, some c => s.spanWrite c a bs
  | _, _ => s.engWrite w a bs

/-- The rows of a copy (R288, R290): a linear one is read whole. -/
def EngKind.rows : EngKind → Nat
  | .gather _ _ _ _ _ n => n
  | .cpyt _ _ b => (cpytDesc b).rows
  | _ => 1

/-- What row `r` of a copy reads, as the bytes that it writes, and its status code (R288, R291). -/
def State.copySource (s : State) (w : Party) (r : Nat) : EngKind → Except EngErr (List Byte × Nat)
  | .copy _ a _ st n => (s.readSide w st a n).map fun bs => (bs, 0)
  | .gather _ a ix roww wrows _ =>
    match s.engRead w (off ix (4 * r)) 4 with
    | .error e => .error e
    | .ok is =>
      let k := leNat is
      if k < wrows then (s.engRead w (off a (4 * roww * k)) (4 * roww)).map fun bs => (bs, 0)
      else .ok (List.replicate (4 * roww) 0, 0x12)
  | .cpyt _ a b =>
    let m := cpytDesc b
    let g := m.rowb / (4 * m.elt)
    (s.engRead w (off a (r * m.step)) m.srow).map fun row =>
      if m.x then (expandRow m.elt g row, if badCodes m.elt g row then 0x14 else 0) else (row, 0)
  | _ => .ok ([], 0)

/-- Where row `r` of a copy is written. -/
def EngKind.place (r : Nat) : EngKind → Bool × DWord
  | .copy d _ dt _ _ => (dt, d)
  | .gather d _ _ roww _ _ => (false, off d (4 * roww * r))
  | .cpyt d _ b => (true, off d ((cpytDesc b).rowb * r))
  | _ => (false, 0)

/-- The next row of a copy (R281, R288): read, unless it has been, and written. An error leaves the copy where it stands. -/
def State.copyRow (s : State) (w : Party) (k : EngKind) (p : CopyRun) : State × CopyRun × Option EngErr :=
  match p.buf.elim (s.copySource w p.row k) .ok with
  | .error e => (s, p, some e)
  | .ok (bs, x) =>
    let at_ := k.place p.row
    match s.maySide w at_.1 at_.2 bs.length with
    | .error e => (s, { p with buf := some (bs, x) }, some e)
    | .ok _ =>
      (s.writeSide w at_.1 at_.2 bs, { row := p.row + 1, code := if p.code = 0 then x else p.code, buf := none }, none)

/-- The rows of a copy from where it stands, one after another; `fuel` bounds them. -/
def State.copyRows (s : State) (w : Party) (k : EngKind) : Nat → CopyRun → State × CopyRun × Option EngErr
  | 0, p => (s, p, none)
  | fuel + 1, p =>
    match s.copyRow w k p with
    | (t, q, some e) => (t, q, some e)
    | (t, q, none) => State.copyRows t w k fuel q

/-- A copy from where it stands to its end, or to an access that fails. -/
def State.copyRun (s : State) (w : Party) (k : EngKind) (p : CopyRun) : State × CopyRun × Option EngErr :=
  s.copyRows w k (k.rows - p.row) p

/-- COPY_ENGINE_RUN (R281, R288, R291): operation `k` of core `c`. What it has written stays written; a retry goes on at the access
that faulted. Its sources are free once its last row has been read (R254). -/
def execCopyEngineRun (c : CoreId) (k : Nat) (s : State) : Host.Outcome State Fault Refusal :=
  .next
    (match (s.core c).op? k with
     | none => s
     | some o =>
       if o.cls ≠ 0 || !(s.core c).engReady o then s
       else if o.refused then s.endEng c o (some (engFailure 0x13 0))
       else
         match (s.noteOp c o).copyRun (o.party c) o.kind o.run with
         | (t, p, some (.xlate va why)) =>
           let t1 := t.modCore c fun x => x.modOp k fun y => { y with run := p }
           let t2 := if p.buf.isSome && p.row + 1 = o.kind.rows then
               t1.freeHeld c o fun r => !r.dst else t1
           t2.whoFault (.engine c k) o.part o.asid va why
         | (t, _, some (.bad va _ _)) => t.endEng c o (some (badFailure va))
         | (t, p, none) => t.endEng c o (if p.code = 0 then none else some (engFailure p.code 0)))

/-! ### bseal and bwait (R296 to R298) -/

/-- BSEAL (R297). -/
def execBseal (c : BitVec 2) (s : State) : Host.Outcome State Fault Refusal :=
  let cls : Fin 4 := c.toFin
  s.legal (.bseal c)
    (if 16 ≤ (s.g.batches.get cls).sealedB.length then s.stall
     else
       ((s.modG fun g => g.noteSplit.modBatches cls fun b =>
         { b with next := b.next + 1, sealedB := b.sealedB ++ [b.next] }).settleBatches s.cur.core s.cur.slot s.g.team
         cls).completeU 4 false)

/-- At most `n` sealed batches of the class are unfinished (R298). -/
def Gang.batchesDone (g : Gang) (cls : Fin 4) (n : Nat) : Bool := (g.batches.get cls).sealedB.length ≤ n

/-- A failure record of a finished batch (R298). -/
def Batches.reported (b : Batches) (r : FailRec) : Bool := !b.sealedB.contains r.batch && r.batch != b.next

/-- A failure record is that of an earlier-issued operation: of an older batch, or earlier in the same. -/
def FailRec.earlier (r x : FailRec) : Bool :=
  r.batch < x.batch || (r.batch == x.batch && r.op < x.op)

/-- The record of the earliest-issued failed operation among the finished batches (R298). -/
def Batches.first (b : Batches) : Option FailRec :=
  (b.recs.filter b.reported).foldl (fun m r => match m with
    | none => some r
    | some x => if r.earlier x then some r else some x) none

/-- The fragment has observed the completion of the operations of the finished batches of a class (R250): what happens before them
stands before its later accesses, on either path. -/
def State.observeDone (s : State) (cls : Fin 4) : State :=
  let b := s.g.batches.get cls
  let past := s.curCore.still (firsts ((b.past.filter fun x => !b.sealedB.contains x.1 && x.1 != b.next).map (·.2)))
  if past.isEmpty then s
  else s.modK fun k =>
    { k with
      seq := k.seq + 1
      marks := k.marks ++
        [{ slot := s.cur.slot, team := s.g.team, lanes := s.em, path := none, wide := true, id := k.seq, acq := true, past := past }] }

/-- The end of a bwait whose condition holds (R298): a failure record traps at the bwait, else the fragment goes on. With .y
it goes to S[a] also where it is the end instruction of a loop, whose record and LC stay (log 85). -/
def State.bwaitDone (s0 : State) (cls : Fin 4) (y : Option DWord) : State :=
  let s := s0.observeDone cls
  match (s.g.batches.get cls).first with
  | some r =>
    ((s.modG fun g => g.modBatches cls fun b => { b with recs := b.recs.filter fun x => !b.reported x }).trapAt s.cur
      r.fail.cause s.pc r.fail.info 0).finish
  | none =>
    match y with
    | some a => ((s.modG fun g => { g with latch := [] }).setPc a).finish
    | none => (s.modG fun g => g.advance s.cur (s.pc + 4)).finish

/-- BWAIT (R298): its write-combining stores are performed first (R202), and it closes the fragment's windows (R52). -/
def execBwait (a : RegField) (y : Bool) (n : BitVec 5) (c : BitVec 2) (s : State) : Host.Outcome State Fault Refusal :=
  let cls : Fin 4 := c.toFin
  s.legal (.bwait a y n c)
    (if y && (s.u a).toNat % 4 ≠ 0 then s.trap .alignFault (BitVec.ofNat 64 ((s.u a).toNat % 2 ^ 57))
     else if s.openCombining then s.stall
     else
       let cont := if y then some (s.u a) else none
       let s1 := s.countIssue true
       if s1.g.batchesDone cls n.toNat then s1.bwaitDone cls cont
       else (s1.setWait (.bwait cls n.toNat cont)).finish)

/-- BWAIT_RESUME (R298). -/
def execBwaitResume (c : CoreId) (i : SlotId) (f : FragId) (s : State) : Host.Outcome State Fault Refusal :=
  .next
    (match s.waiterNow c i f fun w => match w with | .bwait .. => true | _ => false with
     | some (cur, .bwait cls n y) =>
       if (s.gangAt c i).batchesDone cls n then s.asCur cur fun s => (s.setWait .none).bwaitDone cls y else s
     | _ => s)

end Sys2Proof.Machine
end

