-- ==== Sys2Proof/Machine/Collectives.lean ====
section
/-!
DEFINITION. Collectives (R292 to R295, R87 to R90, U-form 0x62): the request block and its checks, the members of a
collective, its sums and its failures.
-/
namespace Sys2Proof.Machine

/-! ### The request block -/

/-- The request block of a collective (R292). -/
structure CollBlock where
  req : CollReq
  /-- The bytes that must be 0. -/
  spare : Nat
deriving DecidableEq, Repr

/-- The fields of a request block (R292). -/
def collBlock (addr : DWord) (bs : List Byte) : CollBlock :=
  let opf := fieldAt bs 0 4
  { req :=
      { addr := addr, op := opf % 4, inFp32 := opf / 4 % 2 == 1, outFp32 := opf / 16 % 2 == 1, opf := BitVec.ofNat 32 opf,
        w := signedVal 32 (fieldAt bs 4 4), group := fieldAt bs 8 4, rank := fieldAt bs 0xC 4, root := fieldAt bs 0x10 4,
        count := fieldAt bs 0x18 8, src := BitVec.ofNat 64 (fieldAt bs 0x20 8), dst := BitVec.ofNat 64 (fieldAt bs 0x28 8),
        stat := BitVec.ofNat 64 (fieldAt bs 0x30 8) },
    spare := fieldAt bs 0x14 4 + fieldAt bs 0x38 8 }

/-- Bytes of an element of SRC and of DST. -/
def CollReq.inBytes (r : CollReq) : Nat := if r.inFp32 then 4 else 2
def CollReq.outBytes (r : CollReq) : Nat := if r.outFp32 then 4 else 2

/-- Bytes of the SRC and DST ranges (R293). -/
def CollReq.srcLen (r : CollReq) : Nat := if r.op = 2 && r.rank ≠ r.root then 0 else r.count * r.inBytes
def CollReq.dstLen (r : CollReq) : Nat :=
  if (r.op = 1 && r.rank ≠ r.root) || (r.op = 2 && r.rank = r.root) then 0 else r.count * r.outBytes

/-- The DST range of a member. -/
def CollReq.dstRange (r : CollReq) : Range := copyRange true false 2 r.dst r.dstLen

/-- A rank of this package: no other package of the domain holds it, and it lies in the domain (R292, R410). -/
def memberHere (devid : BitVec 10) (m : Member) : Bool := m.dev == devid && m.port.isNone

/-- A collective group of a partition (R292). -/
def State.group? (s : State) (p : PartId) (n : Nat) : Option Group := s.groups.find? fun g => g.part == p && g.num == n

/-- The status code of a request of a member in a partition and, for a gang's request, on a cluster (R284): 0 for none. -/
def State.collCode (s : State) (p : PartId) (clus : Option ClusId) (b : CollBlock) : Nat :=
  let r := b.req
  let opf := r.opf.toNat
  if opf / 64 ≠ 0 || r.op = 3 || 2 ≤ opf / 4 % 4 || 2 ≤ opf / 16 % 4 || b.spare ≠ 0 || (r.op = 0 && r.root ≠ 0) ||
      (r.op = 2 && (r.w ≠ 0 || r.inFp32 != r.outFp32)) then 0x21
  else if r.w < -126 || 127 < r.w then 0x22
  else
    match s.group? p r.group with
    | none => 0x24
    | some g =>
      match g.members[r.rank]? with
      | none => 0x24
      | some m =>
        if !memberHere s.devid m || (clus.any fun k => k != m.clus) || (r.op ≠ 0 && g.members.length ≤ r.root) then 0x24
        else if r.count = 0 || 2 ^ 32 < r.count then 0x26
        else 0

/-- The first of SRC, DST and STAT that is misaligned (R293). -/
def CollReq.misaligned (r : CollReq) : Option DWord :=
  ([(r.src, r.inBytes), (r.dst, r.outBytes), (r.stat, 8)].find? fun x => x.1.toNat % x.2 ≠ 0).map (·.1)

/-- The ranges of a collective (R293). -/
def CollReq.ranges (r : CollReq) : List Range :=
  [copyRange false false 2 r.addr 64, copyRange false false 2 r.src r.srcLen, r.dstRange,
   copyRange true false 2 r.stat 8]

/-! ### Members -/

/-- Collectives of a rank of a group so far (R294). -/
def Group.issued (g : Group) (rank : Nat) : Nat := ((g.counts.find? fun x => x.1 == rank).map (·.2)).getD 0

/-- The group after one more collective of a rank. -/
def Group.count (g : Group) (rank : Nat) : Group :=
  { g with counts := (rank, g.issued rank + 1) :: g.counts.filter fun x => x.1 != rank }

/-- A collective by partition, group and number. -/
def Collective.is (q : Collective) (p : PartId) (group n : Nat) : Bool := q.part == p && q.group == group && q.n == n

/-- The number of the next collective of a rank (R294). -/
def State.nextColl (s : State) (p : PartId) (r : CollReq) : Nat := ((s.group? p r.group).map (·.issued r.rank)).getD 0

/-- A member joins its collective (R294); one that has failed already fails it too (R295). -/
def Collective.join (q : Collective) (m : CollMember) : Collective :=
  { q with
    mems := q.mems ++ [if q.result.isSome then { m with code := 0x25 } else m]
    joined := q.joined ++ [m.rank] }

/-- The collective that a rank's next request belongs to, with the request in it (R294). -/
def State.joinColl (s : State) (p : PartId) (m : CollMember) : State :=
  let n := s.nextColl p m.req
  let groups := s.groups.map fun g => if g.part == p && g.num == m.req.group then g.count m.req.rank else g
  let empty : Collective := { part := p, group := m.req.group, n := n, mems := [], joined := [], known := false, result := none }
  let colls := if s.colls.any fun q => q.is p m.req.group n then
      s.colls.map fun q => if q.is p m.req.group n then q.join m else q
    else s.colls ++ [empty.join m]
  { s with groups := groups, colls := colls }

/-- A collective is admitted (R280): its place among the members, then the engine operation. -/
def State.admitColl (s : State) (r : CollReq) (o : EngOp) : State :=
  let p := s.t.part
  let m : CollMember :=
    { rank := r.rank, who := .engine s.cur.core s.curCore.nextEng, req := r, asid := s.t.asid, core := some s.cur.core,
      code := 0, badAt := none, wrote := false }
  (s.joinColl p m).admitEng { o with kind := .coll r (s.nextColl p r) }

/-- Admission of an engine operation. -/
def State.admitAny (s : State) (o : EngOp) : State :=
  match o.kind with
  | .coll r _ => s.admitColl r o
  | _ => s.admitEng o

/-- A collective whose checks have passed (R280). -/
def State.issueColl (s : State) (r : CollReq) (ops : List DWord) : State :=
  let o := s.engOp (.coll r 0) 1 r.ranges ops
  if s.engRoom 1 r.ranges then s.admitAny o else (s.setWait (.engine o)).stall

/-- COLL (R293): the block is read by loads (R202, log 61). -/
def execColl (a : RegField) (s : State) : Host.Outcome State Fault Refusal :=
  s.legal (.coll a)
    (let va := s.u a
     let w : Party := { core := some s.cur.core, part := s.t.part, asid := s.t.asid }
     if va.toNat % 64 ≠ 0 then s.trap .alignFault (BitVec.ofNat 64 (va.toNat % 2 ^ 57))
     else
       match s.translate w.core w.asid va 64 false with
       | .error why => s.stallFault va 1 why
       | .ok _ =>
         if !s.quiet || !s.mayIssue (s.blockPlaces va 64) false then s.stall
         else
           match s.engRead w va 64 with
           | .error (.xlate va why) => s.stallFault va 1 why
           | .error (.bad va _ _) => s.trap .uncorrectable (BitVec.ofNat 64 (va.toNat % 2 ^ 57))
           | .ok bs =>
             let b := collBlock va bs
             let code := s.collCode s.t.part (some (clusOf s.cur.core)) b
             if code ≠ 0 then s.trap .engineFault (engineInfo code 1)
             else
               match b.req.misaligned with
               | some x => s.trap .alignFault (BitVec.ofNat 64 (x.toNat % 2 ^ 57))
               | none => (s.loadsNow (s.blockPlaces va 64) 8).issueColl b.req [0, va, 0, 0])

/-! ### Sums (R87 to R90) -/

/-- An addend as an integer of the collective wide format (R88). -/
def wideOf (w : Int) : FVal → Option Int
  | .fin n m e =>
    let sh := e - (w - 111)
    let x := if 0 ≤ sh then m <<< sh.toNat else m >>> (-sh).toNat
    some (if n then -(x : Int) else x)
  | _ => none

/-- The value lies in the 128-bit range. -/
def wideOk (x : Int) : Bool := -2 ^ 127 ≤ x && x < 2 ^ 127

/-- One element of a sum (R89, R90): its bits, and whether it is invalid. -/
def collElem (w : Int) (inF outF : Fmt) (xs : List Nat) : Word × Bool :=
  let vs := xs.map fun x => wideOf w (inF.decode x)
  let sum := vs.foldl (fun a v => a + v.getD 0) 0
  if vs.all (fun v => v.any wideOk) && wideOk sum then
    (BitVec.ofNat 32 (outF.round 0 (sum < 0) sum.natAbs (w - 111) false 0), false)
  else (BitVec.ofNat 32 outF.nan, true)

/-- The elements of a collective and the invalid count (R294), from the elements of each SRC that is not empty. -/
def collValues (r : CollReq) (srcs : List (Nat × List Word)) : List Word × Nat :=
  if r.op = 2 then (((srcs.find? fun x => x.1 == r.root).map (·.2)).getD [], 0)
  else
    let inF := if r.inFp32 then f32 else bf16
    let outF := if r.outFp32 then f32 else bf16
    let es := (List.range r.count).map fun i => collElem r.w inF outF (srcs.map fun x => (x.2.getD i 0).toNat)
    (es.map (·.1), es.countP (·.2))

/-- The elements in bytes. -/
def elemsOf (n : Nat) (bs : List Byte) : List Word :=
  (List.range (bs.length / n)).map fun i => BitVec.ofNat 32 (leNat ((bs.drop (n * i)).take n))

/-! ### COLLECTIVE_RUN -/

/-- The state with a collective changed. -/
def State.modColl (s : State) (q : Collective) (f : Collective → Collective) : State :=
  { s with colls := s.colls.map fun x => if x.is q.part q.group q.n then f x else x }

/-- The party of a member. -/
def CollMember.party (p : PartId) (m : CollMember) : Party := { core := m.core, part := p, asid := m.asid }

/-- A member's accesses may be made (R250, R281, R282). -/
def State.memReadyFor (s : State) (m : CollMember) : Bool :=
  !s.whoFaulted m.who &&
    (match m.who with
     | .engine c op => ((s.core c).op? op).any fun o => (s.core c).engReady o
     | _ => true)

/-- The elements that a rank of another package supplies agree with the request (R294, log 18). -/
def remoteOk (r : CollReq) (x : Nat × List Word) : Bool :=
  x.2.length == if r.op = 2 && x.1 ≠ r.root then 0 else r.count

/-- Every rank of the group has made its request: here, or in another package (R294). -/
def State.matched (s : State) (q : Collective) (remote : List (Nat × List Word)) : Bool :=
  match s.group? q.part q.group with
  | none => false
  | some g =>
    ((List.range g.members.length).zip g.members).all fun x =>
      q.mems.any (fun m => m.rank == x.1) || (!memberHere s.devid x.2 && remote.any fun r => r.1 == x.1)

/-- The requests differ in OPF, W, ROOT or COUNT (R294). -/
def Collective.disagree (q : Collective) (remote : List (Nat × List Word)) : Bool :=
  match q.mems with
  | [] => false
  | m :: ms =>
    ms.any (fun x => x.req.opf != m.req.opf || x.req.w != m.req.w || x.req.root != m.req.root || x.req.count != m.req.count) ||
      remote.any fun r => !remoteOk m.req r

/-- The SRC ranges of the members read: those that fault, those that fail, and the elements. -/
def State.readMember (s : State) (p : PartId) (m : CollMember) : Except EngErr (List Word) :=
  if m.req.srcLen = 0 then .ok []
  else (s.engRead (m.party p) m.req.src m.req.srcLen).map fun bs => elemsOf m.req.inBytes bs

/-- A collective fails (R295): each member gets its code, 0x0025 where it has none of its own. -/
def Collective.failAll (q : Collective) (own : CollMember → Option (Nat × Option DWord)) : Collective :=
  { q with
    result := some ([], 0)
    mems := q.mems.map fun m =>
      match own m with
      | some (code, a) => { m with code := code, badAt := a }
      | none => { m with code := 0x25 } }

/-- The fate of a member's own source read: refused, uncorrectable, or none (R295). -/
def ownFailure (refused : Bool) (x : Except EngErr (List Word)) : Option (Nat × Option DWord) :=
  if refused then some (0x27, none)
  else
    match x with
    | .error (.bad va _ _) => some (0x28, some va)
    | _ => none

/-- The elements that the ranks supply of the element `e` alone; none where one of them cannot be read. -/
def State.addends (s : State) (q : Collective) (remote : List (Nat × List Word)) (e : Nat) : Option (List (Nat × List Word)) :=
  let here := q.mems.map fun m =>
    if m.req.srcLen = 0 then some none
    else
      match s.engRead (m.party q.part) (off m.req.src (m.req.inBytes * e)) m.req.inBytes with
      | .ok bs => some (some (m.rank, elemsOf m.req.inBytes bs))
      | .error _ => none
  let there := (remote.filter fun r => !(q.mems.any fun m => m.rank == r.1) && !r.2.isEmpty).map fun r => (r.1, (r.2.drop e).take 1)
  if here.all Option.isSome then some (here.filterMap Option.join ++ there) else none

/-- One element `x` written at a member, where it can be. -/
def State.putElem (s : State) (q : Collective) (m : CollMember) (e : Nat) (x : Word) : State :=
  let w := m.party q.part
  let va := off m.req.dst (m.req.outBytes * e)
  match s.engMayWrite w va m.req.outBytes with
  | .ok _ => if e < m.req.count && m.req.dstLen ≠ 0 then s.engWrite w va (leBytes m.req.outBytes x.toNat) else s
  | _ => s

/-- The elements, of those that `written` names for its rank, that have been written at a member: `val` gives each one's value. -/
def State.putSome (s : State) (q : Collective) (m : CollMember) (written : List (Nat × List Nat)) (val : State → Nat → Option Word) :
    State :=
  (written.filter fun x => x.1 == m.rank).foldl (fun s x => x.2.foldl (fun s e =>
    match val s e with | some v => s.putElem q m e v | none => s) s) s

/-- The elements that had been written at the members when a collective fails (R295): which they are is not fixed, and each is as
R294 gives it. None is where a rank has not made its request. -/
def State.writtenSome (s : State) (q : Collective) (remote : List (Nat × List Word)) (written : List (Nat × List Nat)) : State :=
  if !s.matched q remote || q.disagree remote then s
  else q.mems.foldl (fun s m => s.putSome q m written fun s e =>
    (s.addends q remote e).map fun xs => (collValues { m.req with count := 1 } xs).1.headD 0) s

/-- The entries of a member's ranges that satisfy `p` are freed (R254). -/
def State.freeMember (s : State) (m : CollMember) (p : Range → Bool) : State :=
  match m.who with
  | .engine c op =>
    match (s.core c).op? op with
    | some o => s.freeHeld c o p
    | none => s
  | _ => s

/-- The members' teams have made the accesses of their operations (R201). -/
def State.noteMembers (s : State) (q : Collective) : State :=
  q.mems.foldl (fun s m =>
    match m.who with
    | .engine c op => (((s.core c).op? op).map fun o => s.noteOp c o).getD s
    | _ => s) s

/-- A matched collective takes in the addends or the source (R294): it then has a result, or it has failed, or members
wait for translation faults. The sources are free with the last addend (R254). -/
def State.gather (s : State) (q : Collective) (remote : List (Nat × List Word)) (written : List (Nat × List Nat)) : State :=
  let p := q.part
  let reads := q.mems.map fun m => (m, s.whoRefused m.who, s.readMember p m)
  let faults := reads.filterMap fun x => match x.2.2 with
    | .error (.xlate va why) => if x.2.1 then none else some (x.1, va, why)
    | _ => none
  if q.disagree remote then s.modColl q fun q => q.failAll fun _ => some (0x23, none)
  else if !faults.isEmpty then faults.foldl (fun s x => s.whoFault x.1.who p x.1.asid x.2.1 x.2.2) s
  else
    let own (m : CollMember) : Option (Nat × Option DWord) :=
      (reads.find? fun x => x.1 == m).bind fun x => ownFailure x.2.1 x.2.2
    if q.mems.any fun m => (own m).isSome then
      (q.mems.foldl (fun s m => s.setWho m.who false false) (s.writtenSome q remote written)).modColl q fun q => q.failAll own
    else
      let here := reads.filterMap fun x => match x.2.2 with
        | .ok es => if x.1.req.srcLen = 0 then none else some (x.1.rank, es)
        | .error _ => none
      let there := remote.filter fun r => !(q.mems.any fun m => m.rank == r.1) && !r.2.isEmpty
      match q.mems with
      | [] => s
      | m :: _ =>
        (q.mems.foldl (fun s m => s.freeMember m fun r => !r.dst) s).modColl q fun q =>
          { q with result := some (collValues m.req (here ++ there)) }

/-- The first piece of a write that an uncorrectable unit would drop (R207). -/
def State.dropsAt (s : State) (w : Party) (va : DWord) (n : Nat) : Option DWord :=
  (pieces va n).findSome? fun x =>
    match s.translate w.core w.asid x.1 x.2 true with
    | .error _ => none
    | .ok p => if s.bad (memIx p.dev p.pa) && x.2 ≠ 32 then some x.1 else none

/-- The STAT word (R294). -/
def statWord (invalid code : Nat) : List Byte := leBytes 8 (invalid * 2 ^ 32 + code * 2 ^ 16 + 1)

/-- TAG of a packet (R304). -/
def Packet.tag (p : Packet) : Word := half (p.words.headD 0) true

/-- The party that a queue's accesses are made by. -/
def State.queueParty (s : State) (x : Queue) : Party :=
  { core := none, part := ((s.spaceOf x.asid).map (·.part)).getD 0, asid := x.asid }

/-- STATUS is written and the queue takes no further packet (R301, R305). -/
def State.writeStop (s : State) (x : Queue) (tag : Word) (code : BitVec 16) : State :=
  let w := s.queueParty x
  let va := off x.cb 0x18
  match s.engMayWrite w va 8 with
  | .error (.xlate va why) => s.whoFault (.queue x.num none) w.part x.asid va why
  | _ =>
    (s.engWrite w va (leBytes 8 (tag.toNat * 2 ^ 32 + code.toNat * 2 ^ 16 + 1))).modQueue x.num fun x =>
      { x with stopped := true, stop := none }

/-- A stop that can be written is written (R305). -/
def State.stopNow (s : State) (q : QueueId) : State :=
  match s.queue? q with
  | none => s
  | some x =>
    match x.stop with
    | none => s
    | some (tag, code) => if x.faulted then s else s.writeStop x tag code

/-- A queue stops with a code; the first stop stands (R305, R307). -/
def State.stopQueue (s : State) (q : QueueId) (tag : Word) (code : BitVec 16) : State :=
  (s.modQueue q fun x => if x.stop.isNone && !x.stopped then { x with stop := some (tag, code) } else x).stopNow q

/-- A packet has completed, or it stops its queue with a code (R305, R307). -/
def State.endPacket (s : State) (q : QueueId) (i : DWord) (code : BitVec 16) : State :=
  if code = 0 then s.modQueue q fun x => x.modPkt i fun p => { p with done := true }
  else
    let tag : Word := (((s.queue? q).bind (·.pkt? i)).map (·.tag)).getD 0
    (s.modQueue q fun x => x.modPkt i fun p => { p with failed := true }).stopQueue q tag code

/-- A member's collective ends with a code (R295): its operation or packet ends, and it leaves the collective. -/
def State.endMember (s : State) (q : Collective) (m : CollMember) (code : Nat) (badAt : Option DWord) : State :=
  let s1 := s.modColl q fun q => { q with mems := q.mems.filter fun x => x.rank != m.rank }
  match m.who with
  | .engine c op =>
    match (s1.core c).op? op with
    | none => s1
    | some o =>
      s1.endEng c o (if code = 0 then none else some (match badAt with
        | some a => badFailure a
        | none => engFailure code 1))
  | .queue k (some i) => s1.endPacket k i (if code = 0 then 0 else 0x000A)
  | _ => s1

/-- STAT of a member is written and its collective ends (R294, R295). A refused STAT stays unwritten. -/
def State.writeStat (s : State) (q : Collective) (m : CollMember) (invalid code : Nat) (badAt : Option DWord) : State :=
  let w := m.party q.part
  match s.engMayWrite w m.req.stat 8 with
  | .error (.xlate va why) =>
    if s.whoRefused m.who then s.endMember q m (if code = 0 then 0x27 else code) badAt
    else s.whoFault m.who q.part m.asid va why
  | _ =>
    let s1 := s.engWrite w m.req.stat (statWord invalid code)
    match s.dropsAt w m.req.stat 8 with
    | some a => if code = 0 then s1.endMember q m 0x28 (some a) else s1.endMember q m code badAt
    | none => s1.endMember q m code badAt

/-- A member that has failed before its STAT is written. -/
def State.failMember (s : State) (q : Collective) (m : CollMember) (code : Nat) (badAt : Option DWord) : State :=
  let s1 := (s.setWho m.who false false).modColl q fun q =>
    { q with mems := q.mems.map fun x => if x.rank == m.rank then { x with code := code, badAt := badAt } else x }
  s1.writeStat q { m with code := code, badAt := badAt } 0 code badAt

/-- A member's DST has been written, and its entry is freed (R254). -/
def State.wroteDst (s : State) (q : Collective) (m : CollMember) : State :=
  (s.freeMember m fun r => r == m.req.dstRange).modColl q fun q =>
    { q with mems := q.mems.map fun x => if x.rank == m.rank then { x with wrote := true } else x }

/-- The result reaches a member (R294, R295): DST, once, then STAT. Where the member's own write is refused, the elements that
`written` names had been written before it. -/
def State.deliverMember (s : State) (q : Collective) (m : CollMember) (vals : List Word) (invalid : Nat)
    (written : List (Nat × List Nat)) : State :=
  let count := if m.req.op = 2 then 0 else invalid
  if s.whoFaulted m.who then s
  else if m.code ≠ 0 then s.writeStat q m 0 m.code m.badAt
  else if m.req.dstLen = 0 then s.writeStat q m 0 0 none
  else if m.wrote then s.writeStat q m count 0 none
  else
    let w := m.party q.part
    match s.engMayWrite w m.req.dst m.req.dstLen with
    | .error (.xlate va why) =>
      if s.whoRefused m.who then (s.putSome q m written fun _ e => vals[e]?).failMember q m 0x27 none
      else s.whoFault m.who q.part m.asid va why
    | _ =>
      let s1 := s.engWrite w m.req.dst (vals.flatMap fun x => leBytes m.req.outBytes x.toNat)
      match s.dropsAt w m.req.dst m.req.dstLen with
      | some a => s1.failMember q m 0x28 (some a)
      | none => (s1.wroteDst q m).writeStat q m count 0 none

/-- Every rank of this package has made its request, and none still waits. -/
def State.collOver (s : State) (q : Collective) : Bool :=
  q.mems.isEmpty &&
    (match s.group? q.part q.group with
     | none => true
     | some g => ((List.range g.members.length).zip g.members).all fun x => !memberHere s.devid x.2 || q.joined.contains x.1)

/-- A collective with a result reaches its members; once none is left it is over. -/
def State.deliverColl (s : State) (p : PartId) (group n : Nat) (written : List (Nat × List Nat)) : State :=
  match s.colls.find? fun q => q.is p group n with
  | none => s
  | some q =>
    match q.result with
    | none => s
    | some (vals, invalid) =>
      let s1 := q.mems.foldl (fun s m => s.deliverMember q m vals invalid written) s
      { s1 with colls := s1.colls.filter fun x => !(x.is p group n && s1.collOver x) }

/-- A group has a member outside this package. -/
def State.remoteGroup (s : State) (q : Collective) : Bool :=
  (s.group? q.part q.group).any fun g => g.members.any fun m => !memberHere s.devid m

/-- COLLECTIVE_RUN (R294, R295): the oldest collective `n` of a group with that number that can go on, or that a member outside
this package or a link on the way makes fail. -/
def execCollectiveRun (group n : Nat) (e : CollEvent) (s : State) : Host.Outcome State Fault Refusal :=
  .next
    (match e with
     | .run remote written =>
       match s.colls.find? fun q => q.group == group && q.n == n &&
           (q.result.isSome || (s.matched q remote && q.mems.all s.memReadyFor)) with
       | none => s
       | some q =>
         let s1 := s.noteMembers q
         let s2 := if q.result.isNone then (s1.modColl q fun q => { q with known := true }).gather q remote written else s1
         s2.deliverColl q.part group n written
     | .fail remote written =>
       match s.colls.find? fun q => q.group == group && q.n == n && q.result.isNone && s.remoteGroup q with
       | none => s
       | some q =>
         (((s.noteMembers q).writtenSome q remote written).modColl q fun q => q.failAll fun _ => none).deliverColl q.part group n [])

/-! ### ENGINE_ISSUE_ADMIT -/

/-- ENGINE_ISSUE_ADMIT (R280): a stalled engine instruction or matrix operation issues once there is room; a matrix
operation whose gang has lost the lease issues anew (R312). -/
def execEngineIssueAdmit (c : CoreId) (i : SlotId) (f : FragId) (s : State) : Host.Outcome State Fault Refusal :=
  .next
    (match s.waiterNow c i f fun w => match w with | .engine .. => true | .matrix _ => true | _ => false with
     | some (cur, .engine o) =>
       s.asCur cur fun s => if s.engRoom o.cls o.ranges then (s.setWait .none).admitAny o else s
     | some (cur, .matrix m) =>
       s.asCur cur fun s =>
         if m.leased && s.curCore.holder != some i then (s.setWait .none).modG Gang.settle
         else if s.matRoom m then (s.setWait .none).admitMat m
         else s
     | _ => s)

end Sys2Proof.Machine
end

