-- ==== Sys2Proof/Machine/Recon.lean ====
section
/-!
DEFINITION. Sketch reconciliation (R366 to R373, U-form 0x66): the request block and its checks, the peeling of a
difference, and the link engine.
-/
namespace Sys2Proof.Machine

/-! ### The request block -/

/-- The request of a reconciliation (R366), with what its reserved fields break, before the LOCAL header is known. -/
def reconReq (addr : DWord) (bs : List Byte) : ReconReq :=
  { addr := addr, loc := BitVec.ofNat 64 (fieldAt bs 0 8), peerSk := BitVec.ofNat 64 (fieldAt bs 8 8),
    peer := BitVec.ofNat 10 (fieldAt bs 0x10 4), passes := fieldAt bs 0x14 4, work := BitVec.ofNat 64 (fieldAt bs 0x18 8),
    diff := BitVec.ofNat 64 (fieldAt bs 0x20 8), cap := fieldAt bs 0x28 4, fault := fieldAt bs 0x2C 4 % 2 == 1, k := 0,
    seed := 0 }

/-- A field of the block holds a reserved value (R366). -/
def reconReserved (bs : List Byte) : Bool :=
  2 ^ 10 ≤ fieldAt bs 0x10 4 || fieldAt bs 0x14 4 = 0 || 2 ^ 16 ≤ fieldAt bs 0x14 4 || fieldAt bs 0x28 4 = 0 ||
    2 ^ 24 ≤ fieldAt bs 0x28 4 || 2 ≤ fieldAt bs 0x2C 4 || fieldAt bs 0x30 8 ≠ 0 || fieldAt bs 0x38 8 ≠ 0

/-- The request with the LOCAL header in it. -/
def ReconReq.withHeader (r : ReconReq) (h : List DWord) : ReconReq :=
  { r with k := (half (h.getD 0 0) false).toNat, seed := h.getD 1 0 }

/-- The check 5 of R367. -/
def reconRefused (bs : List Byte) (h : List DWord) : Bool :=
  let r := (reconReq 0 bs).withHeader h
  reconReserved bs || !headerOk (h.getD 0 0) ||
    overlap (r.work.toNat % 2 ^ 57) (sketchLen r.k) (r.loc.toNat % 2 ^ 57) (sketchLen r.k)

/-- The misaligned address of a request that is reported (R367): of several, LOCAL before WORK before DIFF (log 103). -/
def ReconReq.misaligned (r : ReconReq) : Option DWord :=
  ([(r.loc, 8), (r.work, 8), (r.diff, 16)].find? fun x => x.1.toNat % x.2 ≠ 0).map (·.1)

/-- The ranges of a reconciliation (R367). -/
def ReconReq.ranges (r : ReconReq) : List Range :=
  [copyRange false false 4 r.addr 64, copyRange false false 4 r.loc (sketchLen r.k),
   copyRange true false 4 r.work (sketchLen r.k), copyRange true false 4 r.diff (16 + 16 * r.cap)]

/-- The block and the LOCAL header as read (R367): both are translated before an error of either is reported. Only an
error of the unit in which the header's address stands comes first. -/
def State.readRecon (s : State) (w : Party) (va : DWord) : Except EngErr (List Byte × List DWord) :=
  match s.engFault w va 64, s.engRead w va 32 with
  | some (a, why), _ => .error (.xlate a why)
  | none, .error e => .error e
  | none, .ok bs =>
    match s.engFault w (reconReq va bs).loc 16, s.engRead w va 64 with
    | some (a, why), _ => .error (.xlate a why)
    | none, .error e => .error e
    | none, .ok bs => (s.engRead w (reconReq va bs).loc 16).map fun h => (bs, wordsOf h)

/-- RECON (R367): the block and the header are read by loads (R202, log 61). -/
def execRecon (a : RegField) (s : State) : Host.Outcome State Fault Refusal :=
  s.legal (.recon a)
    (let va := s.u a
     let w : Party := { core := some s.cur.core, part := s.t.part, asid := s.t.asid }
     if va.toNat % 64 ≠ 0 then s.trap .alignFault (BitVec.ofNat 64 (va.toNat % 2 ^ 57))
     else
       match s.translate w.core w.asid va 64 false with
       | .error why => s.stallFault va 1 why
       | .ok _ =>
         if !s.quiet || !s.mayIssue (s.blockPlaces va 64) false then s.stall
         else
           match s.readRecon w va with
           | .error (.xlate va why) => s.stallFault va 1 why
           | .error (.bad va _ _) => s.trap .uncorrectable (BitVec.ofNat 64 (va.toNat % 2 ^ 57))
           | .ok (bs, h) =>
             let r := (reconReq va bs).withHeader h
             let ps := s.blockPlaces va 64 ++ s.blockPlaces r.loc 16
             if !s.mayIssue ps false then s.stall
             else if reconRefused bs h then s.trap .engineFault (engineInfo 0x111 2)
             else
               match r.misaligned with
               | some x => s.trap .alignFault (BitVec.ofNat 64 (x.toNat % 2 ^ 57))
               | none => (s.loadsNow ps 8).issueEng (s.engOp (.recon r) 3 r.ranges [0, s.u a, 0, 0]))

/-! ### Peeling (R368) -/

/-- The state of a peel: the cells of WORK, the triples newest first, their number, those of this pass, and whether CAP
was reached. -/
structure Peel where
  cells : Array Cell
  triples : List (DWord × Word × Nat)
  n : Nat
  found : Nat
  full : Bool

/-- The empty cell. -/
def Cell.zero : Cell := { count := 0, keyx := 0, digx := 0, chkx := 0 }

/-- A cell without an entry of count `x`. -/
def Cell.without (c : Cell) (x : Word) (key : DWord) (dig chk : Word) : Cell :=
  { count := c.count - x, keyx := c.keyx ^^^ key, digx := c.digx ^^^ dig, chkx := c.chkx ^^^ chk }

/-- The visit of cell `n` (R368). -/
def Peel.visit (K : Nat) (seed : DWord) (cap : Nat) (p : Peel) (n : Nat) : Peel :=
  let c := p.cells.getD n Cell.zero
  if p.full || !c.pure seed then p
  else if p.n = cap then { p with full := true }
  else
    let chk := sketchHash seed 3 c.keyx c.digx
    let cells := (List.range 3).foldl (fun (a : Array Cell) q =>
      a.modify (cellIndex K seed q c.keyx c.digx) fun x => x.without c.count c.keyx c.digx chk) p.cells
    { cells := cells, triples := (c.keyx, c.digx, if c.count = 1 then 1 else 2) :: p.triples, n := p.n + 1,
      found := p.found + 1, full := false }

/-- Passes until an End (R368): the peel, the passes made and the end code. -/
def peelPasses (K : Nat) (seed : DWord) (cap limit : Nat) : Nat → Nat → Peel → Peel × Nat × Nat
  | 0, pass, p => (p, pass, 0x117)
  | fuel + 1, pass, p =>
    let q := (List.range (3 * 2 ^ K)).foldl (Peel.visit K seed cap) { p with found := 0 }
    if q.full then (q, pass + 1, 0x118)
    else if q.cells.all (· == Cell.zero) then (q, pass + 1, 0)
    else if q.found = 0 then (q, pass + 1, 0x116)
    else if pass + 1 = limit then (q, pass + 1, 0x117)
    else peelPasses K seed cap limit fuel (pass + 1) q

/-- LOCAL cell minus PEER cell (R364, R368). -/
def Cell.minus (a b : Cell) : Cell :=
  { count := a.count - b.count, keyx := a.keyx ^^^ b.keyx, digx := a.digx ^^^ b.digx, chkx := a.chkx ^^^ b.chkx }

/-- The cells of the words after a header. -/
def cellsOf (K : Nat) (ws : List DWord) : List Cell :=
  (List.range (3 * 2 ^ K)).map fun n => cellOf3 ((ws.drop (3 * n)).take 3)

/-- The words of WORK: the header, and the cells with the reserved words of LOCAL. -/
def workWords (header loc : List DWord) (cells : List Cell) : List DWord :=
  header ++ ((List.range cells.length).zip cells).flatMap fun x =>
    match x.2.words with
    | w0 :: rest => (half (loc.getD (3 * x.1) 0) true ++ half w0 false) :: rest
    | [] => []

/-! ### The link engine (R368, R369) -/

/-- The header of DIFF (R369). -/
def diffHeader (n passes code : Nat) : List Byte :=
  leBytes 8 (n * 2 ^ 40 + passes * 2 ^ 24 + code * 2 ^ 8 + 1) ++ leBytes 8 0

/-- The triples of DIFF (R369). -/
def tripleBytes (xs : List (DWord × Word × Nat)) : List Byte :=
  xs.flatMap fun x => leBytes 8 x.1.toNat ++ leBytes 4 x.2.1.toNat ++ leBytes 4 x.2.2

/-- How a run ends: a translation fault, or the state after End with its code and the failing address. -/
inductive ReconEnd where
  | fault (va : DWord) (why : BitVec 4)
  | ended (t : State) (code : Nat) (badAt : Option DWord)
deriving DecidableEq

/-- End of R368: the triples, then the header. After a refusal an unreachable DIFF stays unwritten. -/
def State.reconEnd (s : State) (w : Party) (r : ReconReq) (refused : Bool) (xs : List (DWord × Word × Nat))
    (passes code : Nat) (badAt : Option DWord) : ReconEnd :=
  match s.engMayWrite w r.diff (16 + 16 * xs.length) with
  | .error (.xlate va why) => if refused then .ended s 0x114 none else .fault va why
  | _ =>
    .ended ((s.engWrite w (off r.diff 16) (tripleBytes xs)).engWrite w r.diff (diffHeader xs.length passes code)) code badAt

/-- A range lies on the package PEER (0x0113). -/
def State.onPeer (s : State) (w : Party) (dev : BitVec 10) (va : DWord) (n : Nat) : Bool :=
  (pieces va n).all fun x =>
    match s.translate w.core w.asid x.1 x.2 false with
    | .ok p => p.dev == dev
    | .error _ => true

/-- An engine read of R368, its errors turned into ends. -/
def State.reconRead (s : State) (w : Party) (r : ReconReq) (va : DWord) (n : Nat) (go : List DWord → ReconEnd) : ReconEnd :=
  match s.engRead w va n with
  | .error (.xlate va why) => .fault va why
  | .error (.bad va _ _) => s.reconEnd w r false [] 0 0x115 (some va)
  | .ok bs => go (wordsOf bs)

/-- The cells are read, subtracted and peeled, and WORK and DIFF are written (R368). -/
def State.reconPeel (s : State) (w : Party) (r : ReconReq) (header loc peer : List DWord) : ReconEnd :=
  match s.engMayWrite w r.work (sketchLen r.k) with
  | .error (.xlate va why) => .fault va why
  | _ =>
    let start := (cellsOf r.k loc).zip (cellsOf r.k peer) |>.map fun x => x.1.minus x.2
    let put (cells : List Cell) : State := s.engWrite w r.work (dwordBytes (workWords header loc cells))
    match s.dropsAt w r.work (sketchLen r.k) with
    | some a => (put start).reconEnd w r false [] 0 0x115 (some a)
    | none =>
      let out := peelPasses r.k r.seed r.cap r.passes r.passes 0
        { cells := start.toArray, triples := [], n := 0, found := 0, full := false }
      (put out.1.cells.toList).reconEnd w r false out.1.triples.reverse out.2.1 out.2.2 none

/-- The whole of R368 for a party. -/
def State.reconRun (s : State) (w : Party) (r : ReconReq) (refused : Bool) : ReconEnd :=
  let n := sketchLen r.k
  if refused then s.reconEnd w r true [] 0 0x114 none
  else
    s.reconRead w r r.loc 16 fun h =>
      if !headerOk (h.getD 0 0) || (half (h.getD 0 0) false).toNat != r.k || h.getD 1 0 != r.seed then
        s.reconEnd w r false [] 0 0x112 none
      else if !s.onPeer w r.peer r.peerSk 16 then s.reconEnd w r false [] 0 0x113 none
      else
        s.reconRead w r r.peerSk 16 fun hp =>
          if hp != h then s.reconEnd w r false [] 0 0x112 none
          else if !s.onPeer w r.peer r.peerSk n then s.reconEnd w r false [] 0 0x113 none
          else
            s.reconRead w r (off r.loc 16) (n - 16) fun loc =>
              s.reconRead w r (off r.peerSk 16) (n - 16) fun peer => s.reconPeel w r h loc peer

/-- The failure record of an end code (R369). -/
def reconFailure (fault : Bool) (code : Nat) (badAt : Option DWord) : Option Failure :=
  match badAt with
  | some a => some (badFailure a)
  | none => if code = 0 || (0x116 ≤ code && !fault) then none else some (engFailure code 2)

/-- The team has made the accesses of its reconciliation (R201): also to the peer's sketch, where the request takes it to be on this
package. -/
def State.noteRecon (s : State) (c : CoreId) (o : EngOp) (r : ReconReq) : State :=
  let s1 := s.noteOp c o
  if o.home.isNone && r.peer == s.devid then s1.noteRanges c o.team [(r.peerSk, sketchLen r.k)] else s1

/-- LINK_ENGINE_RUN (R368, R369): operation `k` of core `c`. -/
def execLinkEngineRun (c : CoreId) (k : Nat) (s : State) : Host.Outcome State Fault Refusal :=
  .next
    (match (s.core c).op? k with
     | none => s
     | some o =>
       if !(s.core c).engReady o then s
       else
         match o.kind with
         | .recon r =>
           match (s.noteRecon c o r).reconRun (o.party c) r o.refused with
           | .fault va why => (s.noteRecon c o r).whoFault (.engine c k) o.part o.asid va why
           | .ended t code badAt => t.endEng c o (reconFailure r.fault code badAt)
         | _ => s)

end Sys2Proof.Machine
end

