-- ==== Sys2Proof/Machine/Launch.lean ====
section
/-!
DEFINITION. Launching grids (R25 to R30, R66, R67, R94 to R98, R380, R383 to R385, R431, R432, U-form 0x67), the resources
of a core, and the contents of a placed team.
-/
namespace Sys2Proof.Machine

/-! ### What a launch asks for -/

/-- The launch values (R94, R306, R383). -/
structure LaunchAsk where
  code : DWord
  args : DWord
  teams : Nat
  lanes : Nat
  atiles : Nat
  spad : Nat
  flags : Nat
  rngseed : Word
deriving DecidableEq, Repr

/-- The launch values of a 32-byte block (R383). -/
def launchAsk (bs : List Byte) : LaunchAsk :=
  { code := BitVec.ofNat 64 (fieldAt bs 0 8), args := BitVec.ofNat 64 (fieldAt bs 8 8), teams := fieldAt bs 0x10 4,
    lanes := fieldAt bs 0x14 2, atiles := fieldAt bs 0x16 1, spad := fieldAt bs 0x17 1, flags := fieldAt bs 0x18 4,
    rngseed := BitVec.ofNat 32 (fieldAt bs 0x1C 4) }

/-- Gang slots of a team (R15). -/
def gangsOf (lanes : Nat) : Nat := (lanes + 31) / 32

/-- The values lie in the ranges of R94 (R96). -/
def LaunchAsk.inRange (a : LaunchAsk) : Bool := 1 ≤ a.lanes && a.lanes ≤ 512 && a.atiles ≤ 16 && a.spad ≤ 128

/-- The grid is gathered. -/
def LaunchAsk.gathered (a : LaunchAsk) : Bool := a.flags % 2 == 1

/-- Teams of a size that an empty core can hold (R95). -/
def perCore (gangs atiles spad : Nat) : Nat :=
  let n := 16 / gangs
  let n := if atiles = 0 then n else Nat.min n (16 / atiles)
  if spad = 0 then n else Nat.min n (128 / spad)

/-- The cores of a partition, by ascending clusid and coreid. -/
def Partition.cores (p : Partition) : List CoreId :=
  (allFin 1536).filter fun c => p.clusters.getLsbD (clusOf c).val

/-- A gathered launch could be resident in the partition when it is otherwise empty (R27). -/
def State.canGather (s : State) (p : PartId) (a : LaunchAsk) : Bool :=
  a.teams ≤ perCore (gangsOf a.lanes) a.atiles a.spad * (s.parts.get p).cores.length

/-- The header words that the launch path reads (R431, R432): HASH, the entry address and the launch value of trapbase. -/
structure CodeHead where
  hash : Nat
  entry : DWord
  trapbase : DWord
deriving DecidableEq, Repr

/-- The header of the code object at an address. -/
def codeHead (code : DWord) (bs : List Byte) : CodeHead :=
  let text := code.toNat + fieldAt bs 0x10 8
  let trap := fieldAt bs 0x38 8
  { hash := fieldAt bs 8 4, entry := BitVec.ofNat 64 (text + fieldAt bs 0x30 8),
    trapbase := if trap = 2 ^ 64 - 1 then 0 else BitVec.ofNat 64 (text + trap) &&& ~~~(3 : DWord) }

/-- The encoding hash of stepping B0 (R65). -/
def chipHash : Nat := 0x4F1C92A7

/-! ### Grids -/

/-- A gridid that no live grid has (R101, log 21). -/
def freshGridid (live : List Word) : Nat → Word → Word
  | 0, n => n
  | fuel + 1, n => if live.contains n then freshGridid live fuel (n + 1) else n

/-- Grids a placement list holds at most (R308, R384). -/
def placementLimit : Nat := 65536

/-- The placement list has room for one more grid. -/
def State.listRoom (s : State) (p : PartId) : Bool := (s.parts.get p).placement.length < placementLimit

/-- Who launches a grid. -/
structure Launcher where
  part : PartId
  asid : Asid
  depth : Nat
  prio : Fin 4
  parent : Option (Word × Word)
  queue : Option (QueueId × DWord)
deriving DecidableEq, Repr

/-- The gridid that the next grid gets. -/
def State.newGridid (s : State) : Word := freshGridid (s.grids.map (·.gridid)) s.grids.length s.nextGrid

/-- A grid enters the placement list of its partition (R26, R380, R385). -/
def State.addGrid (s : State) (l : Launcher) (a : LaunchAsk) (h : CodeHead) : State :=
  let id := s.newGridid
  let g : Grid :=
    { gridid := id, part := l.part, asid := l.asid, code := a.code, args := a.args, entry := h.entry, trapbase := h.trapbase,
      teams := a.teams, lanes := a.lanes, atiles := a.atiles, spad := a.spad, gathered := a.gathered,
      restartable := a.flags / 2 % 2 == 1, steep := BitVec.ofNat 3 (a.flags / 4), rngseed := a.rngseed, depth := l.depth,
      prio := l.prio, parent := l.parent, queue := l.queue, nextTeam := 0, restart := [], retired := 0 }
  { s with grids := s.grids ++ [g], nextGrid := id + 1 }.modPart l.part fun p => { p with placement := p.placement ++ [id] }

/-! ### The launch instruction -/

/-- ENGINE_FAULT of launch (R384). -/
def State.trapLaunch (s : State) (code : Nat) : State := s.trap .engineFault (engineInfo code 4)

/-- The launcher of a child grid (R30, R380, R385). -/
def State.childLauncher (s : State) : Launcher :=
  { part := s.t.part, asid := s.t.asid, depth := s.t.depth.toNat + 1, prio := ((s.gridOf s.t).map (·.prio)).getD 0,
    parent := some (s.t.gridid, s.t.teamid), queue := none }

/-- The checks 10 to 14 of R384 and the effect of R385; `ps` are the words read by loads at the issue (R202, log 61). -/
def State.launchGrid (s : State) (d : RegField) (a : LaunchAsk) (h : CodeHead) (ps : List (LaneId × DWord × Place)) : State :=
  if a.teams = 0 || 32 ≤ a.flags then s.trapLaunch 0x45
  else if !a.inRange then s.trapLaunch 0x42
  else if h.hash ≠ chipHash then s.trapLaunch 0x41
  else if a.gathered && !s.canGather s.t.part a then s.trapLaunch 0x44
  else if !s.listRoom s.t.part then s.stall
  else (((s.loadsNow ps 8).addGrid s.childLauncher a h).writeU d (s.newGridid.setWidth 64)).completeU 4 false

/-- The trap or stall of a failed read at issue. -/
def State.refuseRead (s : State) : EngErr → State
  | .xlate va why => s.stallFault va 1 why
  | .bad va _ _ => s.trap .uncorrectable (BitVec.ofNat 64 (va.toNat % 2 ^ 57))

/-- LAUNCH (R384, R385). -/
def execLaunch (d a : RegField) (s : State) : Host.Outcome State Fault Refusal :=
  s.legal (.launch d a)
    (let va := s.u a
     let w : Party := { core := some s.cur.core, part := s.t.part, asid := s.t.asid }
     if s.g.gangid ≠ 0 || !s.em.getLsbD 0 then s.trapIllegalConv
     else if s.t.depth = 10 then s.trapLaunch 0x43
     else if va.toNat % 8 ≠ 0 then s.trap .alignFault (BitVec.ofNat 64 (va.toNat % 2 ^ 57))
     else if s.unraised then s.stall
     else
       match s.engWhole w va 32 with
       | .error e => s.refuseRead e
       | .ok bs =>
         let ask := launchAsk bs
         if ask.code.toNat % 256 ≠ 0 then s.trap .alignFault (BitVec.ofNat 64 (ask.code.toNat % 2 ^ 57))
         else
           match s.engWhole w ask.code 256 with
           | .error e => s.refuseRead e
           | .ok hs => s.launchGrid d ask (codeHead ask.code hs) (s.blockPlaces va 32 ++ s.blockPlaces ask.code 256))

/-! ### The resources of a core (R95) -/

/-- The free gang slots, rising. -/
def Core.freeSlots (k : Core) : List SlotId := (allFin 16).filter fun i => !(k.gang i).live

/-- The teams of a core that have not retired: they hold tiles and scratchpad. -/
def Core.liveTeams (k : Core) : List Team := k.teams.toList.filter (·.live) ++ k.gone

/-- The free accumulator tiles, rising. -/
def Core.freeAcc (k : Core) : List (Fin 16) := (allFin 16).filter fun n => !k.liveTeams.any fun t => t.atiles.contains n

/-- The bytes at a place are free of reservations. -/
def Core.spadFree (k : Core) (base len : Nat) : Bool :=
  base + len ≤ 2 ^ 19 && !k.liveTeams.any fun t => overlap t.spadBase t.spadLen base len

/-- The lowest free run of `n` blocks of 4 KiB. -/
def Core.spadRun (k : Core) (n : Nat) : Option Nat :=
  if n = 0 then some 0 else ((List.range 128).map (· * 4096)).find? fun b => k.spadFree b (4096 * n)

/-- A team needs its index no longer (R180, R251): its gangs have exited, and no tile, operation or access of it is left. One that
is being pre-empted, or that may be with its gathered grid, keeps it (log 107). -/
def Core.yields (k : Core) (ti : SlotId) : Bool :=
  let t := k.team ti
  t.live && t.allExited && !t.gathered && t.stopping == .no && (k.tilesOf ti).isEmpty && !(k.eng.any fun o => o.ofTeam ti) &&
    !(k.mat.any fun m => m.team == ti) && !k.accs.any fun a => a.team == ti

/-- An index for a team: a free one, one that no access still in flight names where there is one, else that of a team that needs it no
longer (R95 lets a team wait for three resources alone). -/
def Core.freeTeam (k : Core) : Option SlotId :=
  let free := (allFin 16).filter fun t => !(k.team t).live
  match free.find? fun t => !k.accs.any fun a => a.team == t with
  | some t => some t
  | none =>
    match free.head? with
    | some t => some t
    | none => (allFin 16).find? k.yields

/-- The index `ti` is given to another team: a team that still has it goes on without one (log 107). -/
def Core.vacate (k : Core) (ti : SlotId) : Core :=
  if (k.team ti).live then { k with gone := k.gone ++ [k.team ti], marks := k.marks.filter fun m => m.team != ti } else k

/-- What a team takes of a core. -/
structure Room where
  team : SlotId
  slots : List SlotId
  accs : List (Fin 16)
  base : Nat
deriving DecidableEq, Repr

/-- Room on a core for a team (R95); `run` is the place of its reservation. -/
def Core.roomAt (k : Core) (gangs atiles : Nat) (run : Option Nat) : Option Room :=
  match run, k.freeTeam with
  | some b, some t =>
    if gangs ≤ k.freeSlots.length && atiles ≤ k.freeAcc.length then
      some { team := t, slots := k.freeSlots.take gangs, accs := k.freeAcc.take atiles, base := b }
    else none
  | _, _ => none

/-- Room for a new team of a grid. -/
def Core.roomForGrid (k : Core) (g : Grid) : Option Room := k.roomAt (gangsOf g.lanes) g.atiles (k.spadRun g.spad)

/-- The core with the largest value, the first between equals. -/
def bestBy {α : Type} (f : α → Nat) : List α → Option α
  | [] => none
  | x :: xs =>
    match bestBy f xs with
    | none => some x
    | some y => if f x < f y then some y else some x

/-- The core for a team among those with room (R382). -/
def State.pickCore (s : State) (p : PartId) (ok : CoreId → Bool) : Option CoreId :=
  let q := s.parts.get p
  let cands := q.cores.filter ok
  if q.pack then cands.head?
  else
    let free (c : CoreId) : Nat := (s.core c).freeSlots.length
    let clusFree (k : ClusId) : Nat := ((q.cores.filter fun c => clusOf c == k).map free).foldl (· + ·) 0
    match bestBy clusFree (firsts (cands.map clusOf)) with
    | none => none
    | some k => bestBy free (cands.filter fun c => clusOf c == k)

/-! ### Placing a team (R98) -/

/-- The launched lanes of gang `n` of a team of `lanes` lanes (R15). -/
def launchedLanes (lanes n : Nat) : BitVec 32 := maskOf fun l => 32 * n + l.val < lanes

/-- A gang as placed (R19, R98, R101). -/
def Gang.placed (old : Gang) (g : Grid) (team : SlotId) (n : Nat) : Gang :=
  let lanes := launchedLanes g.lanes n
  { Gang.reset with
    live := true, team := team, gangid := BitVec.ofNat 4 n, launched := lanes, u := Gang.reset.u.set 0 g.args
    frags := Gang.reset.frags.set 0 { Frag.reset with valid := true, pc := g.entry, mask := lanes }
    rngseed := g.rngseed, rng := seedAll g.rngseed, nextPend := old.nextPend, nextLate := old.nextLate }

/-- The elements of accumulator tiles as +0.0 (R98). -/
def Core.clearAcc (k : Core) (ts : List (Fin 16)) : Core :=
  let mine (i : Nat) : Bool := ts.any fun t => t.val == i / 4096
  { k with acc := k.acc.filter fun x => !mine x.1, accBad := k.accBad.filter fun i => !mine i }

/-- A team as placed. -/
def Grid.newTeam (g : Grid) (teamid : Nat) (r : Room) : Team :=
  { Team.reset with
    live := true, gridid := g.gridid, teamid := BitVec.ofNat 32 teamid, depth := BitVec.ofNat 4 g.depth, asid := g.asid,
    part := g.part, ngang := gangsOf g.lanes, lanes := g.lanes, atiles := r.accs, spadBase := r.base,
    spadLen := 4096 * g.spad, steep := g.steep, trapbase := g.trapbase, code := g.code, args := g.args, entry := g.entry,
    rngseed := g.rngseed, gathered := g.gathered, restartable := g.restartable }

/-- A new team on a core. -/
def Core.place (k : Core) (g : Grid) (teamid : Nat) (r : Room) : Core :=
  let k1 := ((k.vacate r.team).modTeam r.team fun _ => g.newTeam teamid r).clearAcc r.accs
  { ((List.range r.slots.length).zip r.slots).foldl
      (fun (k : Core) x => k.modGang x.2 fun old => old.placed g r.team x.1) k1 with gated := false, idle := 0 }

end Sys2Proof.Machine
end

