-- ==== Sys2Proof/Machine/SaveArea.lean ====
section
/-!
DEFINITION. The context save area (R390 to R394) as pieces of bytes at offsets, every other byte being 0; and what is read
back of it at resume (R395). Where R392 to R394 leave a packing open, log 28 names the one taken.
-/
namespace Sys2Proof.Machine

/-- Bytes at an offset of the area. -/
abbrev Piece := Nat × List Byte

/-- A table entry of R180 as 64 bits. -/
def TileEntry.word (t : TileEntry) : Nat :=
  t.gen.toNat * 2 ^ 62 + bitTo t.v 61 + bitTo t.lvl2 60 + t.team.val * 2 ^ 56 + t.asid.toNat * 2 ^ 43 +
    t.base.toNat * 2 ^ 31 + t.rowsm1.toNat * 2 ^ 19 + t.rowbw.toNat * 2 ^ 5

/-- A table entry read back, for a team index. -/
def tileOfWord (x : Nat) (team : SlotId) : TileEntry :=
  { gen := BitVec.ofNat 2 (x / 2 ^ 62), v := x / 2 ^ 61 % 2 == 1, lvl2 := x / 2 ^ 60 % 2 == 1, team := team,
    asid := BitVec.ofNat 13 (x / 2 ^ 43), base := BitVec.ofNat 12 (x / 2 ^ 31), rowsm1 := BitVec.ofNat 12 (x / 2 ^ 19),
    rowbw := BitVec.ofNat 14 (x / 2 ^ 5) }

/-- A range-lock entry of R251 as 192 bits. -/
def LockEntry.word (e : LockEntry) : Nat :=
  bitTo e.v 191 + bitTo e.dir 190 + bitTo e.spc 189 + e.eng.toNat * 2 ^ 186 + e.slot.val * 2 ^ 182 + e.team.val * 2 ^ 178 +
    e.asid.toNat * 2 ^ 165 + e.base.toNat * 2 ^ 64 + e.len.toNat

/-! ### The fixed parts -/

/-- The offsets that depend on the sizes of a team (R390). -/
def accOff : Nat := 0x1000
def spadOff (at_ : Nat) : Nat := accOff + 0x4000 * at_
def gangOff (at_ sp n : Nat) : Nat := spadOff at_ + 0x1000 * sp + 0xA000 * n

/-- The header (R391). -/
def headerBytes (c : CoreId) (k : Core) (ti : SlotId) (size nrec : Nat) : List Byte :=
  let t := k.team ti
  let n (w x : Nat) : List Byte := leBytes w x
  n 4 0x43544A46 ++ n 4 1 ++ n 4 chipHash ++ n 4 1 ++ n 8 size ++ n 4 t.teamid.toNat ++ n 4 t.gridid.toNat ++
  n 2 t.asid.toNat ++ n 1 t.depth.toNat ++ n 1 t.ngang ++ n 1 (clusOf c).val ++ n 1 (coreidOf c) ++
  n 1 (bitTo (!(k.tilesOf ti).isEmpty) 0 + bitTo t.usedAperture 1) ++ n 1 (bitTo t.gathered 0 + bitTo t.restartable 1) ++
  n 2 t.lanes ++ n 1 t.atiles.length ++ n 1 (t.spadLen / 4096) ++ n 4 t.steep.toNat ++ n 8 t.code.toNat ++
  n 8 t.trapbase.toNat ++ n 8 t.issued ++ n 8 nrec ++ n 8 (gangOff t.atiles.length (t.spadLen / 4096) t.ngang)

/-- The gangs of a team for which `p` holds of a fragment's wait, one bit per gangid. -/
def State.gangMask (s : State) (c : CoreId) (ti : SlotId) (p : Wait → Bool) : Nat :=
  ((s.teamSlots c ti).filter fun i => ((s.gangAt c i).waiting? p).isSome).foldl
    (fun m i => m + 2 ^ (s.gangAt c i).gangid.toNat) 0

/-- A barrier record (R392). -/
def State.barBytes (s : State) (c : CoreId) (ti : SlotId) (n : Nat) : List Byte :=
  let b := s.barOf c ti (BitVec.ofNat 4 n)
  leBytes 2 b.phase.toNat ++ leBytes 1 b.exp ++ leBytes 1 b.arr ++ leBytes 2 b.arrived.toNat ++
  leBytes 2 (s.gangMask c ti fun w => match w with | .arrival m _ _ => m.toNat == n | _ => false) ++
  leBytes 2 (s.gangMask c ti fun w => w == .barrier (BitVec.ofNat 4 n)) ++ leBytes 6 0

/-- The tile-table part (R390). -/
def Core.tilePart (k : Core) (ti : SlotId) : List Byte :=
  k.tiles.toList.flatMap fun t => leBytes 8 (if t.v && t.team == ti then t.word else 0)

/-- The elements of an accumulator tile. -/
def Core.accPart (k : Core) (ti : SlotId) (n : Nat) : List Byte :=
  (List.range 4096).flatMap fun e => leBytes 4 (k.accRd ti n e).toNat

/-! ### A gang block (R393) -/

/-- A fragment entry (R393). -/
def Gang.fragBytes (g : Gang) (i : FragId) : List Byte :=
  let f := g.frags.get i
  let bits := bitTo f.valid 0 + bitTo (g.waitsAtJoin i) 1 +
    bitTo (match f.wait with | .fault => true | .qpushFault .. => true | _ => false) 2 +
    bitTo (match f.wait with | .barrier _ => true | .arrival .. => true | _ => false) 3 +
    bitTo (f.yield != 0 || (match f.wait with | .bwait _ _ (some _) => true | _ => false)) 4 + bitTo (f.wait == .held) 5
  leBytes 8 f.pc.toNat ++ leBytes 4 f.mask.toNat ++ leBytes 1 ((f.join.map (·.val)).getD 255) ++ leBytes 3 bits

/-- A loop record (R393). -/
def LoopRec.bytes (r : LoopRec) : List Byte :=
  leBytes 8 r.start.toNat ++ leBytes 4 r.lanes.toNat ++ leBytes 2 ((r.endAddr.toNat - r.start.toNat) / 4) ++
    leBytes 1 r.counter ++ leBytes 1 1

/-- The pairing table (R393). -/
def pairBytes (ps : List PairEntry) : List Byte :=
  leBytes 8 ps.length ++ ps.flatMap fun p =>
    leBytes 4 p.team.toNat ++ leBytes 1 p.gang.toNat ++ leBytes 1 p.tag.toNat ++ leBytes 2 0 ++ leBytes 4 p.count.toNat

/-- A gang block. -/
def Gang.pieces (g : Gang) : List Piece :=
  [(0, g.v.toList.flatMap fun r => r.toList.flatMap fun x => leBytes 8 x.bits.toNat),
   (0x4000, g.dc.toList.flatMap fun r => r.toList.flatMap fun x => leBytes 8 x.toNat),
   (0x5000, g.v.toList.flatMap fun r => leBytes 8 (markWord r)),
   (0x5200, g.u.toList.flatMap fun x => leBytes 8 x.toNat),
   (0x5400, g.m.toList.flatMap fun x => leBytes 4 x.toNat),
   (0x5420, g.dn.toList.flatMap fun x => leBytes 2 x.toNat),
   (0x5440, (g.k.toList.zip g.ks.toList).flatMap fun x => leBytes 40 x.1.toNat ++ leBytes 24 x.2.toNat),
   (0x5540, g.rng.toList.flatMap fun x => leBytes 4 x.toNat),
   (0x55C0, (g.lc.toList.flatMap fun x => leBytes 4 x.toNat) ++ leBytes 4 g.loops.length ++
     g.loops.reverse.flatMap LoopRec.bytes),
   (0x5600, (allFin 32).flatMap g.fragBytes),
   (0x5800, g.joins.toList.flatMap fun j =>
     leBytes 8 j.rcv.toNat ++ leBytes 1 ((j.parent.map (·.val)).getD 255) ++ leBytes 7 (bitTo j.valid 0)),
   (0x5A00, [g.rngseed.setWidth 64, g.trapcause.setWidth 64, g.trappc, g.trapinfo, g.gstat, g.skm.setWidth 64, g.skseed,
     g.traplate].flatMap fun (x : DWord) => leBytes 8 x.toNat),
   (0x5A40, leBytes 8 g.handler.pc.toNat ++ leBytes 1 (bitTo g.intrap 0) ++ leBytes 1 g.handler.frag.val)] ++
  (allFin 4).map (fun c => (batchOff c, classBytes (g.batches.get c))) ++
  [(0x6800, leBytes 2 g.left ++ leBytes 1 (bitTo g.heldA.isSome 0) ++ leBytes 1 ((g.heldA.map (·.reg.toNat)).getD 0) ++
     leBytes 1 (bitTo g.stopSlot.isSome 0)),
   (0x6840, match g.heldA with | some x => dwordBytes (padTo 512 x.img) | none => []),
   (0x7840, stopBytes g.stopSlot),
   (0x88A0, pairBytes g.pairs)]

/-! ### Records (R394) -/

/-- A record. -/
structure SaveRec where
  kind : Nat
  gang : BitVec 4
  body : List Byte
deriving DecidableEq, Repr

/-- A record with its head. -/
def SaveRec.bytes (r : SaveRec) : List Byte :=
  leBytes 2 r.kind ++ leBytes 2 r.gang.toNat ++ leBytes 4 r.body.length ++ leBytes 8 0 ++ r.body

/-- The records of a pending result: that of a register pair becomes two. -/
def Pending.single (p : Pending) : List Pending :=
  match p.dst with
  | .vec r true =>
    [{ p with dst := .vec r false, wr := p.wr.filter fun w => w.reg == r },
     { p with dst := .vec (nextReg r) false, overA := p.overB, wr := p.wr.filter fun w => w.reg == nextReg r }]
  | _ => [p]

/-- The lanes of a vector value: 256 bytes and 8 mark bytes. -/
def vecBytes (r : VReg) : List Byte := (r.toList.flatMap fun x => leBytes 8 x.bits.toNat) ++ leBytes 8 (markWord r)

/-- The value that a pending result leaves in its register. -/
def Gang.pendValue (g : Gang) (p : Pending) : List Byte :=
  match p.dst with
  | .vec r _ => vecBytes (Vector.ofFn fun l => mergeAll p.writes r l ((g.v.get (vIx r)).get l))
  | .uni _ => leBytes 8 p.uval.toNat
  | .dir _ => dwordBytes (padTo 32 p.dval) ++ leBytes 2 p.dnorm.toNat

/-- Class and number of a destination (R394). -/
def Dest.code : Dest → Nat × Nat
  | .vec r _ => (0, r.toNat)
  | .uni r => (1, r.toNat)
  | .dir r => (2, r.toNat)

/-- The body of KIND 1, and the first part of KIND 2. -/
def Gang.windowBody (g : Gang) (p : Pending) : List Byte :=
  [BitVec.ofNat 8 p.frag.val, BitVec.ofNat 8 p.dst.code.1, BitVec.ofNat 8 p.dst.code.2, BitVec.ofNat 8 p.left] ++ g.pendValue p

/-- The descriptor and the sampled source of a pending xchg (log 28). -/
def Pending.xchgBody (p : Pending) : List Byte :=
  match p.await with
  | .partner team gang tag _ =>
    leBytes 8 (team.toNat * 2 ^ 32 + gang.toNat * 2 ^ 16 + tag.toNat) ++
      vecBytes (Vector.ofFn fun l => p.src.getD l.val VCell.zero)
  | _ => []

/-- A result waits for an exchange. -/
def Pending.isXchg (p : Pending) : Bool := match p.await with | .partner .. => true | _ => false

/-- The 64 bytes of a collective's request block. -/
def CollReq.bytes (r : CollReq) : List Byte :=
  leBytes 4 r.opf.toNat ++ leBytes 4 (wrap 32 r.w) ++ leBytes 4 r.group ++ leBytes 4 r.rank ++ leBytes 8 r.root ++
  leBytes 8 r.count ++ leBytes 8 r.src.toNat ++ leBytes 8 r.dst.toNat ++ leBytes 16 r.stat.toNat

/-- The 64 bytes of a reconciliation's request block. -/
def ReconReq.bytes (r : ReconReq) : List Byte :=
  leBytes 8 r.loc.toNat ++ leBytes 8 r.peerSk.toNat ++ leBytes 4 r.peer.toNat ++ leBytes 4 r.passes ++ leBytes 8 r.work.toNat ++
  leBytes 8 r.diff.toNat ++ leBytes 4 r.cap ++ leBytes 20 (bitTo r.fault 0)

/-- The record of an engine operation. -/
def EngOp.record (o : EngOp) (gang : BitVec 4) : SaveRec :=
  let b := leBytes 2 o.batch
  match o.kind with
  | .coll r _ => { kind := 4, gang := gang, body := r.bytes ++ b }
  | .recon r => { kind := 5, gang := gang, body := leBytes 8 r.addr.toNat ++ r.bytes ++ b }
  | _ => { kind := 3, gang := gang, body := leBytes 4 o.word.toNat ++ dwordBytes (padTo 4 o.ops) ++ b }

/-- The operation is in progress: it is saved as a stop record (R328). One that is neither mma nor attn has TYPE 0 there, since
R325 names no other, and STEP counts its steps (log 105). -/
def MatOp.stopped (m : MatOp) : Bool := m.step != 0 || m.cleared

/-- The record of a matrix operation. -/
def MatOp.saveRec (m : MatOp) (gang : BitVec 4) : SaveRec :=
  let b := leBytes 2 m.batch
  if m.stopped then { kind := 6, gang := gang, body := (m.record 0 0).bytes ++ b }
  else
    { kind := 7, gang := gang,
      body := leBytes 4 m.word.toNat ++ leBytes 4 m.lit.toNat ++ dwordBytes (padTo 4 m.ops ++ padTo 4 m.aux) ++ b }

/-- The matrix operations of a team, in issue order. -/
def Core.matsOf (k : Core) (ti : SlotId) : List MatOp := k.mat.filter fun m => m.team == ti

/-- The engine operations of a team, in issue order. -/
def Core.engsOf (k : Core) (ti : SlotId) : List EngOp := k.eng.filter (·.ofTeam ti)

/-- A collective that every member has matched (R300): it runs to completion also while its team is saved. -/
def State.running (s : State) (c : CoreId) (o : EngOp) : Bool :=
  s.colls.any fun q => (q.result.isSome || q.known || s.matched q []) && q.mems.any fun m => m.who == .engine c o.id

/-- The gangs of a team, by gangid. -/
def State.teamGangs (s : State) (c : CoreId) (ti : SlotId) : List Gang := (s.teamSlots c ti).map fun i => s.gangAt c i

/-- Insertion behind the entries of the same or a lower key. -/
def insertBy {α : Type} (key : α → Int) (x : α) : List α → List α
  | [] => [x]
  | y :: ys => if key x < key y then x :: y :: ys else y :: insertBy key x ys

/-- A list in rising order of a key; entries of one key keep their order. -/
def sortBy {α : Type} (key : α → Int) (xs : List α) : List α := xs.foldl (fun l x => insertBy key x l) []

/-- The records that the pending results of a team's gangs take (R394): the windows, then the exchanges, each kind in issue order. -/
def windowRecs {α : Type} (gs : List α) (pend : α → List Pending) : List (α × Pending) :=
  let some_ (x : Bool) : List (α × Pending) :=
    sortBy (·.2.place) (gs.flatMap fun g => ((pend g).filter fun p => p.isXchg == x).flatMap fun p => p.single.map fun q => (g, q))
  some_ false ++ some_ true

/-- The record of a window or an exchange. -/
def Gang.windowRec (g : Gang) (p : Pending) : SaveRec :=
  { kind := if p.isXchg then 2 else 1, gang := g.gangid, body := g.windowBody p ++ p.xchgBody }

/-- The kind of an operation's record. -/
def EngOp.recKind (o : EngOp) : Nat := match o.kind with | .coll .. => 4 | .recon _ => 5 | _ => 3
def MatOp.recKind (m : MatOp) : Nat := if m.stopped then 6 else 7

/-- The engine operations of a team that are saved in records, and its matrix operations, in the order of their records (R394). -/
def State.savedEngs (s : State) (c : CoreId) (ti : SlotId) : List EngOp :=
  let os := ((s.core c).engsOf ti).filter fun o => !s.running c o
  [3, 4, 5].flatMap fun n => os.filter fun o => o.recKind == n
def State.savedMats (s : State) (c : CoreId) (ti : SlotId) : List MatOp :=
  [6, 7].flatMap fun n => ((s.core c).matsOf ti).filter fun m => m.recKind == n

/-- The collectives of a team that run on while it is saved (R300). -/
def State.runningEngs (s : State) (c : CoreId) (ti : SlotId) : List EngOp := ((s.core c).engsOf ti).filter (s.running c)

/-- Every record of a team, in the order of R394. -/
def State.saveRecs (s : State) (c : CoreId) (ti : SlotId) : List SaveRec :=
  let gid (i : SlotId) : BitVec 4 := (s.gangAt c i).gangid
  ((windowRecs (s.teamGangs c ti) (·.pend)).map fun x => x.1.windowRec x.2) ++
    (s.savedEngs c ti).map (fun o => o.record (gid o.slot)) ++ (s.savedMats c ti).map fun m => m.saveRec (gid m.slot)

/-- The registered entries of an operation, range by range. -/
def State.entriesOf (s : State) (c : CoreId) (key : Nat) (rs : List Range) : List LockEntry :=
  (realRanges rs).filterMap fun r =>
    (s.core (r.table c)).locks.toList.find? fun e => e.v && e.opCore == c && e.op == key && e.holds r

/-- The range-lock part (R390): the registered entries of the team, operation by operation in the order of the records, and then
those of the collectives that run on; the first 64 of them. -/
def State.lockPart (s : State) (c : CoreId) (ti : SlotId) : List Byte :=
  let engs (os : List EngOp) : List LockEntry := os.flatMap fun o => s.entriesOf c (engKey o.id) o.ranges
  ((engs (s.savedEngs c ti) ++ (s.savedMats c ti).flatMap (fun m => s.entriesOf c (matKey m.id) m.ranges) ++
    engs (s.runningEngs c ti)).take 64).flatMap fun e => leBytes 24 e.word

/-- SIZE (R390, R391). -/
def State.saveSize (s : State) (c : CoreId) (ti : SlotId) : Nat :=
  let t := (s.core c).team ti
  gangOff t.atiles.length (t.spadLen / 4096) t.ngang + ((s.saveRecs c ti).map fun r => 16 + r.body.length).foldl (· + ·) 0

/-- The whole area as pieces (R390). -/
def State.savePieces (s : State) (c : CoreId) (ti : SlotId) : List Piece :=
  let k := s.core c
  let t := k.team ti
  let at_ := t.atiles.length
  let sp := t.spadLen / 4096
  let recs := s.saveRecs c ti
  [(0, headerBytes c k ti (s.saveSize c ti) recs.length),
   (0x100, (List.range 16).flatMap (s.barBytes c ti)), (0x200, k.tilePart ti), (0x400, s.lockPart c ti)] ++
  (List.range at_).map (fun n => (accOff + 0x4000 * n, k.accPart ti n)) ++
  [(spadOff at_, k.spad.readN t.spadBase t.spadLen)] ++
  (s.teamGangs c ti).flatMap (fun g => g.pieces.map fun x => (gangOff at_ sp g.gangid.toNat + x.1, x.2)) ++
  [(gangOff at_ sp t.ngang, recs.flatMap SaveRec.bytes)]

/-! ### Reading back (R395) -/

/-- A number of the area at an offset. -/
abbrev AreaRd := (offset bytes : Nat) → Nat

/-- The area from an offset on. -/
def areaFrom (rd : AreaRd) (o : Nat) : AreaRd := fun i n => rd (o + i) n

/-- `n` bytes, and `n` 64-bit words, of the area from an offset on. -/
def areaBytes (rd : AreaRd) (o n : Nat) : List Byte := (List.range n).map fun i => BitVec.ofNat 8 (rd (o + i) 1)
def areaDwords (rd : AreaRd) (o n : Nat) : List DWord := (List.range n).map fun i => BitVec.ofNat 64 (rd (o + 8 * i) 8)

/-- The sizes of the team (R391): gangs, accumulator tiles and 4 KiB blocks of scratchpad; and the offset of a gang block. -/
def areaGangs (rd : AreaRd) : Nat := rd 0x23 1
def areaAt (rd : AreaRd) : Nat := rd 0x2A 1
def areaSpad (rd : AreaRd) : Nat := rd 0x2B 1
def areaGangOff (rd : AreaRd) (n : Nat) : Nat := gangOff (areaAt rd) (areaSpad rd) n

/-- A record of the area: its kind, its gang and the offset of its body. -/
structure AreaRec where
  kind : Nat
  gang : BitVec 4
  body : Nat
deriving DecidableEq, Repr

/-- The next `n` records from an offset on (R394). -/
def areaRecs (rd : AreaRd) : Nat → Nat → List AreaRec
  | 0, _ => []
  | n + 1, o =>
    { kind := rd o 2, gang := BitVec.ofNat 4 (rd (o + 2) 2), body := o + 16 } :: areaRecs rd n (o + 16 + rd (o + 4) 4)

/-- The records of an area of some kinds. -/
def recsOf (rd : AreaRd) (kinds : List Nat) : List AreaRec :=
  kinds.flatMap fun k => (areaRecs rd (rd 0x48 4) (rd 0x50 8)).filter fun r => r.kind == k

/-- A range-lock entry of the area as a range. -/
def lockBack (rd : AreaRd) (i : Nat) : Option Range :=
  let x := rd (0x400 + 24 * i) 24
  if x.testBit 191 then
    some { dst := x.testBit 190, tile := x.testBit 189, eng := BitVec.ofNat 3 (x / 2 ^ 186), base := BitVec.ofNat 64 (x / 2 ^ 64 % 2 ^ 57),
           len := x % 2 ^ 40 }
  else none

/-- The range-lock entries of an area. -/
def areaLocks (rd : AreaRd) : List Range := (List.range 64).filterMap (lockBack rd)

/-! #### Gang blocks -/

/-- What is kept beside the area of a gang of which nothing is: its area alone gives its state (log 27). -/
def SavedGang.blank (gangid : BitVec 4) : SavedGang :=
  { gangid := gangid, block := 0, pend := [], batches := Vector.replicate 4 Batches.reset, todo := [], nextOp := 0, yields := [], waits := [], hwait := .none, held := [],
    debugHalt := none, amarks := [] }

/-- The wait of a fragment that is saved (R56, R204, R268, R298, R309): a stalled instruction issues anew, and the slot write of a
claimed qpush is tried again. -/
def Wait.kept : Wait → Wait
  | .barrier n => .barrier n
  | .arrival n c b => .arrival n c b
  | .bwait c n y => .bwait c n y
  | .qpush i cb rb n p => .qpush i cb rb n p
  | .qpushFault i cb rb n p => .qpush i cb rb n p
  | .held => .held
  | _ => .none

/-- What is kept beside a gang of an area. -/
def SavedTeam.gangOf (x : SavedTeam) (n : Nat) : SavedGang :=
  (x.gangs.find? fun g => g.gangid.toNat == n).getD (SavedGang.blank (BitVec.ofNat 4 n))

/-- The barrier at which a gang waits, by the WAITING masks (R392). -/
def areaBarrier (rd : AreaRd) (gangid : BitVec 4) : Wait :=
  match (List.range 16).find? fun n => (rd (0x100 + 16 * n + 8) 2).testBit gangid.toNat with
  | some n => .barrier (BitVec.ofNat 4 n)
  | none => .none

/-- The failure records of a class of a gang: those of the area, each with the number of the operation where that is known, and
those that have no place there (log 27). -/
def recsBack (rd : AreaRd) (cls : Fin 4) (batches : List Nat) (side : List FailRec) : List FailRec :=
  let at_ (x : Nat × Nat) : Option FailRec :=
    let o := batchOff cls + 3 + 16 * x.1
    (causeOf (BitVec.ofNat 8 (rd (o + 8) 8))).map fun cause =>
      { batch := x.2, op := ((recOf side x.2).map (·.op)).getD 0, fail := { cause := cause, info := BitVec.ofNat 64 (rd o 8) } }
  let mine := ((List.range batches.length).zip batches).filterMap at_
  mine ++ side.filter fun r => !mine.any fun x => x.batch == r.batch && x.op == r.op

/-- The batch with a 16-bit number of the area, counted from the launch: of those the last up to `next`. -/
def batchOf (next n : Nat) : Nat := next - (next + 2 ^ 16 - n % 2 ^ 16) % 2 ^ 16

/-- The batches of a class of a gang: the number of the open one as the area has it, counted on from what is kept beside it. -/
def batchesBack (rd : AreaRd) (cls : Fin 4) (side : Batches) : Batches :=
  let m := rd (batchOff cls + 2) 1
  let n := rd (batchOff cls) 2
  let next := if n = side.next % 2 ^ 16 then side.next else n
  let bs := (List.range m).map fun i => next - (m - i)
  { next := next, sealedB := bs, recs := recsBack rd cls (next :: bs) side.recs, past := [] }

/-- A split-table entry (R393); `wait` is what its fragment waits for. -/
def fragBack (rd : AreaRd) (i : Nat) (wait : Wait) (yield : Nat) : Frag :=
  let o := 0x5600 + 16 * i
  let j := rd (o + 12) 1
  { Frag.reset with
    valid := rd (o + 13) 1 % 2 == 1, pc := BitVec.ofNat 64 (rd o 8), mask := BitVec.ofNat 32 (rd (o + 8) 4)
    join := if j = 255 then none else some (Fin.ofNat 31 j), wait := wait, yield := yield }

/-- What a fragment waits for: as kept beside the area, else by its state bits. -/
def waitBack (rd : AreaRd) (sv : SavedGang) (barrier : Wait) (i : Nat) : Wait :=
  let b := rd (0x5600 + 16 * i + 13) 1
  match sv.waits[i]? with
  | some w => w
  | none => if b.testBit 5 then .held else if b.testBit 3 then barrier else .none

/-- A gang block read back, over what the save keeps beside it. -/
def gangBack (rd : AreaRd) (old : Gang) (sv : SavedGang) (team : SlotId) (barrier : Wait) (lanes order : Nat) : Gang :=
  let vec (r l : Nat) : VCell :=
    let mk := rd (0x5000 + 8 * r) 8
    { bits := BitVec.ofNat 64 (rd (256 * r + 8 * l) 8), g0 := mk.testBit (2 * l), g1 := mk.testBit (2 * l + 1) }
  let join (j : Nat) : Join :=
    let p := rd (0x5800 + 16 * j + 8) 1
    { valid := rd (0x5800 + 16 * j + 9) 1 % 2 == 1, rcv := BitVec.ofNat 64 (rd (0x5800 + 16 * j) 8),
      parent := if p = 255 then none else some (Fin.ofNat 31 p) }
  let loop (n : Nat) : LoopRec :=
    let o := 0x55C0 + 16 + 16 * n
    let start := rd o 8
    { counter := rd (o + 14) 1, start := BitVec.ofNat 64 start, endAddr := BitVec.ofNat 64 (start + 4 * rd (o + 12) 2),
      lanes := BitVec.ofNat 32 (rd (o + 8) 4) }
  let frags : Vector Frag 32 := Vector.ofFn fun i =>
    fragBack rd i.val (waitBack rd sv barrier i.val)
      (sv.yields.getD i.val (if (rd (0x5600 + 16 * i.val + 13) 1).testBit 4 then 64 else 0))
  let launched := launchedLanes lanes sv.gangid.toNat
  let gstat : DWord := BitVec.ofNat 64 (rd 0x5A20 8)
  { Gang.reset with
    live := true, team := team, gangid := sv.gangid, launched := launched
    exited := launched &&& ~~~(frags.toList.foldl (fun m f => if f.valid then m ||| f.mask else m) 0)
    v := Vector.ofFn fun r => Vector.ofFn fun l => vec r.val l.val
    u := Vector.ofFn fun r => BitVec.ofNat 64 (rd (0x5200 + 8 * r.val) 8)
    m := Vector.ofFn fun r => BitVec.ofNat 32 (rd (0x5400 + 4 * r.val) 4)
    dc := Vector.ofFn fun r => Vector.ofFn fun l => BitVec.ofNat 64 (rd (0x4000 + 256 * r.val + 8 * l.val) 8)
    dn := Vector.ofFn fun r => BitVec.ofNat 16 (rd (0x5420 + 2 * r.val) 2)
    k := Vector.ofFn fun r => BitVec.ofNat 320 (rd (0x5440 + 64 * r.val) 40)
    ks := Vector.ofFn fun r => BitVec.ofNat 4 (rd (0x5440 + 64 * r.val + 40) 1)
    lc := Vector.ofFn fun r => BitVec.ofNat 32 (rd (0x55C0 + 4 * r.val) 4)
    rng := Vector.ofFn fun l => BitVec.ofNat 32 (rd (0x5540 + 4 * l.val) 4)
    frags := frags
    joins := Vector.ofFn fun j => join j.val
    loops := ((List.range (Nat.min 3 (rd (0x55C0 + 12) 4))).map loop).reverse
    rngseed := BitVec.ofNat 32 (rd 0x5A00 8), trapcause := BitVec.ofNat 8 (rd 0x5A08 8)
    trappc := BitVec.ofNat 64 (rd 0x5A10 8), trapinfo := BitVec.ofNat 64 (rd 0x5A18 8)
    traplate := BitVec.ofNat 64 (rd 0x5A38 8)
    dsat := gstat.getLsbD 3, reread := gstat.getLsbD 1, usplit := gstat.getLsbD 0
    intrap := rd 0x5A48 1 % 2 == 1, skm := BitVec.ofNat 5 (rd 0x5A28 8), skseed := BitVec.ofNat 64 (rd 0x5A30 8)
    handler := { pc := BitVec.ofNat 64 (rd 0x5A40 8), frag := Fin.ofNat 32 (rd 0x5A49 1), order := order, wait := sv.hwait }
    heldTraps := sv.held, debugHalt := sv.debugHalt, nextPend := old.nextPend, nextLate := old.nextLate
    batches := Vector.ofFn fun c => batchesBack rd c (sv.batches.get c), nextOp := sv.nextOp, left := rd 0x6800 2
    heldA := if rd 0x6802 1 % 2 = 1 then
        let a : RegField := BitVec.ofNat 6 (rd 0x6803 1)
        some { reg := a, img := areaDwords rd 0x6840 512,
               marks := sv.amarks }
      else none
    stopSlot := if rd 0x6804 1 % 2 = 1 then some (StopRec.parse (areaBytes rd 0x7840 4192)) else none
    pairs := (List.range (Nat.min 64 (rd 0x88A0 2))).map fun i =>
      let o := 0x88A8 + 12 * i
      { team := BitVec.ofNat 32 (rd o 4), gang := BitVec.ofNat 4 (rd (o + 4) 1), tag := BitVec.ofNat 8 (rd (o + 5) 1),
        count := BitVec.ofNat 32 (rd (o + 8) 4) } }

/-! #### Windows and exchanges -/

/-- A vector value of a record: 256 bytes and 8 mark bytes. -/
def cellBack (rd : AreaRd) (l : Nat) : VCell :=
  let mk := rd 256 8
  { bits := BitVec.ofNat 64 (rd (8 * l) 8), g0 := mk.testBit (2 * l), g1 := mk.testBit (2 * l + 1) }

/-- The shape of a pending result of which nothing is kept beside its record: it writes whole registers. -/
def pendBlank (rd : AreaRd) (pairs : List PairEntry) (xchg : Bool) : Pending :=
  let reg : RegField := BitVec.ofNat 6 (rd 2 1)
  let dst : Dest := match rd 1 1 with | 0 => .vec reg false | 1 => .uni reg | _ => .dir reg
  let desc := rd 268 8
  let team : Word := BitVec.ofNat 32 (desc / 2 ^ 32)
  let gang : BitVec 4 := BitVec.ofNat 4 (desc / 2 ^ 16)
  let tag : Byte := BitVec.ofNat 8 desc
  let p := Pending.fresh dst (BitVec.allOnes 32)
  if xchg then
    { p with await := .partner team gang tag ((pairCount pairs team gang tag).getD 1 - 1)
             src := (List.range 32).map fun l => cellBack (areaFrom rd 276) l }
  else { p with wr := wholeWrites reg (allFin 32) fun _ => VCell.zero }

/-- A pending result read back from the body of its record, over its shape. -/
def pendBack (rd : AreaRd) (p : Pending) : Pending :=
  let left := rd 3 1
  let p1 := { p with frag := Fin.ofNat 32 (rd 0 1), left := left, closed := left == 0 }
  match p.dst with
  | .vec _ _ =>
    { p1 with wr := p.wr.map fun w =>
        let x := cellBack (areaFrom rd 4) w.lane.val
        { w with lo := w.lo.map fun _ => (half x.bits false, x.g0), hi := w.hi.map fun _ => (half x.bits true, x.g1) } }
  | .uni _ => { p1 with uval := BitVec.ofNat 64 (rd 4 8) }
  | .dir _ => { p1 with dval := areaDwords rd 4 32, dnorm := BitVec.ofNat 16 (rd 260 2) }

/-- The records of kind 1 and 2 read back, in their order; `side` are the shapes kept in that order. -/
def windowsBack (rd : AreaRd) (pairs : BitVec 4 → List PairEntry) (side : List (SavedGang × Pending)) : List (BitVec 4 × Pending) :=
  let rs := recsOf rd [1, 2]
  ((List.range rs.length).zip rs).map fun x =>
    let b := areaFrom rd x.2.body
    (x.2.gang, pendBack b ((side[x.1]?.map (·.2)).getD (pendBlank b (pairs x.2.gang) (x.2.kind == 2))))

/-- A pending result from those of its records: that of a register pair from two. -/
def Pending.rejoined (p : Pending) (ss : List Pending) : Pending :=
  match ss with
  | [] => p
  | x :: _ => { x with dst := p.dst, overA := p.overA, wr := ss.flatMap (·.wr) }

/-- The pending results of a gang, numbered from `next`, before the next instruction of the team: those whose shape is kept, in
their order of writing and with their places among those of the team (R394), then the others. -/
def gangWindows (sv : SavedGang) (mine : List Pending) (next : Nat) : List Pending :=
  let ps := if sv.pend.isEmpty then ((List.range mine.length).zip mine).map fun x => { x.2 with place := (x.1 : Int) - mine.length }
    else sv.pend.map fun p => p.rejoined (mine.filter fun x => x.id == p.id)
  ((List.range ps.length).zip ps).map fun x => { x.2 with id := next + x.1 }

/-! #### Operations -/

/-- The kind of a matrix operation by its words. -/
def matKindOf (w lit : Word) : Option MatKind :=
  match decode w lit with
  | .ok (.mma ..) => some .mma
  | .ok (.mzero ..) => some .mzero
  | .ok (.mld ..) => some .mld
  | .ok (.mst ..) => some .mst
  | .ok (.attn ..) => some .attn
  | .ok (.amerge ..) => some .amerge
  | .ok (.anorm ..) => some .anorm
  | _ => none

/-- The scratchpad ranges of a matrix operation (R311): those that a started attn reads no more are free (R254). -/
def MatOp.reach (m : MatOp) : List Range :=
  let a := m.ops.getD 0 0
  let f := m.modField % 2 == 1
  match m.kind with
  | .mma => ((mmaFmt (m.ops.getD 1 0)).spans a).map fun x => matRange false x.1 x.2
  | .attn => if m.stopped && !m.attnReads then [] else (m.ops.take 3).map fun a => matRange false a 16384
  | .mld => [matRange false a (tileBytes f)]
  | .mst => [matRange true a (tileBytes f)]
  | .anorm => [matRange true a (normBytes f)]
  | _ => []

/-- A matrix operation of kind 7 read back from its record; `aimg` is the A value that it read, `next` the gang's open batch. -/
def queuedBack (rd : AreaRd) (gang : BitVec 4) (ord next : Nat) (aimg : AImage) : Option MatOp :=
  let w : Word := BitVec.ofNat 32 (rd 0 4)
  let lit : Word := BitVec.ofNat 32 (rd 4 4)
  (matKindOf w lit).map fun k =>
    let m : MatOp :=
      { id := 0, ord := ord, slot := Fin.ofNat 16 gang.toNat, team := 0, kind := k, word := w, lit := lit, ops := areaDwords rd 8 4,
        aux := areaDwords rd 40 4, aimg := if k == .mma then aimg else [], amarks := [], step := 0, cleared := false
        batch := batchOf next (rd 72 2), fence := 0, seq := 0, fenced := 0, lanes := 0, byMres := false, ranges := [] }
    { m with ranges := m.reach }

/-- A stopped matrix operation of kind 6 read back from its record. -/
def stoppedBack (rd : AreaRd) (gang : BitVec 4) (ord next : Nat) : MatOp :=
  let r := StopRec.parse (areaBytes rd 0 4192)
  let m : MatOp :=
    { id := 0, ord := ord, slot := Fin.ofNat 16 gang.toNat, team := 0, kind := (matKindOf r.word r.lit).getD .attn, word := r.word
      lit := r.lit, ops := r.ops, aux := r.aux, aimg := r.aimg, amarks := [], step := r.step, cleared := r.depth != 0
      batch := batchOf next (rd 4192 2), fence := 0, seq := 0, fenced := 0, lanes := 0, byMres := false, ranges := [] }
  { m with ranges := m.reach }

/-- What a discarded copy asks for, by its record (R394 KIND 3). -/
def copyBack (rd : AreaRd) : Option (EngKind × List Range) :=
  let o (i : Nat) : DWord := BitVec.ofNat 64 (rd (4 + 8 * i) 8)
  match decode (BitVec.ofNat 32 (rd 0 4)) 0 with
  | .ok (.cpy _ _ _ t st) => match copyAsk (o 0) (o 1) (o 2) (o 3) t st with | .ask k rs => some (k, rs) | _ => none
  | .ok (.cpyt ..) => some (cpytAsk (o 0) (o 1) (o 2))
  | _ => none

/-- The addresses of the request blocks of withdrawn collectives: the first of each one's range-lock entries. -/
def collAddrs : List Range → List CollReq → List DWord
  | _, [] => []
  | es, r :: rs => ((es.head?.map (·.base)).getD 0) :: collAddrs (es.drop (realRanges r.ranges).length) rs

/-- The parts of an engine operation that its record does not hold. -/
def engBack (rd : AreaRd) (p : PartId) (gang : BitVec 4) (ord : Nat) (cls : Fin 4) (next batch : Nat) (k : EngKind)
    (rs : List Range) : EngOp :=
  { id := 0, ord := ord, slot := Fin.ofNat 16 gang.toNat, team := 0, cls := cls, batch := batchOf next batch, kind := k, ranges := rs
    held := rs, seq := 0, fenced := 0, lanes := 0, asid := BitVec.ofNat 13 (rd 0x20 2), part := p, faulted := false, refused := false, run := .fresh, home := none
    word := 0, ops := [] }

/-- The open batch of a class of a gang of an area. -/
def areaNext (rd : AreaRd) (x : SavedTeam) (gang : BitVec 4) (cls : Fin 4) : Nat :=
  (batchesBack (areaFrom rd (areaGangOff rd gang.toNat)) cls ((x.gangOf gang.toNat).batches.get cls)).next

/-- The engine operations of an area, in the order of their records; their slots are their gangids. -/
def engsBack (rd : AreaRd) (p : PartId) (x : SavedTeam) : List EngOp :=
  let n3 := (recsOf rd [3]).length
  let n4 := (recsOf rd [4]).length
  let num (rs : List AreaRec) : List (Nat × AreaRec) := (List.range rs.length).zip rs
  let blocks := (recsOf rd [4]).map fun r => areaBytes rd r.body 64
  let addrs := collAddrs ((areaLocks rd).filter fun r => r.eng == 2) (blocks.map fun b => (collBlock 0 b).req)
  ((num (recsOf rd [3])).filterMap fun y =>
    (copyBack (areaFrom rd y.2.body)).map fun k =>
      { engBack rd p y.2.gang (x.ords.getD y.1 y.1) 0 (areaNext rd x y.2.gang 0) (rd (y.2.body + 36) 2) k.1 k.2 with
        word := BitVec.ofNat 32 (rd y.2.body 4), ops := areaDwords rd (y.2.body + 4) 4 }) ++
  ((num (recsOf rd [4])).map fun y =>
    let r := (collBlock (addrs.getD y.1 0) (areaBytes rd y.2.body 64)).req
    engBack rd p y.2.gang (x.ords.getD (n3 + y.1) (n3 + y.1)) 1 (areaNext rd x y.2.gang 1) (rd (y.2.body + 64) 2) (.coll r (x.collNums.getD y.1 0)) r.ranges) ++
  ((num (recsOf rd [5])).map fun y =>
    let h := x.recons.getD y.1 (0, 0)
    let r := { reconReq (BitVec.ofNat 64 (rd y.2.body 8)) (areaBytes rd (y.2.body + 8) 64) with k := h.1, seed := h.2 }
    engBack rd p y.2.gang (x.ords.getD (n3 + n4 + y.1) (n3 + n4 + y.1)) 3 (areaNext rd x y.2.gang 3) (rd (y.2.body + 72) 2) (.recon r) r.ranges)

/-- The bits of 16 vector registers of a gang block from register `a` on. -/
def imageBack (rd : AreaRd) (a : RegField) : AImage :=
  (List.range 16).flatMap fun q => areaDwords rd (256 * (a + BitVec.ofNat 6 q).toNat) 32

/-- The matrix operations of an area, in the order of their records: the stopped ones, then those not yet started. An A value that is
not kept beside the area is that of the registers. -/
def matsBack (rd : AreaRd) (x : SavedTeam) : List MatOp :=
  let n := (recsOf rd [3, 4, 5]).length
  let n6 := (recsOf rd [6]).length
  let num (rs : List AreaRec) : List (Nat × AreaRec) := (List.range rs.length).zip rs
  ((num (recsOf rd [6])).map fun y => stoppedBack (areaFrom rd y.2.body) y.2.gang (x.ords.getD (n + y.1) (n + y.1)) (areaNext rd x y.2.gang 2)) ++
  ((num (recsOf rd [7])).filterMap fun y =>
    let a : RegField := BitVec.ofNat 6 (rd y.2.body 4 / 2 ^ 12)
    queuedBack (areaFrom rd y.2.body) y.2.gang (x.ords.getD (n + n6 + y.1) (n + n6 + y.1)) (areaNext rd x y.2.gang 2)
      (x.aimgs.getD y.1 (imageBack (areaFrom rd (areaGangOff rd y.2.gang.toNat)) a)))

/-- The A values that matrix operations not yet started have read, in the order of their records (log 27). -/
def aimgsOf (ms : List MatOp) : List AImage := (ms.filter fun m => !m.stopped).map (·.aimg)

/-- K and SEED of the recons of some engine operations (log 27). -/
def reconsOf (os : List EngOp) : List (Nat × DWord) :=
  os.filterMap fun o => match o.kind with | .recon r => some (r.k, r.seed) | _ => none

/-- The numbers of the collectives among some engine operations (log 27). -/
def collNumsOf (os : List EngOp) : List Nat := os.filterMap fun o => match o.kind with | .coll _ n => some n | _ => none

end Sys2Proof.Machine
end

