-- ==== Sys2Proof/Machine/Place.lean ====
section
/-!
DEFINITION. The placement list at work (R380 to R382): TEAM_PLACE places the teams of the first grid that can make
progress, or a resuming team (R395); TEAM_RETIRE ends a team's life (R31).
-/
namespace Sys2Proof.Machine

/-! ### Grids and teams by name -/

/-- A grid of a partition by gridid. -/
def State.grid? (s : State) (p : PartId) (id : Word) : Option Grid := s.grids.find? fun g => g.gridid == id && g.part == p

/-- The state with a grid changed. -/
def State.modGrid (s : State) (p : PartId) (id : Word) (f : Grid → Grid) : State :=
  { s with grids := s.grids.map fun g => if g.gridid == id && g.part == p then f g else g }

/-- Teams of a grid still to be placed, by ascending teamid: discarded ones, then new ones. -/
def Grid.nextTeams (g : Grid) : Option Nat :=
  match g.restart with
  | t :: _ => some t
  | [] => if g.nextTeam < g.teams then some g.nextTeam else none

/-- The grid after the next team of `nextTeams` has been placed. -/
def Grid.took (g : Grid) : Grid :=
  match g.restart with
  | _ :: ts => { g with restart := ts }
  | [] => { g with nextTeam := g.nextTeam + 1 }

/-- A grid has no team left to place. -/
def Grid.placedAll (g : Grid) : Bool := g.nextTeams.isNone

/-- A grid whose last team is placed leaves the list (R381). -/
def State.leaveList (s : State) (p : PartId) (id : Word) : State :=
  match s.grid? p id with
  | none => s
  | some g =>
    if g.placedAll then s.modPart p fun q => { q with placement := q.placement.filter fun x => x != id } else s

/-! ### New teams -/

/-- One team of a grid is placed on the core that R382 chooses, where there is room (R95). -/
def State.placeOne (s : State) (p : PartId) (id : Word) : Option State :=
  match s.grid? p id with
  | none => none
  | some g =>
    match g.nextTeams, s.pickCore p fun c => ((s.core c).roomForGrid g).isSome with
    | some n, some c =>
      match (s.core c).roomForGrid g with
      | some r => some ((s.modCore c fun k => k.place g n r).modGrid p id Grid.took)
      | none => none
    | _, _ => none

/-- Teams of a grid are placed while there is room; `fuel` bounds them. -/
def State.placeMany (s : State) (p : PartId) (id : Word) : Nat → State
  | 0 => s
  | fuel + 1 =>
    match s.placeOne p id with
    | none => s
    | some t => State.placeMany t p id fuel

/-- A gang slot is the least a team takes, so a package holds at most this many. -/
def mostTeams : Nat := 24576

/-- A grid of the list makes progress (R381): a gathered one whole or not at all. -/
def State.placeGrid (s : State) (p : PartId) (g : Grid) : Option State :=
  let t := s.placeMany p g.gridid mostTeams
  match t.grid? p g.gridid with
  | none => none
  | some g' =>
    if g.gathered then (if g'.placedAll && !g.placedAll then some (t.leaveList p g.gridid) else none)
    else if g'.nextTeams = g.nextTeams then none
    else some (t.leaveList p g.gridid)

/-- A team of the grid has been placed before. -/
def Grid.started (g : Grid) : Bool := g.nextTeam != 0

/-- The first grid of the list that can make progress; behind a gathered grid that does not fit, only grids that are
already partly placed are (R381). -/
def State.placeFirst (s : State) (p : PartId) : Bool → List Grid → Option State
  | _, [] => none
  | blocked, g :: rest =>
    match (if blocked && (g.gathered || !g.started) then none else s.placeGrid p g) with
    | some t => some t
    | none => State.placeFirst s p (blocked || g.gathered) rest

/-! ### Resuming teams (R395) -/

/-- A number of a context save area, read under the partition's key (R389). -/
def State.areaRd (s : State) (p : PartId) (area : BitVec 39) (off n : Nat) : Nat :=
  leNat (s.rdN (s.keyOf p) (memIx s.devid area + off) n)

/-- What is kept beside the area of a saved team. -/
def State.saved? (s : State) (p : PartId) (gridid teamid : Word) : Option SavedTeam := s.saved.find? fun x => x.is p gridid teamid

/-- The grid of a team that waits to resume; one that is not listed has the values of its area. -/
def State.homeGrid (s : State) (p : PartId) (gridid : Word) : Grid :=
  (s.grid? p gridid).getD
    { gridid := gridid, part := p, asid := 0, code := 0, args := 0, entry := 0, trapbase := 0, teams := 0, lanes := 0, atiles := 0
      spad := 0, gathered := false, restartable := false, steep := 0, rngseed := 0, depth := 0, prio := 0, parent := none, queue := none
      nextTeam := 0, restart := [], retired := 0 }

/-- The tile entries of an area that hold a tile. -/
def areaTiles (rd : AreaRd) (team : SlotId) : List (Fin 64 × TileEntry) :=
  ((allFin 64).map fun e => (e, tileOfWord (rd (0x200 + 8 * e.val) 8) team)).filter fun x => x.2.v

/-- Every gang of the area has exited, and the team holds no gang slots (R31). -/
def areaExited (rd : AreaRd) : Bool :=
  (List.range (areaGangs rd)).all fun n => (List.range 32).all fun i => rd (areaGangOff rd n + 0x5600 + 16 * i + 13) 1 % 2 == 0

/-- The first byte of the saved reservation: as kept beside the area, else the block in which its lowest tile lies. -/
def resumeBase (x : Option SavedTeam) (tiles : List (Fin 64 × TileEntry)) : Nat :=
  match x with
  | some x => x.spadBase
  | none => (tiles.foldl (fun m t => Nat.min m t.2.addr) (2 ^ 19 - 1)) / 4096 * 4096

/-- What is kept beside the area of a team of which nothing is (log 27). -/
def SavedTeam.blank (p : PartId) (gridid teamid : Word) : SavedTeam :=
  { part := p, gridid := gridid, teamid := teamid, area := 0, spadBase := 0, gangs := [], ords := [], aimgs := [], recons := []
    collNums := [] }

/-- The collectives of a saved team that run on, with the cores on which they do (R300). -/
def State.homeOps (s : State) (p : PartId) (gridid teamid : Word) : List (CoreId × EngOp) :=
  (allFin 1536).flatMap fun c => ((s.core c).eng.filter fun o => o.home.any fun h =>
    h.part == p && h.gridid == gridid && h.teamid == teamid).map fun o => (c, o)

/-- The operations of a saved team: engine operations and matrix operations of its records, and collectives that run on. -/
structure SavedOps where
  engs : List EngOp
  mats : List MatOp
  homes : List (CoreId × EngOp)
deriving DecidableEq, Repr

/-- The operations of the team of an area. -/
def State.areaOps (s : State) (p : PartId) (rd : AreaRd) (x : SavedTeam) : SavedOps :=
  { engs := engsBack rd p x, mats := matsBack rd x, homes := s.homeOps p x.gridid x.teamid }

/-- The ranges that a resume registers again (R256): of a collective that has run on, those that it still uses (R254). -/
def SavedOps.ranges (y : SavedOps) : List Range :=
  y.engs.flatMap (·.ranges) ++ y.mats.flatMap (·.ranges) ++ y.homes.flatMap (·.2.held)

/-- Its tiles, its aperture or a range-lock entry that names a tile bind a team to its former core (R185, R201, R256). -/
def areaBound (rd : AreaRd) (rs : List Range) : Bool := rd 0x26 1 % 4 != 0 || (areaLocks rd ++ rs).any (·.tile)

/-- Room for a saved team on a core (R185, R201, R256, R395); `base` is the first byte of its saved reservation. -/
def State.resumeRoom (s : State) (rd : AreaRd) (base : Nat) (rs : List Range) (c : CoreId) : Option Room :=
  let k := s.core c
  let sp := areaSpad rd
  let tiles := areaTiles rd 0
  let run := if tiles.isEmpty then k.spadRun sp else if k.spadFree base (4096 * sp) then some base else none
  if (areaBound rd rs && (clusOf c).val * 256 + coreidOf c ≠ rd 0x24 1 * 256 + rd 0x25 1) ||
      tiles.any (fun e => (k.tiles.get e.1).v) || !s.roomFor c rs then none
  else k.roomAt (if areaExited rd then 0 else areaGangs rd) (areaAt rd) run

/-- The team of an area, placed again. -/
def resumedTeam (rd : AreaRd) (g : Grid) (r : Room) : Team :=
  let bar (n : Nat) : Barrier :=
    let o := 0x100 + 16 * n
    { phase := BitVec.ofNat 16 (rd o 2), exp := rd (o + 2) 1, arr := rd (o + 3) 1, arrived := BitVec.ofNat 16 (rd (o + 4) 2)
      coming := [], given := [] }
  { g.newTeam (rd 0x18 4) r with
    gridid := BitVec.ofNat 32 (rd 0x1C 4), depth := BitVec.ofNat 4 (rd 0x22 1), asid := BitVec.ofNat 13 (rd 0x20 2)
    ngang := areaGangs rd, lanes := rd 0x28 2, spadLen := 4096 * areaSpad rd, steep := BitVec.ofNat 3 (rd 0x2C 1)
    code := BitVec.ofNat 64 (rd 0x30 8), trapbase := BitVec.ofNat 64 (rd 0x38 8) &&& ~~~(3 : DWord)
    usedAperture := rd 0x26 1 / 2 % 2 == 1, gathered := rd 0x27 1 % 2 == 1, restartable := rd 0x27 1 / 2 % 2 == 1
    allExited := areaExited rd, bars := Vector.ofFn fun n => bar n.val }

/-- A gang of an area in its new slot, its joins settled (R21, R22): a fragment whose instruction issues anew may stand at its join.
The matrix operations that it issues next wait for all those that resume with it (log 66). -/
def resumedGang (rd : AreaRd) (x : SavedTeam) (wins : List (BitVec 4 × Pending)) (team : SlotId) (n order mfence : Nat) (old : Gang) : Gang :=
  let sv := x.gangOf n
  let g := gangBack (areaFrom rd (areaGangOff rd n)) old sv team (areaBarrier rd sv.gangid) (rd 0x28 2) order
  let ps := gangWindows sv ((wins.filter fun w => w.1 == sv.gangid).map (·.2)) old.nextPend
  ({ g with pend := ps, nextPend := old.nextPend + ps.length, mfence := mfence, nextOp := Nat.max g.nextOp (rd 0x48 4) } : Gang).settle

/-- The pairing table of a gang of an area (R393). -/
def areaPairs (rd : AreaRd) (gang : BitVec 4) : List PairEntry :=
  (gangBack (areaFrom rd (areaGangOff rd gang.toNat)) Gang.reset (SavedGang.blank gang) 0 .none 0 0).pairs

/-- The storage of a core with a team's tiles, scratchpad, accumulators and gangs restored (R395). -/
def Core.restore (k : Core) (rd : AreaRd) (g : Grid) (x : SavedTeam) (mats : Nat) (r : Room) : Core :=
  let at_ := areaAt rd
  let sp := areaSpad rd
  let wins := windowsBack rd (areaPairs rd) (windowRecs x.gangs (·.pend))
  let k1 := ((k.vacate r.team).modTeam r.team fun _ => resumedTeam rd g r).spadWrite r.base (areaBytes rd (spadOff at_) (4096 * sp))
  let k2 := (List.range at_).foldl (fun k n => (List.range 4096).foldl (fun k e =>
    k.accWr r.team n e (BitVec.ofNat 32 (rd (accOff + 0x4000 * n + 4 * e) 4))) k) k1
  let k3 := (areaTiles rd r.team).foldl (fun k e => { k with tiles := k.tiles.set e.1 e.2 }) k2
  let k4 := ((List.range r.slots.length).zip r.slots).foldl (fun (k : Core) y =>
    k.modGang y.2 fun old => resumedGang rd x wins r.team y.1 (k.nextTrap + y.1) (k.nextMat + mats) old) k3
  { k4 with nextTrap := k4.nextTrap + 16, gated := false, idle := 0 }

/-- The slot of a gang of a restored team; the operations of a saved team name their gangs by gangid. -/
def Room.slotOf (r : Room) (gang : SlotId) : SlotId := r.slots.getD gang.val 0

/-- A member withdrawn from its collective joins it again (R300). -/
def State.rejoin (s : State) (p : PartId) (n : Nat) (m : CollMember) : State :=
  let empty : Collective := { part := p, group := m.req.group, n := n, mems := [], joined := [], known := false, result := none }
  if s.colls.any fun q => q.is p m.req.group n then
    { s with colls := s.colls.map fun q => if q.is p m.req.group n then q.join m else q }
  else { s with colls := s.colls ++ [empty.join m] }

/-- An engine operation of a restored team is issued again in its batch (R300, R372, R395). -/
def State.reissue (s : State) (c : CoreId) (r : Room) (o : EngOp) : State :=
  let id := (s.core c).nextEng
  let o1 : EngOp := { o with id := id, slot := r.slotOf o.slot, team := r.team }
  let s1 := (s.register c o1.slot o1.team o.asid (engKey id) o.ranges).modCore c fun k =>
    { k with nextEng := id + 1, eng := k.eng ++ [o1] }
  match o.kind with
  | .coll q n =>
    s1.rejoin o.part n
      { rank := q.rank, who := .engine c id, req := q, asid := o.asid, core := some c, code := 0, badAt := none, wrote := false }
  | _ => s1

/-- Those who wait for a fault, or for a collective, under another name. -/
def State.renameWho (s : State) (c : CoreId) (old new : Waiter) : State :=
  let w (x : Waiter) : Waiter := if x = old then new else x
  { s with
    colls := s.colls.map fun q => { q with mems := q.mems.map fun m => if m.who = old then { m with who := new, core := some c } else m }
    parts := s.parts.map fun q => { q with
      faults := q.faults.map fun x => { x with who := w x.who }
      watched := q.watched.map fun x => (x.1, { x.2 with who := w x.2.who }) } }

/-- A collective that has run on while its team was saved belongs to the resumed team (R300). -/
def State.adopt (s : State) (c : CoreId) (r : Room) (y : CoreId × EngOp) : State :=
  let id := (s.core c).nextEng
  let gang : SlotId := Fin.ofNat 16 ((y.2.home.map (·.gangid.toNat)).getD 0)
  let o : EngOp := { y.2 with id := id, slot := r.slotOf gang, team := r.team, home := none, seq := 0, fenced := 0, lanes := 0 }
  let s1 := s.modCore y.1 fun k => { k with eng := k.eng.filter fun x => x.id != y.2.id }
  let s2 := (s1.register c o.slot o.team o.asid (engKey id) o.held).modCore c fun k =>
    { k with nextEng := id + 1, eng := k.eng ++ [o] }
  s2.renameWho c (.engine y.1 y.2.id) (.engine c id)

/-- A matrix operation of a restored team goes on, or is issued, after those before it (R328, R395). -/
def State.requeue (s : State) (c : CoreId) (asid : Asid) (r : Room) (m : MatOp) : State :=
  let id := (s.core c).nextMat
  let m1 : MatOp := { m with id := id, slot := r.slotOf m.slot, team := r.team, fence := id }
  (s.register c m1.slot m1.team asid (matKey id) m.ranges).modCore c fun k =>
    { k with nextMat := id + 1, mat := k.mat ++ [m1] }

/-- The batches of a team whose operations have all completed are finished (R278). -/
def State.settleTeam (s : State) (c : CoreId) (ti : SlotId) : State :=
  (s.teamSlots c ti).foldl (fun s i => (allFin 4).foldl (fun s cls => s.settleBatches c i ti cls) s) s

/-- A saved team resumes on a core (R395): its storage, its operations in the order of step 4, the collectives that have run on, then
STATE 2. -/
def State.resumeOn (s : State) (p : PartId) (g : Grid) (x : SavedTeam) (y : SavedOps) (area : BitVec 39) (c : CoreId) (r : Room) :
    State :=
  let rd : AreaRd := s.areaRd p area
  let s1 := s.modCore c fun k => k.restore rd g x y.mats.length r
  let s2 := y.mats.foldl (fun s m => s.requeue c (BitVec.ofNat 13 (rd 0x20 2)) r m) s1
  let s3 := y.engs.foldl (fun s o => s.reissue c r o) s2
  let s4 := ((y.homes.foldl (fun s o => s.adopt c r o) s3).settleTeam c r.team).wrN (s.keyOf p) (memIx s.devid area + 0xC) (leBytes 4 2)
  { s4 with saved := s4.saved.filter fun z => !z.is p x.gridid x.teamid }.modPart p fun q =>
    { q with resumes := q.resumes.filter fun z => !(z.1 == x.gridid && z.2.1 == x.teamid) }

/-- One waiting team resumes where it may (R395). -/
def State.resumeOne (s : State) (p : PartId) (y : Word × Word × BitVec 39) : Option State :=
  let rd : AreaRd := s.areaRd p y.2.2
  let side := s.saved? p y.1 y.2.1
  let x := side.getD (SavedTeam.blank p y.1 y.2.1)
  let ops := s.areaOps p rd x
  let room (c : CoreId) : Option Room := s.resumeRoom rd (resumeBase side (areaTiles rd 0)) ops.ranges c
  match s.pickCore p fun c => (room c).isSome with
  | some c => (room c).map fun r => s.resumeOn p (s.homeGrid p y.1) x ops y.2.2 c r
  | none => none

/-- All the waiting teams of a gathered grid resume together or not at all (R27). -/
def State.resumeAll (s : State) (p : PartId) : List (Word × Word × BitVec 39) → Option State
  | [] => some s
  | y :: ys =>
    match s.resumeOne p y with
    | none => none
    | some t => State.resumeAll t p ys

/-- Every team of a gathered grid that is still to run waits to resume (R27): none is resident, and no other is saved. -/
def State.allWait (s : State) (p : PartId) (gridid : Word) (ys : List (Word × Word × BitVec 39)) : Bool :=
  (s.saved.all fun x => !(x.part == p && x.gridid == gridid) || ys.any fun y => y.2.1 == x.teamid) &&
    !s.cores.toList.any fun k => k.liveTeams.any fun t => t.part == p && t.gridid == gridid

/-- A waiting team of a priority resumes, with its whole grid where that is gathered (R27, R380). -/
def State.resumeFirst (s : State) (p : PartId) (prio : Nat) : List (Word × Word × BitVec 39) → Option State
  | [] => none
  | y :: ys =>
    let g := s.homeGrid p y.1
    let all := (s.parts.get p).resumes.filter fun z => z.1 == y.1
    let t := if g.prio.val ≠ prio then none
      else if !g.gathered then s.resumeOne p y
      else if s.allWait p y.1 all then s.resumeAll p all
      else none
    match t with
    | some t => some t
    | none => State.resumeFirst s p prio ys

/-- The placer goes through the priorities, highest first; within one, resuming teams come first (R380, R381). -/
def State.placeAt (s : State) (p : PartId) (blocked : Bool) : List Nat → Option State
  | [] => none
  | prio :: rest =>
    match s.resumeFirst p prio (s.parts.get p).resumes with
    | some t => some t
    | none =>
      let gs := (s.parts.get p).placement.filterMap fun id => (s.grid? p id).filter fun g => g.prio.val == prio
      match s.placeFirst p blocked gs with
      | some t => some t
      | none => State.placeAt s p (blocked || gs.any (·.gathered)) rest

/-- TEAM_PLACE (R27, R95, R205, R381, R382, R395): nothing is placed before the fault queue is set up. -/
def execTeamPlace (p : PartId) (s : State) : Host.Outcome State Fault Refusal :=
  .next
    (let q := s.parts.get p
     if !q.valid || q.fq.isNone || s.inReset then s else (s.placeAt p false [3, 2, 1, 0]).getD s)

/-! ### The end of a team -/

/-- The scratchpad of a reservation is cleared to 0 (R183, R185). -/
def Core.clearSpad (k : Core) (base len : Nat) : Core :=
  let inside (a : Nat) : Bool := base ≤ a && a < base + len
  { k with spad := k.spad.filter fun x => !inside x.1, spadBad := k.spadBad.filter fun a => !inside a }

/-- The resources of a team are released (R31): tiles freed, the reservation cleared, tiles of the accumulator memory,
barriers and gang slots given back. GEN of a freed entry is incremented also where the team is saved; its resume puts the saved GEN
back (log 89). -/
def Core.dropTeam (k : Core) (ti : SlotId) : Core :=
  let t := k.team ti
  let k1 := (k.tilesOf ti).foldl (fun k x => k.freeTile x.1) k
  let k2 := { k1.clearSpad t.spadBase t.spadLen with marks := k1.marks.filter fun m => m.team != ti }
  let k3 := (allFin 16).foldl (fun (k : Core) i =>
    if (k.gang i).live && (k.gang i).team == ti then (k.endLease i).modGang i fun g => { g with live := false } else k) k2
  k3.modTeam ti fun _ => Team.reset

/-- A child grid of a team has not retired (R28, R31). -/
def State.hasChild (s : State) (t : Team) : Bool :=
  s.grids.any fun g => g.part == t.part && g.parent == some (t.gridid, t.teamid)

/-- An engine, a matrix operation or a range-lock entry of a team is still there (R254), or an entry names a byte of a tile that it
holds, which is freed as tfree frees it (R184, R185). -/
def State.teamBusy (s : State) (c : CoreId) (ti : SlotId) : Bool :=
  let k := s.core c
  (k.eng.any fun o => o.ofTeam ti) || (k.mat.any fun m => m.team == ti) ||
    ((k.tilesOf ti).any fun x => k.tileLocked (entryHandle c x.1 x.2)) ||
    ((allFin 1536).any fun d => clusOf d == clusOf c && (s.core d).locks.toList.any fun e => e.v && e.opCore == c && e.team == ti)

/-- A grid whose teams have all retired is over (R31), and its LAUNCH packet completes (R306). -/
def State.retireGrid (s : State) (p : PartId) (id : Word) : State :=
  match s.grid? p id with
  | none => s
  | some g =>
    if g.retired < g.teams then s
    else
      let s1 := { s with grids := s.grids.filter fun x => !(x.gridid == id && x.part == p)
                         xmsgs := s.xmsgs.filter fun m => !(m.grid == id && m.part == p) }
      match g.queue with
      | some (q, i) => s1.endPacket q i 0
      | none => s1

/-- The report of a team that retired while it drained (R388), or while its request waited for the end of a halt (log 106). -/
def State.reportDrained (s : State) (c : CoreId) (t : Team) : State :=
  match t.stopping with
  | .drain q _ | .asked q => s.report (.preempt t.gridid t.teamid 1 q.size ((s.core c).cycle - q.since) 0)
  | _ => s

/-- A team that leaves its core as `f` says retires (R31). -/
def State.retireTeam (s : State) (c : CoreId) (t : Team) (f : Core → Core) : State :=
  let s1 := (s.modCore c f).modGrid t.part t.gridid fun g => { g with retired := g.retired + 1 }
  (s1.reportDrained c t).retireGrid t.part t.gridid

/-- TEAM_RETIRE (R31, R183, R185, R254): the team of an index, or from 16 on one that has given its index away (log 107). -/
def execTeamRetire (c : CoreId) (n : Nat) (s : State) : Host.Outcome State Fault Refusal :=
  .next
    (if n < 16 then
       let ti : SlotId := Fin.ofNat 16 n
       let t := (s.core c).team ti
       if !t.live || !t.allExited || s.hasChild t || s.teamBusy c ti || t.stopping.saving then s
       else s.retireTeam c t fun k => k.dropTeam ti
     else
       match (s.core c).gone[n - 16]? with
       | none => s
       | some t =>
         if s.hasChild t then s
         else s.retireTeam c t fun k => { k.clearSpad t.spadBase t.spadLen with gone := k.gone.eraseIdx (n - 16) })

end Sys2Proof.Machine
end

