-- ==== Sys2Proof/Machine/Preempt.lean ====
section
/-!
DEFINITION. Pre-emption and resume (R28, R236, R256, R300, R328, R372, R388, R389, R395), and the debugger's halt and
quiesce (R396 to R398).
-/
namespace Sys2Proof.Machine

/-! ### The estimator (R388) -/

/-- A team by place. -/
abbrev TeamAt := CoreId × SlotId

/-- A team by place. -/
def State.teamOf (s : State) (x : TeamAt) : Team := (s.core x.1).team x.2

/-- Two teams belong to one gathered grid. -/
def sameGathered (a b : Team) : Bool := a.gathered && b.live && a.gridid == b.gridid && a.part == b.part

/-- Every team of the package. -/
def allTeams : List TeamAt := (allFin 1536).flatMap fun c => (allFin 16).map fun t => (c, t)

/-- The teams that a request reaches: those it names, and every team of their gathered grids (R388). -/
def State.reached (s : State) (named : List TeamAt) : List TeamAt :=
  firsts (named ++ allTeams.filter fun x => named.any fun y => sameGathered (s.teamOf y) (s.teamOf x))

/-- The teams chosen as a whole with a team: those of its gathered grid, or itself. -/
def State.together (s : State) (xs : List TeamAt) (x : TeamAt) : List TeamAt :=
  if (s.teamOf x).gathered then xs.filter fun y => sameGathered (s.teamOf x) (s.teamOf y) else [x]

/-- Csave (R388). -/
def csave (size : Nat) : Nat := (size + 127) / 128 + 2000

/-- The team may drain (R388). -/
def State.mayDrain (s : State) (dl : Nat) (x : TeamAt) : Bool :=
  (s.teamOf x).allExited || csave (s.saveSize x.1 x.2) < dl

/-- The team may be discarded (R28, R388). -/
def State.mayDiscard (s : State) (x : TeamAt) : Bool :=
  let t := s.teamOf x
  t.restartable && !s.hasChild t && t.issued ≤ csave (s.saveSize x.1 x.2)

/-- The area lies whole in the vaults of the partition's clusters (log 29). -/
def State.areaOk (s : State) (p : PartId) (area : BitVec 39) (size : Nat) : Bool :=
  let a := area.toNat
  implemented a && a % 2 ^ 28 + size ≤ vaultSize && (s.parts.get p).clusters.getLsbD (a / 2 ^ 36)

/-! ### Discard (R28) -/

/-- A member of a collective is gone (R295): if its addends were not all taken in, every other member fails with 0x0025. -/
def State.dropMembers (s : State) (gone : Waiter → Bool) : State :=
  { s with colls := s.colls.map fun q =>
      if q.mems.any fun m => gone m.who then
        let q1 := { q with mems := q.mems.filter fun m => !gone m.who }
        if q.result.isSome then q1 else q1.failAll fun _ => none
      else q }

/-- Translation faults that nobody waits for any more. -/
def State.forgetWaiters (s : State) (p : PartId) (gone : Waiter → Bool) : State :=
  let drop (x : XFault) : XFault := if gone x.who then { x with who := .gone } else x
  s.modPart p fun q => { q with faults := q.faults.map drop, watched := q.watched.map fun x => (x.1, drop x.2) }

/-- A fragment or an engine operation of a team. -/
def State.waiterOf (s : State) (c : CoreId) (ti : SlotId) : Waiter → Bool
  | .frag d i _ _ => d == c && (s.gangAt c i).live && (s.gangAt c i).team == ti
  | .engine d op => d == c && ((s.core c).op? op).any fun o => o.ofTeam ti
  | _ => false

/-- The entries of a team's operations leave the tables (R254, R256). -/
def State.freeLocks (s : State) (c : CoreId) (ti : SlotId) : State :=
  let k := s.core c
  let s1 := (k.engsOf ti).foldl (fun s o => s.unregister c (engKey o.id) o.ranges) s
  (k.matsOf ti).foldl (fun s m => s.unregister c (matKey m.id) m.ranges) s1

/-- The operations of a team leave the engines, and its entries the tables. -/
def State.dropOps (s : State) (c : CoreId) (ti : SlotId) : State :=
  (s.freeLocks c ti).modCore c fun k =>
    { k with eng := k.eng.filter fun o => !o.ofTeam ti, mat := k.mat.filter fun m => m.team != ti }

/-- The loads of a team in flight: nothing waits for them any more. Their data still teaches the leaf table (R227), and the team's
stores and atomics are performed all the same (R28, R443). -/
def State.dropLoads (s : State) (c : CoreId) (ti : SlotId) : State :=
  s.modCore c fun k => { k with accs := k.accs.map fun a => if a.team == ti && a.kind == .load then { a with lanes := 0 } else a }

/-- The errors of guessed lanes of a team that its late slots, and its pending results, cover no longer (R227, R228). -/
def State.dropLate (s : State) (c : CoreId) (ti : SlotId) : State :=
  let lanes (g : Gang) : List LateLane :=
    g.late.flatMap LateSlot.lanes ++ g.pend.flatMap fun p => match p.await with | .lanes _ gs => gs | _ => []
  { s with reports := s.reports ++ lostErrors ((s.teamGangs c ti).flatMap lanes) }

/-- A team is discarded (R28): its grid places it again. -/
def State.discard (s : State) (x : TeamAt) : State :=
  let t := s.teamOf x
  let gone := s.waiterOf x.1 x.2
  let s1 := ((s.forgetWaiters t.part gone).dropMembers gone).dropOps x.1 x.2
  let s2 := ((s1.dropLate x.1 x.2).dropLoads x.1 x.2).modCore x.1 fun k => (k.clearAcc (k.team x.2).atiles).dropTeam x.2
  let s3 := { s2 with
    xmsgs := s2.xmsgs.filter fun m => !(m.part == t.part && m.grid == t.gridid && m.fromTeam == t.teamid)
    xchgErrs := s2.xchgErrs.filter fun e => !(e.1 == x.1 && (s.gangAt x.1 e.2.1).live && (s.gangAt x.1 e.2.1).team == x.2) }
  let s4 := s3.modGrid t.part t.gridid fun g =>
    { g with restart := (g.restart.filter fun n => n < t.teamid.toNat) ++ t.teamid.toNat ::
        g.restart.filter fun n => t.teamid.toNat < n }
  s4.modPart t.part fun p =>
    if p.placement.contains t.gridid then p else { p with placement := p.placement ++ [t.gridid] }

/-! ### PREEMPT_REQUEST and DRAIN_EXPIRY -/

/-- The state with what pre-emption has decided for a team. -/
def State.setStopping (s : State) (x : TeamAt) (q : Stopping) : State :=
  s.modCore x.1 fun k => k.modTeam x.2 fun t => { t with stopping := q }

/-- The choice for one team (R388), made for a gathered grid as a whole: `all` are the teams for which it is made together, and
`q` is the request. -/
def State.preemptOne (s : State) (all : List TeamAt) (x : TeamAt) (q : Preempt) (t : State) : State :=
  let size := s.saveSize x.1 x.2
  let q1 : Preempt := { q with size := size }
  let tm := s.teamOf x
  if all.all (s.mayDrain q.dl) then
    t.setStopping x (.drain q1 ((s.core x.1).cycle + BitVec.ofNat 64 (q.dl - csave size)))
  else if all.all s.mayDiscard then
    (t.discard x).report (.preempt tm.gridid tm.teamid 2 size ((s.core x.1).cycle - q.since) 0)
  else t.setStopping x (.save q1)

/-- The request of a team: the choice, or, with a core of the teams for which it is made together halted or stopped, its wait for the
end of that (R396, R417). -/
def State.request (s : State) (xs : List TeamAt) (dl : Nat) (x : TeamAt) (area : BitVec 39) (t : State) : State :=
  let all := s.together xs x
  let q : Preempt := { area := area, size := s.saveSize x.1 x.2, since := (s.core x.1).cycle, dl := dl }
  if all.any fun y => s.noIssue y.1 then t.setStopping x (.asked q) else s.preemptOne all x q t

/-- A team that a request may name: resident, and not pre-empted already. -/
def State.mayPreempt (s : State) (x : TeamAt) : Bool :=
  let t := s.teamOf x
  t.live && (match t.stopping with | .no => true | _ => false)

/-- PREEMPT_REQUEST (R388, R427): one whose areas do not serve is refused (log 29). -/
def execPreemptRequest (teams : List TeamAt) (dl : Nat) (areas : List (BitVec 39)) (s : State) :
    Host.Outcome State Fault Refusal :=
  s.unlessReset
    (let xs := s.reached teams
     if !s.managed || teams.isEmpty || !xs.all s.mayPreempt || areas.length < xs.length ||
         !(xs.zip areas).all fun y => s.areaOk (s.teamOf y.1).part y.2 (s.saveSize y.1.1 y.1.2) then s.report .preemptRefused
     else (xs.zip areas).foldl (fun t y => s.request xs dl y.1 y.2 t) s)

/-- The choice that a request has waited for, once none of its cores is halted or stopped (R396, R417). -/
def State.answerAsked (s : State) (x : TeamAt) : State :=
  let all := s.together (s.reached [x]) x
  if all.any fun y => s.noIssue y.1 then s
  else all.foldl (fun t y => match (s.teamOf y).stopping with | .asked q => s.preemptOne all y q t | _ => t) s

/-- DRAIN_EXPIRY (R388): the window has ended; every team of a gathered grid is saved with it. -/
def execDrainExpiry (c : CoreId) (ti : SlotId) (s : State) : Host.Outcome State Fault Refusal :=
  .next
    (let t := (s.core c).team ti
     match t.stopping with
     | .drain _ u =>
       if !t.live || t.allExited || (s.core c).cycle.toNat < u.toNat then s
       else
         (s.together (s.reached [(c, ti)]) (c, ti)).foldl (fun s x =>
           match (s.teamOf x).stopping with
           | .drain q _ => s.setStopping x (.save q)
           | _ => s) s
     | _ => s)

/-! ### TEAM_SAVE (R389) -/

/-- The lanes of the team's loads that have a nonzero limit and no data yet are resolved as guesses (R236). -/
def State.guessTeam (s : State) (c : CoreId) (ti : SlotId) : State :=
  (s.teamSlots c ti).foldl (fun s i => (s.gangAt c i).pend.foldl (fun s p =>
    match p.await with
    | .lanes waiting _ => (waiting.filter fun w => w.2 != 0).foldl (fun s w => s.guessLane c i p.id w.1.lane) s
    | _ => s) s) s

/-- The access is the load of a lane that has been resolved as a guess. -/
def State.guessedLoad (s : State) (c : CoreId) (a : Access) : Bool :=
  a.kind == .load && !((s.gangAt c a.slot).pend.any fun p =>
    match p.await with
    | .lanes waiting _ => waiting.any fun w => w.1.acc == a.id
    | .accesses ids => ids.contains a.id
    | .demand _ ids => ids.contains a.id
    | _ => false)

/-- A fragment is inside a claimed qpush (R309): it has not reached an instruction boundary. One that is stalled on a translation fault
of its slot is saved there (R204). -/
def Gang.pushing (g : Gang) : Bool :=
  let p (w : Wait) : Bool := match w with | .qpush .. => true | _ => false
  (g.frags.toList.any fun f => f.valid && p f.wait) || (g.intrap && p g.handler.wait)

/-- Stores of the core that happen before what the team does next are not yet performed at .sys (R242, R274). -/
def State.teamBehind (s : State) (c : CoreId) (ti : SlotId) : Bool :=
  let k := s.core c
  (k.marks.any fun m => m.team == ti && !(k.still m.past).isEmpty) ||
    (k.team ti).bars.toList.any fun b => !(k.still (b.coming ++ b.given)).isEmpty

/-- The registers and the memory of a team are settled (R389 steps 2 and 4): every result but an xchg is there, and every store
and atomic is performed at .sys, with those that happen before what the team does next. -/
def State.settled (s : State) (c : CoreId) (ti : SlotId) : Bool :=
  ((s.teamSlots c ti).all fun i => (s.gangAt c i).pend.all (fun p => p.ready || p.isXchg) && !(s.gangAt c i).pushing) &&
  ((s.core c).accs.all fun a => a.team != ti || s.guessedLoad c a) && !s.teamBehind c ti &&
  !(s.xchgErrs.any fun x => x.1 == c && (s.gangAt c x.2.1).team == ti)

/-- A pending result as it is saved (R56): its late slot is discarded, and a gdemand rereads (R236). -/
def Pending.asSaved (p : Pending) : Pending := if p.isXchg then p else { p with await := .nothing }

/-- What the save of a gang keeps beside the area (log 27): `block` is where its block lies, `issued` the number of the team's next
instruction, and `todo` its operations that wait in the area. -/
def Gang.keep (g : Gang) (block issued : Nat) (todo : List (Fin 4 × Nat)) : SavedGang :=
  { gangid := g.gangid, block := block, pend := g.pend.map fun p => { p.asSaved with place := p.place - issued }
    batches := g.batches.map fun b => { b with past := [] }, todo := todo, nextOp := g.nextOp
    yields := g.frags.toList.map (·.yield), waits := g.frags.toList.map (·.wait.kept), hwait := g.handler.wait.kept
    held := g.heldTraps, debugHalt := g.debugHalt, amarks := (g.heldA.map (·.marks)).getD [] }

/-- What the save of a team keeps beside the area (log 27). -/
def State.keepTeam (s : State) (c : CoreId) (ti : SlotId) (area : BitVec 39) : SavedTeam :=
  let t := (s.core c).team ti
  let block (g : Gang) : Nat := memIx s.devid area + gangOff t.atiles.length (t.spadLen / 4096) g.gangid.toNat
  let engs := s.savedEngs c ti
  let mats := s.savedMats c ti
  { part := t.part, gridid := t.gridid, teamid := t.teamid, area := area, spadBase := t.spadBase
    gangs := (s.teamSlots c ti).map fun i =>
      let g := s.gangAt c i
      g.keep (block g) t.issued (((engs.filter (·.slot == i)).map fun o => (o.cls, o.batch)) ++
        (mats.filter (·.slot == i)).map fun m => (2, m.batch))
    ords := engs.map (·.ord) ++ mats.map (·.ord), aimgs := aimgsOf mats, recons := reconsOf engs, collNums := collNumsOf engs }

/-- A collective that is withdrawn leaves its group (R300). -/
def State.withdraw (s : State) (gone : Waiter → Bool) : State :=
  { s with colls := s.colls.map fun q =>
      { q with known := q.known && !(q.mems.any fun m => gone m.who)
               joined := q.joined.filter fun r => !(q.mems.any fun m => gone m.who && m.rank == r)
               mems := q.mems.filter fun m => !gone m.who } }

/-- The collectives of a team that run on belong to its saved gangs (R300). -/
def State.sendHome (s : State) (c : CoreId) (ti : SlotId) (run : List Nat) : State :=
  let t := (s.core c).team ti
  let home (o : EngOp) : Home := { part := t.part, gridid := t.gridid, teamid := t.teamid, gangid := (s.gangAt c o.slot).gangid }
  s.modCore c fun k =>
    { k with eng := k.eng.map fun o => if o.ofTeam ti && run.contains o.id then { o with home := some (home o) } else o }

/-- Bytes written, but for those in units that hold an uncorrectable error (R207). -/
def State.wrGood (s : State) (key a : Nat) (bs : List Byte) : State :=
  ((List.range bs.length).zip bs).foldl (fun s x => if s.bad (a + x.1) then s else s.wrByte key (a + x.1) x.2) s

/-- The pieces of an area written under the partition's key (R389), the rest of it as 0 (R390): units that lie in it whole lose their
errors, and what would be written to a part of an uncorrectable one is dropped and reported (R207). -/
def State.writeArea (s : State) (p : PartId) (area : BitVec 39) (size : Nat) (ps : List Piece) : State :=
  let a := memIx s.devid area
  let s1 := { s with badUnits := s.badUnits.filter fun u => !(a ≤ 32 * u && 32 * u + 32 ≤ a + size), relTags := tagBytes s.relTags a size [] }
  let s2 := ps.foldl (fun s x => s.wrGood (s.keyOf p) (a + x.1) x.2) (s1.wrGood (s1.keyOf p) a (List.replicate size 0))
  (s1.badUnits.filter fun u => overlap (32 * u) 32 a size).foldl (fun s u =>
    s.report (.droppedStore (BitVec.ofNat 10 (32 * u / 2 ^ 39)) (BitVec.ofNat 39 (32 * u)))) s2

/-- The save of a settled team: its area is written, its resources are freed, and the outcome is reported. Its matched collectives
run on (R300); its entries leave the tables (R256). -/
def State.spill (s : State) (c : CoreId) (ti : SlotId) (q : Preempt) : State :=
  let t := (s.core c).team ti
  let size := s.saveSize c ti
  let cycles := (s.core c).cycle - q.since
  let run := (s.runningEngs c ti).map (·.id)
  let gone (w : Waiter) : Bool := s.waiterOf c ti w && (match w with | .engine _ op => !run.contains op | _ => true)
  let s1 := s.writeArea t.part q.area size (s.savePieces c ti)
  let s2 := (({ s1 with saved := s1.saved ++ [s.keepTeam c ti q.area] }.withdraw gone).forgetWaiters t.part gone).freeLocks c ti
  let s3 := (((s2.sendHome c ti run).dropOps c ti).dropLate c ti).dropLoads c ti
  (s3.modCore c fun k => k.dropTeam ti).report (.preempt t.gridid t.teamid 3 size cycles (cycles.toNat - q.dl))

/-- The results whose windows have closed are written before the registers are saved. -/
def State.deliverTeam (s : State) (c : CoreId) (ti : SlotId) : State :=
  (s.teamSlots c ti).foldl (fun s i => s.deliver c i) s

/-- TEAM_SAVE (R389): once the team has settled; on a halted or stopped core it waits (R396, R417), and so does the choice of a
request. -/
def execTeamSave (c : CoreId) (ti : SlotId) (s : State) : Host.Outcome State Fault Refusal :=
  .next
    (let t := (s.core c).team ti
     match t.stopping with
     | .save q =>
       let s1 := (s.guessTeam c ti).deliverTeam c ti
       if !t.live || s.noIssue c || !s1.settled c ti then s else s1.spill c ti q
     | .asked _ => if t.live then s.answerAsked (c, ti) else s
     | _ => s)

/-! ### RESUME_REQUEST (R395) -/

/-- The header of an area passes the checks of R395; its ASID is the partition's, and its team does not wait already (log 29). -/
def State.mayResume (s : State) (p : PartId) (area : BitVec 39) : Option (Word × Word) :=
  let rd : AreaRd := s.areaRd p area
  let grid : Word := BitVec.ofNat 32 (rd 0x1C 4)
  let team : Word := BitVec.ofNat 32 (rd 0x18 4)
  if s.areaOk p area 256 && !s.badN (memIx s.devid area) 256 && rd 0 4 = 0x43544A46 && rd 4 4 = 1 && rd 8 4 = chipHash &&
      rd 0xC 4 = 1 && ((s.spaceOf (BitVec.ofNat 13 (rd 0x20 2))).any fun x => x.part == p) &&
      !((s.parts.get p).resumes.any fun y => y.1 == grid && y.2.1 == team) then some (grid, team)
  else none

/-- RESUME_REQUEST (R395, R427). -/
def execResumeRequest (p : PartId) (area : BitVec 39) (s : State) : Host.Outcome State Fault Refusal :=
  s.unlessReset
    (match if s.managed then s.mayResume p area else none with
     | some (g, t) => s.modPart p fun q => { q with resumes := q.resumes ++ [(g, t, area)] }
     | none => s.report (.resumeRefused area))

/-! ### The debug interface (R396 to R398) -/

/-- The partition whose cluster a core stands on. -/
def State.partOf (s : State) (c : CoreId) : Option PartId :=
  (allFin 8).find? fun p => (s.parts.get p).valid && (s.parts.get p).clusters.getLsbD (clusOf c).val

/-- The debug interface may act on a core: no partition has it, or its system software has enabled debug (R426). -/
def State.mayDebug (s : State) (c : CoreId) : Bool := (s.partOf c).all fun p => (s.parts.get p).debug

/-- CORE_HALT (R396, R426). -/
def execCoreHalt (c : CoreId) (s : State) : Host.Outcome State Fault Refusal :=
  s.unlessReset (if s.mayDebug c then s.modCore c fun k => { k with halted := true } else s.report (.refused "core halt"))

/-- QUIESCE (R397). -/
def execQuiesce (c : CoreId) (s : State) : Host.Outcome State Fault Refusal :=
  s.unlessReset
    (if !s.mayDebug c || !(s.core c).halted then s.report (.refused "quiesce")
     else s.modCore c fun k => { k with quiesce := true })

/-- QUIESCE_COMPLETE (R397). -/
def execQuiesceComplete (c : CoreId) (s : State) : Host.Outcome State Fault Refusal :=
  .next
    (let k := s.core c
     if k.quiesce && k.halted && k.accs.isEmpty && k.mat.isEmpty && !k.locks.toList.any (·.v) then
       (s.modCore c fun k => { k with quiesce := false }).report (.quiesced c)
     else s)

/-- A gang named at the end of a halt (R398): it takes DEBUG_HALT at its next issue, or, with a handler running, after its rti behind
the traps held so far (R155). -/
def Gang.haltNext (g : Gang) : Gang :=
  { g with debugHalt := some ((g.debugHalt).getD (if g.intrap then g.heldTraps.length else 0)) }

/-- HALT_END (R398). -/
def execHaltEnd (c : CoreId) (gangs : BitVec 16) (s : State) : Host.Outcome State Fault Refusal :=
  s.unlessReset
    (if !(s.core c).halted then s
     else
       s.modCore c fun k =>
         let k1 := { k with halted := false, quiesce := false }
         (allFin 16).foldl (fun (k : Core) i =>
           if gangs.getLsbD i.val && (k.gang i).live then k.modGang i Gang.haltNext else k) k1)

/-- RANGE_LOCK_TABLE_READ (R251, R397). -/
def execRangeLockTableRead (c : CoreId) (s : State) : Host.Outcome State Fault Refusal :=
  s.unlessReset
    (if s.mayDebug c then
       s.report (.lockTable c (((List.range 64).zip (s.core c).locks.toList).filter fun e => e.2.v))
     else s.report (.refused "range-lock table"))

end Sys2Proof.Machine
end

