-- ==== Sys2Proof/Machine/Queues.lean ====
section
/-!
DEFINITION. User-mode queues (R301 to R309, R373, R379, U-form 0x65): qpush, the command processor's service of queues,
the packets, and the creation and restart of queues.
-/
namespace Sys2Proof.Machine

/-! ### qpush (R309) -/

/-- The packet S[b..b+7]. -/
def State.packetOf (s : State) (b : RegField) : List DWord := (List.range 8).map fun i => s.u (b + BitVec.ofNat 6 i)

/-- The claim of an index (R309): WIDX rises by an atomic add that is an acquire and a release at .sys. -/
def State.claim (s : State) (w : Party) (d : RegField) (cb : DWord) (npkt : Nat) (rb : DWord) (pkt : List DWord) : State :=
  match s.engRead w cb 8 with
  | .error _ => s.trap .uncorrectable (BitVec.ofNat 64 (cb.toNat % 2 ^ 57))
  | .ok bs =>
    let i := le64 bs
    let s1 := ((s.engWrite w cb (leBytes 8 (i + 1).toNat)).noteOwn [(cb, 64)]).countIssue false
    ((s1.writeU d i).setWait (.qpush i cb rb npkt pkt)).finish

/-- QPUSH (R309): earlier accesses of the fragment are performed at .sys first, as the release orders. -/
def execQpush (d a b : RegField) (s : State) : Host.Outcome State Fault Refusal :=
  s.legal (.qpush d a b)
    (let cb := s.u a
     let va := cb.toNat % 2 ^ 57
     let w : Party := { core := some s.cur.core, part := s.t.part, asid := s.t.asid }
     if cb.toNat % 64 ≠ 0 then s.trap .alignFault (BitVec.ofNat 64 va)
     else if (s.u b).toNat % 256 = 0 then s.trap .engineFault (engineInfo 0x31 5)
     else
       match s.translate w.core w.asid cb 64 true with
       | .error why => s.stallFault cb 3 why
       | .ok _ =>
         match s.curCore.lockHit w.asid false va 8 true with
         | some i => s.trap .rangeLock (lockInfo cb i true)
         | none =>
           if s.unraised then s.stall
           else
             match s.engRead w (off cb 0x20) 16 with
             | .error _ => s.trap .uncorrectable (BitVec.ofNat 64 ((off cb 0x20).toNat % 2 ^ 57))
             | .ok bs => s.claim w d cb (fieldAt bs 0 8) (BitVec.ofNat 64 (fieldAt bs 8 8)) (s.packetOf b))

/-- The fragment goes on behind a qpush. -/
def State.pushDone (s : State) : State := ((s.setWait .none).modG fun g => g.advance s.cur (s.pc + 4)).finish

/-- A failure after the claim (R57, R309): trappc is the next instruction, traplate the qpush. -/
def State.pushFailed (s : State) (cause : Cause) (info : DWord) : State :=
  let pc := s.pc
  let s1 := (s.setWait .none).modG fun g => g.advance s.cur (pc + 4)
  (s1.trapAt s.cur cause s1.pc info pc).finish

/-- The fragment of a claimed qpush stalls on a translation fault (R204, R309). -/
def State.pushFault (s : State) (wait : Wait) (va : DWord) (kind : BitVec 3) (why : BitVec 4) : State :=
  (s.stallFault va kind why).setWait wait

/-- The slot of a claimed index (R301). -/
def slotVa (rb : DWord) (npkt : Nat) (i : DWord) : DWord := off rb (64 * (i.toNat % npkt))

/-- QPUSH_SLOT_WRITE (R309): once the ring has room, the body and then the header are written. -/
def State.writeSlot (s : State) (i cb rb : DWord) (npkt : Nat) (pkt : List DWord) : State :=
  let w : Party := { core := some s.cur.core, part := s.t.part, asid := s.t.asid }
  let wait : Wait := .qpushFault i cb rb npkt pkt
  match s.engRead w (off cb 8) 8 with
  | .error (.xlate va why) => s.pushFault wait va 1 why
  | .error (.bad va _ _) => s.pushFailed .uncorrectable (BitVec.ofNat 64 (va.toNat % 2 ^ 57))
  | .ok bs =>
    if leNat bs + npkt ≤ i.toNat then s
    else
      let va := slotVa rb npkt i
      match s.engMayWrite w va 64 with
      | .error (.xlate va why) => s.pushFault wait va 2 why
      | _ =>
        (((s.engWrite w (off va 8) (dwordBytes (pkt.drop 1))).engWrite w va (dwordBytes (pkt.take 1))).noteOwn [(va, 64)]).pushDone

/-- QPUSH_SLOT_WRITE (R309). -/
def execQpushSlotWrite (c : CoreId) (i : SlotId) (f : FragId) (s : State) : Host.Outcome State Fault Refusal :=
  .next
    (match s.waiterAt c i f fun w => match w with | .qpush .. => true | _ => false with
     | some (cur, .qpush n cb rb npkt pkt) => s.asCur cur fun s => s.writeSlot n cb rb npkt pkt
     | _ => s)

/-! ### Packets as words (R304, R306) -/

/-- OP of a packet. -/
def packetOp (ws : List DWord) : Nat := (ws.headD 0).toNat % 256
/-- OVL of a packet. -/
def packetOvl (ws : List DWord) : Bool := (ws.headD 0).getLsbD 8
/-- A field of a packet by byte offset. -/
def packetField (ws : List DWord) (o n : Nat) : Nat := fieldAt (dwordBytes ws) o n

/-- The bytes from an offset on are 0. -/
def restZero (ws : List DWord) (o : Nat) : Bool := ((dwordBytes ws).drop o).all (· == 0)

/-- No reserved bit or byte of a packet is nonzero, and COND, KIND and NQ lie in their ranges (R304, R306, R307). -/
def packetOk (ws : List DWord) : Bool :=
  (ws.headD 0).toNat / 2 ^ 9 % 2 ^ 23 = 0 &&
    (match packetOp ws with
     | 1 => restZero ws 8
     | 2 => packetField ws 0x20 4 < 32 && restZero ws 0x28
     | 3 => restZero ws 0x28
     | 4 => restZero ws 0x10
     | 5 => packetField ws 8 8 % 8 = 0 && packetField ws 0x20 4 ≤ 3 && restZero ws 0x24
     | 6 => packetField ws 8 8 % 8 = 0 && packetField ws 0x18 4 ≤ 1 && restZero ws 0x1C
     | 7 => restZero ws 0x10
     | 8 => packetField ws 8 4 ≤ 3 && packetField ws 0xC 4 = 0 && restZero ws (0x10 + 16 * packetField ws 8 4)
     | _ => true)

/-! ### The command processor (R305, R379) -/

/-- What serving a queue would do. -/
inductive Serve where
  /-- Nothing can be taken. -/
  | nothing
  /-- A translation fault (R305). -/
  | fault (va : DWord) (why : BitVec 4)
  /-- The queue stops (R307). -/
  | stop (tag : Word) (code : BitVec 16)
  /-- A packet is taken: its slot becomes free. -/
  | take (i : DWord) (slot : DWord) (ws : List DWord)
  /-- RIDX can be written for the packet taken. -/
  | raise (i : DWord) (ws : List DWord)
deriving DecidableEq, Repr

/-- The outcome of a failed access of a queue (R305, R307). An uncorrectable error stops it with 0x0008, also one of WIDX or RIDX in the
control block, for which R307 names no code (log 96); the TAG written then is 0 (log 70). -/
def serveError (tag : Word) : EngErr → Serve
  | .xlate va why => .fault va why
  | .bad _ _ _ => .stop tag 8

/-- Every packet taken has started (R304). -/
def Queue.allBegun (x : Queue) : Bool := x.pkts.all fun p => p.begun || p.failed

/-- The look at packet `i` of a queue (R305): its header, its reserved fields, and whether it may start. -/
def State.lookAt (s : State) (x : Queue) (w : Party) (i : DWord) : Serve :=
  let slot := slotVa x.rb x.npkt i
  match s.engRead w slot 8 with
  | .error e => serveError 0 e
  | .ok hs =>
    let h := le64 hs
    let tag : Word := half h true
    if packetOp [h] = 0 then .nothing
    else if 9 ≤ packetOp [h] then .stop tag 1
    else
      match s.engRead w slot 64 with
      | .error e => serveError tag e
      | .ok bs =>
        let ws := wordsOf bs
        if !packetOk ws then .stop tag 2
        else if (x.didx.toNat < i.toNat && !packetOvl ws) || !x.allBegun then .nothing
        else
          match s.engMayWrite w slot 8 with
          | .error e => serveError tag e
          | .ok _ => .take i slot ws

/-- The firmware's look at a queue (R305). No packet is taken while a fault of the queue or of one of its packets waits. Nothing starts before the partition's fault queue is set up (R205). -/
def State.look (s : State) (x : Queue) : Serve :=
  let w := s.queueParty x
  if x.stopped || x.faulted || x.pkts.any (·.faulted) || x.stop.isSome || (s.parts.get w.part).fq.isNone then .nothing
  else
    match x.taking, s.engRead w x.cb 16 with
    | some (i, ws), _ =>
      match s.engMayWrite w (off x.cb 8) 8 with
      | .error e => serveError (half (ws.headD 0) true) e
      | .ok _ => .raise i ws
    | none, .error e => serveError 0 e
    | none, .ok bs =>
      let i : DWord := BitVec.ofNat 64 (fieldAt bs 8 8)
      if i.toNat = fieldAt bs 0 8 then .nothing else s.lookAt x w i

/-- RIDX moves behind the packet taken, and the packet may start (R305). -/
def State.raiseRidx (s : State) (x : Queue) (i : DWord) (ws : List DWord) : State :=
  let w := s.queueParty x
  let p : Packet :=
    { idx := i, words := ws, begun := false, done := false, failed := false, head := none, grid := none, recon := none,
      run := .fresh, faulted := false, refused := false }
  match s.engMayWrite w (off x.cb 8) 8 with
  | .error (.xlate va why) => (s.modQueue x.num fun x => { x with taking := some (i, ws) }).whoFault (.queue x.num none) w.part x.asid va why
  | _ =>
    (s.engWrite w (off x.cb 8) (leBytes 8 (i + 1).toNat)).modQueue x.num fun x =>
      { x with taking := none, pkts := x.pkts ++ [p] }

/-- Serving a queue: the packet is taken, or the queue faults or stops. -/
def State.serve (s : State) (x : Queue) : State :=
  let w := s.queueParty x
  match s.look x with
  | .nothing => s
  | .fault va why => s.whoFault (.queue x.num none) w.part x.asid va why
  | .stop tag code => s.stopQueue x.num tag code
  | .take i slot ws => (s.engWrite w slot (leBytes 8 0)).raiseRidx x i ws
  | .raise i ws => s.raiseRidx x i ws

/-- The queue can be served: it has something to take, to fault on or to stop for. -/
def State.servable (s : State) (x : Queue) : Bool := s.look x != .nothing

/-- The queues of a priority in the order of R379: by queue number, from behind the queue last served. -/
def State.queueOrder (s : State) (prio : Fin 4) : List Queue :=
  let qs := s.queues.filter fun x => x.prio == prio
  match s.served.get prio with
  | none => qs
  | some q => (qs.filter fun x => q < x.num) ++ qs.filter fun x => x.num ≤ q

/-- The queue served next (R379). -/
def State.nextQueue (s : State) : Option Queue :=
  ([3, 2, 1, 0] : List (Fin 4)).findSome? fun prio => (s.queueOrder prio).find? s.servable

/-- CP_SERVE_QUEUE (R305, R379): stops still to be written come first. -/
def execCpServeQueue (s : State) : Host.Outcome State Fault Refusal :=
  .next
    (match s.queues.find? fun x => x.stop.isSome && !x.faulted with
     | some x =>
       match x.stop with
       | some (tag, code) => s.writeStop x tag code
       | none => s
     | none =>
       match s.nextQueue with
       | some x => { s.serve x with served := s.served.set x.prio (some x.num) }
       | none => s)

/-- A packet of a queue that is taken and neither done nor failed nor waiting for a fault, with its queue. -/
def State.packet? (s : State) (q : QueueId) (i : Nat) (op : Nat) : Option (Queue × Packet) :=
  match s.queue? q with
  | none => none
  | some x =>
    match x.pkt? (BitVec.ofNat 64 i) with
    | none => none
    | some p => if packetOp p.words = op && !p.done && !p.failed && !p.faulted then some (x, p) else none

/-- The state with a packet changed. -/
def State.modPacket (s : State) (q : QueueId) (i : DWord) (f : Packet → Packet) : State :=
  s.modQueue q fun x => x.modPkt i f

/-- The packet has started. -/
def State.begin_ (s : State) (q : QueueId) (i : DWord) : State := s.modPacket q i fun p => { p with begun := true }

/-- The outcome of a failed access of a packet (R305, R307). -/
def State.packetError (s : State) (x : Queue) (p : Packet) : EngErr → State
  | .xlate va why =>
    if p.refused then s.endPacket x.num p.idx 7
    else s.whoFault (.queue x.num (some p.idx)) (s.queueParty x).part x.asid va why
  | .bad _ _ _ => s.endPacket x.num p.idx 8

/-! ### NOP and LAUNCH -/

/-- NOP_PACKET (R306). -/
def execNopPacket (q : QueueId) (i : Nat) (s : State) : Host.Outcome State Fault Refusal :=
  .next (match s.packet? q i 1 with
    | some (x, p) => (s.begin_ x.num p.idx).endPacket x.num p.idx 0
    | none => s)

/-- The launch values of a packet (R306). -/
def packetAsk (ws : List DWord) : LaunchAsk := launchAsk ((dwordBytes ws).drop 8)

/-- The launcher of a packet's grid (R30, R380). -/
def State.packetLauncher (s : State) (x : Queue) (p : Packet) : Launcher :=
  { part := (s.queueParty x).part, asid := x.asid, depth := 0, prio := x.prio, parent := none, queue := some (x.num, p.idx) }

/-- The grid of a started LAUNCH packet enters the list once there is room (R308). -/
def State.enterGrid (s : State) (x : Queue) (p : Packet) (entry trapbase : DWord) : State :=
  let l := s.packetLauncher x p
  if s.listRoom l.part then
    (s.addGrid l (packetAsk p.words) { hash := chipHash, entry := entry, trapbase := trapbase }).modPacket x.num p.idx
      fun r => { r with grid := some s.newGridid }
  else s

/-- The checks of R308. -/
def State.startLaunch (s : State) (x : Queue) (p : Packet) : State :=
  let a := packetAsk p.words
  let w := s.queueParty x
  if a.teams = 0 || a.code.toNat % 256 ≠ 0 then s.endPacket x.num p.idx 0x0B
  else if !a.inRange then s.endPacket x.num p.idx 4
  else if p.refused then s.endPacket x.num p.idx 7
  else
    match s.engWhole w a.code 256 with
    | .error e => s.packetError x p e
    | .ok hs =>
      let h := codeHead a.code hs
      if h.hash ≠ chipHash then s.endPacket x.num p.idx 3
      else if a.gathered && !s.canGather w.part a then s.endPacket x.num p.idx 5
      else
        (s.modPacket x.num p.idx fun p => { p with begun := true, head := some (h.entry, h.trapbase) }).enterGrid x p h.entry
          h.trapbase

/-- LAUNCH_PACKET (R306, R308). -/
def execLaunchPacket (q : QueueId) (i : Nat) (s : State) : Host.Outcome State Fault Refusal :=
  .next (match s.packet? q i 2 with
    | none => s
    | some (x, p) =>
      match p.head, p.grid with
      | none, _ => s.startLaunch x p
      | some (e, t), none => s.enterGrid x p e t
      | some _, some _ => s)

/-! ### COPY, COLL, RECON -/

/-- COPY_PACKET (R306, R307): virtual addresses alone. -/
def execCopyPacket (q : QueueId) (i : Nat) (s : State) : Host.Outcome State Fault Refusal :=
  .next (match s.packet? q i 3 with
    | none => s
    | some (x, p) =>
      let f (o : Nat) : DWord := BitVec.ofNat 64 (packetField p.words o 8)
      let s1 := s.begin_ x.num p.idx
      match copyAsk (f 8) (f 0x10) (f 0x18) (f 0x20) false false with
      | .refused _ => s1.endPacket x.num p.idx 9
      | .nothing => s1.endPacket x.num p.idx 0
      | .ask k _ =>
        if p.refused then s1.endPacket x.num p.idx 7
        else
          match s1.copyRun (s.queueParty x) k p.run with
          | (t, r, some e) => (t.modPacket x.num p.idx fun p => { p with run := r }).packetError x p e
          | (t, r, none) => t.endPacket x.num p.idx (if r.code = 0 then 0 else 9))

/-- COLL_PACKET (R306): the block is checked under orders 2 to 6 of R293, and the member joins. -/
def execCollPacket (q : QueueId) (i : Nat) (s : State) : Host.Outcome State Fault Refusal :=
  .next (match s.packet? q i 4 with
    | none => s
    | some (x, p) =>
      let va : DWord := BitVec.ofNat 64 (packetField p.words 8 8)
      let w := s.queueParty x
      if p.begun then s
      else if va.toNat % 64 ≠ 0 then s.endPacket x.num p.idx 2
      else if p.refused then s.endPacket x.num p.idx 7
      else
        match s.engRead w va 64 with
        | .error e => s.packetError x p e
        | .ok bs =>
          let b := collBlock va bs
          if s.collCode w.part none b ≠ 0 || b.req.misaligned.isSome then s.endPacket x.num p.idx 2
          else
            (s.begin_ x.num p.idx).joinColl w.part
              { rank := b.req.rank, who := .queue x.num (some p.idx), req := b.req, asid := x.asid, core := none, code := 0,
                badAt := none, wrote := false })

/-- The start of a RECON packet: the checks of R367 (R373). -/
def State.startRecon (s : State) (x : Queue) (p : Packet) : State :=
  let va : DWord := BitVec.ofNat 64 (packetField p.words 8 8)
  if va.toNat % 64 ≠ 0 then s.endPacket x.num p.idx 2
  else if p.refused then s.endPacket x.num p.idx 7
  else
    match s.readRecon (s.queueParty x) va with
    | .error e => s.packetError x p e
    | .ok (bs, h) =>
      let r := (reconReq va bs).withHeader h
      if reconRefused bs h || r.misaligned.isSome then s.endPacket x.num p.idx 2
      else s.modPacket x.num p.idx fun p => { p with begun := true, recon := some r }

/-- RECON_PACKET (R373). -/
def execReconPacket (q : QueueId) (i : Nat) (s : State) : Host.Outcome State Fault Refusal :=
  .next (match s.packet? q i 7 with
    | none => s
    | some (x, p) =>
      match p.recon with
      | none => s.startRecon x p
      | some r =>
        match s.reconRun (s.queueParty x) r p.refused with
        | .fault va why => s.whoFault (.queue x.num (some p.idx)) (s.queueParty x).part x.asid va why
        | .ended t _ _ => t.endPacket x.num p.idx 0)

/-! ### WAITV, SIGNAL, QBAR -/

/-- The condition of WAITV (R306). -/
def waitHolds (cond : Nat) (x mask v : DWord) : Bool :=
  let y := x &&& mask
  match cond with
  | 0 => y == v
  | 1 => y != v
  | 2 => v.toNat ≤ y.toNat
  | _ => y.toNat < v.toNat

/-- WAITV_PACKET (R306). -/
def execWaitvPacket (q : QueueId) (i : Nat) (s : State) : Host.Outcome State Fault Refusal :=
  .next (match s.packet? q i 5 with
    | none => s
    | some (x, p) =>
      let f (o : Nat) : DWord := BitVec.ofNat 64 (packetField p.words o 8)
      let s1 := s.begin_ x.num p.idx
      if p.refused then s1.endPacket x.num p.idx 7
      else
        match s1.engRead (s.queueParty x) (f 8) 8 with
        | .error e => s1.packetError x p e
        | .ok bs =>
          if waitHolds (packetField p.words 0x20 4) (le64 bs) (f 0x18) (f 0x10) then s1.endPacket x.num p.idx 0 else s1)

/-- The value that SIGNAL writes (R306), or the error of its access. -/
def State.signalValue (s : State) (w : Party) (va : DWord) (v : DWord) (add : Bool) : Except EngErr DWord :=
  match s.engMayWrite w va 8 with
  | .error e => .error e
  | .ok _ => if add then (s.engRead w va 8).map fun bs => le64 bs + v else .ok v

/-- SIGNAL_PACKET (R306): a store or an atomic add, a release at .sys. An uncorrectable word drops the write (R207). -/
def execSignalPacket (q : QueueId) (i : Nat) (s : State) : Host.Outcome State Fault Refusal :=
  .next (match s.packet? q i 6 with
    | none => s
    | some (x, p) =>
      let f (o : Nat) : DWord := BitVec.ofNat 64 (packetField p.words o 8)
      let w := s.queueParty x
      let s1 := s.begin_ x.num p.idx
      if p.refused then s1.endPacket x.num p.idx 7
      else
        match s1.signalValue w (f 8) (f 0x10) (packetField p.words 0x18 4 == 1) with
        | .error (.bad _ dev pa) => (s1.report (.droppedStore dev pa)).endPacket x.num p.idx 0
        | .error e => s1.packetError x p e
        | .ok v => (s1.engWrite w (f 8) (leBytes 8 v.toNat)).endPacket x.num p.idx 0)

/-- A named queue's DIDX has reached an index (R306). -/
def State.reachedIdx (s : State) (qid idx : Nat) : Bool := s.queues.any fun x => x.num.val == qid && idx ≤ x.didx.toNat

/-- QBAR_PACKET (R306). -/
def execQbarPacket (q : QueueId) (i : Nat) (s : State) : Host.Outcome State Fault Refusal :=
  .next (match s.packet? q i 8 with
    | none => s
    | some (x, p) =>
      let s1 := s.begin_ x.num p.idx
      if (List.range (packetField p.words 8 4)).all fun n =>
          s.reachedIdx (packetField p.words (0x10 + 16 * n) 8) (packetField p.words (0x18 + 16 * n) 8) then
        s1.endPacket x.num p.idx 0
      else s1)

/-! ### Completion, creation, restart -/

/-- A packet leaves its queue, and DIDX stands behind it (R305). -/
def Queue.behind (x : Queue) (i : DWord) : Queue := { x with pkts := x.pkts.filter fun p => p.idx != i, didx := i + 1 }

/-- PACKET_COMPLETE (R305): a packet is done and every packet below it is complete; DIDX moves behind it. -/
def execPacketComplete (q : QueueId) (i : Nat) (s : State) : Host.Outcome State Fault Refusal :=
  .next (match s.queue? q with
    | none => s
    | some x =>
      let idx : DWord := BitVec.ofNat 64 i
      if x.faulted || !x.pkts.any (fun p => p.idx == idx && p.done) || x.pkts.any (fun p => p.idx.toNat < idx.toNat) then s
      else
        let w := s.queueParty x
        match s.engMayWrite w (off x.cb 0x10) 8 with
        | .error (.xlate va why) => s.whoFault (.queue q none) w.part x.asid va why
        | _ => (s.engWrite w (off x.cb 0x10) (leBytes 8 (idx + 1).toNat)).modQueue q fun x => x.behind idx)

/-- The TAG of a stop on an access that serves the queue (R305): that of the header read; none read gives 0. -/
def State.headTag (s : State) (x : Queue) : Word :=
  let w := s.queueParty x
  match x.taking, s.engRead w (off x.cb 8) 8 with
  | some (_, ws), _ => half (ws.headD 0) true
  | none, .error _ => 0
  | none, .ok bs => match s.engRead w (slotVa x.rb x.npkt (le64 bs)) 8 with
    | .error _ => 0
    | .ok hs => half (le64 hs) true

/-- RESP 2 on an access of the queue itself (R305): it stops with 0x0007. A refused DIDX or STATUS stays unwritten. -/
def State.refuseQueue (s : State) (q : QueueId) (va : DWord) : State :=
  match s.queue? q with
  | none => s
  | some x =>
    let s1 := s.modQueue q fun x => { x with faulted := false }
    if va = off x.cb 0x18 then s1.modQueue q fun x => { x with stopped := true, stop := none }
    else if va = off x.cb 0x10 then
      match x.pkts with
      | [] => s1
      | p :: _ => (s1.modQueue q fun x => x.behind p.idx).stopQueue q p.tag 7
    else (s1.modQueue q fun x => { x with taking := none }).stopQueue q (if va = x.cb then 0 else s1.headTag x) 7

/-- A queue's values may be taken (R302): the addresses and NPKT in range, the ASID allotted, the number free. -/
def State.queueOk (s : State) (q : QueueId) (asid : Asid) (cb rb : DWord) (npkt : Nat) : Bool :=
  cb.toNat % 64 = 0 && rb.toNat % 64 = 0 && 1 ≤ npkt && npkt ≤ 2 ^ 24 && (s.spaceOf asid).isSome && (s.queue? q).isNone

/-- Insertion by queue number. -/
def insertQueue (x : Queue) : List Queue → List Queue
  | [] => [x]
  | y :: ys => if x.num < y.num then x :: y :: ys else y :: insertQueue x ys

/-- QUEUE_CREATE (R302, R426, R427), by the hypervisor: the ring and the index words become 0 (log 30). -/
def execQueueCreate (q : QueueId) (asid : Asid) (prio : Fin 4) (cb rb : DWord) (npkt : Nat) (s : State) :
    Host.Outcome State Fault Refusal :=
  s.unlessReset
    (let x : Queue :=
       { num := q, asid := asid, prio := prio, cb := cb, rb := rb, npkt := npkt, didx := 0, stopped := false, stop := none,
         faulted := false, taking := none, pkts := [] }
     let w := s.queueParty x
     if !s.hyper || !s.queueOk q asid cb rb npkt then s.report (.refused "queue")
     else
       let block := List.replicate 32 0 ++ leBytes 8 npkt ++ leBytes 8 rb.toNat ++ List.replicate 16 0
       let s1 := (s.engWrite w cb block).engWrite w rb (List.replicate (64 * npkt) 0)
       { s1 with queues := insertQueue x s1.queues })

/-- QUEUE_RESTART (R305, R427): the queue goes on at RIDX (log 31). -/
def execQueueRestart (q : QueueId) (s : State) : Host.Outcome State Fault Refusal :=
  s.unlessReset
    (match s.queue? q with
     | none => s.report (.refused "queue")
     | some x =>
       if !s.managed || !x.stopped then s.report (.refused "queue") else s.modQueue q fun x => { x with stopped := false })

end Sys2Proof.Machine
end

