-- ==== Sys2Proof/Machine/Faults.lean ====
section
/-!
DEFINITION. The fault queue of a partition (R204, R205): its set-up, the entries that the device writes, and the answers of
system software.
-/
namespace Sys2Proof.Machine

/-! ### Set-up -/

/-- A physical address lies, for `size` bytes, in one vault of the partition's clusters. -/
def State.ownVault (s : State) (p : PartId) (a size : Nat) : Bool :=
  a < 2 ^ 39 && implemented a && a % 2 ^ 28 + size ≤ vaultSize && (s.parts.get p).clusters.getLsbD (a / 2 ^ 36)

/-- NENT is a power of two from 64 to 65536 (R205). -/
def nentOk (n : Nat) : Bool := (List.range 11).any fun i => n == 2 ^ (6 + i)

/-- The set-up values of a fault queue (R205); an alert word that is not aligned is refused (log 32). -/
def State.fqOk (s : State) (p : PartId) (cb ring : BitVec 39) (nent : Nat) (alert : BitVec 39) : Bool :=
  nentOk nent && cb.toNat % 4096 = 0 && ring.toNat % 4096 = 0 && s.ownVault p cb.toNat 64 &&
    s.ownVault p ring.toNat (32 * nent) && (alert == 0 || (alert.toNat % 8 = 0 && s.ownVault p alert.toNat 8))

/-- The control block as set-up writes it. -/
def fqBlock (ring : BitVec 39) (nent : Nat) (alert : BitVec 39) : List Byte :=
  List.replicate 16 0 ++ leBytes 8 nent ++ leBytes 8 ring.toNat ++ leBytes 8 alert.toNat ++ List.replicate 24 0

/-- A request is made on a session bound to the partition, and to no other (R427). -/
def State.bound (s : State) (agent : Option PartId) (p : PartId) : Bool :=
  agent == some p && (s.parts.get p).valid && s.spdm.sessions.any fun x => x.finished && x.part == some p && x.port.isNone

/-- Bytes written at a physical address under the partition's key, unit by unit. -/
def State.physPut (s : State) (p : PartId) (a : Nat) (bs : List Byte) : State :=
  (pieces (BitVec.ofNat 64 a) bs.length).foldl (fun (x : State × List Byte) y =>
    let i := memIx x.1.devid (BitVec.ofNat 39 y.1.toNat)
    ({ x.1.storeUnit (x.1.keyOf p) i (x.2.take y.2) with relTags := tagBytes x.1.relTags i y.2 [] }, x.2.drop y.2))
    (s, bs) |>.1

/-- Eight bytes at a physical address under the partition's key. -/
def State.physRead (s : State) (p : PartId) (a : Nat) : DWord :=
  le64 (s.rdN (s.keyOf p) (memIx s.devid (BitVec.ofNat 39 a)) 8)

/-- The unit of a physical address holds an uncorrectable error. -/
def State.physBad (s : State) (a : Nat) : Bool := s.bad (memIx s.devid (BitVec.ofNat 39 a))

/-- FAULT_QUEUE_SETUP (R205, R427). Set up again, the queue takes the unanswered faults once more (log 32). -/
def execFaultQueueSetup (agent : Option PartId) (p : PartId) (cb ring : BitVec 39) (nent : Nat) (alert : BitVec 39)
    (s : State) : Host.Outcome State Fault Refusal :=
  s.unlessReset
    (if !s.bound agent p || !s.fqOk p cb ring nent alert then
       s.report (.refused "fault queue")
     else
       (s.physPut p cb.toNat (fqBlock ring nent alert)).modPart p fun q =>
         { q with
           fq := some { cb := cb, ring := ring, nent := nent, alert := alert, widx := 0, told := false }
           faults := q.watched.map (·.2) ++ q.faults, watched := [] })

/-! ### Entries -/

/-- The 32 bytes of an entry (R204), RESP 0. -/
def XFault.bytes (x : XFault) : List Byte :=
  leBytes 8 (x.va.toNat % 2 ^ 57) ++
  leBytes 8 (x.asid.toNat + x.clus.toNat * 2 ^ 13 + x.core.toNat * 2 ^ 16 + x.slot.toNat * 2 ^ 24 + x.kind.toNat * 2 ^ 28 +
    x.why.toNat * 2 ^ 31) ++
  leBytes 8 x.queue.toNat ++ leBytes 8 0

/-- Address of entry `i` (R205). -/
def FaultQueue.entry (q : FaultQueue) (i : Nat) : Nat := q.ring.toNat + 32 * (i % q.nent)

/-- A word that writing an entry needs stands in an uncorrectable unit (R205). -/
def State.fqBad (s : State) (q : FaultQueue) : Bool :=
  s.physBad q.cb.toNat || (q.alert != 0 && s.physBad q.alert.toNat)

/-- An uncorrectable word is signalled, once until the queue goes on (R205). -/
def State.tellWord (s : State) (p : PartId) (q : FaultQueue) : State :=
  if q.told then s else (s.modPart p fun r => { r with fq := some { q with told := true } }).report (.faultWordError p)

/-- An entry is written, WIDX is raised, the alert word counts, and system software is signalled (R205 items 2 and 3). -/
def State.writeEntry (s : State) (p : PartId) (q : FaultQueue) (x : XFault) : State :=
  let i := q.widx.toNat
  let s1 := s.physPut p (q.entry i) x.bytes
  let s2 := s1.physPut p q.cb.toNat (leBytes 8 (i + 1))
  let s3 := if q.alert = 0 then s2
    else s2.physPut p q.alert.toNat (leBytes 8 (s2.physRead p q.alert.toNat + 1).toNat)
  (s3.modPart p fun r =>
    { r with faults := r.faults.drop 1, watched := r.watched ++ [(i, x)], fq := some { q with widx := q.widx + 1, told := false } }).report
    (.faultSignal p)

/-- FAULT_ENTRY_WRITE (R205): the oldest fault of the partition, once the ring has room. -/
def execFaultEntryWrite (p : PartId) (s : State) : Host.Outcome State Fault Refusal :=
  .next
    (match (s.parts.get p).fq, (s.parts.get p).faults with
     | some q, x :: _ =>
       if s.fqBad q then s.tellWord p q
       else if (s.physRead p (q.cb.toNat + 8)).toNat + q.nent ≤ q.widx.toNat then s
       else s.writeEntry p q x
     | _, _ => s)

/-! ### Answers -/

/-- XLATE_FAULT's trapinfo (R152). -/
def xlateInfo (va : DWord) : DWord := BitVec.ofNat 64 (va.toNat % 2 ^ 57)

/-- RESP 1: the access is tried again (R204, R281, R305, R309). -/
def State.retryFault (s : State) (x : XFault) : State :=
  match x.who with
  | .frag c i hnd f =>
    s.asCur { core := c, slot := i, hnd := hnd, frag := f } fun s =>
      match if hnd then s.g.handler.wait else s.f.wait with
      | .fault => (s.setWait .none).modG Gang.settle
      | .qpushFault n cb rb npkt pkt => s.setWait (.qpush n cb rb npkt pkt)
      | _ => s
  | w => s.setWho w false false

/-- RESP 2: the access is refused (R204, R281, R307, R309). For a qpush that has claimed its index, also where its read of RIDX has
faulted, the trap names its slot (log 97). -/
def State.refuseFault (s : State) (x : XFault) : State :=
  match x.who with
  | .frag c i hnd f =>
    s.asCur { core := c, slot := i, hnd := hnd, frag := f } fun s =>
      match if hnd then s.g.handler.wait else s.f.wait with
      | .fault => s.trapAt s.cur .xlateFault s.pc (xlateInfo x.va) 0
      | .qpushFault n _ rb npkt _ => s.pushFailed .xlateFault (xlateInfo (slotVa rb npkt n))
      | _ => s
  | .queue q none => s.refuseQueue q x.va
  | w => s.setWho w false true

/-- FAULT_RESP (R204, R205): the RESP word of entry `i` holds 1 or 2. -/
def execFaultResp (p : PartId) (i : Nat) (s : State) : Host.Outcome State Fault Refusal :=
  .next
    (match (s.parts.get p).fq, (s.parts.get p).watched.find? fun x => x.1 == i with
     | some q, some (_, x) =>
       let a := q.entry i + 0x18
       let s1 := s.modPart p fun r =>
         { r with watched := r.watched.filter fun y => y.1 != i, fq := some { q with told := false } }
       if s.physBad a then s.tellWord p q
       else if s.physRead p a = 1 then s1.retryFault x
       else if s.physRead p a = 2 then s1.refuseFault x
       else s
     | _, _ => s)

end Sys2Proof.Machine
end

