-- ==== Sys2Proof/Machine/Admin.lean ====
section
/-!
DEFINITION. The partition management interface (R195, R198, R200, R203, R292, R382, R387, R404, R405, R413, R418, R424 to
R427) and the accesses of the host (R409). A request that its rule does not accept is reported as refused and changes
nothing else.
-/
namespace Sys2Proof.Machine

/-- A refused request. -/
def State.refuse (s : State) (what : String) : State := s.report (.refused what)

/-- A request of the management interface (R427): accepted it gives `t`, else it is refused under its name. -/
def State.manage (s : State) (ok : Bool) (what : String) (t : State) : Host.Outcome State Fault Refusal :=
  s.unlessReset (if ok then t else s.refuse what)

/-! ### Partitions -/

/-- The sum of the guaranteed floors (R415). -/
def State.floors (s : State) : Nat := s.parts.toList.foldl (fun n p => if p.valid then n + p.floor else n) 0

/-- Clusters of the partitions there are. -/
def State.takenClusters (s : State) : BitVec 8 :=
  s.parts.toList.foldl (fun m p => if p.valid then m ||| p.clusters else m) 0

/-- The clusters named by a mask, rising. -/
def clustersOf (m : BitVec 8) : List ClusId := (allFin 8).filter fun k => m.getLsbD k.val

/-- A partition can be created (R415, R426): by the hypervisor, where its number and clusters are free and the floors fit under the
cap. -/
def State.mayCreate (s : State) (p : PartId) (clusters : BitVec 8) (floor : Nat) : Bool :=
  s.hyper && !(s.parts.get p).valid && clusters != 0 && (clusters &&& s.takenClusters) == 0 && s.floors + floor ≤ s.cap

/-- A cluster as the creation of partition `p` leaves it: on the rail (R413), with no interleave region (R198), and with the
partition's budgets at reset (R405). -/
def Cluster.join (k : Cluster) (p : PartId) (rail : RailId) : Cluster :=
  { k with rail := rail, ilvQ := 0, ilvZ := 0, inForce := k.inForce.set p (Vector.replicate 6 Budget.reset) }

/-- The cores of a cluster. -/
def coresOf (k : ClusId) : List CoreId := (List.range 192).map fun i => coreAt k i

/-- Every debug halt on some clusters ends (R426, log 90). -/
def State.unhalt (s : State) (clusters : BitVec 8) : State :=
  (((clustersOf clusters).flatMap coresOf).filter fun c => (s.core c).halted || (s.core c).quiesce).foldl
    (fun (s : State) c => s.modCore c fun k => { k with halted := false, quiesce := false }) s

/-- The new partition, with a memory key of its own (R424). -/
def State.newPartition (s : State) (clusters : BitVec 8) (floor : Nat) (ownerKeys : PubKeys) : Partition :=
  { Partition.reset with valid := true, clusters := clusters, floor := floor, key := s.nextKey, ownerKeys := ownerKeys }

/-- PARTITION_CREATE (R198, R382, R387, R413, R415, R418, R424, R426, R427). -/
def execPartitionCreate (p : PartId) (clusters : BitVec 8) (floor : Nat) (rail : RailId) (ownerKeys : PubKeys) (s : State) :
    Host.Outcome State Fault Refusal :=
  s.manage (s.mayCreate p clusters floor) "partition create"
    (let s1 := (clustersOf clusters).foldl (fun (s : State) k => s.modClus k fun x => x.join p rail) (s.unhalt clusters)
     { s1 with nextKey := s.nextKey + 1, parts := s.parts.set p (s.newPartition clusters floor ownerKeys) })

/-- PARTITION_DESTROY (R425, R426): the destruction waits for KEY_ERASE. -/
def execPartitionDestroy (p : PartId) (s : State) : Host.Outcome State Fault Refusal :=
  s.manage (s.hyper && (s.parts.get p).valid) "partition destroy" (s.modPart p fun q => { q with destroying := true })

/-- A packet makes an engine operation: a copy, a collective or a reconciliation (R306). -/
def engPacket (p : Packet) : Bool := (packetOp p.words == 3 || packetOp p.words == 4 || packetOp p.words == 7)

/-- A team, or an engine operation, of a partition is still there (R425, log 33): what a queue's other packets do, the command
processor does (R424), and nothing waits for them. -/
def State.partBusy (s : State) (p : PartId) : Bool :=
  (s.cores.toList.any fun k =>
    (k.liveTeams.any fun t => t.part == p) || (k.eng.any fun o => o.part == p) ||
      (k.accs.any fun a => a.part == p) || (k.mat.any fun m => (k.team m.team).part == p)) ||
  (s.saved.any fun t => t.part == p) ||
  (s.queues.any fun x => (s.queueParty x).part == p && x.pkts.any fun y => engPacket y && y.begun && !y.done && !y.failed)

/-- The spaces of a partition. -/
def State.asidsOf (s : State) (p : PartId) : List Asid := (s.spaces.filter fun x => x.part == p).map (·.asid)

/-- The translations of some address spaces are dropped. -/
def State.dropTlb (s : State) (gone : TlbEntry → Bool) : State :=
  { s with
    cores := s.cores.map fun k => { k with tlb := k.tlb.filter fun t => !gone t }
    clusters := s.clusters.map fun k => { k with tcache := k.tcache.filter fun t => !gone t } }

/-- The end of a partition (R425): its key is erased, and what belongs to it goes with it (log 33). -/
def State.endPartition (s : State) (p : PartId) : State :=
  let mine := s.asidsOf p
  let s1 := s.dropTlb fun t => mine.contains t.asid
  { s1 with
    parts := s.parts.set p Partition.reset
    spaces := s.spaces.filter fun x => x.part != p
    queues := s.queues.filter fun x => !mine.contains x.asid
    grids := s.grids.filter fun g => g.part != p
    groups := s.groups.filter fun g => g.part != p
    colls := s.colls.filter fun q => q.part != p
    invals := s.invals.filter fun x => !mine.contains x.1
    hostAsid := s.hostAsid.filter fun a => !mine.contains a
    spdm := { s.spdm with sessions := s.spdm.sessions.filter fun x => x.part != some p } }

/-- KEY_ERASE (R425). -/
def execKeyErase (p : PartId) (s : State) : Host.Outcome State Fault Refusal :=
  .next
    (let q := s.parts.get p
     if !q.valid || !q.destroying || s.partBusy p then s else (s.endPartition p).report (.destroyed p))

/-- ASID_ALLOT (R195, R426), by the hypervisor. -/
def execAsidAllot (p : PartId) (asid : Asid) (s : State) : Host.Outcome State Fault Refusal :=
  s.manage (s.hyper && (s.parts.get p).valid && (s.spaceOf asid).isNone) "asid"
    { s with spaces := s.spaces ++ [{ asid := asid, part := p, root := none }] }

/-! ### Translation -/

/-- The agent's partition holds an ASID (R427). -/
def State.ownsAsid (s : State) (agent : Option PartId) (asid : Asid) : Bool :=
  (s.spaceOf asid).any fun x => s.bound agent x.part

/-- ROOT_TABLE_SET (R195, R427). -/
def execRootTableSet (agent : Option PartId) (asid : Asid) (root : BitVec 39) (s : State) : Host.Outcome State Fault Refusal :=
  s.manage (s.ownsAsid agent asid) "root table"
    { s with spaces := s.spaces.map fun x => if x.asid == asid then { x with root := some root } else x }

/-- The accesses in flight of an address space. -/
def State.flights (s : State) (asid : Asid) : List (CoreId × Nat) :=
  (allFin 1536).flatMap fun c => ((s.core c).accs.filter fun a => a.asid == asid).map fun a => (c, a.id)

/-- TRANSLATION_INVALIDATE (R203, R427): the held translations of the address go; the completion waits for the accesses of
the space in flight. -/
def execTranslationInvalidate (agent : Option PartId) (asid : Asid) (va : DWord) (s : State) :
    Host.Outcome State Fault Refusal :=
  s.manage (s.ownsAsid agent asid) "invalidate"
    { s.dropTlb (fun t => t.serves asid va) with invals := s.invals ++ [(asid, va, s.flights asid)] }

/-- INVALIDATION_COMPLETE (R203). -/
def execInvalidationComplete (asid : Asid) (va : DWord) (s : State) : Host.Outcome State Fault Refusal :=
  .next
    (match s.invals.find? fun x => x.1 == asid && x.2.1 == va with
     | none => s
     | some x =>
       if x.2.2.any fun y => ((s.core y.1).acc? y.2).isSome then s
       else { s with invals := s.invals.erase x }.report (.invalidated asid va))

/-- The partition of a core's vault may be changed by the agent (R427). -/
def State.ownsCore (s : State) (agent : Option PartId) (c : CoreId) : Bool := (s.partOf c).any fun p => s.bound agent p

/-- A private size fits beside the interleave region of its vault (R198, R200). -/
def State.sizeFits (s : State) (c : CoreId) (size : Nat) : Bool :=
  let k := s.clusters.get (clusOf c)
  size % 2 ^ 21 = 0 && size ≤ 2 ^ 27 && (k.ilvZ = 0 || k.ilvQ + k.ilvZ + size ≤ vaultSize)

/-- PRIVATE_SIZE_SET (R198, R200, R427): refused where it does not fit, and where the owner is no ASID of the partition
(log 34). -/
def execPrivateSizeSet (agent : Option PartId) (c : CoreId) (size : Nat) (asid : Asid) (s : State) :
    Host.Outcome State Fault Refusal :=
  s.manage (s.ownsCore agent c && s.ownsAsid agent asid && s.sizeFits c size) "private size"
    (s.modCore c fun x => { x with psize := size, powner := asid })

/-- An interleave region fits beside the private sizes of its vaults (R198). -/
def State.regionFits (s : State) (k : ClusId) (q z : Nat) : Bool :=
  q % 2 ^ 21 = 0 && z % 2 ^ 21 = 0 && (coresOf k).all fun c => q + z + (s.core c).psize ≤ vaultSize

/-- INTERLEAVE_SET (R198, R427). -/
def execInterleaveSet (agent : Option PartId) (k : ClusId) (q z : Nat) (s : State) : Host.Outcome State Fault Refusal :=
  s.manage (s.ownsCore agent (coreAt k 0) && s.regionFits k q z) "interleave"
    (s.modClus k fun x => { x with ilvQ := q, ilvZ := z })

/-- DEBUG_ENABLE (R426, R427). -/
def execDebugEnable (agent : Option PartId) (p : PartId) (s : State) : Host.Outcome State Fault Refusal :=
  s.manage (s.bound agent p) "debug" (s.modPart p fun q => { q with debug := true })

/-! ### Policies -/

/-- The budget that a PBUDGET value gives (R405): COLLPRI counts in class 3 alone. -/
def budgetOf (cls : Fin 6) (v : DWord) : Budget :=
  { collpri := cls == 3 && v.getLsbD 25, unlim := v.getLsbD 24, flits := v.extractLsb' 0 24 }

/-- PBUDGET_WRITE (R405, R426), by the hypervisor: each crossbar takes it at its next period. -/
def execPbudgetWrite (p : PartId) (cls : Fin 6) (value : DWord) (s : State) : Host.Outcome State Fault Refusal :=
  s.manage (s.hyper && (s.parts.get p).valid) "budget"
    (s.modPart p fun q => { q with budgets := q.budgets.set cls (budgetOf cls value) })

/-- ESCWAIT_WRITE (R404, R426), by the hypervisor: below 16 sets 16. -/
def execEscwaitWrite (value : DWord) (s : State) : Host.Outcome State Fault Refusal :=
  let v : BitVec 12 := value.extractLsb' 0 12
  s.manage s.hyper "network register" { s with escwait := if v.toNat < 16 then 16 else v }

/-- A partition with a policy value written, if the value is in range (R382, R387, R418). -/
def Partition.setPolicy (q : Partition) (pol : Policy) (v : Nat) : Option Partition :=
  match pol with
  | .pack => if v ≤ 1 then some { q with pack := v == 1 } else none
  | .run => if 1 ≤ v && v ≤ 16 then some { q with run := v } else none
  | .wdlim => if 2 ^ 16 ≤ v && v ≤ 2 ^ 40 then some { q with wdlim := v } else none

/-- POLICY_REGISTER_WRITE (R382, R387, R418, R426), by the hypervisor: a value out of range is refused (log 35). -/
def execPolicyRegisterWrite (p : PartId) (pol : Policy) (value : Nat) (s : State) : Host.Outcome State Fault Refusal :=
  s.unlessReset
    (match s.hyper && (s.parts.get p).valid, (s.parts.get p).setPolicy pol value with
     | true, some q => s.modPart p fun _ => q
     | _, _ => s.refuse "policy")

/-- A team is resident on a cluster. -/
def State.resident (s : State) (k : ClusId) : Bool :=
  (coresOf k).any fun c => !(s.core c).liveTeams.isEmpty

/-- RAIL_SET (R413, R426), by the hypervisor. -/
def execRailSet (k : ClusId) (rail : RailId) (s : State) : Host.Outcome State Fault Refusal :=
  s.manage (s.hyper && !s.resident k) "rail" (s.modClus k fun x => { x with rail := rail })

/-- The groups but one. -/
def State.otherGroups (s : State) (p : PartId) (group : Nat) : List Group :=
  s.groups.filter fun g => !(g.part == p && g.num == group)

/-- A group may be defined (R292): up to 4096 of a partition, and none with a collective under way (log 36). -/
def State.mayDefine (s : State) (p : PartId) (group : Nat) (members : List Member) : Bool :=
  s.managed && (s.parts.get p).valid && !members.isEmpty && (s.otherGroups p group).countP (fun g => g.part == p) < 4096 &&
    !s.colls.any fun q => q.part == p && q.group == group

/-- COLLECTIVE_GROUP_DEFINE (R292). -/
def execCollectiveGroupDefine (p : PartId) (group : Nat) (d : GroupDef) (s : State) : Host.Outcome State Fault Refusal :=
  s.manage (s.mayDefine p group d.members) "group"
    { s with groups := s.otherGroups p group ++ [{ part := p, num := group, members := d.members, tree := d.tree, counts := [] }] }

/-! ### The host (R409) -/

/-- HOST_ASID_BIND (R409): by the system software of the ASID's partition, since the host then reads its memory as plaintext
(R426). -/
def execHostAsidBind (b : HostBind) (s : State) : Host.Outcome State Fault Refusal :=
  s.manage (s.ownsAsid b.agent b.asid) "host" { s with hostAsid := some b.asid }

/-- A failed access of the host is answered with its address (log 37). -/
def State.hostError (s : State) : EngErr → State
  | .xlate va _ => s.report (.hostFault va)
  | .bad va _ _ => s.report (.hostFault va)

/-- The access of a host as a party on no core, under the key of the partition of its ASID (R409, R424). -/
def State.hostAccess (s : State) (w : Party) : HostOp → State
  | .load va n =>
    match s.engRead w va n with
    | .error e => s.hostError e
    | .ok bs => s.report (.hostData va bs)
  | .store va bs _ =>
    match s.engMayWrite w va bs.length with
    | .error e => s.hostError e
    | .ok _ => s.engWrite w va bs
  | .atomicAdd va v =>
    match s.engMayWrite w va 8, s.engRead w va 8 with
    | .error e, _ => s.hostError e
    | _, .error e => s.hostError e
    | _, .ok bs => (s.engWrite w va (leBytes 8 (le64 bs + v).toNat)).report (.hostData va bs)

/-- HOST_LOAD_STORE (R303, R409): performed at .sys as it arrives; with no ASID bound it finds nothing. -/
def execHostLoadStore (op : HostOp) (s : State) : Host.Outcome State Fault Refusal :=
  s.unlessReset
    (match s.hostAsid.bind s.spaceOf with
     | none => s.refuse "host access"
     | some x => s.hostAccess { core := none, part := x.part, asid := x.asid } op)

end Sys2Proof.Machine
end

