-- ==== Sys2Proof/Machine/Power.lean ====
section
/-!
DEFINITION. The power controller (R411 to R418) and the sensors and caps of board management (R429).
-/
namespace Sys2Proof.Machine

/-! ### The cap (R415, R429) -/

/-- The value a cap write asks for, after clamping. -/
def clampCap (watts : Nat) : Nat := if watts < 420 then 420 else if 2700 < watts then 2700 else watts

/-- POWER_CAP_WRITE (R415): a clamp is reported, and a value below the sum of the floors is refused. -/
def execPowerCapWrite (watts : Nat) (s : State) : Host.Outcome State Fault Refusal :=
  s.unlessReset
    (let v := clampCap watts
     let s1 := if v = watts then s else { s with capEvent := .clamped v }.report (.capClamped v)
     if v < s.floors then { s1 with capEvent := .refused v }.report (.capRefused v) else { s1 with cap := v })

/-! ### Rails (R413, R414) -/

/-- The clusters on a rail, rising. -/
def State.onRail (s : State) (r : RailId) : List ClusId := (allFin 8).filter fun k => (s.clusters.get k).rail == r

/-- Pass count 4 on some clusters. -/
def State.setPasses (s : State) (ks : List ClusId) (n : BitVec 3) : State :=
  ks.foldl (fun (s : State) k => s.modClus k fun x => { x with passes := n }) s

/-- PHASE_FAILURE (R414): PHASEOK and ILIM fall, and the rail's clusters go to pass count 4. -/
def execPhaseFailure (rail : RailId) (s : State) : Host.Outcome State Fault Refusal :=
  s.unlessReset
    (let r := s.rails.get rail
     if r.phaseok = 0 then s
     else
       let ok := r.phaseok - 1
       ({ s with rails := s.rails.set rail { phaseok := ok, ilim := 60 * ok.setWidth 16 } }.setPasses (s.onRail rail) 4).report
         (.phaseFailed rail))

/-- The pass count below one (R411). -/
def lowerPass (n : BitVec 3) : BitVec 3 := if n = 4 then 2 else 1

/-- PASS_COUNT_LOWER (R414): one cluster at a time, in ascending clusid, while the rail's current stays below ILIM. -/
def execPassCountLower (k : ClusId) (current : Nat) (s : State) : Host.Outcome State Fault Refusal :=
  s.unlessReset
    (let r := (s.clusters.get k).rail
     if current < (s.rails.get r).ilim.toNat &&
         (s.onRail r).find? (fun x => (s.clusters.get x).passes != 1) == some k then
       s.modClus k fun x => { x with passes := lowerPass x.passes }
     else s)

/-! ### The cap kept (R416) -/

/-- A cluster that a step of throttling still slows: below pass count 4, or not yet on the lower clock. -/
def Cluster.maySlow (k : Cluster) : Bool := k.passes = 1 || k.passes = 2 || !k.lowClock

/-- The partition that draws furthest above its floor among those that can still be slowed; the lowest number between equals
(log 38). -/
def State.furthest (s : State) (draw : List Nat) : Option PartId :=
  ((allFin 8).foldl (fun (m : Option (PartId × Nat)) p =>
    let q := s.parts.get p
    let over_ := draw.getD p.val 0 - q.floor
    if !q.valid || over_ = 0 || !(clustersOf q.clusters).any fun k => (s.clusters.get k).maySlow then m
    else match m with
      | none => some (p, over_)
      | some x => if x.2 < over_ then some (p, over_) else m) none).map (·.1)

/-- A cluster throttled by one step: the next pass count, then the lower clock (log 38). -/
def Cluster.slow (k : Cluster) : Cluster :=
  if k.passes = 1 then { k with passes := 2 } else if k.passes = 2 then { k with passes := 4 } else { k with lowClock := true }

/-- The power that the partitions draw together. -/
def totalDraw (draw : List Nat) : Nat := draw.foldl (· + ·) 0

/-- The controller's answer to the power of a window (R416): above the cap the partition furthest above its floor is throttled
by one step; otherwise lowered clocks rise again. -/
def State.keepCap (s : State) (draw : List Nat) : State :=
  if totalDraw draw ≤ s.cap then { s with clusters := s.clusters.map fun k => { k with lowClock := false } }
  else
    match s.furthest draw with
    | none => s
    | some p => (clustersOf (s.parts.get p).clusters).foldl (fun (s : State) k => s.modClus k Cluster.slow) s

/-- POWER_WINDOW (R416, R429): power in watts, and the die temperatures measured. -/
def execPowerWindow (x : PowerSample) (s : State) : Host.Outcome State Fault Refusal :=
  s.unlessReset { s.keepCap x.draw with power := totalDraw x.draw, dies := Vector.ofFn fun k => x.dies.getD k.val 0 }

/-! ### DRAM temperature (R417) -/

/-- The hottest junction of a cluster's stack is measured (R417, R429), and the controller acts on it where `act` holds. -/
def State.measured (s : State) (k : ClusId) (temp : Nat) (act : Bool) (f : Cluster → Cluster) : State :=
  let s1 := { s with junctions := s.junctions.set k temp }
  if act then s1.modClus k f else s1

/-- REFRESH_DOUBLE (R417). -/
def execRefreshDouble (k : ClusId) (temp : Nat) (s : State) : Host.Outcome State Fault Refusal :=
  s.unlessReset (s.measured k temp (85 < temp) fun x => { x with refresh2 := true })

/-- REFRESH_RATE_RESTORE (R417). -/
def execRefreshRateRestore (k : ClusId) (temp : Nat) (s : State) : Host.Outcome State Fault Refusal :=
  s.unlessReset (s.measured k temp (temp ≤ 85) fun x => { x with refresh2 := false })

/-- THERMAL_THROTTLE (R417): pass count 4 and the lowest clock. -/
def execThermalThrottle (k : ClusId) (temp : Nat) (s : State) : Host.Outcome State Fault Refusal :=
  let act : Bool := 90 ≤ temp && !(s.clusters.get k).throttled
  let t := s.measured k temp act fun x => { x with throttled := true }
  s.unlessReset (if act then t.report (.throttled k) else t)

/-- THERMAL_THROTTLE_END (R417): the pass count and the clock are again as the power controller has set them. -/
def execThermalThrottleEnd (k : ClusId) (temp : Nat) (s : State) : Host.Outcome State Fault Refusal :=
  s.unlessReset (s.measured k temp (temp < 90) fun x => { x with throttled := false })

/-- THERMAL_STOP (R417). -/
def execThermalStop (k : ClusId) (temp : Nat) (s : State) : Host.Outcome State Fault Refusal :=
  let act : Bool := 95 ≤ temp && !(s.clusters.get k).stopped
  let t := s.measured k temp act fun x => { x with stopped := true }
  s.unlessReset (if act then t.report (.stopped k) else t)

/-- THERMAL_STOP_END (R417). -/
def execThermalStopEnd (k : ClusId) (temp : Nat) (s : State) : Host.Outcome State Fault Refusal :=
  s.unlessReset (s.measured k temp (temp < 90) fun x => { x with stopped := false })

/-- The package in reset: what outlives it is its devid, the fused minimum version, the record of the last thermal trip, what the
sensors show, the counts of the model, and what it has reported. -/
def State.cleared (s : State) : State :=
  { State.reset with
    devid := s.devid, minVersion := s.minVersion, trip := s.trip, nextKey := s.nextKey, free := s.free
    junctions := s.junctions, power := s.power, dies := s.dies, bootMin := s.bootMin, reports := s.reports, agenda := s.agenda, inReset := true }

/-- THERMAL_TRIP (R417): every vault, scratchpad and register is lost. -/
def execThermalTrip (k : ClusId) (temp : Nat) (s : State) : Host.Outcome State Fault Refusal :=
  let t := s.measured k temp false id
  s.unlessReset (if 105 ≤ temp then { t.cleared with trip := some k } else t)

/-- The clusters for which `p` holds, as a mask. -/
def State.clusMask (s : State) (p : Cluster → Bool) : BitVec 8 :=
  (allFin 8).foldl (fun m k => if p (s.clusters.get k) then m ||| BitVec.twoPow 8 k.val else m) 0

/-- A measured quantity by its number: a die temperature, a junction temperature or the package power (R429). -/
def State.sensed (s : State) (i : Nat) : Nat := (s.dies.toList ++ s.junctions.toList ++ [s.power]).getD i 0

/-- What a read of an I3C register below 0x14 shows (R429): the sensors, the cap in watts, the last cap clamp (1) or refusal (2)
with its watts, PHASEOK of each rail, and the image that failed boot. Nothing else is reachable (log 91). -/
def State.i3c (s : State) (reg : Nat) : Option (List Nat) :=
  if reg < 0x10 then some ((Config.sensorShows reg).map s.sensed)
  else if reg = 0x10 then some [s.cap]
  else if reg = 0x11 then
    some (match s.capEvent with
      | .none => [0, 0]
      | .clamped w => [1, w]
      | .refused w => [2, w])
  else if reg = 0x12 then some (s.rails.toList.map fun r => r.phaseok.toNat)
  else if reg = 0x13 then some [s.bootImage]
  else none

/-- THERMAL_STATE_READ (R429 register 0x14): reading clears the trip record. -/
def execThermalStateRead (s : State) : Host.Outcome State Fault Refusal :=
  .next ({ s with trip := none }.report (.thermal (s.clusMask (·.throttled)) (s.clusMask (·.stopped)) s.trip))

/-! ### Gating and watchdogs (R412, R418) -/

/-- A core with no resident team and no outstanding engine operation (R412). -/
def Core.vacant (k : Core) : Bool := k.liveTeams.isEmpty && k.eng.isEmpty && k.mat.isEmpty

/-- CORE_GATE (R412). -/
def execCoreGate (c : CoreId) (s : State) : Host.Outcome State Fault Refusal :=
  s.unlessReset
    (if (s.core c).vacant && 1024 ≤ (s.core c).idle then s.modCore c fun k => { k with gated := true } else s)

/-- The report of a gang whose watchdog has reached WDLIM (R418). -/
def State.hangReport (s : State) (c : CoreId) (i : SlotId) : Report :=
  let g := s.gangAt c i
  let t := s.teamAt c i
  .hang t.gridid t.teamid g.gangid (clusOf c) (coreidOf c)

/-- WATCHDOG_EXPIRY (R418): reported once for each hang; the gang does not trap. -/
def execWatchdogExpiry (c : CoreId) (i : SlotId) (s : State) : Host.Outcome State Fault Refusal :=
  .next
    (let g := s.gangAt c i
     if g.live && !g.hung && (s.parts.get (s.teamAt c i).part).wdlim ≤ g.watchdog then
       (s.modGangAt c i fun g => { g with hung := true }).report (s.hangReport c i)
     else s)

end Sys2Proof.Machine
end

