-- ==== Sys2Proof/Machine/Network.lean ====
section
/-!
DEFINITION. The crossbars (R400, R403, R405, R412) and the links (R176, R295, R409, R410, R421, R428).
-/
namespace Sys2Proof.Machine

/-! ### Crossbar outputs (R400, R405) -/

/-- An output of a crossbar; one that nothing has been granted yet. -/
def Cluster.output (k : Cluster) (o : Fin 208) : XbarOut :=
  (k.outs.find? fun x => x.out == o).getD { out := o, order := [], lock := none }

/-- The cluster with an output changed. -/
def Cluster.setOutput (k : Cluster) (x : XbarOut) : Cluster :=
  { k with outs := x :: k.outs.filter fun y => y.out != x.out }

/-- Flits of a partition and class granted in this period. -/
def Cluster.granted (k : Cluster) (p : PartId) (c : Fin 6) : Nat :=
  ((k.flits.find? fun x => x.1 == p && x.2.1 == c).map (·.2.2)).getD 0

/-- One more flit of a partition and class. -/
def Cluster.countFlit (k : Cluster) (p : PartId) (c : Fin 6) : Cluster :=
  { k with flits := (p, c, k.granted p c + 1) :: k.flits.filter fun x => !(x.1 == p && x.2.1 == c) }

/-- The budget in force for a partition and class. -/
def Cluster.budget (k : Cluster) (p : PartId) (c : Fin 6) : Budget := (k.inForce.get p).get c

/-- The flit is in budget at an output, or has been promoted (R405). -/
def Cluster.inBudget (k : Cluster) (o : Fin 208) (f : Flit) : Bool :=
  let b := k.budget f.part f.cls
  b.unlim || k.granted f.part f.cls < b.flits.toNat || k.promoted.contains (o, f.input)

/-- A flit yields to a collective flit of its partition where COLLPRI is set (R400 item 2). -/
def Cluster.yieldsTo (k : Cluster) (fs : List Flit) (f : Flit) : Bool :=
  (k.budget f.part 3).collpri && !f.collective && fs.any fun g => g.part == f.part && g.collective

/-- The candidates of R400 items 1 and 2. -/
def Cluster.candidates (k : Cluster) (o : Fin 208) (fs : List Flit) : List Flit :=
  let ins := fs.filter (k.inBudget o)
  if ins.isEmpty then fs else ins.filter fun f => !k.yieldsTo ins f

/-- The rank of an input in the order of R400 item 3: one never granted comes first, by port number (log 39). -/
def XbarOut.rank (x : XbarOut) (i : Fin 208) : Nat :=
  match x.order.findIdx? (· == i) with
  | none => i.val
  | some n => 208 + n

/-- The least recently granted of some flits. -/
def XbarOut.oldest (x : XbarOut) (fs : List Flit) : Option Flit :=
  fs.foldl (fun m f => match m with
    | none => some f
    | some g => if x.rank f.input < x.rank g.input then some f else m) none

/-- The flit that an output grants (R400): while a message passes, only its input. -/
def Cluster.choose (k : Cluster) (o : Fin 208) (fs : List Flit) : Option Flit :=
  let x := k.output o
  match x.lock with
  | some i => fs.find? fun f => f.input == i
  | none => x.oldest (k.candidates o fs)

/-- A flit is granted: its input becomes the most recently granted, and keeps the output until the message ends. -/
def Cluster.grant (k : Cluster) (o : Fin 208) (f : Flit) : Cluster :=
  let x := k.output o
  let k1 := (k.countFlit f.part f.cls).setOutput
    { x with order := (x.order.filter (· != f.input)) ++ [f.input], lock := if f.last then none else some f.input }
  { k1 with promoted := k1.promoted.filter fun y => y != (o, f.input) }

/-! ### The escape channels (R399, R403) -/

/-- Row and column of a die. -/
def dieRow (k : ClusId) : Nat := k.val / 4
def dieCol (k : ClusId) : Nat := k.val % 4

/-- A port of a die's crossbar that leads to a neighbour: to the left, to the right, or to the other row. -/
def dieLeft : Fin 208 := 192
def dieRight : Fin 208 := 193
def dieAcross : Fin 208 := 194

/-- The die that a port leads to. -/
def dieNext (k : ClusId) (port : Fin 208) : ClusId :=
  if port = dieLeft then k - 1 else if port = dieRight then k + 1 else if port = dieAcross then k + 4 else k

/-- The port along the row, where the destination stands in another column. -/
def rowHop (k d : ClusId) : Option (Fin 208) :=
  if dieCol d < dieCol k then some dieLeft else if dieCol k < dieCol d then some dieRight else none

/-- The port across the rows, where the destination stands in the other. -/
def colHop (k d : ClusId) : Option (Fin 208) := if dieRow k ≠ dieRow d then some dieAcross else none

/-- The minimal hops towards a die. -/
def minimalHops (k d : ClusId) : List (Fin 208) := (rowHop k d).toList ++ (colHop k d).toList

/-- The hop of a message on an escape channel: along the row to the destination's column, then across the rows. -/
def escapeHop (k d : ClusId) : Option (Fin 208) := (rowHop k d).or (colHop k d)

/-- The message on an escape channel that a flit at a die belongs to. -/
def State.escapedMsg (s : State) (k : ClusId) (f : Flit) : Option Msg :=
  s.escaped.find? fun m => f.msg == some m.num && m.place == k && m.cls == f.cls

/-- A flit requests an output that its message may take: on an escape channel, only that of its next hop. -/
def State.onRoute (s : State) (k : ClusId) (o : Fin 208) (f : Flit) : Bool :=
  (s.escapedMsg k f).all fun m => escapeHop m.place m.dest == some o

/-- A message over its next hop: it stays on the escape channel until it reaches its destination die. -/
def hopMsg (m : Msg) (o : Fin 208) : Option Msg :=
  let k := dieNext m.place o
  if k = m.dest then none else some { m with place := k }

/-- The last flit of a message has passed an output. -/
def State.carry (s : State) (k : ClusId) (o : Fin 208) (f : Flit) : State :=
  match s.escapedMsg k f with
  | some m => if f.last then { s with escaped := s.escaped.filterMap fun x => if x == m then hopMsg m o else some x } else s
  | none => s

/-- The output is gated (R412): it leads to a core, and every core of the cluster is gated. -/
def State.outGated (s : State) (k : ClusId) (o : Fin 208) : Bool :=
  o.val < 192 && (coresOf k).all fun c => (s.core c).gated

/-- CROSSBAR_GRANT (R400, R403, R405, R412): one output of a cluster's crossbar in one cycle. -/
def execCrossbarGrant (k : ClusId) (out : Fin 208) (reqs : List Flit) (s : State) : Host.Outcome State Fault Refusal :=
  s.unlessReset
    (if s.outGated k out then s
     else
       match (s.clusters.get k).choose out (reqs.filter (s.onRoute k out)) with
       | none => s
       | some f => (s.modClus k fun x => x.grant out f).carry k out f)

/-- BUDGET_PERIOD_END (R405): the counts return to 0 and budgets written take effect. -/
def execBudgetPeriodEnd (k : ClusId) (s : State) : Host.Outcome State Fault Refusal :=
  s.unlessReset (s.modClus k fun x => { x with flits := [], inForce := s.parts.map (·.budgets) })

/-- BEST_EFFORT_PROMOTE (R405). -/
def execBestEffortPromote (k : ClusId) (out input : Fin 208) (waited : Nat) (s : State) : Host.Outcome State Fault Refusal :=
  s.unlessReset
    (if 8192 ≤ waited then s.modClus k fun x =>
       { x with promoted := if x.promoted.contains (out, input) then x.promoted else x.promoted ++ [(out, input)] }
     else s)

/-- ESCAPE_ENTER (R403): `blocked` is the least number of cycles for which a minimal hop of the message has been blocked. -/
def execEscapeEnter (msg : Msg) (blocked : Nat) (s : State) : Host.Outcome State Fault Refusal :=
  s.unlessReset
    (if s.escwait.toNat ≤ blocked && !(minimalHops msg.place msg.dest).isEmpty && !s.escaped.any (fun m => m.num == msg.num)
     then { s with escaped := s.escaped ++ [msg] } else s)

/-! ### Links (R409, R410, R428) -/

/-- A link by port; one never brought up is down. -/
def State.link (s : State) (p : LinkPort) : Link :=
  (s.links.find? fun x => x.port == p).getD { port := p, up := false, tx := 0, rx := 0, sent := 0, received := 0, authFails := 0 }

/-- The state with a link replaced. -/
def State.setLink (s : State) (x : Link) : State := { s with links := x :: s.links.filter fun y => y.port != x.port }

/-- A group's collectives use a link (R292, R410): a Brodlink port of its tree, or the Ethernet port of a rank outside the
load-store domain. -/
def Group.crosses (g : Group) : LinkPort → Bool
  | .brodlink i => g.tree.contains i
  | .ethernet i => g.members.any fun m => m.port == some i

/-- A collective that still gathers crosses a link. -/
def State.collCrosses (s : State) (p : LinkPort) (q : Collective) : Bool :=
  q.result.isNone && (s.group? q.part q.group).any fun g => g.crosses p

/-- A link goes down: the collectives on it fail (R295, log 40), and the exchanges `lost` on it fail as R176 says. -/
def State.dropLink (s : State) (p : LinkPort) (lost : List Exchange) : State :=
  let s1 := s.setLink { s.link p with up := false, tx := 0, rx := 0, sent := 0, received := 0, authFails := 0 }
  { s1 with
    colls := s1.colls.map fun (q : Collective) => if s1.collCrosses p q then q.failAll fun _ => none else q
    xchgErrs := s1.xchgErrs ++ lost.filter s1.exchangeSent }.report (.linkDown p)

/-- LINK_DOWN (R176, R295, R409, R428). -/
def execLinkDown (d : LinkDrop) (s : State) : Host.Outcome State Fault Refusal :=
  s.unlessReset (if (s.link d.port).up then s.dropLink d.port d.lost else s)

/-- FRAME_AUTH_FAIL (R428): the frame is dropped and resent; the sixteenth in a row takes the link down. -/
def execFrameAuthFail (f : FrameFail) (s : State) : Host.Outcome State Fault Refusal :=
  s.unlessReset
    (let x := s.link f.port
     let n := if f.good then 1 else x.authFails + 1
     if !x.up then s
     else if 16 ≤ n then s.dropLink f.port f.lost
     else s.setLink { x with authFails := n, received := x.received + 1 })

/-- A link with `n` more frames in a direction. -/
def Link.pass (x : Link) (inward : Bool) (n : Nat) : Link :=
  if inward then { x with received := x.received + n } else { x with sent := x.sent + n }

/-- The frames of a direction under its key. -/
def Link.frames (x : Link) (inward : Bool) : Nat := if inward then x.received else x.sent

/-- A link with a new key in one direction, its frames counted anew. -/
def Link.rekey (x : Link) (inward : Bool) (key : Nat) : Link :=
  if inward then { x with rx := key, received := 0 } else { x with tx := key, sent := 0 }

/-- The key that replaces that of a direction: on Brodlink the one that follows it, on Ethernet the one that system software installs
(log 109). -/
def Link.newKey (x : Link) (k : KeyChange) : Nat :=
  match k.port with
  | .brodlink _ => nextKeyOf (if k.rx then x.rx else x.tx)
  | .ethernet _ => k.key

/-- LINK_KEY_REPLACE (R428): frames pass, and after 2^40 under one key it is replaced; a link that cannot complete that goes down. -/
def execLinkKeyReplace (k : KeyChange) (s : State) : Host.Outcome State Fault Refusal :=
  s.unlessReset
    (let x := (s.link k.port).pass k.rx k.frames
     if !x.up then s
     else if x.frames k.rx < 2 ^ 40 then s.setLink x
     else if !k.ok || x.newKey k = 0 then s.dropLink k.port k.lost
     else s.setLink (x.rekey k.rx (x.newKey k)))

/-- A certificate chain verifies from some keys on (R420, R421). -/
def chainFrom : PubKeys → List Cert → Bool
  | _, [] => true
  | keys, x :: xs => bothOk keys x.bytes x.rsaSig x.slhSig && chainFrom (Config.keysIn x.bytes) xs

/-- A chain that ends at a Yalvex root, given from the root on (R421). -/
def chainOk (xs : List Cert) : Bool := !xs.isEmpty && chainFrom Config.rootKeys xs

/-- The session between the two ends of a Brodlink link, by its number (R428). -/
def State.linkSession (s : State) (i : Fin 24) (id : Nat) : Option Session :=
  s.spdm.sessions.find? fun x => x.id == id && x.finished && x.port == some i

/-- A link is up under the keys of a session: what the responder sends goes outward (log 109). -/
def State.raiseLink (s : State) (p : LinkPort) (x : Session) : State :=
  s.setLink { port := p, up := true, tx := x.rspKey, rx := x.reqKey, sent := 0, received := 0, authFails := 0 }

/-- LINK_UP (R421, R428): both chains of a Brodlink peer must verify, and the keys come from the session with it; an Ethernet port comes
up with the keys installed (log 78). -/
def execLinkUp (l : LinkRaise) (rsaChain slhChain : List Cert) (s : State) : Host.Outcome State Fault Refusal :=
  s.unlessReset
    (if (s.link l.port).up then s
     else
       match l.port with
       | .brodlink i =>
         match s.linkSession i l.session with
         | some x => if chainOk rsaChain && chainOk slhChain then s.raiseLink l.port x else s.refuse "link"
         | none => s.refuse "link"
       | .ethernet _ =>
         if (s.link l.port).tx = 0 || (s.link l.port).rx = 0 then s.refuse "link"
         else s.setLink { s.link l.port with up := true, authFails := 0 })

/-- ETHERNET_KEY_INSTALL (R428). -/
def execEthernetKeyInstall (port : Fin 8) (keys : LinkKeys) (s : State) : Host.Outcome State Fault Refusal :=
  s.unlessReset (s.setLink { s.link (.ethernet port) with tx := keys.tx, rx := keys.rx, sent := 0, received := 0 })

end Sys2Proof.Machine
end

