-- ==== Sys2Proof/Machine/Trust.lean ====
section
/-!
DEFINITION. The root of trust: boot (R419, R420), and the SPDM responder (R421 to R423, R427).
-/
namespace Sys2Proof.Machine

/-! ### Boot -/

/-- The bytes of an image that are signed and measured: its security version and its body (log 92). -/
def imageBytes (x : Image) : List Byte := leBytes 4 x.version.toNat ++ x.body

/-- An image verifies (R420): both signatures over its bytes, and a version that is not below the fused minimum. -/
def imageOk (minVersion : Nat) (x : Image) : Bool :=
  bothOk Config.rootKeys (imageBytes x) x.rsaSig x.slhSig && minVersion ≤ x.version.toNat

/-- The index from `n` on of the first image that does not verify, or that is missing among those up to the third. -/
def stopFrom (minVersion : Nat) : Nat → List Image → Option Nat
  | n, [] => if n ≤ 3 then some n else none
  | n, x :: xs => if imageOk minVersion x then stopFrom minVersion (n + 1) xs else some n

/-- The images of a boot (R419): of the power controller, of link training and of the SPDM responder, in this order. -/
def bootImages (flash : List Image) : List Image := flash.take 3

/-- The index of the image at which boot stops. -/
def bootStop (minVersion : Nat) (flash : List Image) : Option Nat := stopFrom minVersion 1 (bootImages flash)

/-- PACKAGE_RESET (R419, R420): the fuses are measured first; then the images are verified one at a time, and a higher version raises the fused minimum only
once every image has verified. -/
def execPackageReset (flash : List Image) (s : State) : Host.Outcome State Fault Refusal :=
  .next
    (match bootStop s.minVersion flash with
     | some i => { s.cleared with bootImage := i, bootMin := s.minVersion }.report (.bootFailed i)
     | none =>
       { s.cleared with
         inReset := false, bootMin := s.minVersion, images := (bootImages flash).map imageBytes
         minVersion := (bootImages flash).foldl (fun m x => Nat.max m x.version.toNat) s.minVersion })

/-! ### Identity (R421) -/

/-- The public halves of the identity keys of the package. -/
def idKeys : PubKeys := Config.idKeys Config.fusedSecret

/-- The certificate chain of a slot. -/
def idChain (slot : Fin 2) : List Byte := Config.certChain slot idKeys

/-! ### SPDM messages -/

/-- A message of SPDM 1.3, a request or an answer, by its code (log 14). -/
def spdmMsg (code : Byte) (body : List Byte) : List Byte := [0x13, code] ++ body

/-- An answer of the responder. -/
def State.answer (s : State) (what : String) (message : List Byte) : State := s.report (.spdm what message)

/-- The signatures of both identity keys over one transcript (R422). -/
def dualSigned (transcript : List Byte) (salt : Nat) : List Byte :=
  Config.signature 0 Config.fusedSecret transcript salt ++ Config.signature 1 Config.fusedSecret transcript salt

/-- An answer with a value drawn at random, and both signatures over the transcript so far with this answer (R422); the signatures' salt
is drawn too (log 14). -/
def State.answerSigned (s : State) (what : String) (before : List Byte) (code : Byte) (body : List Byte) : State :=
  let r := spdmMsg code (body ++ leBytes 32 (Config.spdmData s.free))
  { s with free := s.free + 2 }.answer what (r ++ dualSigned (before ++ r) (Config.spdmData (s.free + 1)))

/-- An SPDM error. -/
def State.spdmError (s : State) (what : String) : State := s.answer what []

/-- The responder with a change. -/
def State.modSpdm (s : State) (f : Spdm → Spdm) : State := { s with spdm := f s.spdm }

/-- A request reaches the responder only out of reset, and in the order of SPDM. -/
def State.spdmRequest (s : State) (ready : Bool) (t : State) : Host.Outcome State Fault Refusal :=
  .next (if s.inReset then s else if ready then t else s.spdmError "UnexpectedRequest")

/-- GET_VERSION (R422): SPDM 1.3; a new negotiation begins, and every session ends (log 80). -/
def execGetVersion (s : State) : Host.Outcome State Fault Refusal :=
  s.spdmRequest true
    (let r := spdmMsg 0x04 [0x13]
     (s.modSpdm fun _ =>
       { version := true, caps := false, algs := false, vca := spdmMsg 0x84 [] ++ r, ident := [], sessions := [] }).answer "VERSION" r)

/-- What the responder can do (R422), as flags of SPDM 1.3: certificates, challenge, signed measurements, encryption,
authentication, mutual authentication and key exchange (log 14). -/
def spdmFlags : Nat := 0x3D6

/-- GET_CAPABILITIES (R422). -/
def execGetCapabilities (s : State) : Host.Outcome State Fault Refusal :=
  s.spdmRequest s.spdm.version
    (let r := spdmMsg 0x61 (leBytes 4 spdmFlags)
     (s.modSpdm fun x => { x with caps := true, vca := x.vca ++ spdmMsg 0xE1 [] ++ r }).answer "CAPABILITIES" r)

/-- Algorithms as bytes. -/
def algBytes (x : SpdmAlgs) : List Byte := [x.rsaPss3072, x.sha384, x.p384, x.aes256gcm].map fun b => BitVec.ofNat 8 b.toNat

/-- NEGOTIATE_ALGORITHMS (R422): the supported algorithms alone. -/
def execNegotiateAlgorithms (alg : SpdmAlgs) (s : State) : Host.Outcome State Fault Refusal :=
  s.spdmRequest s.spdm.caps
    (let ok := alg.rsaPss3072 && alg.sha384 && alg.p384 && alg.aes256gcm
     let r := spdmMsg 0x63 (algBytes alg)
     (s.modSpdm fun x => { x with algs := ok, vca := x.vca ++ spdmMsg 0xE3 (algBytes alg) ++ r }).answer "ALGORITHMS" r)

/-- A request about the identity and its answer: both belong to the transcript of the next challenge. -/
def State.answerIdent (s : State) (what : String) (req r : List Byte) : State :=
  (s.modSpdm fun x => { x with ident := x.ident ++ req ++ r }).answer what r

/-- GET_DIGESTS (R422): one digest for each of the two chains. -/
def execGetDigests (s : State) : Host.Outcome State Fault Refusal :=
  s.spdmRequest s.spdm.algs (s.answerIdent "DIGESTS" (spdmMsg 0x81 []) (spdmMsg 0x01 (sha384 (idChain 0) ++ sha384 (idChain 1))))

/-- A certificate slot (R422): 0 holds the RSA chain, 1 the SLH-DSA chain. -/
def certSlot (slot : Nat) : Option (Fin 2) := if slot = 0 then some 0 else if slot = 1 then some 1 else none

/-- GET_CERTIFICATE (R421, R422). -/
def execGetCertificate (slot : Nat) (s : State) : Host.Outcome State Fault Refusal :=
  s.spdmRequest s.spdm.algs
    (match certSlot slot with
     | none => s.spdmError "InvalidRequest"
     | some i => s.answerIdent "CERTIFICATE" (spdmMsg 0x82 (leBytes 1 slot)) (spdmMsg 0x02 (leBytes 1 slot ++ idChain i)))

/-- CHALLENGE (R422): the answer carries the RSA-PSS and the SLH-DSA signature over the negotiation, the messages about the identity, the
challenge and the answer. -/
def execChallenge (slot : Nat) (nonce : Nat) (s : State) : Host.Outcome State Fault Refusal :=
  s.spdmRequest s.spdm.algs
    (match certSlot slot with
     | none => s.spdmError "InvalidRequest"
     | some i =>
       (s.modSpdm fun x => { x with ident := [] }).answerSigned "CHALLENGE_AUTH"
         (s.spdm.vca ++ s.spdm.ident ++ spdmMsg 0x83 (leBytes 1 slot ++ leBytes 32 nonce)) 0x03 (leBytes 1 slot ++ sha384 (idChain i)))

/-! ### Measurements (R423) -/

/-- A pair of public keys as bytes (log 74). -/
def keyBytes (k : PubKeys) : List Byte := beBytes 384 k.rsaN ++ beBytes 4 k.rsaE ++ k.slh

/-- One partition of the partition map: number, clusters, floor, the rail of each of its clusters, and the digest of its owner
public keys (log 74). -/
def State.mapEntry (s : State) (p : PartId) : List Byte :=
  let q := s.parts.get p
  if q.valid then
    leBytes 1 p.val ++ leBytes 1 q.clusters.toNat ++ leBytes 4 q.floor ++
      (clustersOf q.clusters).flatMap (fun k => leBytes 1 (s.clusters.get k).rail.val) ++ sha384 (keyBytes q.ownerKeys)
  else []

/-- Block 8: the partition map. -/
def State.partitionMap (s : State) : List Byte := (allFin 8).flatMap s.mapEntry

/-- Block 9: the budgets and policies of a partition (log 74). -/
def State.policies (s : State) (p : PartId) : List Byte :=
  let q := s.parts.get p
  (q.budgets.toList.flatMap fun b => leBytes 1 b.collpri.toNat ++ leBytes 1 b.unlim.toNat ++ leBytes 3 b.flits.toNat) ++
    leBytes 1 q.pack.toNat ++ leBytes 2 q.run ++ leBytes 8 q.wdlim

/-- A firmware image that runs, by index from 1 (R419). -/
def State.runningImage (s : State) (i : Nat) : List Byte := s.images.getD (i - 1) (Config.bootImage i)

/-- The fuses without the fused secret, as this boot measured them before any image (R419). -/
def State.measuredFuses (s : State) : List Byte := Config.fuses ++ leBytes 4 s.bootMin

/-- A measurement block (R423), for a request on the session of a partition or on another. -/
def State.measurement (s : State) (agent : Option PartId) (index : Nat) : Option (List Byte) :=
  match index with
  | 1 => some (sha384 Config.romImage)
  | 2 => some (sha384 s.measuredFuses)
  | 3 => some (leBytes 4 chipHash)
  | 4 => some (sha384 (s.runningImage 1))
  | 5 => some (sha384 (s.runningImage 2))
  | 6 => some (sha384 (s.runningImage 3))
  | 7 => some (leBytes 4 s.minVersion)
  | 8 => some (sha384 s.partitionMap)
  | 9 => (agent.filter fun p => s.bound (some p) p).map fun p => sha384 (s.policies p)
  | _ => none

/-- The blocks there are for a request, each with its index. -/
def State.blocks (s : State) (agent : Option PartId) : List (Nat × List Byte) :=
  (List.range 10).filterMap fun i => (s.measurement agent i).map fun m => (i, m)

/-- A block as an answer holds it: its index, its length and its bytes (log 14). -/
def blockBytes (x : Nat × List Byte) : List Byte := leBytes 1 x.1 ++ leBytes 2 x.2.length ++ x.2

/-- The blocks that a request names: 0 asks for their number, 0xFF for all (log 14). -/
def State.measured? (s : State) (agent : Option PartId) (index : Nat) : Option (List Byte) :=
  if index = 0 then some (leBytes 1 (s.blocks agent).length)
  else if index = 0xFF then some ((s.blocks agent).flatMap blockBytes)
  else (s.measurement agent index).map fun m => blockBytes (index, m)

/-- GET_MEASUREMENTS (R422, R423): read at one instant, with both signatures over the negotiation, the request and the answer. -/
def execGetMeasurements (agent : Option PartId) (index : Nat) (nonce : Nat) (s : State) : Host.Outcome State Fault Refusal :=
  s.spdmRequest s.spdm.algs
    (match s.measured? agent index with
     | none => s.spdmError "InvalidRequest"
     | some ms =>
       s.answerSigned "MEASUREMENTS" (s.spdm.vca ++ spdmMsg 0xE0 (leBytes 1 index ++ leBytes 32 nonce)) 0x60 ms)

/-! ### Sessions (R422, R427) -/

/-- A session by number. -/
def State.session? (s : State) (id : Nat) : Option Session := s.spdm.sessions.find? fun x => x.id == id

/-- The scalar that the root of trust draws for an exchange: from 1 to below the order of the curve. -/
def p384Scalar (n : Nat) : Nat := Config.spdmData n % (p384N - 1) + 1

/-- A point as bytes; that at infinity, which no multiple of these scalars is, as zeros. -/
def pointBytes (a : Option (Nat × Nat)) : List Byte := match a with | some a => beBytes 48 a.1 ++ beBytes 48 a.2 | none => List.replicate 96 0

/-- The device's point of an exchange with the scalar `d`, and the x coordinate that both ends have. -/
def dhePoint (d : Nat) : List Byte := pointBytes (p384Mul 384 d (some p384G))
def dheShared (d : Nat) (x : DheShare) : List Byte := (pointBytes (p384Mul 384 d (some (x.x, x.y)))).take 48

/-- The transcript of a session up to the request that opens it. -/
def State.exchangeReq (s : State) (x : DheShare) : List Byte :=
  s.spdm.vca ++ sha384 (idChain 0) ++ spdmMsg 0xE4 (leBytes 4 x.session ++ beBytes 48 x.x ++ beBytes 48 x.y)

/-- A new session, with the answer `r` that opens it in its transcript (R427, log 14). -/
def State.newSession (s : State) (x : DheShare) (d : Nat) (r : List Byte) : Session :=
  { id := x.session, transcript := s.exchangeReq x ++ r, secret := handshakeSecret (dheShared d x), reqKey := 0, rspKey := 0
    port := x.port, finished := false, part := none }

/-- KEY_EXCHANGE (R422): over P-384, with a scalar drawn at random. -/
def execKeyExchange (x : DheShare) (s : State) : Host.Outcome State Fault Refusal :=
  s.spdmRequest s.spdm.algs
    (if (s.session? x.session).isSome || !onP384 (x.x, x.y) then s.spdmError "InvalidRequest"
     else
       let d := p384Scalar s.free
       let body := leBytes 4 x.session ++ dhePoint d
       let r := spdmMsg 0x64 (body ++ leBytes 32 (Config.spdmData (s.free + 1)))
       ({ s with free := s.free + 1 }.modSpdm fun m => { m with sessions := m.sessions ++ [s.newSession x d r] }).answerSigned
         "KEY_EXCHANGE_RSP" (s.exchangeReq x) 0x64 body)

/-- The session of a FINISH: its keys come from the secret of the exchange and the whole transcript. -/
def Session.finish (x : Session) (req r : List Byte) (p : Option PartId) : Session :=
  let th := sha384 (x.transcript ++ req ++ r)
  { x with finished := true, part := p, reqKey := sessionKey x.secret th false, rspKey := sessionKey x.secret th true }

/-- FINISH and its answer. -/
def finishReq (id : Nat) : List Byte := spdmMsg 0xE5 (leBytes 4 id)
def finishRsp (id : Nat) : List Byte := spdmMsg 0x65 (leBytes 4 id)

/-- The session of a FINISH goes into force. -/
def State.finishSession (s : State) (id : Nat) (p : Option PartId) : State :=
  (s.modSpdm fun x => { x with sessions := x.sessions.map fun y =>
    if y.id == id then y.finish (finishReq id) (finishRsp id) p else y }).answer "FINISH_RSP" (finishRsp id)

/-- The transcript of a session verifies under both owner keys of a partition (R420, R427). -/
def State.ownerSigned (s : State) (x : Session) (q : PartId) (rsaSig slhSig : List Byte) : Bool :=
  (s.parts.get q).valid && bothOk (s.parts.get q).ownerKeys (x.transcript ++ finishReq x.id) rsaSig slhSig

/-- FINISH (R427): signed by the owner keys of a partition the session is bound to it; a session of a link's far end to none. -/
def execFinish (session : Nat) (p : Option PartId) (rsaSig slhSig : List Byte) (s : State) :
    Host.Outcome State Fault Refusal :=
  s.spdmRequest ((s.session? session).any fun x => !x.finished)
    (match p with
     | none => s.finishSession session none
     | some q =>
       if (s.session? session).any fun x => x.port.isNone && s.ownerSigned x q rsaSig slhSig then s.finishSession session (some q)
       else s.spdmError "DecryptError")

/-- END_SESSION (R422). -/
def execEndSession (session : Nat) (s : State) : Host.Outcome State Fault Refusal :=
  s.spdmRequest (s.session? session).isSome
    ((s.modSpdm fun x => { x with sessions := x.sessions.filter fun y => y.id != session }).answer "END_SESSION_ACK" (spdmMsg 0x6C []))

/-- The request codes of SPDM 1.3 that the responder has (R422, log 14). -/
def spdmCodes : List Byte := [0x81, 0x82, 0x83, 0x84, 0xE0, 0xE1, 0xE3, 0xE4, 0xE5, 0xEC]

/-- UNSUPPORTED_REQUEST (R422): any other request code; one of the ten is the event of its own request. -/
def execUnsupportedRequest (code : Byte) (s : State) : Host.Outcome State Fault Refusal :=
  s.spdmRequest true (if spdmCodes.contains code then s else s.answer "UnsupportedRequest" (spdmMsg 0x7F [0x07, code]))

end Sys2Proof.Machine
end

