-- ==== Sys2Proof/Machine/Issue.lean ====
section
/-!
DEFINITION. Issue: fetch (R64), the interlocks (R53 to R55), the checks that stand before an instruction's own (R63, R64,
R149, R398), the issue selector (R32, R33, R143, R386, R387), and what happens next where the agenda names nothing (log 1).
-/
namespace Sys2Proof.Machine

/-! ### The registers of an instruction -/

/-- The registers that an instruction reads, by class. -/
structure Touch where
  vec : List RegField
  uni : List RegField
  dir : List RegField
deriving DecidableEq, Repr

/-- `n` consecutive registers. -/
def regRun (r : RegField) (n : Nat) : List RegField := (List.range n).map fun i => r + BitVec.ofNat 6 i

/-- Vector registers alone. -/
def tv (rs : List RegField) : Touch := { vec := rs, uni := [], dir := [] }
/-- Uniform registers alone. -/
def tu (rs : List RegField) : Touch := { vec := [], uni := rs, dir := [] }
/-- Directional registers alone. -/
def td (rs : List RegField) : Touch := { vec := [], uni := [], dir := rs }

/-- The registers that a conversion reads (R126): the source may be a pair; the half of the destination that a narrower result
leaves is not read. -/
def readConv (a : RegField) (st dt : BitVec 3) : Touch :=
  tv (regRun a (if dt.toNat < 6 && fcvtWidth st = 4 * fcvtWidth dt then 2 else 1))

/-- The registers that an instruction reads. -/
def reads : Instr → Touch
  | .mad d a b _ _ | .bfi d a b _ _ => tv [d, a, b]
  | .add _ a b _ _ | .sub _ a b _ _ | .mul _ a b _ _ | .mulhi _ a b _ _ | .min _ a b _ _ | .max _ a b _ _
  | .shl _ a b _ _ | .shr _ a b _ _ | .sar _ a b _ _ | .rol _ a b _ _ | .bfx _ a b _ _ | .cmp _ a b _ _
  | .pack _ a b _ _ => tv [a, b]
  | .and _ a b _ | .or _ a b _ | .xor _ a b _ | .andn _ a b _ | .perm _ a b _ => tv [a, b]
  | .sel _ a b _ _ => tv [a, b]
  | .abs _ a _ _ | .neg _ a _ _ | .clz _ a _ _ | .popc _ a _ _ | .brev _ a _ _ | .unpk _ a _ _ => tv [a]
  | .not _ a _ | .mov _ a _ => tv [a]
  | .ffma d a b _ _ _ => tv [d, a, b]
  | .fadd _ a b _ _ _ | .fsub _ a b _ _ _ | .fmul _ a b _ _ _ => tv [a, b]
  | .fmin _ a b _ _ _ | .fmax _ a b _ _ _ => tv [a, b]
  | .fcmp _ a b _ _ _ => tv [a, b]
  | .fclass _ a _ _ => tv [a]
  | .fround _ a _ _ _ => tv [a]
  | .fcvt _ a st dt _ _ _ => readConv a st dt
  | .frcp _ a _ _ _ _ | .frsq _ a _ _ _ _ | .fsqrt _ a _ _ _ _ | .fexp2 _ a _ _ _ _ | .flog2 _ a _ _ _ _
  | .fsin _ a _ _ _ _ | .fcos _ a _ _ _ _ => tv [a]
  | .shfl _ a b _ f => tv (if f = 0 then [a, b] else [a])
  | .gath _ a b _ _ => tv [a, b]
  | .bcast _ a _ _ f => if 2 ≤ f.toNat then tu [a] else tv [a]
  | .vote _ a _ _ _ | .ballot _ a _ _ => tv [a]
  | .segred _ a _ _ _ _ | .segscan _ a _ _ _ _ => tv [a]
  | .kadd _ a _ _ _ => tv [a]
  | .xchg _ a b _ _ => { vec := [a], uni := [b], dir := [] }
  | .ld _ a b _ _ _ _ _ _ _ _ lreg _ _ => tv (if lreg then [a, b] else [a])
  | .st d a _ _ _ _ _ _ z => tv (a :: regRun d (if z = 4 then 2 else 1))
  | .sld _ a _ _ _ _ _ _ => tu [a]
  | .sst d a _ _ _ _ => tu [d, a]
  | .talloc _ a _ => tu [a]
  | .tfree a => tu [a]
  | .tld _ a _ _ _ _ _ => tv [a]
  | .tst d a _ _ _ z => tv (a :: regRun d (if z = 2 then 2 else 1))
  | .tatom d a _ _ _ _ => tv [d, a]
  | .gtest _ a _ _ | .gacc _ a _ _ => tv [a]
  | .gdemand d a _ _ _ _ _ => tv [d, a]
  | .atom d a _ _ _ op _ _ _ _ ty => tv (a :: regRun d (if op = 7 && ty = 3 then 2 else 1))
  | .satom d a _ _ op _ _ _ _ ty => tu (a :: regRun d (if op = 7 && ty = 3 then 2 else 1))
  | .mleaseReg a => tu [a]
  | .mma _ a b _ _ sf sm spa spb =>
    { vec := regRun a 16, uni := b :: sf :: regRun sm (if spa && spb then 4 else if spa || spb then 2 else 0), dir := [] }
  | .mld _ a _ | .mst _ a _ => tu [a]
  | .msave a | .mres a => tu [a]
  | .attn _ a b _ => tu (b :: regRun a 4)
  | .anorm _ a _ => tu [a]
  | .dld _ a _ => tu [a]
  | .dst d a => { vec := [], uni := [a], dir := [d] }
  | .dfrom _ a _ _ f => tv (regRun a (if f then 2 else 1))
  | .dto _ a _ _ => td [a]
  | .ddot _ a b _ => td [a, b]
  | .dadd _ a b | .dsub _ a b => td [a, b]
  | .dscl d a | .dsetn d a => { vec := [], uni := [a], dir := [d] }
  | .dmulv _ a b _ _ => { vec := [b], uni := [], dir := [a] }
  | .dneg _ a | .dnorm _ a => td [a]
  | .dtest _ a _ => td [a]
  | .skins d a b _ _ | .skdel d a b _ _ => { vec := [a, b], uni := [d], dir := [] }
  | .skclr d _ => tu [d]
  | .sksub d a _ _ => tu [d, a]
  | .skstat _ a _ => tu [a]
  | .sadd _ a b | .ssub _ a b | .smul _ a b | .sand _ a b | .sor _ a b | .sxor _ a b | .sshl _ a b | .sshr _ a b
  | .ssar _ a b => tu [a, b]
  | .scmp _ a b _ | .smin _ a b _ | .smax _ a b _ => tu [a, b]
  | .smov _ a => tu [a]
  | .saddImm _ a _ | .ssubImm _ a _ | .smulImm _ a _ | .sandImm _ a _ | .sorImm _ a _ | .sxorImm _ a _ => tu [a]
  | .sshlImm _ a _ | .sshrImm _ a _ | .ssarImm _ a _ => tu [a]
  | .bc a v _ _ _ _ => if v then tv [a] else tv []
  | .brx a _ _ _ => tv [a]
  | .ret a _ => tv [a]
  | .loop _ a _ => tu [a]
  | .lbrk a => tu [a]
  | .swr a _ => tu [a]
  | .cpy d a b _ _ => tu [d, a, b, nextReg b]
  | .cpyt d a b => tu [d, a, b, nextReg b]
  | .coll a => tu [a]
  | .bwait a y _ _ => if y then tu [a] else tu []
  | .qpush _ a b => tu (a :: regRun b 8)
  | .recon a => tu [a]
  | .launch _ a => tu [a]
  | .bar a r _ _ | .bara a r _ _ => if r then tv [a] else tv []
  | _ => tu []

/-- The long-latency instructions (R60). -/
def isLong : Instr → Bool
  | .frcp .. | .frsq .. | .fsqrt .. | .fexp2 .. | .flog2 .. | .fsin .. | .fcos .. | .krd .. | .xchg .. | .ld .. | .sld ..
  | .tld .. | .tatom .. | .gdemand .. | .atom .. | .satom .. | .dld .. | .ddot .. => true
  | _ => false

/-! ### Interlocks (R53 to R55) -/

/-- A pending result, in what no later instruction has written, goes to a register that is read in the lanes `em`. -/
def Pending.feeds (p : Pending) (t : Touch) (em : BitVec 32) : Bool :=
  match p.dst with
  | .vec r pair =>
    ((p.em &&& ~~~p.overA.lanes &&& em) != 0 && t.vec.contains r) ||
      (pair && (p.em &&& ~~~p.overB.lanes &&& em) != 0 && t.vec.contains (r + 1))
  | .uni r => p.overA == .none && t.uni.contains r
  | .dir r => p.overA == .none && t.dir.contains r

/-- The registers that the issuing instruction reads as the gang stands: an mma that uses the held A reads no register of it
(R317), and a cpy reads S[b+1] in gather mode alone (R286). -/
def State.touches (s : State) (i : Instr) : Touch :=
  match i with
  | .mma _ a _ h .. => if h.toNat == 1 && (s.g.heldA.any fun x => x.reg == a) then { reads i with vec := [] } else reads i
  | .cpy d a b .. => if s.u b >>> 62 == 1 then reads i else tu [d, a, b]
  | _ => reads i

/-- An instruction that reads a register waits for a result of it whose window has closed (R53); a fragment has at most
sixteen results outstanding (R55, log 42). -/
def State.interlocked (s : State) (i : Instr) : Bool :=
  (s.g.pend.any fun p => p.closed && p.feeds (s.touches i) s.em) ||
    (isLong i && 16 ≤ s.g.pend.countP fun p => p.ofCur s.cur)

/-! ### Fetch (R64) -/

/-- The word of an instruction address. -/
inductive Fetched where
  | word (w : Word) (p : Place)
  | fault (why : BitVec 4)
  | bad
deriving DecidableEq, Repr

/-- The word at an address as the issuing core sees it (R64, R207). -/
def State.fetch (s : State) (va : DWord) : Fetched :=
  let c := s.cur.core
  match s.translate (some c) s.t.asid va 4 false with
  | .error why => .fault why
  | .ok p =>
    if s.bad (memIx p.dev p.pa) then .bad
    else .word (BitVec.ofNat 32 (leNat (s.viewN c s.t.part p.dev p.pa.toNat 4))) p

/-- What a fragment is about to issue. -/
inductive Front where
  /-- Its words, the literal 0 where it takes none. -/
  | words (w lit : Word) (p : Place)
  | fault (va : DWord) (why : BitVec 4)
  | bad (va : DWord)
deriving DecidableEq, Repr

/-- The words of the issuing instruction, or the first of them that faults or fails (R64). -/
def State.front (s : State) : Front :=
  match s.fetch s.pc with
  | .fault why => .fault s.pc why
  | .bad => .bad s.pc
  | .word w p =>
    if takesLiteral (opcodeOf w) then
      match s.fetch (s.pc + 4) with
      | .fault why => .fault (s.pc + 4) why
      | .bad => .bad (s.pc + 4)
      | .word x _ => .words w x p
    else .words w 0 p

/-! ### The checks before an instruction's own -/

/-- Bytes of an instruction by its first word. -/
def wordSize (w : Word) : Nat := if takesLiteral (opcodeOf w) then 8 else 4

/-- The uses of a loop's end that R149 forbids. -/
def State.badEnd (s : State) (w : Word) : Bool :=
  let next := s.pc + BitVec.ofNat 64 (wordSize w)
  let op := opcodeOf w
  !s.g.intrap &&
    (match s.g.loops with
     | [] => false
     | r :: rest =>
       (next == r.endAddr && (2 ≤ s.g.nfrag || (0xA0 ≤ op && op < 0xC0))) || rest.any fun x => x.endAddr == next)

/-- A gang named by the debugger takes DEBUG_HALT in place of its next instruction (R398). -/
def State.takeDebugHalt (s : State) : State :=
  ((s.modG fun g => { g with debugHalt := none }).trapAt s.cur .debugHalt s.pc 0 0).stall

/-- The issue of the selected fragment: a state in which it traps or waits, or the instruction that now takes effect. -/
def State.issue (s : State) : Except State (State × Instr) :=
  if s.g.debugHalt.isSome && !s.cur.hnd && !s.g.intrap then .error s.takeDebugHalt
  else
    match s.front with
    | .fault va why => .error (s.stallFault va 0 why)
    | .bad va => .error (s.trap .uncorrectable (BitVec.ofNat 64 (va.toNat % 2 ^ 57)))
    | .words w lit p =>
      let s1 := { (s.fill s.cur.core p.fill).noteOwn [(s.pc, wordSize w)] with iword := w, ilit := lit }
      match decode w lit with
      | .error _ => .error s1.trapIllegalOp
      | .ok i =>
        if !i.wf then .error s1.trapIllegalOp
        else if s.interlocked i then .error s.stall
        else if s.badEnd w then .error s1.trapIllegalConv
        else .ok (s1, i)

/-- The cursor names a fragment, or a running handler, that nothing but its next instruction keeps from issuing (R32). -/
def State.cursorLive (s : State) : Bool :=
  let g := s.g
  let w := if s.cur.hnd then g.handler.wait else s.f.wait
  g.live && s.t.live && !s.t.halted && !s.t.stopping.saving && !s.noIssue s.cur.core && !s.curCore.gated && s.f.valid &&
    w == .none && (if s.cur.hnd then g.inHandler s.cur.frag
      else !g.inHandler s.cur.frag && !g.waitsAtJoin s.cur.frag && s.f.yield == 0)

/-! ### The issue selector (R32, R33, R386, R387) -/

/-- What an instruction that may have to wait, by a rule of its own, does now: it issues, traps, or leaves its fragment
where it stands. -/
def State.attempt (s : State) : Instr → Host.Outcome State Fault Refusal
  | .ld d a b l h disp cls scope acq rem ty lreg g p => execLd d a b l h disp cls scope acq rem ty lreg g p s
  | .st d a h g p disp scope rel z => execSt d a h g p disp scope rel z s
  | .sst d a disp scope rel z => execSst d a disp scope rel z s
  | .sld d a l disp scope acq rem ty => execSld d a l disp scope acq rem ty s
  | .gdemand d a t p g l h => execGdemand d a t p g l h s
  | .atom d a l h disp op scope acq rem rel ty => execAtom d a l h disp op scope acq rem rel ty s
  | .satom d a l disp op scope acq rem rel ty => execSatom d a l disp op scope acq rem rel ty s
  | .dld d a l => execDld d a l s
  | .dst d a => execDst d a s
  | .skins d a b h t => execSkins d a b h t s
  | .skdel d a b h t => execSkdel d a b h t s
  | .skclr d t => execSkclr d t s
  | .sksub d a sel t => execSksub d a sel t s
  | .skstat d a t => execSkstat d a t s
  | .tld d a g z p l h => execTld d a g z p l h s
  | .tst d a h g p z => execTst d a h g p z s
  | .tatom d a o t l h => execTatom d a o t l h s
  | .msave a => execMsave a s
  | .mres a => execMres a s
  | .coll a => execColl a s
  | .recon a => execRecon a s
  | .launch d a => execLaunch d a s
  | .qpush d a b => execQpush d a b s
  | .bseal c => execBseal c s
  | .bwait a y n c => execBwait a y n c s
  | .fence v r q sel => execFence v r q sel s
  | .bar a r c n => execBar a r c n s
  | .bara a r c n => execBara a r c n s
  | .bc a v neg g t r => execBc a v neg g t r s
  | .brx a g n r => execBrx a g n r s
  | .ret a g => execRet a g s
  | .emwr a => execEmwr a s
  | .exit => execExit s
  | .rti => execRti s
  | _ => .next (s.countIssue false)

/-- `t` is what is left of `s` where its fragment neither issues, nor traps, nor stalls: it waits for something. -/
def State.waitsIn (s t : State) : Bool :=
  t.t.issued == s.t.issued && t.t.halted == s.t.halted && t.g.intrap == s.g.intrap &&
    t.g.heldTraps.length == s.g.heldTraps.length && (if s.cur.hnd then t.g.handler.wait else t.f.wait) == .none

/-- The pipe of the instruction at a cursor: true for the lane pipe, V-form (R39, log 10), and its issue class (R387). -/
def State.pipe (s : State) : Bool × Nat :=
  match s.fetch s.pc with
  | .word w _ =>
    let op := opcodeOf w
    if 0x80 ≤ op then (false, 3) else (true, if op < 0x40 then 0 else if op < 0x50 then 1 else 2)
  | _ => (false, 3)

/-- The next instruction could issue (R32): neither an operand nor anything else that it needs keeps it waiting. -/
def State.couldIssue (s : State) : Bool :=
  match s.issue with
  | .error t => !s.waitsIn t
  | .ok x =>
    match x.1.attempt x.2 with
    | .next t => !s.waitsIn t
    | _ => true

/-- The fragment or handler at a cursor is eligible (R32). -/
def State.eligible (s : State) (cur : Cursor) : Bool :=
  let t : State := { s with cur := cur }
  t.cursorLive && t.couldIssue

/-- The ordinary fragments of a core, by slot and then by index. -/
def ordinary (c : CoreId) : List Cursor :=
  (allFin 16).flatMap fun i => (allFin 32).map fun f => { core := c, slot := i, hnd := false, frag := f }

/-- The running handlers of a core. -/
def State.handlers (s : State) (c : CoreId) : List Cursor :=
  ((allFin 16).filter fun i => ((s.core c).gang i).live && ((s.core c).gang i).intrap).map fun i =>
    { core := c, slot := i, hnd := true, frag := ((s.core c).gang i).handler.frag }

/-- What can issue now to a pipe. -/
def State.ready (s : State) (v : Bool) (cs : List Cursor) : List Cursor :=
  cs.filter fun x => s.eligible x && ({ s with cur := x } : State).pipe.1 == v

/-- A fragment's age in a pipe. -/
def State.age (s : State) (v : Bool) (x : Cursor) : Nat :=
  let f := (s.gangAt x.core x.slot).frags.get x.frag
  if v then f.ageL else f.ageU

/-- The first of the oldest. -/
def oldestBy (age : Cursor → Nat) (xs : List Cursor) : Option Cursor :=
  xs.foldl (fun (m : Option Cursor) x => match m with
    | none => some x
    | some y => if age y < age x then some x else m) none

/-- The handler whose trap is the oldest (R155). -/
def State.oldestHandler (s : State) (xs : List Cursor) : Option Cursor :=
  xs.foldl (fun (m : Option Cursor) x => match m with
    | none => some x
    | some y => if (s.gangAt x.core x.slot).handler.order < (s.gangAt y.core y.slot).handler.order then some x else m) none

/-- RUN of the partition that a core's cluster belongs to (R387). -/
def State.runLimit (s : State) (c : CoreId) : Nat := ((s.partOf c).map fun p => (s.parts.get p).run).getD 4

/-- The current run of a pipe. -/
def Core.run (k : Core) (v : Bool) : Nat × Nat := if v then k.runL else k.runU

/-- The rules 2 to 4 of R386 among the ordinary fragments that can issue. -/
def State.pickOrdinary (s : State) (c : CoreId) (v : Bool) (xs : List Cursor) : Option Cursor :=
  let age := s.age v
  match oldestBy age (xs.filter fun x => 2048 ≤ age x) with
  | some x => some x
  | none =>
    let r := (s.core c).run v
    let same := if r.2 < s.runLimit c then xs.filter fun x => ({ s with cur := x } : State).pipe.2 == r.1 else []
    match oldestBy age same with
    | some x => some x
    | none => oldestBy age xs

/-- The run of a pipe after a choice of a class (R387). -/
def Core.chose (k : Core) (v : Bool) (cls : Nat) : Core :=
  let r := k.run v
  let r' := if r.1 = cls then (cls, r.2 + 1) else (cls, 1)
  if v then { k with runL := r' } else { k with runU := r' }

/-- The choice: the fragment issues next. -/
def State.select (s : State) (v : Bool) (x : Cursor) : State :=
  let cls := ({ s with cur := x } : State).pipe.2
  { s.modCore x.core fun k => k.chose v cls with sel := true, cur := x }

/-- Ages after an opportunity of a pipe (R386): the eligible grow older; the age of the chosen one is 0 when it issues. -/
def State.grow (s : State) (v : Bool) (xs : List Cursor) (chosen : Option Cursor) : State :=
  xs.foldl (fun (s : State) x =>
    let n := if chosen == some x then s.age v x else s.age v x + 1
    s.modGangAt x.core x.slot fun g => g.modFrag x.frag fun f => if v then { f with ageL := n } else { f with ageU := n }) s

/-- The counts of one opportunity of the core in a gang (R143, R418). -/
def Gang.opportunity (g : Gang) (wdlim : Nat) (issues : Bool) : Gang :=
  let g1 := { g with frags := g.frags.map fun f => { f with yield := f.yield - 1 } }
  if g.live && !issues && 1 ≤ g.nfrag && g.watchdog < wdlim then { g1 with watchdog := g.watchdog + 1 } else g1

/-- The counts of one opportunity of a core (R33, R143, R312, R418): those of the lane pipe (log 5). -/
def State.opportunity (s : State) (c : CoreId) (chosen : Option Cursor) : State :=
  s.modCore c fun k =>
    let k1 : Core := (allFin 16).foldl (fun (k : Core) i =>
      k.modGang i fun g => g.opportunity (s.parts.get (k.team g.team).part).wdlim (chosen.any fun x => x.slot == i)) k
    if k.holder.isSome && !k.leaseQ.isEmpty then { k1 with leaseIdle := k.leaseIdle + 1 } else k1

/-- A cycle of the lane pipe passes: the cycle counter, and the idle cycles of a vacant core (R101, R411, R412). -/
def State.tick (s : State) (c : CoreId) : State :=
  let n := (s.clusters.get (clusOf c)).passCount.toNat
  s.modCore c fun k => { k with cycle := k.cycle + BitVec.ofNat 64 n, idle := if k.vacant then k.idle + n else 0 }

/-- Every yield on a core ends (R143). -/
def State.endYields (s : State) (c : CoreId) : State :=
  s.modCore c fun k => { k with slots := k.slots.map fun g =>
    { g with frags := g.frags.map fun f => { f with yield := 0 } } }

/-- At an opportunity in which no ordinary fragment of the core is eligible the yielded ones are eligible again (R143). -/
def State.wake (s : State) (c : CoreId) : State :=
  if (ordinary c).any fun x => s.eligible x then s else s.endYields c

/-- One choice of the selector for a pipe of a core (R386). -/
def State.selectOn (s0 : State) (c : CoreId) (v : Bool) : State :=
  match s0.oldestHandler (s0.ready v (s0.handlers c)) with
  | some x => s0.select v x
  | none =>
    let s := if v then s0.wake c else s0
    let xs := s.ready v (ordinary c)
    let chosen := s.pickOrdinary c v xs
    let s1 := s.grow v xs chosen
    let s2 := if v then s1.opportunity c chosen else s1
    match chosen with
    | some x => s2.select v x
    | none => s2

/-- ISSUE_SELECT (R32, R33, R386, R387): nothing is chosen while a core does not issue, nor while an instruction chosen
before has not issued (log 19). -/
def execIssueSelect (c : CoreId) (vpipe : Bool) (s : State) : Host.Outcome State Fault Refusal :=
  s.unlessReset
    (if s.sel then s
     else
       let s1 := if vpipe then s.tick c else s
       if s.noIssue c || (s.core c).gated then s1 else s1.selectOn c vpipe)

/-- Another ordinary fragment of the core is eligible. -/
def State.otherEligible (s : State) (x : Cursor) : Bool := (ordinary x.core).any fun y => y != x && s.eligible y

/-- YIELD_EXPIRY (R143): at the first opportunity in which no other ordinary fragment of the core is eligible. Every yielded
fragment of the core is eligible again with it. -/
def execYieldExpiry (c : CoreId) (i : SlotId) (f : FragId) (s : State) : Host.Outcome State Fault Refusal :=
  .next
    (let x : Cursor := { core := c, slot := i, hnd := false, frag := f }
     let fr := (s.gangAt c i).frags.get f
     if (s.gangAt c i).live && fr.valid && fr.yield != 0 && !s.noIssue c && !s.otherEligible x then s.endYields c else s)

/-! ### What happens next where the agenda names nothing -/

/-- The events that the accesses, engines and waiting instructions of a core may bring, oldest first. -/
def State.coreMoments (s : State) (c : CoreId) : List Instr :=
  let k := s.core c
  let gangs := (allFin 16).filter fun i => (k.gang i).live
  (k.accs.flatMap fun a => [.storePerformed c a.id true, .loadDataArrival c a.id]) ++
  (k.eng.flatMap fun o => [.copyEngineRun c o.id, .linkEngineRun c o.id]) ++
  (k.mat.map fun m => .matrixStep c m.id) ++
  (gangs.flatMap fun i => (k.gang i).pend.flatMap fun p => [.xchgComplete c i ⟨p.id, false⟩, .longLatencyResult c i p.id]) ++
  (gangs.flatMap fun i => (allFin 32).flatMap fun f =>
    [.tileEntryFree c i f, .engineIssueAdmit c i f, .bwaitResume c i f, .qpushSlotWrite c i f]) ++
  [.leaseGrant c, .leaseIdleEnd c] ++
  ((allFin 16).flatMap fun t => [.drainExpiry c t, .teamSave c t]) ++
  ((List.range (16 + k.gone.length)).map fun n => .teamRetire c n) ++
  (gangs.map fun i => .watchdogExpiry c i) ++ [.quiesceComplete c, .coreGate c]

/-- The event that runs a packet (R306). -/
def packetMoment (q : QueueId) (p : Packet) : Instr :=
  let i := p.idx.toNat
  match packetOp p.words with
  | 1 => .nopPacket q i | 2 => .launchPacket q i | 3 => .copyPacket q i | 4 => .collPacket q i | 5 => .waitvPacket q i
  | 6 => .signalPacket q i | 7 => .reconPacket q i | _ => .qbarPacket q i

/-- The events that queues, partitions and collectives may bring. -/
def State.packageMoments (s : State) : List Instr :=
  (s.queues.flatMap fun x => x.pkts.flatMap fun p => [packetMoment x.num p, .packetComplete x.num p.idx.toNat]) ++
  [.cpServeQueue] ++ (s.colls.map fun q => .collectiveRun q.group q.n (.run [] [])) ++
  ((allFin 8).flatMap fun p =>
    .faultEntryWrite p :: ((s.parts.get p).watched.map fun x => .faultResp p x.1) ++ [.teamPlace p, .keyErase p]) ++
  (s.invals.map fun x => .invalidationComplete x.1 x.2.1)

/-- The cores on which a gang or a team stands, or an access or an operation is under way. -/
def State.busyCores (s : State) : List CoreId :=
  (allFin 1536).filter fun c =>
    let k := s.core c
    !k.accs.isEmpty || !k.eng.isEmpty || !k.mat.isEmpty || !k.leaseQ.isEmpty || !k.liveTeams.isEmpty || k.quiesce

/-- The events that may come next, in the order in which they are tried (log 1). -/
def State.moments (s : State) : List Instr :=
  let cs := s.busyCores
  cs.flatMap s.coreMoments ++ s.packageMoments ++
    (cs.filter fun c => (s.ready true (s.handlers c ++ ordinary c)).length != 0).map (Instr.issueSelect · true) ++
    (cs.filter fun c => (s.ready false (s.handlers c ++ ordinary c)).length != 0).map (Instr.issueSelect · false) ++
    (cs.flatMap fun c => (allFin 16).flatMap fun i => (allFin 32).map fun f => .yieldExpiry c i f) ++
    cs.map (Instr.issueSelect · true) ++ [.issueSelect 0 true]

end Sys2Proof.Machine
end

