-- ==== Sys2Proof/Machine/Lane.lean ====
section
/-!
DEFINITION. The lane operations (R109 to R132, V-form 0x01 to 0x2F): one meaning per instruction.
-/
namespace Sys2Proof.Machine

/-! ### Integer arithmetic (R114) -/

/-- ADD (R114). -/
def execAdd (d a b : RegField) (h : BitVec 2) (m : BitVec 4) (s : State) : Host.Outcome State Fault Refusal :=
  s.legal (.add d a b h m) (s.vs2 d a b h
    (map2 (widthOf m) fun x y => narrow m (intOf (widthOf m) (signOf m) x + intOf (widthOf m) (signOf m) y)))

/-- SUB (R114). -/
def execSub (d a b : RegField) (h : BitVec 2) (m : BitVec 4) (s : State) : Host.Outcome State Fault Refusal :=
  s.legal (.sub d a b h m) (s.vs2 d a b h
    (map2 (widthOf m) fun x y => narrow m (intOf (widthOf m) (signOf m) x - intOf (widthOf m) (signOf m) y)))

/-- MUL (R114). -/
def execMul (d a b : RegField) (h : BitVec 2) (m : BitVec 4) (s : State) : Host.Outcome State Fault Refusal :=
  s.legal (.mul d a b h m) (s.vs2 d a b h (map2 (widthOf m) fun x y => x * y % 2 ^ widthOf m))

/-- The high half of an exact product (R114). -/
def mulHigh (m : BitVec 4) (x y : Nat) : Nat :=
  wrap (widthOf m) (intOf (widthOf m) (signOf m) x * intOf (widthOf m) (signOf m) y / 2 ^ widthOf m)

/-- MULHI (R114). -/
def execMulhi (d a b : RegField) (h : BitVec 2) (m : BitVec 4) (s : State) : Host.Outcome State Fault Refusal :=
  s.legal (.mulhi d a b h m) (s.vs2 d a b h (map2 (widthOf m) (mulHigh m)))

/-- MAD (R114). -/
def execMad (d a b : RegField) (h : BitVec 2) (m : BitVec 4) (s : State) : Host.Outcome State Fault Refusal :=
  s.legal (.mad d a b h m) (s.vs3 d a b h (map3 (widthOf m) fun x y z => (x * y + z) % 2 ^ widthOf m))

/-- MIN (R114). -/
def execMin (d a b : RegField) (h : BitVec 2) (m : BitVec 4) (s : State) : Host.Outcome State Fault Refusal :=
  s.legal (.min d a b h m) (s.vs2 d a b h
    (map2 (widthOf m) fun x y => if intOf (widthOf m) (signOf m) y < intOf (widthOf m) (signOf m) x then y else x))

/-- MAX (R114). -/
def execMax (d a b : RegField) (h : BitVec 2) (m : BitVec 4) (s : State) : Host.Outcome State Fault Refusal :=
  s.legal (.max d a b h m) (s.vs2 d a b h
    (map2 (widthOf m) fun x y => if intOf (widthOf m) (signOf m) x < intOf (widthOf m) (signOf m) y then y else x))

/-- ABS (R114). -/
def execAbs (d a : RegField) (h : BitVec 2) (m : BitVec 4) (s : State) : Host.Outcome State Fault Refusal :=
  s.legal (.abs d a h m) (s.vs1 d a h
    (map1 (widthOf m) fun x => narrow m ((signedVal (widthOf m) x).natAbs : Int)))

/-- NEG (R114). -/
def execNeg (d a : RegField) (h : BitVec 2) (m : BitVec 4) (s : State) : Host.Outcome State Fault Refusal :=
  s.legal (.neg d a h m) (s.vs1 d a h
    (map1 (widthOf m) fun x => narrow m (-(intOf (widthOf m) (signOf m) x))))

/-! ### Bitwise operations (R114): marks per half, as for w = 32 -/

/-- The 64 bits of a result with the marks of the halves of its sources. -/
def perHalf (x : DWord) (srcs : List VCell) : VCell :=
  { bits := x, g0 := srcs.any (·.g0), g1 := srcs.any (·.g1) }

/-- AND (R114). -/
def execAnd (d a b : RegField) (h : BitVec 2) (s : State) : Host.Outcome State Fault Refusal :=
  s.legal (.and d a b h) (s.vs2 d a b h fun x y => perHalf (x.bits &&& y.bits) [x, y])

/-- OR (R114). -/
def execOr (d a b : RegField) (h : BitVec 2) (s : State) : Host.Outcome State Fault Refusal :=
  s.legal (.or d a b h) (s.vs2 d a b h fun x y => perHalf (x.bits ||| y.bits) [x, y])

/-- XOR (R114). -/
def execXor (d a b : RegField) (h : BitVec 2) (s : State) : Host.Outcome State Fault Refusal :=
  s.legal (.xor d a b h) (s.vs2 d a b h fun x y => perHalf (x.bits ^^^ y.bits) [x, y])

/-- NOT (R114). -/
def execNot (d a : RegField) (h : BitVec 2) (s : State) : Host.Outcome State Fault Refusal :=
  s.legal (.not d a h) (s.vs1 d a h fun x => perHalf (~~~x.bits) [x])

/-- ANDN (R114). -/
def execAndn (d a b : RegField) (h : BitVec 2) (s : State) : Host.Outcome State Fault Refusal :=
  s.legal (.andn d a b h) (s.vs2 d a b h fun x y => perHalf (x.bits &&& ~~~y.bits) [x, y])

/-! ### Shifts, counts and fields (R115) -/

/-- Shift left (R115). -/
def shlElem (w a c : Nat) : Nat := if c < w then a * 2 ^ c % 2 ^ w else 0
/-- Logical shift right (R115). -/
def shrElem (w a c : Nat) : Nat := if c < w then a / 2 ^ c else 0
/-- Arithmetic shift right (R115). -/
def sarElem (w a c : Nat) : Nat :=
  if c < w then wrap w (signedVal w a / 2 ^ c) else if 2 ^ (w - 1) ≤ a then 2 ^ w - 1 else 0
/-- Rotate left (R115). -/
def rolElem (w a c : Nat) : Nat := a * 2 ^ (c % w) % 2 ^ w + a / 2 ^ (w - c % w)

/-- SHL (R115). -/
def execShl (d a b : RegField) (h : BitVec 2) (m : BitVec 4) (s : State) : Host.Outcome State Fault Refusal :=
  s.legal (.shl d a b h m) (s.vs2 d a b h (map2 (widthOf m) (shlElem (widthOf m))))

/-- SHR (R115). -/
def execShr (d a b : RegField) (h : BitVec 2) (m : BitVec 4) (s : State) : Host.Outcome State Fault Refusal :=
  s.legal (.shr d a b h m) (s.vs2 d a b h (map2 (widthOf m) (shrElem (widthOf m))))

/-- SAR (R115). -/
def execSar (d a b : RegField) (h : BitVec 2) (m : BitVec 4) (s : State) : Host.Outcome State Fault Refusal :=
  s.legal (.sar d a b h m) (s.vs2 d a b h (map2 (widthOf m) (sarElem (widthOf m))))

/-- ROL (R115). -/
def execRol (d a b : RegField) (h : BitVec 2) (m : BitVec 4) (s : State) : Host.Outcome State Fault Refusal :=
  s.legal (.rol d a b h m) (s.vs2 d a b h (map2 (widthOf m) (rolElem (widthOf m))))

/-- CLZ (R114). -/
def execClz (d a : RegField) (h : BitVec 2) (m : BitVec 4) (s : State) : Host.Outcome State Fault Refusal :=
  s.legal (.clz d a h m) (s.vs1 d a h (map1 (widthOf m) fun x => widthOf m - bitLen x))

/-- The number of one bits among the low `w` bits. -/
def ones (w x : Nat) : Nat := ((List.range w).filter fun i => x.testBit i).length

/-- POPC (R114). -/
def execPopc (d a : RegField) (h : BitVec 2) (m : BitVec 4) (s : State) : Host.Outcome State Fault Refusal :=
  s.legal (.popc d a h m) (s.vs1 d a h (map1 (widthOf m) (ones (widthOf m))))

/-- The low `w` bits in reverse order. -/
def revBits (w x : Nat) : Nat := packed 1 (((List.range w).map fun i => x / 2 ^ i % 2).reverse)

/-- BREV (R114). -/
def execBrev (d a : RegField) (h : BitVec 2) (m : BitVec 4) (s : State) : Host.Outcome State Fault Refusal :=
  s.legal (.brev d a h m) (s.vs1 d a h (map1 (widthOf m) (revBits (widthOf m))))

/-- The clipped length of a field (R115). -/
def fieldLen (w b : Nat) : Nat :=
  if b / 256 % 256 = 0 || w ≤ b % 256 then 0 else Nat.min (b / 256 % 256) (w - b % 256)

/-- Bit-field extract (R115). -/
def bfxElem (w : Nat) (signed : Bool) (a b : Nat) : Nat :=
  let n := fieldLen w b
  let f := a / 2 ^ (b % 256) % 2 ^ n
  if signed && 0 < n then wrap w (signedVal n f) else f

/-- Bit-field insert (R115). -/
def bfiElem (w a b d : Nat) : Nat :=
  let n := fieldLen w b
  let pos := b % 256
  if n = 0 then d else d % 2 ^ pos + a % 2 ^ n * 2 ^ pos + d / 2 ^ (pos + n) * 2 ^ (pos + n)

/-- BFX (R115). -/
def execBfx (d a b : RegField) (h : BitVec 2) (m : BitVec 4) (s : State) : Host.Outcome State Fault Refusal :=
  s.legal (.bfx d a b h m) (s.vs2 d a b h (map2 (widthOf m) (bfxElem (widthOf m) (signOf m))))

/-- BFI (R115). -/
def execBfi (d a b : RegField) (h : BitVec 2) (m : BitVec 4) (s : State) : Host.Outcome State Fault Refusal :=
  s.legal (.bfi d a b h m) (s.vs3 d a b h (map3 (widthOf m) (bfiElem (widthOf m))))

/-! ### Selection and comparison -/

/-- SEL (R117). -/
def execSel (d a b : RegField) (h : BitVec 2) (n : BitVec 3) (s : State) : Host.Outcome State Fault Refusal :=
  s.legal (.sel d a b h n)
    ((s.writeV d fun l => if (s.m (n.setWidth 6)).getLsbD l.val then s.v a l else s.v b l).completeV 4
      (placed h a b d [d]))

/-- CMP (R116). -/
def execCmp (d a b : RegField) (h : BitVec 2) (m : BitVec 4) (s : State) : Host.Outcome State Fault Refusal :=
  s.legal (.cmp d a b h m) (s.vs2 d a b h
    (map2 (widthOf m) fun x y => truth (widthOf m) (cmpHolds (widthOf m) (m.toNat / 4) x y)))

/-! ### Floating point (R118 to R122) -/

/-- The elements of a lane for a two-operand operation with a draw each. -/
def State.fpairs (s : State) (f : Fmt) (a b : RegField) (op : Nat → Nat → Nat → Nat) (l : LaneId) : List (Nat → Nat) :=
  List.zipWith (fun x y draw => op draw x y) (elems f.width (s.v a l).bits) (elems f.width (s.v b l).bits)

/-- FADD (R118). -/
def execFadd (d a b : RegField) (h : BitVec 2) (t : Bool) (r : BitVec 3) (s : State) :
    Host.Outcome State Fault Refusal :=
  s.legal (.fadd d a b h t r) (s.vsDraw d (placed h a b d [d]) (fmtOf t).width r.toNat [a, b]
    (s.fpairs (fmtOf t) a b fun draw => (fmtOf t).add r.toNat draw))

/-- FSUB (R118). -/
def execFsub (d a b : RegField) (h : BitVec 2) (t : Bool) (r : BitVec 3) (s : State) :
    Host.Outcome State Fault Refusal :=
  s.legal (.fsub d a b h t r) (s.vsDraw d (placed h a b d [d]) (fmtOf t).width r.toNat [a, b]
    (s.fpairs (fmtOf t) a b fun draw => (fmtOf t).sub r.toNat draw))

/-- FMUL (R118). -/
def execFmul (d a b : RegField) (h : BitVec 2) (t : Bool) (r : BitVec 3) (s : State) :
    Host.Outcome State Fault Refusal :=
  s.legal (.fmul d a b h t r) (s.vsDraw d (placed h a b d [d]) (fmtOf t).width r.toNat [a, b]
    (s.fpairs (fmtOf t) a b fun draw => (fmtOf t).mul r.toNat draw))

/-- FFMA (R118). -/
def execFfma (d a b : RegField) (h : BitVec 2) (t : Bool) (r : BitVec 3) (s : State) :
    Host.Outcome State Fault Refusal :=
  let f := fmtOf t
  s.legal (.ffma d a b h t r) (s.vsDraw d (placed h a b d [d]) f.width r.toNat [a, b, d] fun l =>
    List.zipWith (fun g z draw => g draw z)
      (List.zipWith (fun x y draw z => f.fma r.toNat draw x y z) (elems f.width (s.v a l).bits)
        (elems f.width (s.v b l).bits))
      (elems f.width (s.v d l).bits))

/-- FMIN (R120). -/
def execFmin (d a b : RegField) (h : BitVec 2) (t n : Bool) (s : State) : Host.Outcome State Fault Refusal :=
  s.legal (.fmin d a b h t n) (s.vs2 d a b h (map2 (fmtOf t).width ((fmtOf t).minmax false n)))

/-- FMAX (R120). -/
def execFmax (d a b : RegField) (h : BitVec 2) (t n : Bool) (s : State) : Host.Outcome State Fault Refusal :=
  s.legal (.fmax d a b h t n) (s.vs2 d a b h (map2 (fmtOf t).width ((fmtOf t).minmax true n)))

/-- FCMP (R121). -/
def execFcmp (d a b : RegField) (h : BitVec 2) (t : Bool) (c : BitVec 3) (s : State) :
    Host.Outcome State Fault Refusal :=
  s.legal (.fcmp d a b h t c) (s.vs2 d a b h
    (map2 (fmtOf t).width fun x y => truth (fmtOf t).width ((fmtOf t).cmp c.toNat x y)))

/-- FCLASS (R122). -/
def execFclass (d a : RegField) (h : BitVec 2) (t : Bool) (s : State) : Host.Outcome State Fault Refusal :=
  s.legal (.fclass d a h t) (s.vs1 d a h (map1 (fmtOf t).width (fmtOf t).classOf))

/-- FROUND (R118). -/
def execFround (d a : RegField) (h : BitVec 2) (t : Bool) (r : BitVec 3) (s : State) :
    Host.Outcome State Fault Refusal :=
  s.legal (.fround d a h t r) (s.vsDraw d (placed h a a d [d]) (fmtOf t).width r.toNat [a] fun l =>
    (elems (fmtOf t).width (s.v a l).bits).map fun x draw => (fmtOf t).integral r.toNat draw x)

/-! ### Conversions (R125 to R128) -/

/-- The floating-point format of a conversion code other than .i32 and the block codes (R125). -/
def convFmt (t : Nat) : Fmt :=
  match t with
  | 0 => f32 | 1 => bf16 | 2 => f16 | 3 => e4m3 | _ => e5m2

/-- The value of a source element (R125). -/
def convSrc (t x : Nat) : FVal := if t = 5 then intVal (signedVal 32 x) else (convFmt t).decode x

/-- A value converted to a destination type (R127). -/
def convDst (t mode draw : Nat) (v : FVal) : Nat := if t = 5 then v.toInt mode draw 32 else (convFmt t).ofVal mode draw v

/-- The conversion is exact by its types and draws nothing (R127). -/
def convExact (s t : BitVec 3) : Bool := s.toNat < 5 && t.toNat < 5 && fcvtWidth s < fcvtWidth t

/-- The source elements of a conversion in one lane (R126). -/
def State.convElems (s : State) (a : RegField) (st dt : BitVec 3) (p : Bool) (l : LaneId) : List Nat :=
  let ws := fcvtWidth st
  let wd := fcvtWidth dt
  let x := (s.v a l).bits
  if ws = wd || ws = 2 * wd then elems ws x
  else if ws = 4 * wd then elems ws x ++ elems ws (s.v (nextReg a) l).bits
  else
    let k := 32 / ws
    (elems ws x).drop (if p then k else 0) |>.take k

/-- Two registers written by a conversion whose wide side is a pair. -/
def State.writePair (s : State) (d : RegField) (f : LaneId → DWord × DWord) (mk : LaneId → Bool) : State :=
  (s.writeV d fun l => VCell.both (f l).1 (mk l)).writeV (nextReg d) fun l => VCell.both (f l).2 (mk l)

/-- The results of a conversion in their places (R126): the whole register, the half of part `p`, a register, or a
pair. -/
def State.writeConv (s t : State) (d a : RegField) (st dt : BitVec 3) (p : Bool) (xs : LaneId → List Nat) : State :=
  let ws := fcvtWidth st
  let wd := fcvtWidth dt
  if ws = wd then t.writeV d fun l => cellOf wd (xs l) [s.v a l]
  else if wd < ws then
    t.writeHalf d p fun l =>
      let mk := (s.v a l).marked || (ws = 4 * wd && (s.v (nextReg a) l).marked)
      (s.v d l).withHalf p (BitVec.ofNat 32 (packed wd (xs l))) mk
  else if wd = 2 * ws then t.writeV d fun l => VCell.both (ofElems wd (xs l)) ((s.v a l).mark p)
  else t.writePair d (fun l => (ofElems wd ((xs l).take 2), ofElems wd ((xs l).drop 2))) fun l => (s.v a l).mark p

/-- The non-block conversions (R126, R127). -/
def State.convert (s : State) (d a : RegField) (st dt : BitVec 3) (h : BitVec 2) (p : Bool) (r : BitVec 3) : State :=
  let mode := if convExact st dt then 0 else r.toNat
  let fs := fun l => (s.convElems a st dt p l).map fun x draw => convDst dt.toNat mode draw (convSrc st.toNat x)
  (s.writeConv (s.advanceRng mode fs) d a st dt p (s.drawn mode fs)).completeV 4 (placed h a a d (if fcvtWidth dt = 4 * fcvtWidth st then [d, nextReg d] else [d]))

/-- The block conversions (R128), with the gang whole. -/
def State.convertBlock (s : State) (d a : RegField) (dt : BitVec 3) (h : BitVec 2) (p : Bool) (r : BitVec 3) : State :=
  let mode := r.toNat
  let ds := fun l => s.drawn mode (fun _ => [fun draw => draw]) l
  let vs := (allFin 32).map fun l => f32.decode (half (s.v a l).bits p).toNat
  let codes := blockCodes (dt.toNat == 7) mode ((allFin 32).map fun l => (ds l).headD 0) vs
  let mk := (allFin 32).any fun l => (s.v a l).mark p
  ((s.advanceRng mode fun _ => [fun draw => draw]).writeV d fun l =>
    VCell.both (BitVec.ofNat 64 (codes.2.getD l.val 0 + 256 * codes.1)) mk).completeV 4 (placed h a a d [d])

/-- FCVT (R125 to R128). -/
def execFcvt (d a : RegField) (st dt : BitVec 3) (h : BitVec 2) (p : Bool) (r : BitVec 3) (s : State) :
    Host.Outcome State Fault Refusal :=
  s.legal (.fcvt d a st dt h p r)
    (if dt.toNat < 6 then s.convert d a st dt h p r
     else if s.whole then s.convertBlock d a dt h p r
     else s.trapIllegalConv)

/-! ### Special functions (R123, R124) -/

/-- FRCP (R123, R124). -/
def execFrcp (d a : RegField) (t : Bool) (r : BitVec 3) (l : BitVec 4) (h : BitVec 2) (s : State) :
    Host.Outcome State Fault Refusal :=
  s.legal (.frcp d a t r l h) (s.special d a t r l h frcpVal)

/-- FRSQ (R123, R124). -/
def execFrsq (d a : RegField) (t : Bool) (r : BitVec 3) (l : BitVec 4) (h : BitVec 2) (s : State) :
    Host.Outcome State Fault Refusal :=
  s.legal (.frsq d a t r l h) (s.special d a t r l h frsqVal)

/-- FSQRT (R123, R124). -/
def execFsqrt (d a : RegField) (t : Bool) (r : BitVec 3) (l : BitVec 4) (h : BitVec 2) (s : State) :
    Host.Outcome State Fault Refusal :=
  s.legal (.fsqrt d a t r l h) (s.special d a t r l h fsqrtVal)

/-- FEXP2 (R123, R124). -/
def execFexp2 (d a : RegField) (t : Bool) (r : BitVec 3) (l : BitVec 4) (h : BitVec 2) (s : State) :
    Host.Outcome State Fault Refusal :=
  s.legal (.fexp2 d a t r l h) (s.special d a t r l h fexp2Val)

/-- FLOG2 (R123, R124). -/
def execFlog2 (d a : RegField) (t : Bool) (r : BitVec 3) (l : BitVec 4) (h : BitVec 2) (s : State) :
    Host.Outcome State Fault Refusal :=
  s.legal (.flog2 d a t r l h) (s.special d a t r l h flog2Val)

/-- FSIN (R123, R124). -/
def execFsin (d a : RegField) (t : Bool) (r : BitVec 3) (l : BitVec 4) (h : BitVec 2) (s : State) :
    Host.Outcome State Fault Refusal :=
  s.legal (.fsin d a t r l h) (s.special d a t r l h fsinVal)

/-- FCOS (R123, R124). -/
def execFcos (d a : RegField) (t : Bool) (r : BitVec 3) (l : BitVec 4) (h : BitVec 2) (s : State) :
    Host.Outcome State Fault Refusal :=
  s.legal (.fcos d a t r l h) (s.special d a t r l h fcosVal)

/-! ### Moves and packing (R129 to R132) -/

/-- MOV (R129). -/
def execMov (d a : RegField) (h : BitVec 2) (s : State) : Host.Outcome State Fault Refusal :=
  s.legal (.mov d a h) (s.vs1 d a h fun x => x)

/-- The 64 bits that movi writes (R129). -/
def moviBits (t : BitVec 2) (lit : Word) : DWord :=
  match t.toNat with
  | 0 => lit ++ lit
  | 1 => lit.signExtend 64
  | 2 => lit.setWidth 64
  | _ => let x := lit.extractLsb' 0 16; (x ++ x) ++ (x ++ x)

/-- MOVI (R129). -/
def execMovi (d : RegField) (t : BitVec 2) (lit : Word) (s : State) : Host.Outcome State Fault Refusal :=
  s.legal (.movi d t lit) ((s.writeV d fun _ => VCell.both (moviBits t lit) false).completeV 8 none)

/-- Width of the narrow side of pack and unpk (R130, R131). -/
def packWidth (m : BitVec 4) : Nat := 8 * 2 ^ (m.toNat % 4)

/-- An element narrowed by pack (R130). -/
def packElem (m : BitVec 4) (x : Nat) : Nat :=
  let w := packWidth m
  if satOf m then satTo w (signOf m) (intOf (2 * w) (signOf m) x) else x % 2 ^ w

/-- PACK (R130). -/
def execPack (d a b : RegField) (h : BitVec 2) (m : BitVec 4) (s : State) : Host.Outcome State Fault Refusal :=
  let w := packWidth m
  s.legal (.pack d a b h m) (s.vs2 d a b h fun x y =>
    { bits := ofElems w ((elems (2 * w) x.bits ++ elems (2 * w) y.bits).map (packElem m)),
      g0 := x.marked, g1 := y.marked })

/-- UNPK (R131). -/
def execUnpk (d a : RegField) (h : BitVec 2) (m : BitVec 4) (s : State) : Host.Outcome State Fault Refusal :=
  let w := packWidth m
  let k := 32 / w
  s.legal (.unpk d a h m) (s.vs1 d a h fun x =>
    VCell.both
      (ofElems (2 * w) ((((elems w x.bits).drop (if satOf m then k else 0)).take k).map fun y =>
        wrap (2 * w) (intOf w (signOf m) y)))
      (x.mark (satOf m)))

/-- Byte `i` of a lane under perm (R132). -/
def permByte (x y : DWord) (i : Nat) : Nat :=
  let sel := elem 8 y i
  if 128 ≤ sel then 0 else elem 8 x (sel % 8)

/-- The mark of half `hi` under perm (R132). -/
def permMark (x y : VCell) (hi : Bool) : Bool :=
  y.mark hi || ((List.range 4).any fun i =>
    let sel := elem 8 y.bits (if hi then i + 4 else i)
    sel < 128 && x.mark (4 ≤ sel % 8))

/-- PERM (R132). -/
def execPerm (d a b : RegField) (h : BitVec 2) (s : State) : Host.Outcome State Fault Refusal :=
  s.legal (.perm d a b h) (s.vs2 d a b h fun x y =>
    { bits := ofElems 8 ((List.range 8).map (permByte x.bits y.bits)), g0 := permMark x y false,
      g1 := permMark x y true })

end Sys2Proof.Machine
end

