-- ==== Sys2Proof/Machine/Uniform.lean ====
section
/-!
DEFINITION. The uniform ALU (R133 to R135), the mask instructions (R145) and the special registers (R105 to R108).
-/
namespace Sys2Proof.Machine

/-! ### Uniform arithmetic -/

/-- A uniform result written and the instruction completed (R36, R37, R133). -/
def State.uni (s : State) (d : RegField) (x : DWord) : State := (s.writeU d x).completeU 4 false

/-- SADD (R133). -/
def execSadd (d a b : RegField) (s : State) : Host.Outcome State Fault Refusal :=
  s.legal (.sadd d a b) (s.uni d (s.u a + s.u b))

/-- SSUB (R133). -/
def execSsub (d a b : RegField) (s : State) : Host.Outcome State Fault Refusal :=
  s.legal (.ssub d a b) (s.uni d (s.u a - s.u b))

/-- SMUL (R133). -/
def execSmul (d a b : RegField) (s : State) : Host.Outcome State Fault Refusal :=
  s.legal (.smul d a b) (s.uni d (s.u a * s.u b))

/-- SAND (R133). -/
def execSand (d a b : RegField) (s : State) : Host.Outcome State Fault Refusal :=
  s.legal (.sand d a b) (s.uni d (s.u a &&& s.u b))

/-- SOR (R133). -/
def execSor (d a b : RegField) (s : State) : Host.Outcome State Fault Refusal :=
  s.legal (.sor d a b) (s.uni d (s.u a ||| s.u b))

/-- SXOR (R133). -/
def execSxor (d a b : RegField) (s : State) : Host.Outcome State Fault Refusal :=
  s.legal (.sxor d a b) (s.uni d (s.u a ^^^ s.u b))

/-- Shift left by an unsigned count, 0 from 64 upward (R133). -/
def shl64 (x : DWord) (c : Nat) : DWord := if c < 64 then x <<< c else 0
/-- Logical shift right, 0 from 64 upward (R133). -/
def shr64 (x : DWord) (c : Nat) : DWord := if c < 64 then x >>> c else 0
/-- Arithmetic shift right, all copies of the sign from 64 upward (R133). -/
def sar64 (x : DWord) (c : Nat) : DWord := if c < 64 then x.sshiftRight c else x.sshiftRight 63

/-- SSHL (R133). -/
def execSshl (d a b : RegField) (s : State) : Host.Outcome State Fault Refusal :=
  s.legal (.sshl d a b) (s.uni d (shl64 (s.u a) (s.u b).toNat))

/-- SSHR (R133). -/
def execSshr (d a b : RegField) (s : State) : Host.Outcome State Fault Refusal :=
  s.legal (.sshr d a b) (s.uni d (shr64 (s.u a) (s.u b).toNat))

/-- SSAR (R133). -/
def execSsar (d a b : RegField) (s : State) : Host.Outcome State Fault Refusal :=
  s.legal (.ssar d a b) (s.uni d (sar64 (s.u a) (s.u b).toNat))

/-- SCMP (R134). -/
def execScmp (d a b : RegField) (u : BitVec 6) (s : State) : Host.Outcome State Fault Refusal :=
  s.legal (.scmp d a b u) (s.uni d (if scmpHolds u.toNat (s.u a) (s.u b) then 1 else 0))

/-- SMIN (R133). -/
def execSmin (d a b : RegField) (u : BitVec 6) (s : State) : Host.Outcome State Fault Refusal :=
  s.legal (.smin d a b u)
    (s.uni d (if (if u.toNat = 0 then (s.u b).slt (s.u a) else (s.u b).ult (s.u a)) then s.u b else s.u a))

/-- SMAX (R133). -/
def execSmax (d a b : RegField) (u : BitVec 6) (s : State) : Host.Outcome State Fault Refusal :=
  s.legal (.smax d a b u)
    (s.uni d (if (if u.toNat = 0 then (s.u a).slt (s.u b) else (s.u a).ult (s.u b)) then s.u b else s.u a))

/-- SMOV (R133). -/
def execSmov (d a : RegField) (s : State) : Host.Outcome State Fault Refusal :=
  s.legal (.smov d a) (s.uni d (s.u a))

/-- SLIT (R46). -/
def execSlit (d : RegField) (lit : Word) (s : State) : Host.Outcome State Fault Refusal :=
  s.legal (.slit d lit) ((s.writeU d (lit.signExtend 64)).completeU 8 false)

/-- SADD_IMM (R45, R133). -/
def execSaddImm (d a : RegField) (i : BitVec 12) (s : State) : Host.Outcome State Fault Refusal :=
  s.legal (.saddImm d a i) (s.uni d (s.u a + simm i))

/-- SSUB_IMM (R45, R133). -/
def execSsubImm (d a : RegField) (i : BitVec 12) (s : State) : Host.Outcome State Fault Refusal :=
  s.legal (.ssubImm d a i) (s.uni d (s.u a - simm i))

/-- SMUL_IMM (R45, R133). -/
def execSmulImm (d a : RegField) (i : BitVec 12) (s : State) : Host.Outcome State Fault Refusal :=
  s.legal (.smulImm d a i) (s.uni d (s.u a * simm i))

/-- SAND_IMM (R45, R133). -/
def execSandImm (d a : RegField) (i : BitVec 12) (s : State) : Host.Outcome State Fault Refusal :=
  s.legal (.sandImm d a i) (s.uni d (s.u a &&& zimm i))

/-- SOR_IMM (R45, R133). -/
def execSorImm (d a : RegField) (i : BitVec 12) (s : State) : Host.Outcome State Fault Refusal :=
  s.legal (.sorImm d a i) (s.uni d (s.u a ||| zimm i))

/-- SXOR_IMM (R45, R133). -/
def execSxorImm (d a : RegField) (i : BitVec 12) (s : State) : Host.Outcome State Fault Refusal :=
  s.legal (.sxorImm d a i) (s.uni d (s.u a ^^^ zimm i))

/-- SSHL_IMM (R45, R133). -/
def execSshlImm (d a : RegField) (c : BitVec 6) (s : State) : Host.Outcome State Fault Refusal :=
  s.legal (.sshlImm d a c) (s.uni d (shl64 (s.u a) c.toNat))

/-- SSHR_IMM (R45, R133). -/
def execSshrImm (d a : RegField) (c : BitVec 6) (s : State) : Host.Outcome State Fault Refusal :=
  s.legal (.sshrImm d a c) (s.uni d (shr64 (s.u a) c.toNat))

/-- SSAR_IMM (R45, R133). -/
def execSsarImm (d a : RegField) (c : BitVec 6) (s : State) : Host.Outcome State Fault Refusal :=
  s.legal (.ssarImm d a c) (s.uni d (sar64 (s.u a) c.toNat))

/-- SMOVI (R133). -/
def execSmovi (d : RegField) (i : BitVec 12) (s : State) : Host.Outcome State Fault Refusal :=
  s.legal (.smovi d i) (s.uni d (simm i))

/-! ### Mask instructions (R145) -/

/-- A mask result written and the instruction completed (R36, R37, R145). -/
def State.msk (s : State) (d : RegField) (x : BitVec 32) : State := (s.writeM d x).completeU 4 false

/-- MAND (R145). -/
def execMand (d a b : RegField) (s : State) : Host.Outcome State Fault Refusal :=
  s.legal (.mand d a b) (s.msk d (s.m a &&& s.m b))

/-- MOR (R145). -/
def execMor (d a b : RegField) (s : State) : Host.Outcome State Fault Refusal :=
  s.legal (.mor d a b) (s.msk d (s.m a ||| s.m b))

/-- MXOR (R145). -/
def execMxor (d a b : RegField) (s : State) : Host.Outcome State Fault Refusal :=
  s.legal (.mxor d a b) (s.msk d (s.m a ^^^ s.m b))

/-- MNOT (R145). -/
def execMnot (d a : RegField) (s : State) : Host.Outcome State Fault Refusal :=
  s.legal (.mnot d a) (s.msk d (~~~(s.m a)))

/-- MPOP (R145). -/
def execMpop (d a : RegField) (s : State) : Host.Outcome State Fault Refusal :=
  s.legal (.mpop d a) (s.uni d (BitVec.ofNat 64 (lanesOf (s.m a)).length))

/-- The index of the lowest one bit of a mask, or 32 (R145). -/
def firstOf (m : BitVec 32) : Nat := ((lanesOf m).head?.map fun l => l.val).getD 32

/-- MFIRST (R145). -/
def execMfirst (d a : RegField) (s : State) : Host.Outcome State Fault Refusal :=
  s.legal (.mfirst d a) (s.uni d (BitVec.ofNat 64 (firstOf (s.m a))))

/-- EMRD (R145). -/
def execEmrd (d : RegField) (s : State) : Host.Outcome State Fault Refusal :=
  s.legal (.emrd d) (s.msk d s.em)

/-! ### Special registers -/

/-- The value of a special register as the issuing gang reads it (R101, R107); laneid gives the lane. -/
def State.specialReg (s : State) (n : BitVec 6) (l : Nat) : DWord :=
  let g := s.g
  let t := s.t
  let k := s.curCore
  match n.toNat with
  | 0x00 => BitVec.ofNat 64 l
  | 0x01 => g.gangid.setWidth 64
  | 0x02 => t.teamid.setWidth 64
  | 0x03 => BitVec.ofNat 64 (coreidOf s.cur.core)
  | 0x04 => BitVec.ofNat 64 (clusOf s.cur.core).val
  | 0x05 => s.devid.setWidth 64
  | 0x06 => t.gridid.setWidth 64
  | 0x07 => t.depth.setWidth 64
  | 0x08 => BitVec.ofNat 64 t.ngang
  | 0x09 => k.cycle
  | 0x0A => t.steep.setWidth 64
  | 0x0B => (s.clusters.get (clusOf s.cur.core)).passCount.setWidth 64
  | 0x0C => g.rngseed.setWidth 64
  | 0x10 => t.trapbase
  | 0x11 => g.trapcause.setWidth 64
  | 0x12 => g.trappc
  | 0x13 => g.trapinfo
  | 0x14 => k.leafctl
  | 0x15 => g.gstat
  | 0x16 => g.traplate
  | 0x18 => g.skm.setWidth 64
  | 0x19 => g.skseed
  | _ => 0

/-- SRD (R107). -/
def execSrd (d : RegField) (v : Bool) (n : BitVec 6) (s : State) : Host.Outcome State Fault Refusal :=
  s.legal (.srd d v n)
    (if v then (s.writeV d fun l => VCell.both (s.specialReg n l.val) false).completeU 4 false
     else s.uni d (s.specialReg n 0))

/-- A write of a special register (R104, R108). -/
def State.writeSpecial (s : State) (n : BitVec 6) (x : DWord) : State :=
  match n.toNat with
  | 0x0A => s.modT fun t => { t with steep := x.extractLsb' 0 3 }
  | 0x0C => s.modG fun g => { g with rngseed := x.extractLsb' 0 32, rng := seedAll (x.extractLsb' 0 32) }
  | 0x10 => s.modT fun t => { t with trapbase := x &&& ~~~3#64 }
  | 0x12 => s.modG fun g => { g with trappc := x }
  | 0x14 => s.modK fun k => k.setLeafctl x
  | 0x15 => s.modG fun g => g.setGstat x
  | 0x18 => s.modG fun g => { g with skm := clampSkm x }
  | 0x19 => s.modG fun g => { g with skseed := x }
  | _ => s

/-- SWR (R108). -/
def execSwr (a : RegField) (n : BitVec 6) (s : State) : Host.Outcome State Fault Refusal :=
  s.legal (.swr a n) ((s.writeSpecial n (s.u a)).completeU 4 false)

end Sys2Proof.Machine
end

