-- ==== Sys2Proof/Machine/Dispatch.lean ====
section
/-!
DEFINITION. The dispatch: one arm for every constructor of `Instr`, one direct call of its meaning.
-/
namespace Sys2Proof.Machine

/-- The effect of one step of the part on a state. -/
def exec (i : Instr) (s : State) : Host.Outcome State Fault Refusal :=
  match i with
  | .add d a b h m => Sys2Proof.Machine.execAdd d a b h m s
  | .sub d a b h m => Sys2Proof.Machine.execSub d a b h m s
  | .mul d a b h m => Sys2Proof.Machine.execMul d a b h m s
  | .mulhi d a b h m => Sys2Proof.Machine.execMulhi d a b h m s
  | .mad d a b h m => Sys2Proof.Machine.execMad d a b h m s
  | .min d a b h m => Sys2Proof.Machine.execMin d a b h m s
  | .max d a b h m => Sys2Proof.Machine.execMax d a b h m s
  | .abs d a h m => Sys2Proof.Machine.execAbs d a h m s
  | .neg d a h m => Sys2Proof.Machine.execNeg d a h m s
  | .and d a b h => Sys2Proof.Machine.execAnd d a b h s
  | .or d a b h => Sys2Proof.Machine.execOr d a b h s
  | .xor d a b h => Sys2Proof.Machine.execXor d a b h s
  | .not d a h => Sys2Proof.Machine.execNot d a h s
  | .andn d a b h => Sys2Proof.Machine.execAndn d a b h s
  | .shl d a b h m => Sys2Proof.Machine.execShl d a b h m s
  | .shr d a b h m => Sys2Proof.Machine.execShr d a b h m s
  | .sar d a b h m => Sys2Proof.Machine.execSar d a b h m s
  | .rol d a b h m => Sys2Proof.Machine.execRol d a b h m s
  | .clz d a h m => Sys2Proof.Machine.execClz d a h m s
  | .popc d a h m => Sys2Proof.Machine.execPopc d a h m s
  | .brev d a h m => Sys2Proof.Machine.execBrev d a h m s
  | .bfx d a b h m => Sys2Proof.Machine.execBfx d a b h m s
  | .bfi d a b h m => Sys2Proof.Machine.execBfi d a b h m s
  | .sel d a b h n => Sys2Proof.Machine.execSel d a b h n s
  | .cmp d a b h m => Sys2Proof.Machine.execCmp d a b h m s
  | .fadd d a b h t r => Sys2Proof.Machine.execFadd d a b h t r s
  | .fsub d a b h t r => Sys2Proof.Machine.execFsub d a b h t r s
  | .fmul d a b h t r => Sys2Proof.Machine.execFmul d a b h t r s
  | .ffma d a b h t r => Sys2Proof.Machine.execFfma d a b h t r s
  | .fmin d a b h t n => Sys2Proof.Machine.execFmin d a b h t n s
  | .fmax d a b h t n => Sys2Proof.Machine.execFmax d a b h t n s
  | .fcmp d a b h t c => Sys2Proof.Machine.execFcmp d a b h t c s
  | .fclass d a h t => Sys2Proof.Machine.execFclass d a h t s
  | .fround d a h t r => Sys2Proof.Machine.execFround d a h t r s
  | .fcvt d a sel t h p r => Sys2Proof.Machine.execFcvt d a sel t h p r s
  | .frcp d a t r l h => Sys2Proof.Machine.execFrcp d a t r l h s
  | .frsq d a t r l h => Sys2Proof.Machine.execFrsq d a t r l h s
  | .fsqrt d a t r l h => Sys2Proof.Machine.execFsqrt d a t r l h s
  | .fexp2 d a t r l h => Sys2Proof.Machine.execFexp2 d a t r l h s
  | .flog2 d a t r l h => Sys2Proof.Machine.execFlog2 d a t r l h s
  | .fsin d a t r l h => Sys2Proof.Machine.execFsin d a t r l h s
  | .fcos d a t r l h => Sys2Proof.Machine.execFcos d a t r l h s
  | .mov d a h => Sys2Proof.Machine.execMov d a h s
  | .movi d t lit => Sys2Proof.Machine.execMovi d t lit s
  | .pack d a b h m => Sys2Proof.Machine.execPack d a b h m s
  | .unpk d a h m => Sys2Proof.Machine.execUnpk d a h m s
  | .perm d a b h => Sys2Proof.Machine.execPerm d a b h s
  | .shfl d a b h f => Sys2Proof.Machine.execShfl d a b h f s
  | .gath d a b h w => Sys2Proof.Machine.execGath d a b h w s
  | .bcast d a b h f => Sys2Proof.Machine.execBcast d a b h f s
  | .vote d a h g c => Sys2Proof.Machine.execVote d a h g c s
  | .ballot d a h g => Sys2Proof.Machine.execBallot d a h g s
  | .segred d a b h o t => Sys2Proof.Machine.execSegred d a b h o t s
  | .segscan d a b h o t => Sys2Proof.Machine.execSegscan d a b h o t s
  | .kadd d a h g sel => Sys2Proof.Machine.execKadd d a h g sel s
  | .kclr d => Sys2Proof.Machine.execKclr d s
  | .krd d a r l => Sys2Proof.Machine.execKrd d a r l s
  | .xchg d a b l h => Sys2Proof.Machine.execXchg d a b l h s
  | .ld d a b l h disp cls scope acq rem ty lreg g p => Sys2Proof.Machine.execLd d a b l h disp cls scope acq rem ty lreg g p s
  | .st d a h g p disp scope rel z => Sys2Proof.Machine.execSt d a h g p disp scope rel z s
  | .sld d a l disp scope acq rem ty => Sys2Proof.Machine.execSld d a l disp scope acq rem ty s
  | .sst d a disp scope rel z => Sys2Proof.Machine.execSst d a disp scope rel z s
  | .talloc d a v => Sys2Proof.Machine.execTalloc d a v s
  | .tfree a => Sys2Proof.Machine.execTfree a s
  | .tld d a g z p l h => Sys2Proof.Machine.execTld d a g z p l h s
  | .tst d a h g p z => Sys2Proof.Machine.execTst d a h g p z s
  | .tatom d a o t l h => Sys2Proof.Machine.execTatom d a o t l h s
  | .gtest d a h sel => Sys2Proof.Machine.execGtest d a h sel s
  | .gacc d a h sel => Sys2Proof.Machine.execGacc d a h sel s
  | .gdemand d a t p g l h => Sys2Proof.Machine.execGdemand d a t p g l h s
  | .atom d a l h disp op scope acq rem rel ty => Sys2Proof.Machine.execAtom d a l h disp op scope acq rem rel ty s
  | .satom d a l disp op scope acq rem rel ty => Sys2Proof.Machine.execSatom d a l disp op scope acq rem rel ty s
  | .mlease n => Sys2Proof.Machine.execMlease n s
  | .mleaseReg a => Sys2Proof.Machine.execMleaseReg a s
  | .mma d a b h g sf sm spa spb => Sys2Proof.Machine.execMma d a b h g sf sm spa spb s
  | .mld d a f => Sys2Proof.Machine.execMld d a f s
  | .mst d a f => Sys2Proof.Machine.execMst d a f s
  | .mzero d c => Sys2Proof.Machine.execMzero d c s
  | .msave a => Sys2Proof.Machine.execMsave a s
  | .mres a => Sys2Proof.Machine.execMres a s
  | .attn d a b sigma => Sys2Proof.Machine.execAttn d a b sigma s
  | .amerge d a => Sys2Proof.Machine.execAmerge d a s
  | .anorm d a f => Sys2Proof.Machine.execAnorm d a f s
  | .dld d a l => Sys2Proof.Machine.execDld d a l s
  | .dst d a => Sys2Proof.Machine.execDst d a s
  | .dfrom d a h g f => Sys2Proof.Machine.execDfrom d a h g f s
  | .dto d a r f => Sys2Proof.Machine.execDto d a r f s
  | .ddot d a b l => Sys2Proof.Machine.execDdot d a b l s
  | .dadd d a b => Sys2Proof.Machine.execDadd d a b s
  | .dsub d a b => Sys2Proof.Machine.execDsub d a b s
  | .dscl d a => Sys2Proof.Machine.execDscl d a s
  | .dmulv d a b h g => Sys2Proof.Machine.execDmulv d a b h g s
  | .dneg d a => Sys2Proof.Machine.execDneg d a s
  | .dnorm d a => Sys2Proof.Machine.execDnorm d a s
  | .dsetn d a => Sys2Proof.Machine.execDsetn d a s
  | .dtest d a u => Sys2Proof.Machine.execDtest d a u s
  | .skins d a b h t => Sys2Proof.Machine.execSkins d a b h t s
  | .skdel d a b h t => Sys2Proof.Machine.execSkdel d a b h t s
  | .skclr d t => Sys2Proof.Machine.execSkclr d t s
  | .sksub d a sel t => Sys2Proof.Machine.execSksub d a sel t s
  | .skstat d a t => Sys2Proof.Machine.execSkstat d a t s
  | .sadd d a b => Sys2Proof.Machine.execSadd d a b s
  | .ssub d a b => Sys2Proof.Machine.execSsub d a b s
  | .smul d a b => Sys2Proof.Machine.execSmul d a b s
  | .sand d a b => Sys2Proof.Machine.execSand d a b s
  | .sor d a b => Sys2Proof.Machine.execSor d a b s
  | .sxor d a b => Sys2Proof.Machine.execSxor d a b s
  | .sshl d a b => Sys2Proof.Machine.execSshl d a b s
  | .sshr d a b => Sys2Proof.Machine.execSshr d a b s
  | .ssar d a b => Sys2Proof.Machine.execSsar d a b s
  | .scmp d a b u => Sys2Proof.Machine.execScmp d a b u s
  | .smin d a b u => Sys2Proof.Machine.execSmin d a b u s
  | .smax d a b u => Sys2Proof.Machine.execSmax d a b u s
  | .smov d a => Sys2Proof.Machine.execSmov d a s
  | .slit d lit => Sys2Proof.Machine.execSlit d lit s
  | .saddImm d a x => Sys2Proof.Machine.execSaddImm d a x s
  | .ssubImm d a x => Sys2Proof.Machine.execSsubImm d a x s
  | .smulImm d a x => Sys2Proof.Machine.execSmulImm d a x s
  | .sandImm d a x => Sys2Proof.Machine.execSandImm d a x s
  | .sorImm d a x => Sys2Proof.Machine.execSorImm d a x s
  | .sxorImm d a x => Sys2Proof.Machine.execSxorImm d a x s
  | .sshlImm d a c => Sys2Proof.Machine.execSshlImm d a c s
  | .sshrImm d a c => Sys2Proof.Machine.execSshrImm d a c s
  | .ssarImm d a c => Sys2Proof.Machine.execSsarImm d a c s
  | .smovi d x => Sys2Proof.Machine.execSmovi d x s
  | .br lit => Sys2Proof.Machine.execBr lit s
  | .bc a v neg g t r => Sys2Proof.Machine.execBc a v neg g t r s
  | .brx a g n r => Sys2Proof.Machine.execBrx a g n r s
  | .call d lit => Sys2Proof.Machine.execCall d lit s
  | .ret a g => Sys2Proof.Machine.execRet a g s
  | .loop d a w => Sys2Proof.Machine.execLoop d a w s
  | .lbrk a => Sys2Proof.Machine.execLbrk a s
  | .trap x => Sys2Proof.Machine.execTrap x s
  | .mand d a b => Sys2Proof.Machine.execMand d a b s
  | .mor d a b => Sys2Proof.Machine.execMor d a b s
  | .mxor d a b => Sys2Proof.Machine.execMxor d a b s
  | .mnot d a => Sys2Proof.Machine.execMnot d a s
  | .mpop d a => Sys2Proof.Machine.execMpop d a s
  | .mfirst d a => Sys2Proof.Machine.execMfirst d a s
  | .emrd d => Sys2Proof.Machine.execEmrd d s
  | .emwr a => Sys2Proof.Machine.execEmwr a s
  | .srd d v n => Sys2Proof.Machine.execSrd d v n s
  | .swr a n => Sys2Proof.Machine.execSwr a n s
  | .cpy d a b t sel => Sys2Proof.Machine.execCpy d a b t sel s
  | .cpyt d a b => Sys2Proof.Machine.execCpyt d a b s
  | .coll a => Sys2Proof.Machine.execColl a s
  | .bseal c => Sys2Proof.Machine.execBseal c s
  | .bwait a y n c => Sys2Proof.Machine.execBwait a y n c s
  | .qpush d a b => Sys2Proof.Machine.execQpush d a b s
  | .recon a => Sys2Proof.Machine.execRecon a s
  | .launch d a => Sys2Proof.Machine.execLaunch d a s
  | .fence v r q sel => Sys2Proof.Machine.execFence v r q sel s
  | .bar a r c n => Sys2Proof.Machine.execBar a r c n s
  | .bara a r c n => Sys2Proof.Machine.execBara a r c n s
  | .barq d n => Sys2Proof.Machine.execBarq d n s
  | .tileEntryFree c slot f => Sys2Proof.Machine.execTileEntryFree c slot f s
  | .longLatencyResult c slot k => Sys2Proof.Machine.execLongLatencyResult c slot k s
  | .loadDeadline c slot k lane => Sys2Proof.Machine.execLoadDeadline c slot k lane s
  | .loadDataArrival c k => Sys2Proof.Machine.execLoadDataArrival c k s
  | .xchgComplete c slot k => Sys2Proof.Machine.execXchgComplete c slot k s
  | .yieldExpiry c slot f => Sys2Proof.Machine.execYieldExpiry c slot f s
  | .issueSelect c vpipe => Sys2Proof.Machine.execIssueSelect c vpipe s
  | .leaseGrant c => Sys2Proof.Machine.execLeaseGrant c s
  | .leaseIdleEnd c => Sys2Proof.Machine.execLeaseIdleEnd c s
  | .engineIssueAdmit c slot f => Sys2Proof.Machine.execEngineIssueAdmit c slot f s
  | .bwaitResume c slot f => Sys2Proof.Machine.execBwaitResume c slot f s
  | .copyEngineRun c k => Sys2Proof.Machine.execCopyEngineRun c k s
  | .collectiveRun group n e => Sys2Proof.Machine.execCollectiveRun group n e s
  | .matrixStep c k => Sys2Proof.Machine.execMatrixStep c k s
  | .linkEngineRun c k => Sys2Proof.Machine.execLinkEngineRun c k s
  | .qpushSlotWrite c slot f => Sys2Proof.Machine.execQpushSlotWrite c slot f s
  | .faultEntryWrite p => Sys2Proof.Machine.execFaultEntryWrite p s
  | .faultResp p x => Sys2Proof.Machine.execFaultResp p x s
  | .nopPacket q x => Sys2Proof.Machine.execNopPacket q x s
  | .launchPacket q x => Sys2Proof.Machine.execLaunchPacket q x s
  | .copyPacket q x => Sys2Proof.Machine.execCopyPacket q x s
  | .collPacket q x => Sys2Proof.Machine.execCollPacket q x s
  | .waitvPacket q x => Sys2Proof.Machine.execWaitvPacket q x s
  | .signalPacket q x => Sys2Proof.Machine.execSignalPacket q x s
  | .reconPacket q x => Sys2Proof.Machine.execReconPacket q x s
  | .qbarPacket q x => Sys2Proof.Machine.execQbarPacket q x s
  | .packetComplete q x => Sys2Proof.Machine.execPacketComplete q x s
  | .teamPlace p => Sys2Proof.Machine.execTeamPlace p s
  | .teamRetire c t => Sys2Proof.Machine.execTeamRetire c t s
  | .preemptRequest teams dl areas => Sys2Proof.Machine.execPreemptRequest teams dl areas s
  | .drainExpiry c t => Sys2Proof.Machine.execDrainExpiry c t s
  | .teamSave c t => Sys2Proof.Machine.execTeamSave c t s
  | .resumeRequest p area => Sys2Proof.Machine.execResumeRequest p area s
  | .coreHalt c => Sys2Proof.Machine.execCoreHalt c s
  | .quiesce c => Sys2Proof.Machine.execQuiesce c s
  | .quiesceComplete c => Sys2Proof.Machine.execQuiesceComplete c s
  | .haltEnd c gangs => Sys2Proof.Machine.execHaltEnd c gangs s
  | .rangeLockTableRead c => Sys2Proof.Machine.execRangeLockTableRead c s
  | .partitionCreate p clusters floor rail ownerKeys => Sys2Proof.Machine.execPartitionCreate p clusters floor rail ownerKeys s
  | .partitionDestroy p => Sys2Proof.Machine.execPartitionDestroy p s
  | .keyErase p => Sys2Proof.Machine.execKeyErase p s
  | .asidAllot p asid => Sys2Proof.Machine.execAsidAllot p asid s
  | .rootTableSet agent asid root => Sys2Proof.Machine.execRootTableSet agent asid root s
  | .translationInvalidate agent asid va => Sys2Proof.Machine.execTranslationInvalidate agent asid va s
  | .invalidationComplete asid va => Sys2Proof.Machine.execInvalidationComplete asid va s
  | .faultQueueSetup agent p cb ring nent alert => Sys2Proof.Machine.execFaultQueueSetup agent p cb ring nent alert s
  | .privateSizeSet agent c size asid => Sys2Proof.Machine.execPrivateSizeSet agent c size asid s
  | .interleaveSet agent k q z => Sys2Proof.Machine.execInterleaveSet agent k q z s
  | .debugEnable agent p => Sys2Proof.Machine.execDebugEnable agent p s
  | .queueCreate q asid prio cb rb npkt => Sys2Proof.Machine.execQueueCreate q asid prio cb rb npkt s
  | .queueRestart q => Sys2Proof.Machine.execQueueRestart q s
  | .hostAsidBind b => Sys2Proof.Machine.execHostAsidBind b s
  | .pbudgetWrite p cls value => Sys2Proof.Machine.execPbudgetWrite p cls value s
  | .escwaitWrite value => Sys2Proof.Machine.execEscwaitWrite value s
  | .policyRegisterWrite p pol value => Sys2Proof.Machine.execPolicyRegisterWrite p pol value s
  | .railSet k rail => Sys2Proof.Machine.execRailSet k rail s
  | .powerCapWrite watts => Sys2Proof.Machine.execPowerCapWrite watts s
  | .ethernetKeyInstall port keys => Sys2Proof.Machine.execEthernetKeyInstall port keys s
  | .negotiateAlgorithms alg => Sys2Proof.Machine.execNegotiateAlgorithms alg s
  | .getCertificate slot => Sys2Proof.Machine.execGetCertificate slot s
  | .challenge slot nonce => Sys2Proof.Machine.execChallenge slot nonce s
  | .getMeasurements agent index nonce => Sys2Proof.Machine.execGetMeasurements agent index nonce s
  | .keyExchange x => Sys2Proof.Machine.execKeyExchange x s
  | .finish session p rsaSig slhSig => Sys2Proof.Machine.execFinish session p rsaSig slhSig s
  | .endSession session => Sys2Proof.Machine.execEndSession session s
  | .unsupportedRequest code => Sys2Proof.Machine.execUnsupportedRequest code s
  | .packageReset images => Sys2Proof.Machine.execPackageReset images s
  | .hostLoadStore op => Sys2Proof.Machine.execHostLoadStore op s
  | .frameAuthFail f => Sys2Proof.Machine.execFrameAuthFail f s
  | .linkDown d => Sys2Proof.Machine.execLinkDown d s
  | .linkKeyReplace k => Sys2Proof.Machine.execLinkKeyReplace k s
  | .phaseFailure rail => Sys2Proof.Machine.execPhaseFailure rail s
  | .passCountLower k current => Sys2Proof.Machine.execPassCountLower k current s
  | .powerWindow x => Sys2Proof.Machine.execPowerWindow x s
  | .refreshDouble k temp => Sys2Proof.Machine.execRefreshDouble k temp s
  | .thermalThrottle k temp => Sys2Proof.Machine.execThermalThrottle k temp s
  | .thermalStop k temp => Sys2Proof.Machine.execThermalStop k temp s
  | .thermalStopEnd k temp => Sys2Proof.Machine.execThermalStopEnd k temp s
  | .thermalTrip k temp => Sys2Proof.Machine.execThermalTrip k temp s
  | .watchdogExpiry c slot => Sys2Proof.Machine.execWatchdogExpiry c slot s
  | .coreGate c => Sys2Proof.Machine.execCoreGate c s
  | .crossbarGrant k out reqs => Sys2Proof.Machine.execCrossbarGrant k out reqs s
  | .budgetPeriodEnd k => Sys2Proof.Machine.execBudgetPeriodEnd k s
  | .bestEffortPromote k out input waited => Sys2Proof.Machine.execBestEffortPromote k out input waited s
  | .escapeEnter msg blocked => Sys2Proof.Machine.execEscapeEnter msg blocked s
  | .storePerformed c k sys => Sys2Proof.Machine.execStorePerformed c k sys s
  | .collectiveGroupDefine p group d => Sys2Proof.Machine.execCollectiveGroupDefine p group d s
  | .thermalThrottleEnd k temp => Sys2Proof.Machine.execThermalThrottleEnd k temp s
  | .refreshRateRestore k temp => Sys2Proof.Machine.execRefreshRateRestore k temp s
  | .linkUp l rsaChain slhChain => Sys2Proof.Machine.execLinkUp l rsaChain slhChain s
  | .mrel => Sys2Proof.Machine.execMrel s
  | .mfence => Sys2Proof.Machine.execMfence s
  | .mresDrop => Sys2Proof.Machine.execMresDrop s
  | .regang => Sys2Proof.Machine.execRegang s
  | .yield => Sys2Proof.Machine.execYield s
  | .exit => Sys2Proof.Machine.execExit s
  | .nop => Sys2Proof.Machine.execNop s
  | .rti => Sys2Proof.Machine.execRti s
  | .cpServeQueue => Sys2Proof.Machine.execCpServeQueue s
  | .thermalStateRead => Sys2Proof.Machine.execThermalStateRead s
  | .getVersion => Sys2Proof.Machine.execGetVersion s
  | .getCapabilities => Sys2Proof.Machine.execGetCapabilities s
  | .getDigests => Sys2Proof.Machine.execGetDigests s

end Sys2Proof.Machine
end

