-- ==== Sys2Proof/Machine/Step.lean ====
section
/-!
DEFINITION. The step: the next event of the agenda happens; else the selected fragment issues; else the first of the
machine's own moments that changes something (log 1). And the state in which a given instruction is fetched next (log 11).
-/
namespace Sys2Proof.Machine

/-- The event changes the state. -/
def changes (s : State) (i : Instr) : Bool :=
  match exec i s with
  | .next t => t != s
  | _ => true

/-- The event that happens where the agenda names none and no fragment is selected (log 1). -/
def moment (s : State) : Instr := (s.moments.find? (changes s)).getD (.issueSelect 0 true)

/-- The selected fragment issues; where an event that came between keeps it from issuing, the selection is used up (log 19). -/
def stepIssue (s : State) : Host.Outcome State Fault Refusal :=
  if s.cursorLive then
    match s.issue with
    | .error t => .next t
    | .ok x => exec x.2 x.1
  else .next s.stall

/-- One step of the package. -/
def step (s : State) : Host.Outcome State Fault Refusal :=
  match s.agenda with
  | e :: rest => exec e { s with agenda := rest }
  | [] => if s.sel then stepIssue s else exec (moment s) s

/-- `s` with the instruction of a table word where its next fetch is (log 11): a team of one gang of 32 lanes stands on core
0 in gang slot 0, its one fragment is selected, and its pc is the base of the local aperture, 2 MiB of which its ASID owns. -/
def State.withFetchWord (s : State) (_nbits w : Nat) : State :=
  let p := 2 ^ 21
  let asid : Asid := 1
  let pc : DWord := BitVec.ofNat 64 apertureBase
  let a := memIx s.devid (vaultPa 0 (vaultSize - p))
  let f : Frag := { Frag.reset with valid := true, pc := pc, mask := 0xFFFFFFFF }
  let s1 := s.modCore 0 fun k =>
    { (k.modTeam 0 fun t => { t with live := true, asid := asid, ngang := 1, lanes := 32 }).modGang 0 (fun g =>
        { g with live := true, launched := 0xFFFFFFFF, frags := g.frags.set 0 f }) with psize := p, powner := asid }
  let s2 := s1.modPart 0 fun q => { q with valid := true, clusters := 1 }
  { s2 with
    spaces := [{ asid := asid, part := 0, root := some 0 }]
    mem := s2.mem.writeN a (leBytes 8 w)
    byteKey := [], badUnits := [], agenda := [], sel := true
    cur := { core := 0, slot := 0, hnd := false, frag := 0 } }

end Sys2Proof.Machine
end

