-- ==== Sys2Proof/Safety.lean ====
section
/-!
DEFINITION. The terms that claims use: what an instruction may write and what it leaves alone (frames), the canonical form of
memory, and the states in which an instruction has its own effect at once.
-/
namespace Sys2Proof.Spec

open Sys2Proof.Machine

/-- The registers, by class, that an instruction writes, loop counters included, and whether it changes something else that the gang owns and a
split gang shares (a wide accumulator cleared, R171; a batch sealed, R297), draws from the lanes' generators (R119) or may set
DSAT (R102). -/
structure Writes where
  vec : List RegField := []
  uni : List RegField := []
  mask : List RegField := []
  dir : List RegField := []
  acc : List RegField := []
  lc : List (Fin 3) := []
  owned : Bool := false
  rng : Bool := false
  dsat : Bool := false
deriving DecidableEq, Repr

/-- The writes that set USPLIT in a split gang (R37, R173): kadd sets it never. -/
def Writes.shared (w : Writes) : Bool := !w.uni.isEmpty || !w.mask.isEmpty || !w.dir.isEmpty || w.owned

/-- A gang's registers are kept but for the writes named: vector lanes outside `em` always, loop counters but for the one that
an end instruction counts down (R148), and every trap and special register. -/
structure Kept (w : Writes) (em : BitVec 32) (g h : Gang) : Prop where
  vec : ∀ (r : RegField) (l : LaneId), r ∉ w.vec ∨ em.getLsbD l.val = false → (h.v.get (vIx r)).get l = (g.v.get (vIx r)).get l
  uni : ∀ r : RegField, r ∉ w.uni → h.u.get (vIx r) = g.u.get (vIx r)
  mask : ∀ r : RegField, r.toNat < 8 → r ∉ w.mask → h.m.get (mIx r) = g.m.get (mIx r)
  dir : ∀ r : RegField, r.toNat < 16 → r ∉ w.dir → h.dc.get (dIx r) = g.dc.get (dIx r) ∧ h.dn.get (dIx r) = g.dn.get (dIx r)
  acc : ∀ r : RegField, r.toNat < 4 → r ∉ w.acc → h.k.get (kIx r) = g.k.get (kIx r) ∧ h.ks.get (kIx r) = g.ks.get (kIx r)
  lc : ∀ n : Fin 3, n ∈ w.lc ∨ h.lc.get n = g.lc.get n ∨ (∃ r ∈ g.loops.head?, lcIx r.counter = n ∧ h.lc.get n = g.lc.get n - 1)
  rng : w.rng = false → h.rng = g.rng
  dsat : w.dsat = false → h.dsat = g.dsat
  usplit : h.usplit = (g.usplit || (w.shared && g.split))
  reread : h.reread = g.reread
  intrap : h.intrap = g.intrap
  trapcause : h.trapcause = g.trapcause
  trappc : h.trappc = g.trappc
  trapinfo : h.trapinfo = g.trapinfo
  traplate : h.traplate = g.traplate
  rngseed : h.rngseed = g.rngseed
  skm : h.skm = g.skm
  skseed : h.skseed = g.skseed

/-- Nothing outside the issuing core differs, every byte of device memory included, but for the selection; reports are only
added. -/
structure OnlyCore (s t : State) : Prop where
  rest : { t with cores := s.cores, sel := s.sel, reports := s.reports } = s
  reports : s.reports <+: t.reports
  cores : ∀ c, c ≠ s.cur.core → t.core c = s.core c
  mem : ∀ a, t.mem.read a = s.mem.read a

/-- Of the issuing core, only the issuing gang and its team's count of instructions differ. -/
structure OnlyGang (s t : State) : Prop extends OnlyCore s t where
  core : { t.core s.cur.core with slots := s.curCore.slots, teams := s.curCore.teams } = s.curCore
  gangs : ∀ i, i ≠ s.cur.slot → (t.core s.cur.core).gang i = s.curCore.gang i
  teams : ∀ i, { (t.core s.cur.core).team i with issued := (s.curCore.team i).issued } = s.curCore.team i

/-- The frame of a register instruction: its writes alone, in its active lanes, in its own gang. -/
structure Frame (w : Writes) (s t : State) : Prop extends OnlyGang s t where
  kept : Kept w s.em s.g t.g

/-- The split table and the join table at an instruction boundary (R19, R21, R22): no lane belongs to two fragments, no fragment is
empty, the fragments hold the live lanes, every join has at least two children, and of a join without a child join some fragment does not
wait at its rcv. A fragment there whose handler runs, or that waits for something else, does not count as waiting (log 53). -/
structure SplitTables (g : Gang) : Prop where
  disjoint : ∀ i k, (g.frags.get i).valid = true → (g.frags.get k).valid = true → i ≠ k → (g.frags.get i).mask &&& (g.frags.get k).mask = 0
  nonempty : ∀ i, (g.frags.get i).valid = true → (g.frags.get i).mask ≠ 0
  live : ∀ l : LaneId, (∃ i, (g.frags.get i).valid = true ∧ (g.frags.get i).mask.getLsbD l.val = true) ↔
    g.launched.getLsbD l.val = true ∧ g.exited.getLsbD l.val = false
  children : ∀ j, (g.joins.get j).valid = true →
    2 ≤ (List.finRange 32).countP (fun i => (g.frags.get i).valid && decide ((g.frags.get i).join = some j)) +
      (List.finRange 31).countP (fun k => (g.joins.get k).valid && decide ((g.joins.get k).parent = some j))
  waiting : ∀ j, (g.joins.get j).valid = true → (∀ k, (g.joins.get k).valid = true → (g.joins.get k).parent ≠ some j) →
    ∃ i, (g.frags.get i).valid = true ∧ (g.frags.get i).join = some j ∧
      ¬((g.frags.get i).pc = (g.joins.get j).rcv ∧ (g.frags.get i).wait = .none ∧ ¬(g.intrap = true ∧ g.handler.frag = i))

/-- The instruction has its own effect: the selection is used up, it writes what `w` names and nothing else, and `P` holds of the
next state. -/
def Completes (i : Instr) (s : State) (w : Writes) (P : State → Prop) : Prop :=
  ∃ t, exec i s = .next t ∧ t.sel = false ∧ Frame w s t ∧ P t

/-- No result of the gang is outstanding, so that nothing else is written at the instruction boundary (R51). -/
def Calm (s : State) : Prop := s.g.pend = []

/-! ### Lanes -/

/-- The instruction completes and writes `vd` in the active lanes, where `Q` holds of what stands there (R109). -/
def LaneOp (i : Instr) (s : State) (d : RegField) (Q : LaneId → VCell → Prop) : Prop :=
  i.wf = true → Completes i s { vec := [d] } fun t => ∀ l, s.active l → Q l (t.v d l)

/-- The instruction completes and writes one uniform register (R36). -/
def UniOp (i : Instr) (s : State) (d : RegField) (x : DWord) : Prop :=
  i.wf = true → Completes i s { uni := [d] } fun t => t.u d = x

/-- The instruction completes and writes one mask register (R36). -/
def MaskOp (i : Instr) (s : State) (d : RegField) (x : BitVec 32) : Prop :=
  i.wf = true → Completes i s { mask := [d] } fun t => t.m d = x

/-- Each element of width `w` of `z` follows from those of `x` in the same place (R109). -/
def Elt1 (w : Nat) (x z : VCell) (P : Nat → Nat → Prop) : Prop := ∀ k, k < 64 / w → P (elem w x.bits k) (elem w z.bits k)

/-- Each element of width `w` of `z` follows from those of `x` and `y` in the same place (R109). -/
def Elt2 (w : Nat) (x y z : VCell) (P : Nat → Nat → Nat → Prop) : Prop :=
  ∀ k, k < 64 / w → P (elem w x.bits k) (elem w y.bits k) (elem w z.bits k)

/-- Each element of width `w` of `z` follows from those of `x`, `y` and the old destination `o` (R109). -/
def Elt3 (w : Nat) (x y o z : VCell) (P : Nat → Nat → Nat → Nat → Prop) : Prop :=
  ∀ k, k < 64 / w → P (elem w x.bits k) (elem w y.bits k) (elem w o.bits k) (elem w z.bits k)

/-- The marks of a result of elements of width `w` from the registers it reads as data (R110). -/
def Marked (w : Nat) (srcs : List VCell) (z : VCell) : Prop :=
  if w = 64 then z.g0 = srcs.any (fun c => c.g0 || c.g1) ∧ z.g1 = srcs.any fun c => c.g0 || c.g1
  else z.g0 = srcs.any (fun c => c.g0) ∧ z.g1 = srcs.any fun c => c.g1

/-- An integer clamped to the signed or unsigned range of `w` bits (R114). -/
def clamp (w : Nat) (signed : Bool) (x : Int) : Int :=
  if signed then Max.max (-(2 ^ (w - 1))) (Min.min (2 ^ (w - 1) - 1) x) else Max.max 0 (Min.min (2 ^ w - 1) x)

/-- `z` is the integer `x` as an element: clamped with mod[3], else modulo 2^w (R114). -/
def IsInt (m : BitVec 4) (x : Int) (z : Nat) : Prop :=
  if satOf m then intOf (widthOf m) (signOf m) z = clamp (widthOf m) (signOf m) x else (z : Int) = x % 2 ^ widthOf m

/-- Bit `j` of an element after a shift, a rotation or a field operation is `p j`, for every bit below the width (R115). -/
def BitsAre (w z : Nat) (p : Nat → Bool) : Prop := ∀ j, j < w → z.testBit j = p j

/-! ### Draws and lookahead -/

/-- The random word that element `k` of an instruction draws in lane `l` (R74, R119). -/
def drawAt (s : State) (l : LaneId) (k : Nat) : Nat := drawOf (xorshift^[k + 1] (s.g.rng.get l))

/-- Under `.rsto` each active lane has drawn `n` times; else no lane has drawn (R119). -/
def Drew (s t : State) (r : BitVec 3) (n : Nat) : Prop :=
  ∀ l, t.g.rng.get l = if r = 4 ∧ s.active l then xorshift^[n] (s.g.rng.get l) else s.g.rng.get l

/-- A lane operation that rounds `n` elements of each active lane. -/
def DrawOp (i : Instr) (s : State) (d : RegField) (r : BitVec 3) (n : Nat) (Q : LaneId → VCell → Prop) : Prop :=
  i.wf = true → Completes i s { vec := [d], rng := r == 4 } fun t => (∀ l, s.active l → Q l (t.v d l)) ∧ Drew s t r n

/-- The one open window of the gang (R51): the address of its instruction, the instructions left, and its result. -/
def Opened (s t : State) (n : Nat) (P : Pending → Prop) : Prop :=
  ∃ p, t.g.pend = [p] ∧ p.hnd = s.cur.hnd ∧ p.pc = s.pc ∧ p.left = n ∧ p.closed = (n == 0) ∧ P p

/-- A long-latency instruction whose result is known at issue (R51): with no lookahead the result is there at once; with `n`
instructions of lookahead the register is as before and the window is open. -/
def LookOp (i : Instr) (s : State) (n : Nat) (w : Writes) (now : State → Prop) (later : Pending → Prop) (both : State → Prop) : Prop :=
  i.wf = true →
    (n = 0 → Completes i s w fun t => t.g.pend = [] ∧ now t ∧ both t) ∧
    (0 < n → Completes i s { w with vec := [], uni := [], dir := [] } fun t => Opened s t n later ∧ both t)

/-- A whole lane value among the writes of a pending result. -/
def WritesLane (p : Pending) (d : RegField) (l : LaneId) (c : VCell) : Prop :=
  p.wr.find? (fun x => x.reg == d && x.lane == l) =
    some { reg := d, lane := l, lo := some (half c.bits false, c.g0), hi := some (half c.bits true, c.g1) }

/-! ### Places -/

/-- Lane `l` belongs to a fragment that stands at `a`. -/
def StandsAt (g : Gang) (l : LaneId) (a : DWord) : Prop :=
  ∃ i, (g.frags.get i).valid = true ∧ (g.frags.get i).mask.getLsbD l.val = true ∧ (g.frags.get i).pc = a

/-- After the instruction, lane `l` of the issuing fragment stands at `a`; in a handler, the handler does. -/
def Goes (s t : State) (l : LaneId) (a : DWord) : Prop :=
  if s.cur.hnd then t.g.handler.pc = a else StandsAt t.g l a

/-- The issuing fragment is in the split table. -/
def Placed (s : State) : Prop := s.cur.hnd = true ∨ s.f.valid = true

/-- The split and join tables have room for a divergence of every active lane (R18). -/
def Room (s : State) : Prop := s.g.nfrag + s.lanes.length ≤ 33 ∧ ∃ j, (s.g.joins.get j).valid = false

/-- The issuing gang can take a trap at once: no handler of it runs and its team has one (R153, R155). -/
def TrapReady (s : State) : Prop :=
  s.cur.hnd = false ∧ s.g.intrap = false ∧ s.t.trapbase ≠ 0 ∧ s.t.halted = false

/-- The fragment has taken the trap (R152, R153): the saved registers, the handler's address and its lanes; no other register and
no byte of memory differs. -/
structure Trapped (s t : State) (code : Byte) (pc info : DWord) : Prop where
  cause : t.g.trapcause = code
  pc : t.g.trappc = pc
  info : t.g.trapinfo = info
  late : t.g.traplate = 0
  intrap : t.g.intrap = true
  handler : t.g.handler.pc = s.t.trapbase
  lanes : (t.g.frags.get t.g.handler.frag).mask = s.em
  latch : t.g.latch = []
  regs : t.g.v = s.g.v ∧ t.g.u = s.g.u ∧ t.g.m = s.g.m ∧ t.g.dc = s.g.dc ∧ t.g.dn = s.g.dn ∧ t.g.k = s.g.k ∧ t.g.ks = s.g.ks ∧
    t.g.lc = s.g.lc ∧ t.g.loops = s.g.loops ∧ t.g.rng = s.g.rng
  mem : ∀ a, t.mem.read a = s.mem.read a

/-- The instruction traps at its own address in every state that can take the trap at once, and has no other effect. -/
def TrapsAt (i : Instr) (s : State) (code : Byte) (info : DWord) : Prop :=
  TrapReady s → ∃ t, exec i s = .next t ∧ t.sel = false ∧ Trapped s t code s.pc info

/-! ### Accesses -/

/-- No access of the issuing gang is in flight, and no store of another gang has to be performed before what it does next. -/
def Quiet (s : State) : Prop := (∀ y ∈ s.curCore.accs, y.slot ≠ s.cur.slot) ∧ ∀ m ∈ s.curCore.marks, m.slot ≠ s.cur.slot

/-- The access of `size` bytes at `ea` passes the checks of R211, R221 and R265: aligned, an ordinary or aperture address that
translates to `p`, and no range lock against it (R253). -/
structure Reach (s : State) (ea : DWord) (size : Nat) (write : Bool) (p : Place) : Prop where
  aligned : ea.toNat % size = 0
  ordinary : inMulticast ea = false
  place : s.translate (some s.cur.core) s.t.asid ea size write = .ok p
  free : s.curCore.lockHit s.t.asid false (ea.toNat % 2 ^ 57) size write = none

/-- The vault addresses that a store of `size` bytes at `ea` goes to: one place, or for a multicast address (R406 to R408) the same offset
in the vault of the core of the issuing coreid on each cluster of MASK, all of the team's partition. -/
structure Stores (s : State) (ea : DWord) (size : Nat) (ps : List Place) : Prop where
  aligned : ea.toNat % size = 0
  one : inMulticast ea = false → ∃ p, Reach s ea size true p ∧ ps = [p]
  many : inMulticast ea = true →
    let c := s.cur.core
    let off := ea.toNat % 2 ^ 27
    let targets := ((List.finRange 8).filter fun k => ea.getLsbD (28 + k.val)).map fun k => coreAt k (coreidOf c)
    let at_ (k : CoreId) : BitVec 39 := vaultPa k (vaultSize - (s.core k).psize + off)
    s.rooted s.t.asid = true ∧ (∀ j, (36 ≤ j ∧ j < 40) ∨ j = 27 → ea.getLsbD j = false) ∧
      (∀ k : ClusId, ea.getLsbD (28 + k.val) = true → (s.parts.get s.t.part).clusters.getLsbD k.val = true) ∧
      (∀ k ∈ targets, (s.core k).powner = s.t.asid ∧ off + size ≤ (s.core k).psize) ∧
      (∀ e, (s.curCore.locks.get e).v = false) ∧
      ps = targets.map fun k => { dev := s.devid, pa := at_ k, path := if k = c then .vertical else .horizontal, ptype := 0, fill := none }

/-- What identifies an access in flight: where it goes, its bytes, and what it does there. -/
def accKey (a : Access) : BitVec 10 × BitVec 39 × Nat × AccKind := (a.dev, a.pa, a.size, a.kind)

/-- The instruction has issued the accesses `new` and nothing is performed yet: no byte of memory, no other gang and no other core
differs, and of the gang's registers only those of `w`. -/
structure Issues (w : Writes) (s t : State) (new : List Access) : Prop where
  kept : Kept w s.em s.g t.g
  accs : (t.core s.cur.core).accs = s.curCore.accs ++ new
  waiting : ∀ a ∈ new, a.done = false ∧ a.slot = s.cur.slot ∧ a.lanes = s.em
  mem : ∀ a, t.mem.read a = s.mem.read a
  gangs : ∀ i, i ≠ s.cur.slot → (t.core s.cur.core).gang i = s.curCore.gang i
  cores : ∀ c, c ≠ s.cur.core → t.core c = s.core c
  sel : t.sel = false

/-- An access of `size` bytes in pieces of at most 8 (R244). -/
def piecesAt (p : Place) (size : Nat) (f : Nat → AccKind) : List (BitVec 10 × BitVec 39 × Nat × AccKind) :=
  if size = 16 then [(p.dev, p.pa, 8, f 0), (p.dev, p.pa + 8, 8, f 1)] else [(p.dev, p.pa, size, f 0)]

/-- A tile access of `size` bytes at the tile address `x` reaches byte `b` of the scratchpad of core `o` (R186, R188). -/
structure TileReach (s : State) (x : DWord) (size : Nat) (write : Bool) (o : CoreId) (b : Nat) : Prop where
  high : x.toNat < 2 ^ 48
  reach : s.reach s.cur.core s.g.team s.t.asid (tileHandle x) (tileOff x) size = some (o, b)
  aligned : tileOff x % size = 0
  free : (s.core o).lockHit s.t.asid true (x.toNat % 2 ^ 48) size write = none

/-- Of the whole machine only the scratchpad of core `o`, the issuing gang, its team's count and the selection differ. -/
structure OnlySpad (w : Writes) (s t : State) (o : CoreId) : Prop where
  kept : Kept w s.em s.g t.g
  mem : t.mem = s.mem
  sel : t.sel = false
  cores : ∀ c, c ≠ s.cur.core → c ≠ o → t.core c = s.core c
  spads : ∀ c, c ≠ o → (t.core c).spad = (s.core c).spad
  gangs : ∀ c i, ¬(c = s.cur.core ∧ i = s.cur.slot) → (t.core c).gang i = (s.core c).gang i

/-! ### Cross-lane -/

/-- No checked half of `va` is marked in an active lane, or the instruction accepts marks (R161). -/
def Clean (s : State) (accept : Bool) (a : RegField) (lo hi : Bool) : Prop :=
  accept = true ∨ ∀ l, s.active l → ¬((lo ∧ (s.v a l).g0) ∨ (hi ∧ (s.v a l).g1))

/-- An operand that an instruction reads: its register, and whether it supplies the low and the high half. -/
abbrev Operand := RegField × Bool × Bool

/-- The halves that the operand supplies are marked in lane `l`. -/
def MarkedHalf (s : State) (r : Operand) (l : LaneId) : Prop := (r.2.1 = true ∧ (s.v r.1 l).g0 = true) ∨ (r.2.2 = true ∧ (s.v r.1 l).g1 = true)

/-- The operand is marked in a lane of `em`. -/
def MarkedIn (s : State) (em : BitVec 32) (r : Operand) : Prop := ∃ l : LaneId, em.getLsbD l.val = true ∧ MarkedHalf s r l

/-- Where an operand that the instruction checks is marked, it traps GUESS_ESCAPE (R152, R161): trapinfo names the lanes of `em` in which a
checked operand is marked, the lowest register among those, and whether more than one of all the registers read is marked. -/
def Escapes (i : Instr) (s : State) (em : BitVec 32) (checked others : List Operand) : Prop :=
  i.wf = true → (∃ r ∈ checked, MarkedIn s em r) → ∃ info, TrapsAt i s 0x03 info ∧ info.toNat < 2 ^ 39 ∧
    (∀ l : LaneId, info.getLsbD l.val = true ↔ em.getLsbD l.val = true ∧ ∃ r ∈ checked, MarkedHalf s r l) ∧
    (∃ r ∈ checked, MarkedIn s em r ∧ info.toNat / 2 ^ 32 % 64 = r.1.toNat ∧ ∀ q ∈ checked, MarkedIn s em q → r.1.toNat ≤ q.1.toNat) ∧
    let met (x : RegField) : Prop := (∃ r ∈ checked, r.1 = x ∧ MarkedIn s em r) ∨ ∃ r ∈ others, r.1 = x ∧ MarkedIn s s.em r
    (info.getLsbD 38 = true ↔ ∃ x y, x ≠ y ∧ met x ∧ met y)

/-- What a lane supplies to another (R160): its value where it is an active lane, else 0 without marks. -/
def Supplied (s : State) (a : RegField) (j : Nat) : VCell :=
  if h : j < 32 then (if s.active ⟨j, h⟩ then s.v a ⟨j, h⟩ else VCell.both 0 false) else VCell.both 0 false

/-- The active lanes of the segment of lane `l`, lowest first (R168): no active lane above the lower and up to the higher of the
two has its head bit set. -/
def segmentOf (s : State) (b : RegField) (l : LaneId) : List LaneId :=
  s.lanes.filter fun j => s.lanes.all fun k =>
    !(decide (Min.min j.val l.val < k.val) && decide (k.val ≤ Max.max j.val l.val) && (s.m b).getLsbD k.val)

/-- A binary operation over a list that is not empty, from its first member on. -/
def foldFirst (f : Nat → Nat → Nat) : List Nat → Nat
  | [] => 0
  | x :: xs => xs.foldl f x

/-- The value of an FP32 code in units of 2^-149; 0 where it is not finite (R84, R85). -/
def unitsOf (x : Nat) : Int :=
  match f32.decode x with
  | .fin neg m e => (if neg then -1 else 1) * ((m : Int) * (2 : Int) ^ (e + 149).toNat)
  | _ => 0

/-! ### Block formats -/

/-- PT2 byte `c` is the canonical one nearest to u·2^-149 divided by 2^X (R81): nearest, then of smaller magnitude, then of fewer terms,
then the smaller byte. -/
def NearestPt2 (X u : Int) (c : Nat) : Prop :=
  let D (b : Nat) : Nat := (u - pt2Val b * 2 ^ (X + 143).toNat).natAbs
  let M (b : Nat) : Nat := (pt2Val b).natAbs
  c < 256 ∧ ∀ b, b < 256 → D c < D b ∨ D c = D b ∧
    (M c < M b ∨ M c = M b ∧ (pt2Count c < pt2Count b ∨ pt2Count c = pt2Count b ∧ c ≤ b))

/-- The FP32 values `x` of 32 lanes form one block with scale code `S` and element codes `code` (R79, R81). -/
def IsBlock (pt2 : Bool) (r : Nat) (draw x : LaneId → Nat) (S : Nat) (code : LaneId → Nat) : Prop :=
  let none_ : Nat := if pt2 then 0x77 else 0
  let finite : Prop := ∀ l, ∃ neg m e, f32.decode (x l) = .fin neg m e
  let M := ((List.finRange 32).map fun l => (unitsOf (x l)).natAbs).foldl Nat.max 0
  let X : Int := Max.max (-127) (Min.min 127 ((Nat.log2 M : Int) - 149 - if pt2 then 0 else 2))
  (¬finite → S = 0xFF ∧ ∀ l, code l = none_) ∧
  (finite → M = 0 → S = 0x7F ∧ ∀ l, code l = if !pt2 && (x l).testBit 31 then 8 else none_) ∧
  (finite → M ≠ 0 → (S : Int) = X + 127 ∧ ∀ l,
    if pt2 then NearestPt2 X (unitsOf (x l)) (code l)
    else code l = e2m1.ofVal r (draw l) (match f32.decode (x l) with | .fin neg m e => .fin neg m (e - X) | v => v))

/-! ### Directional registers -/

/-- The exact vector ys·2^(off/256), `ys` its components as integers, has become the directional register `d` (R339): the norm is
256·log2 of its length to the nearest integer, clamped, and each component 2^14 times its share, to nearest even; a clamped norm sets
DSAT. -/
def Renormed (ys : List Int) (off : Int) (g h : Gang) (d : RegField) : Prop :=
  let S : Int := (ys.map fun y => y * y).sum
  let c (k : Nat) : Int := (h.comps d).getD k 0
  (S = 0 → h.norm d = 0x8000 ∧ (∀ k, k < 128 → c k = 0) ∧ h.dsat = g.dsat) ∧
  (S ≠ 0 → ∃ e : Nat, 2 ^ (2 * e) ≤ 2 * S ^ 256 ∧ S ^ 256 < 2 ^ (2 * e + 1) ∧
    (h.norm d).toInt = Max.max (-32767) (Min.min 32767 (off + e)) ∧
    h.dsat = (g.dsat || decide ((h.norm d).toInt ≠ off + e)) ∧
    ∀ k, k < 128 →
      let y := ys.getD k 0
      let n : Int := (c k).natAbs
      0 ≤ c k * y ∧ (n ≠ 0 → (2 * n - 1) ^ 2 * S ≤ 2 ^ 30 * y ^ 2) ∧ 2 ^ 30 * y ^ 2 ≤ (2 * n + 1) ^ 2 * S ∧
        (n % 2 = 1 → (2 * n - 1) ^ 2 * S ≠ 2 ^ 30 * y ^ 2 ∧ 2 ^ 30 * y ^ 2 ≠ (2 * n + 1) ^ 2 * S))

/-- A finite value in units of 2^-160, the least of which every finite FP32 or BF16 value is a multiple. -/
def unitsOf160 : FVal → Option Int
  | .fin neg m e => some ((if neg then -1 else 1) * ((m : Int) * (2 : Int) ^ (e + 160).toNat))
  | _ => none

/-- Component `k` of what dfrom and dmulv read (R344): four BF16 of a lane of `a`, or two FP32 of `a` and two of the next register. -/
def dirInput (s : State) (a : RegField) (wide : Bool) (k : Nat) : FVal :=
  let l : LaneId := Fin.ofNat 32 (k / 4)
  if wide then f32.decode (elem 32 (s.v (if k % 4 < 2 then a else a + 1) l).bits (k % 2)) else bf16.decode (elem 16 (s.v a l).bits (k % 4))

/-! ### Sketches -/

/-- 64-bit word `k` of cell `n` of a sketch at byte `b` of a scratchpad (R355). -/
def cellAt (m : Memory) (b n k : Nat) : DWord := le64 (m.readN (b + 16 + 24 * n + 8 * k) 8)

/-- `len` bytes at the tile address `x`, which is aligned to `al`, lie in the scratchpad of core `o` from byte `b` on; no range lock is
held there and no word of it is damaged (R186, R188, R360). -/
structure TileRoom (s : State) (x : DWord) (len al : Nat) (o : CoreId) (b : Nat) : Prop where
  high : x.toNat < 2 ^ 48
  reach : s.reach s.cur.core s.g.team s.t.asid (tileHandle x) (tileOff x) len = some (o, b)
  aligned : tileOff x % al = 0
  free : ∀ e, ((s.core o).locks.get e).v = false
  sound : (s.core o).spadBad = []

/-- The one update of the cell whose words lie at the places `q`: a delta for each word, or none until the source is read (R359, R364). -/
def cellUpdate (q : Nat → Place) (ds : List (Option DWord)) : AccKind :=
  .cell (((List.range 3).zip ds).map fun x => { dev := (q x.1).dev, pa := (q x.1).pa, path := (q x.1).path, delta := x.2 })

/-! ### Matrix and engine operations -/

/-- The range-lock tables hold a range (R251): its side, its space, its engine and its bytes. -/
def Registered (t : State) (r : Range) : Prop :=
  r.len = 0 ∨ ∃ c e, let x := (t.core c).locks.get e
    x.v = true ∧ x.dir = r.dst ∧ x.spc = r.tile ∧ x.eng = r.eng ∧ x.base = r.base ∧ x.len = BitVec.ofNat 40 r.len

/-- No core of the package has a range lock. -/
def Unlocked (s : State) : Prop := ∀ c e, ((s.core c).locks.get e).v = false

/-- Nothing but the issuing core, the range-lock tables and the selection differs, and of the gang's registers only those of `w`: an
operation has entered a queue and has done nothing yet. -/
structure Enters (w : Writes) (s t : State) : Prop where
  kept : Kept w s.em s.g t.g
  mem : t.mem = s.mem
  sel : t.sel = false
  spads : ∀ c, (t.core c).spad = (s.core c).spad ∧ (t.core c).acc = (s.core c).acc ∧ (t.core c).accs = (s.core c).accs
  gangs : ∀ c i, ¬(c = s.cur.core ∧ i = s.cur.slot) → (t.core c).gang i = (s.core c).gang i

/-- A matrix operation has entered the matrix queue (R280, R311, R312): in the open batch of class 2, its ranges registered; the lease
counts the operations that need it, and `P` holds of the operation. -/
def MatIssued (s t : State) (ranges : List Range) (leased : Bool) (P : MatOp → Prop) : Prop :=
  Enters {} s t ∧ (∀ r ∈ ranges, Registered t r) ∧ t.g.left = (if leased then s.g.left - 1 else s.g.left) ∧
    ∃ m, t.curCore.mat = s.curCore.mat ++ [m] ∧ m.slot = s.cur.slot ∧ m.team = s.g.team ∧ m.batch = (s.g.batches.get 2).next ∧
      m.ranges = ranges ∧ P m

/-- The operation is the one that the issuing words ask for, with its operands as read at issue; no step is made. -/
def Asked (s : State) (kind : MatKind) (ops aux : List DWord) (aimg : AImage) (m : MatOp) : Prop :=
  m.kind = kind ∧ m.word = s.iword ∧ m.lit = s.ilit ∧ m.ops = ops ∧ m.aux = aux ∧ m.aimg = aimg ∧ m.step = 0 ∧ m.cleared = false

/-- Matrix operations can issue at once, but for the lease: no range is locked, and the queue and the issue journal have room. -/
structure MatReady (s : State) : Prop where
  unlocked : Unlocked s
  room : s.curCore.mat.length < 32
  journal : s.curCore.journalRoom = true

/-- `len` bytes at the tile address `x` may be used by the team, from an address aligned to `al` (R186). -/
def SpanOk (s : State) (x : DWord) (len al : Nat) : Prop := s.tileSpan x len = true ∧ tileOff x % al = 0

/-- A tile range of an operation of the matrix engine (R311). -/
def tileRange (dst : Bool) (a : DWord) (n : Nat) : Range :=
  { dst := dst, tile := true, eng := 3, base := BitVec.ofNat 64 (a.toNat % 2 ^ 48), len := n }

/-- A range of device memory, or of tiles, of the copy, collective or link engine (R287, R293, R367). -/
def engRange (dst tile : Bool) (eng : BitVec 3) (a : DWord) (n : Nat) : Range :=
  { dst := dst, tile := tile, eng := eng, base := BitVec.ofNat 64 (a.toNat % (if tile then 2 ^ 48 else 2 ^ 57)), len := n }

/-- An operation of the copy, collective or link engine has been issued (R277, R280): it is in the journal, in the open batch of its
class, with its ranges registered, and it has accessed nothing yet. -/
def EngIssued (s t : State) (cls : Fin 4) (kind : EngKind) (ranges : List Range) : Prop :=
  Enters {} s t ∧ (∀ r ∈ ranges, Registered t r) ∧
    ∃ o, t.curCore.eng = s.curCore.eng ++ [o] ∧ o.kind = kind ∧ o.cls = cls ∧ o.slot = s.cur.slot ∧ o.team = s.g.team ∧
      o.batch = (s.g.batches.get cls).next ∧ o.asid = s.t.asid ∧ o.part = s.t.part ∧ o.ranges = ranges

/-! ### Going on -/

/-- Where a gang goes on from the end of an instruction whose next address is `next` (R148): at the start of the innermost loop where it
ends that loop's body and the count is not used up. -/
def nextAt (g : Gang) (next : DWord) : DWord :=
  match g.loops with
  | [] => next
  | r :: _ => if g.intrap = false ∧ next = r.endAddr ∧ g.lc.get (lcIx r.counter) ≠ 1 then r.start else next

/-- Fragment `f` of a gang waits as `w` says, and may go on: its gang takes no trap and has no result outstanding, its team runs and
its core issues. -/
structure Waiting (s : State) (c : CoreId) (i : SlotId) (f : FragId) (w : Wait) : Prop where
  live : (s.gangAt c i).live = true
  valid : ((s.gangAt c i).frags.get f).valid = true
  wait : ((s.gangAt c i).frags.get f).wait = w
  calm : (s.gangAt c i).pend = [] ∧ (s.gangAt c i).intrap = false
  team : (s.teamAt c i).halted = false ∧ (s.teamAt c i).stopping.saving = false
  core : s.noIssue c = false

/-- The lanes of the fragment stand behind their instruction of `size` bytes. -/
def WentOn (s t : State) (c : CoreId) (i : SlotId) (f : FragId) (size : Nat) : Prop :=
  ∀ l : LaneId, ((s.gangAt c i).frags.get f).mask.getLsbD l.val = true →
    StandsAt (t.gangAt c i) l (nextAt (s.gangAt c i) (((s.gangAt c i).frags.get f).pc + BitVec.ofNat 64 size))

/-! ### The matrix engine -/

/-- What an element with the code `x` in format `f` multiplies by (R69, R78, R80): its value; of a PT2 weight each of its terms, one with
shift code 7 left out, or zero where both are. -/
def termsOf (f x : Nat) : List FVal :=
  match f with
  | 0 => [bf16.decode x]
  | 1 => [e4m3.decode x]
  | 2 => [e5m2.decode x]
  | 3 =>
    let present := [x / 16, x % 16].filter fun b => b % 8 != 7
    if present.isEmpty then [.fin false 0 0] else present.map fun b => .fin (b / 8 % 2 == 1) (2 ^ (6 - b % 8)) (-6)
  | _ => [e2m1.decode x]

/-- The value of an E8M0 scale (R78). -/
def scaleOf (e : Nat) : FVal := if e = 255 then .nan else .fin false 1 ((e : Int) - 127)

/-- m·2^e with a sign, toward zero to an integer (R331). -/
def tz (neg : Bool) (m : Nat) (e : Int) : Int :=
  let n : Int := if 0 ≤ e then m * 2 ^ e.toNat else ((m / 2 ^ (-e).toNat : Nat) : Int)
  if neg then -n else n

/-- That drops a nonzero bit. -/
def tzDrops (m : Nat) (e : Int) : Prop := e < 0 ∧ m % 2 ^ (-e).toNat ≠ 0

/-- A 96-bit sum shifted right by `n` toward zero drops a nonzero bit. -/
def shiftDrops (x : BitVec 96) (n : Nat) : Prop := x.toInt.tdiv (2 ^ n) * 2 ^ n ≠ x.toInt

/-- An integer lies outside the 96-bit range. -/
def Out96 (x : Int) : Prop := x < -2 ^ 95 ∨ 2 ^ 95 ≤ x

/-- A row becomes `w'` where a key of the score `score` and the values `v` is folded into `w` in the value window `VW` (R331). -/
def Folded (VW : BitVec 8) (score : Nat) (v : Nat → FVal) (w w' : Row) : Prop :=
  match f32.decode score with
  | .nan => w' = { w with r := { w.r with nan := true } }
  | .inf neg => w' = if neg then w else { w with r := { w.r with nan := true } }
  | .fin neg m e =>
    let num : Int := (if neg then -(m : Int) else m) * 2 ^ e.toNat
    let den : Int := 2 ^ (-e).toNat
    let n := num / den
    if num < -32767 * den then w' = { w with r := { w.r with flr := true } }
    else if 32767 * den ≤ num then w' = { w with r := { w.r with ovf := true } }
    else if w.r.e ≠ 0x8000 ∧ w.r.vw ≠ VW then w' = { w with r := { w.r with nan := true } }
    else
      match f32.decode (fexp2Val f32 0 0 (.fin false (num % den).toNat (-((-e).toNat : Int)))) with
      | .fin _ gm ge =>
        let E : Int := if w.r.e = 0x8000 then n + 1 else max w.r.e.toInt (n + 1)
        let sh := if w.r.e = 0x8000 then 0 else (E - w.r.e.toInt).toNat
        let xl := w.r.xl.toInt.tdiv (2 ^ sh) + tz false gm (ge + n + (62 - E))
        let exp (ve : Int) : Int := ge + n + ve + (62 - E) - VW.toInt
        let xo (d : Nat) : Int := (w.xo.getD d 0).toInt.tdiv (2 ^ sh) + match v d with
          | .fin vn vm ve => tz vn (gm * vm) (exp ve)
          | _ => 0
        w'.r.e = BitVec.ofInt 16 E ∧ w'.r.vw = VW ∧ w'.r.xl = BitVec.ofInt 96 xl ∧
          (∀ d, d < 128 → w'.xo.getD d 0 = BitVec.ofInt 96 (xo d)) ∧
          (w'.r.nan = true ↔ w.r.nan = true ∨ ∃ d, d < 128 ∧ ∀ a b c, v d ≠ .fin a b c) ∧
          (w'.r.ovf = true ↔ w.r.ovf = true ∨ Out96 xl ∨ ∃ d, d < 128 ∧ Out96 (xo d)) ∧
          (w'.r.flr = true ↔ w.r.flr = true ∨ shiftDrops w.r.xl sh ∨ tzDrops gm (ge + n + (62 - E)) ∨
            ∃ d, d < 128 ∧ (shiftDrops (w.xo.getD d 0) sh ∨ ∃ vn vm ve, v d = .fin vn vm ve ∧ tzDrops (gm * vm) (exp ve)))
      | _ => True

/-- A row becomes `w` where row `u` is merged into row `t` (R332). -/
def Merged (t u w : Row) : Prop :=
  let t1 : Row := { t with r := { t.r with nan := t.r.nan || u.r.nan, ovf := t.r.ovf || u.r.ovf, flr := t.r.flr || u.r.flr } }
  if u.r.e = 0x8000 then w = t1
  else if t.r.e = 0x8000 then w = { r := { t1.r with e := u.r.e, vw := u.r.vw, xl := u.r.xl }, xo := u.xo }
  else if t.r.vw ≠ u.r.vw then w = { t1 with r := { t1.r with nan := true } }
  else
    let E := max t.r.e.toInt u.r.e.toInt
    let a := (E - t.r.e.toInt).toNat
    let b := (E - u.r.e.toInt).toNat
    let sum (x y : BitVec 96) : Int := x.toInt.tdiv (2 ^ a) + y.toInt.tdiv (2 ^ b)
    let o (x : Row) (d : Nat) : BitVec 96 := x.xo.getD d 0
    w.r.e = BitVec.ofInt 16 E ∧ w.r.vw = t.r.vw ∧ w.r.nan = t1.r.nan ∧ w.r.xl = BitVec.ofInt 96 (sum t.r.xl u.r.xl) ∧
      (∀ d, d < 128 → o w d = BitVec.ofInt 96 (sum (o t d) (o u d))) ∧
      (w.r.ovf = true ↔ t1.r.ovf = true ∨ Out96 (sum t.r.xl u.r.xl) ∨ ∃ d, d < 128 ∧ Out96 (sum (o t d) (o u d))) ∧
      (w.r.flr = true ↔ t1.r.flr = true ∨ shiftDrops t.r.xl a ∨ shiftDrops u.r.xl b ∨
        ∃ d, d < 128 ∧ (shiftDrops (o t d) a ∨ shiftDrops (o u d) b))

/-- Element (i, d) that anorm writes for a row (R333): the exact quotient of XO·2^VW and XL, rounded once. -/
def Normed (f : Fmt) (w : Row) (d z : Nat) : Prop :=
  let x := (w.xo.getD d 0).toInt
  let l := w.r.xl.toInt
  z = if w.r.e = 0x8000 then 0
    else if w.r.nan = true ∨ w.r.ovf = true ∨ l = 0 then f.nan
    else f.round 0 (x ≠ 0 ∧ (x < 0 ↔ 0 < l)) (x.natAbs * 2 ^ 200 / l.natAbs) (w.r.vw.toInt - 200)
      (x.natAbs * 2 ^ 200 % l.natAbs ≠ 0) 0

/-- The party that an instruction's or an operation's accesses on a core are made by. -/
def partyOn (s : State) (c : CoreId) (i : SlotId) : Party := { core := some c, part := (s.teamAt c i).part, asid := (s.teamAt c i).asid }

/-- The `n` bytes at `va` are one piece of a unit of device memory without an error, which the party may write. -/
structure Lands (s : State) (w : Party) (va : DWord) (n : Nat) (p : Place) : Prop where
  one : pieces va n = [(va, n)]
  place : s.translate w.core w.asid va n true = .ok p
  sound : s.bad (memIx p.dev p.pa) = false

/-- What a partition reads at a place. -/
def bytesAt (t : State) (part : PartId) (p : Place) (n : Nat) : List Byte := t.rdN (t.keyOf part) (memIx p.dev p.pa) n

/-- The writes of a party, each with its address and bytes, made one after another, land at the places given: each is one piece that the
party may write once those before it are made, and no two of them overlap. -/
def LandInTurn : State → List (Party × DWord × List Byte) → List Place → Prop
  | _, [], [] => True
  | s, (w, va, bs) :: rest, p :: ps =>
    Lands s w va bs.length p ∧
      (∀ x ∈ rest.zip ps, memIx p.dev p.pa + bs.length ≤ memIx x.2.dev x.2.pa ∨
        memIx x.2.dev x.2.pa + x.1.2.2.length ≤ memIx p.dev p.pa) ∧
      LandInTurn (s.engWrite w va bs) rest ps
  | _, _, _ => False

/-- The gangs of every rank of a group have made their requests of a collective, which agree (R294), and each request's operation is ready. -/
structure Joined (s : State) (q : Collective) (g : Group) : Prop where
  alone : s.colls = [q] ∧ q.result = none ∧ q.mems ≠ []
  group : s.group? q.part q.group = some g
  here : ∀ x ∈ g.members, x.dev = s.devid ∧ x.port = none
  ranks : (q.mems.map fun m => m.rank).Perm (List.range g.members.length)
  joined : ∀ k, k < g.members.length → k ∈ q.joined
  fresh : ∀ m ∈ q.mems, m.code = 0 ∧ m.wrote = false ∧ m.req.rank = m.rank
  agree : ∀ m ∈ q.mems, ∀ x ∈ q.mems, m.req.op = x.req.op ∧ m.req.inFp32 = x.req.inFp32 ∧ m.req.outFp32 = x.req.outFp32 ∧
    m.req.opf = x.req.opf ∧ m.req.w = x.req.w ∧ m.req.root = x.req.root ∧ m.req.count = x.req.count
  ready : ∀ m ∈ q.mems, 1 ≤ m.req.count ∧ ∃ c o, m.who = .engine c o.id ∧ m.core = some c ∧ m.asid = o.asid ∧ o.part = q.part ∧
    (s.core c).op? o.id = some o ∧ o.kind = .coll m.req q.n ∧ (s.core c).engReady o = true ∧ o.refused = false ∧ o.home = none ∧
    (s.core c).accs = []

/-- An addend as an integer that counts steps of 2^(W-111), toward zero (R88); none for a NaN or an infinity. -/
def addend (w : Int) : FVal → Option Int
  | .fin neg m e =>
    let x : Nat := if w - 111 ≤ e then m * 2 ^ (e - (w - 111)).toNat else m / 2 ^ (w - 111 - e).toNat
    some (if neg then -(x : Int) else x)
  | _ => none

/-- A sum of addends lies in the 128-bit range, and so does each of them (R89). -/
def SumValid (xs : List (Option Int)) : Prop :=
  (∀ x ∈ xs, ∃ v, x = some v ∧ -2 ^ 127 ≤ v ∧ v < 2 ^ 127) ∧
    -2 ^ 127 ≤ (xs.map fun x => x.getD 0).sum ∧ (xs.map fun x => x.getD 0).sum < 2 ^ 127

/-! ### The package -/

/-- Only cluster `k` differs, as `f` says, and what has been reported. -/
def OnlyCluster (s t : State) (k : ClusId) (f : Cluster → Cluster) : Prop :=
  t.clusters.get k = f (s.clusters.get k) ∧ (∀ j, j ≠ k → t.clusters.get j = s.clusters.get j) ∧
    { t with clusters := s.clusters, reports := s.reports } = s

/-- Input `i` of an output was granted less recently than input `j`; one never granted was so by port number (log 39). -/
def Earlier (x : XbarOut) (i j : Fin 208) : Prop :=
  (i ∉ x.order ∧ j ∉ x.order ∧ i < j) ∨ (i ∉ x.order ∧ j ∈ x.order) ∨
    (j ∈ x.order ∧ i ∈ x.order ∧ x.order.idxOf i < x.order.idxOf j)

/-- A flit may come before the best-effort flits at output `o` (R400, R405). -/
def InBudget (k : Cluster) (o : Fin 208) (f : Flit) : Prop :=
  let b := (k.inForce.get f.part).get f.cls
  b.unlim = true ∨ k.granted f.part f.cls < b.flits.toNat ∨ (o, f.input) ∈ k.promoted

/-- The flit that R400 grants among the flits `fs` that request output `o`, which no message keeps: in budget if any is, a collective
one where COLLPRI of its partition asks for it, and of those the least recently granted. -/
def Granted (k : Cluster) (o : Fin 208) (fs : List Flit) (f : Flit) : Prop :=
  let pri (g : Flit) : Prop := ((k.inForce.get g.part).get 3).collpri = true ∧ g.collective = false ∧
    ∃ h ∈ fs, InBudget k o h ∧ h.part = g.part ∧ h.collective = true
  let candidate (g : Flit) : Prop := g ∈ fs ∧ ((∃ h ∈ fs, InBudget k o h) → InBudget k o g ∧ ¬pri g)
  candidate f ∧ ∀ g, candidate g → g.input ≠ f.input → Earlier (k.output o) f.input g.input

/-- The responder answers `what` with a message; of its own state only what `f` names differs, and nothing else in the package does. -/
def Answers (s t : State) (what : String) (message : List Byte) (f : Spdm → Spdm) : Prop :=
  t.spdm = f s.spdm ∧ t.reports = s.reports ++ [.spdm what message] ∧ { t with spdm := s.spdm, reports := s.reports } = s

/-- The responder answers `what` with a message of the code `code` that ends in a value which it draws, and with the signatures of both
identity keys over the transcript `before` and that message (R422); of its own state only what `f` names, given that value, differs. -/
def AnswersSigned (s t : State) (what : String) (before : List Byte) (code : Byte) (body : List Byte) (f : Nat → Spdm → Spdm) : Prop :=
  ∃ r salt, let m := spdmMsg code (body ++ leBytes 32 r)
    t.spdm = f r s.spdm ∧
    t.reports = s.reports ++ [.spdm what (m ++ (Config.signature 0 Config.fusedSecret (before ++ m) salt ++
      Config.signature 1 Config.fusedSecret (before ++ m) salt))] ∧
    { t with spdm := s.spdm, reports := s.reports, free := s.free } = s

/-- The four bytes at the instruction address `va`, as the issuing core sees them, are `bs`, fetched from the place `p` (R64). -/
structure Fetches (s : State) (va : DWord) (bs : List Byte) (p : Place) : Prop where
  place : s.translate (some s.cur.core) s.t.asid va 4 false = .ok p
  sound : s.bad (memIx p.dev p.pa) = false
  bytes : bs = s.viewN s.cur.core s.t.part p.dev p.pa.toNat 4

/-- The canonical form of device memory (log 2). -/
def MemWf (s : State) : Prop := s.mem.wf = true

end Sys2Proof.Spec
end

