-- ==== Sys2Proof/Certificates/Slice0/Obligations.lean ====
section
/-!
DEFINITION. The statements about the machine, each from the rules of spec/ that its docstring names.
-/
open Sys2Proof Sys2Proof.Machine Sys2Proof.Spec

/-! ### Lane operations -/

/-- Integer arithmetic (R109, R110, R113, R114): element by element in the active lanes, modulo 2^w or clamped with mod[3], with the
marks of R110 and nothing else written. -/
def Obligations.IntegerArithmetic : Prop :=
  ∀ (s : State) (d a b : RegField) (h : BitVec 2) (m : BitVec 4), Calm s →
    let w := widthOf m
    let val := intOf w (signOf m)
    let op2 (i : Instr) (P : Nat → Nat → Nat → Prop) : Prop :=
      LaneOp i s d fun l z => Elt2 w (s.v a l) (s.v b l) z P ∧ Marked w [s.v a l, s.v b l] z
    let op1 (i : Instr) (P : Nat → Nat → Prop) : Prop :=
      LaneOp i s d fun l z => Elt1 w (s.v a l) z P ∧ Marked w [s.v a l] z
    op2 (.add d a b h m) (fun x y z => IsInt m (val x + val y) z) ∧
    op2 (.sub d a b h m) (fun x y z => IsInt m (val x - val y) z) ∧
    op2 (.mul d a b h m) (fun x y z => z = x * y % 2 ^ w) ∧
    op2 (.mulhi d a b h m) (fun x y z => (z : Int) = val x * val y / 2 ^ w % 2 ^ w) ∧
    op2 (.min d a b h m) (fun x y z => val z = Min.min (val x) (val y)) ∧
    op2 (.max d a b h m) (fun x y z => val z = Max.max (val x) (val y)) ∧
    op1 (.abs d a h m) (fun x z => IsInt m (val x).natAbs z) ∧
    op1 (.neg d a h m) (fun x z => IsInt m (-val x) z) ∧
    LaneOp (.mad d a b h m) s d fun l z =>
      Elt3 w (s.v a l) (s.v b l) (s.v d l) z (fun x y o z => z = (x * y + o) % 2 ^ w) ∧
        Marked w [s.v a l, s.v b l, s.v d l] z

/-- Shifts, rotation, counts and fields (R114, R115), bit by bit: counts of the width or more shift everything out, and a field
that runs past the top is clipped. -/
def Obligations.ShiftsAndFields : Prop :=
  ∀ (s : State) (d a b : RegField) (h : BitVec 2) (m : BitVec 4), Calm s →
    let w := widthOf m
    let op2 (i : Instr) (P : Nat → Nat → Nat → Prop) : Prop :=
      LaneOp i s d fun l z => Elt2 w (s.v a l) (s.v b l) z P ∧ Marked w [s.v a l, s.v b l] z
    let op1 (i : Instr) (P : Nat → Nat → Prop) : Prop :=
      LaneOp i s d fun l z => Elt1 w (s.v a l) z P ∧ Marked w [s.v a l] z
    let len (y : Nat) : Nat :=
      if y / 256 % 256 = 0 ∨ w ≤ y % 256 then 0 else Min.min (y / 256 % 256) (w - y % 256)
    op2 (.shl d a b h m) (fun x y z => BitsAre w z fun j => decide (y ≤ j) && x.testBit (j - y)) ∧
    op2 (.shr d a b h m) (fun x y z => BitsAre w z fun j => x.testBit (j + y)) ∧
    op2 (.sar d a b h m) (fun x y z => BitsAre w z fun j => x.testBit (Min.min (j + y) (w - 1))) ∧
    op2 (.rol d a b h m) (fun x y z => BitsAre w z fun j => x.testBit ((j + w - y % w) % w)) ∧
    op1 (.clz d a h m) (fun x z => z ≤ w ∧ (∀ j, w - z ≤ j → j < w → x.testBit j = false) ∧
      (z < w → x.testBit (w - 1 - z) = true)) ∧
    op1 (.popc d a h m) (fun x z => z = (List.range w).countP fun j => x.testBit j) ∧
    op1 (.brev d a h m) (fun x z => BitsAre w z fun j => x.testBit (w - 1 - j)) ∧
    op2 (.bfx d a b h m) (fun x y z => BitsAre w z fun j =>
      if j < len y then x.testBit (y % 256 + j) else signOf m && decide (0 < len y) && x.testBit (y % 256 + len y - 1)) ∧
    LaneOp (.bfi d a b h m) s d fun l z =>
      Elt3 w (s.v a l) (s.v b l) (s.v d l) z (fun x y o z => BitsAre w z fun j =>
        if y % 256 ≤ j ∧ j < y % 256 + len y then x.testBit (j - y % 256) else o.testBit j) ∧
        Marked w [s.v a l, s.v b l, s.v d l] z

/-- Bitwise operations, moves, selection (R114, R117, R129): all 64 bits, marks per half; movi leaves no mark, sel and mov copy the
marks of the lane they take. Comparison, packing and bytes (R116, R130, R131, R132). -/
def Obligations.BitwiseMovesAndPacking : Prop :=
  (∀ (s : State) (d a b : RegField) (h : BitVec 2) (n : BitVec 3) (ty : BitVec 2) (lit : Word), Calm s →
     let bits2 (i : Instr) (f : Bool → Bool → Bool) : Prop :=
       LaneOp i s d fun l z => (∀ j, j < 64 → z.bits.getLsbD j = f ((s.v a l).bits.getLsbD j) ((s.v b l).bits.getLsbD j)) ∧
         Marked 32 [s.v a l, s.v b l] z
     bits2 (.and d a b h) (fun x y => x && y) ∧
     bits2 (.or d a b h) (fun x y => x || y) ∧
     bits2 (.xor d a b h) (fun x y => x != y) ∧
     bits2 (.andn d a b h) (fun x y => x && !y) ∧
     LaneOp (.not d a h) s d (fun l z => (∀ j, j < 64 → z.bits.getLsbD j = !(s.v a l).bits.getLsbD j) ∧ Marked 32 [s.v a l] z) ∧
     LaneOp (.mov d a h) s d (fun l z => z = s.v a l) ∧
     LaneOp (.sel d a b h n) s d (fun l z => z = if (s.m (n.setWidth 6)).getLsbD l.val then s.v a l else s.v b l) ∧
     LaneOp (.movi d ty lit) s d fun _ z => z.g0 = false ∧ z.g1 = false ∧
       (ty = 0 → half z.bits false = lit ∧ half z.bits true = lit) ∧
       (ty = 1 → z.bits.toInt = lit.toInt) ∧
       (ty = 2 → z.bits.toNat = lit.toNat) ∧
       (ty = 3 → ∀ k, k < 4 → elem 16 z.bits k = lit.toNat % 2 ^ 16)) ∧
  (∀ (s : State) (d a b : RegField) (h : BitVec 2) (m : BitVec 4), Calm s →
     let w := widthOf m
     let n := 32 / w
     LaneOp (.cmp d a b h m) s d (fun l z =>
       Elt2 w (s.v a l) (s.v b l) z (fun x y e => e = if
         match m.toNat / 4 with
           | 0 => decide (x = y)
           | 1 => decide (x ≠ y)
           | 2 => decide (signedVal w x < signedVal w y)
           | _ => decide (x < y)
         then 2 ^ w - 1 else 0) ∧ Marked w [s.v a l, s.v b l] z) ∧
     LaneOp (.pack d a b h m) s d (fun l z =>
       (∀ k, k < 2 * n →
         let x := if k < n then elem (2 * w) (s.v a l).bits k else elem (2 * w) (s.v b l).bits (k - n)
         if satOf m then intOf w (signOf m) (elem w z.bits k) = clamp w (signOf m) (intOf (2 * w) (signOf m) x)
         else elem w z.bits k = x % 2 ^ w) ∧
       z.g0 = (s.v a l).marked ∧ z.g1 = (s.v b l).marked) ∧
     LaneOp (.unpk d a h m) s d (fun l z =>
       (∀ k, k < n → intOf (2 * w) (signOf m) (elem (2 * w) z.bits k) =
         intOf w (signOf m) (elem w (s.v a l).bits (if satOf m then k + n else k))) ∧
       z.g0 = (s.v a l).mark (satOf m) ∧ z.g1 = (s.v a l).mark (satOf m)) ∧
     LaneOp (.perm d a b h) s d fun l z =>
       (∀ k, k < 8 → elem 8 z.bits k =
         if 128 ≤ elem 8 (s.v b l).bits k then 0 else elem 8 (s.v a l).bits (elem 8 (s.v b l).bits k % 8)) ∧
       ∀ hi : Bool, z.mark hi = ((s.v b l).mark hi || (List.range 4).any fun k =>
         let e := elem 8 (s.v b l).bits (if hi then k + 4 else k)
         decide (e < 128) && (s.v a l).mark (decide (4 ≤ e % 8))))

/-- Floating-point arithmetic (R109, R110, R118, R119): each element is the exact result rounded once, and only `.rsto` draws, once
for each element of each active lane. -/
def Obligations.FloatArithmetic : Prop :=
  ∀ (s : State) (d a b : RegField) (h : BitVec 2) (t : Bool) (r : BitVec 3), Calm s →
    let f := fmtOf t
    let n := 64 / f.width
    let val (c : VCell) (k : Nat) : FVal := f.decode (elem f.width c.bits k)
    let op (i : Instr) (srcs : List RegField) (exact : LaneId → Nat → FVal) : Prop :=
      DrawOp i s d r n fun l z =>
        (∀ k, k < n → elem f.width z.bits k = f.ofVal r.toNat (drawAt s l k) (exact l k)) ∧ Marked f.width (srcs.map fun q => s.v q l) z
    op (.fadd d a b h t r) [a, b] (fun l k => FVal.add r.toNat (val (s.v a l) k) (val (s.v b l) k)) ∧
    op (.fsub d a b h t r) [a, b] (fun l k => FVal.add r.toNat (val (s.v a l) k) (val (s.v b l) k).neg) ∧
    op (.fmul d a b h t r) [a, b] (fun l k => FVal.mul (val (s.v a l) k) (val (s.v b l) k)) ∧
    op (.ffma d a b h t r) [a, b, d] (fun l k =>
      FVal.add r.toNat (FVal.mul (val (s.v a l) k) (val (s.v b l) k)) (val (s.v d l) k)) ∧
    DrawOp (.fround d a h t r) s d r n fun l z =>
      (∀ k, k < n → elem f.width z.bits k = f.ofVal 0 0 ((val (s.v a l) k).toIntegral r.toNat (drawAt s l k))) ∧
        Marked f.width [s.v a l] z

/-- Floating-point minimum, maximum, comparison and classes (R120, R121, R122): no rounding and no draw; unordered operands satisfy
`ne` and `un` alone, and fmin and fmax give one operand's bits or the canonical NaN. Rounding returns what a format represents (R69, R71,
R72): a finite value of a format, rounded to that format, is the code it came from, its sign included, whatever the mode and the draw. -/
def Obligations.FloatCompareAndExactness : Prop :=
  (∀ (s : State) (d a b : RegField) (h : BitVec 2) (t n : Bool) (c : BitVec 3), Calm s →
     let f := fmtOf t
     let op (i : Instr) (P : Nat → Nat → Nat → Prop) : Prop :=
       LaneOp i s d fun l z => Elt2 f.width (s.v a l) (s.v b l) z P ∧ Marked f.width [s.v a l, s.v b l] z
     let choose (x y z : Nat) (low : Bool) : Prop :=
       if f.isNan x ∧ f.isNan y then z = f.nan
       else if f.isNan x then z = (if n then f.nan else y)
       else if f.isNan y then z = (if n then f.nan else x)
       else (z = x ∨ z = y) ∧
         (if low then f.key0 z ≤ f.key0 x ∧ f.key0 z ≤ f.key0 y else f.key0 x ≤ f.key0 z ∧ f.key0 y ≤ f.key0 z)
     op (.fmin d a b h t n) (fun x y z => choose x y z true) ∧
     op (.fmax d a b h t n) (fun x y z => choose x y z false) ∧
     op (.fcmp d a b h t c) (fun x y z =>
       let un := f.isNan x = true ∨ f.isNan y = true
       z = if (match c.toNat with
           | 0 => decide (¬un ∧ f.key x = f.key y)
           | 1 => decide (un ∨ f.key x ≠ f.key y)
           | 2 => decide (¬un ∧ f.key x < f.key y)
           | 3 => decide (¬un ∧ f.key x ≤ f.key y)
           | _ => decide un) then 2 ^ f.width - 1 else 0) ∧
     LaneOp (.fclass d a h t) s d fun l z =>
       Elt1 f.width (s.v a l) z (fun x e => e = match f.decode x with
         | .nan => if x.testBit (f.mbits - 1) then 2 else 1
         | .inf neg => if neg then 4 else 512
         | .fin neg v _ =>
           if v = 0 then (if neg then 32 else 64)
           else if v < 2 ^ f.mbits then (if neg then 16 else 128)
           else (if neg then 8 else 256)) ∧ Marked f.width [s.v a l] z) ∧
  (∀ (f : Fmt), f ∈ [f32, bf16, f16, e4m3, e5m2] →
     ∀ (mode draw x : Nat), mode ≤ 4 → draw < 65536 → x < 2 ^ f.width → (∃ neg m e, f.decode x = .fin neg m e) →
       f.ofVal mode draw (f.decode x) = x)

/-- Conversions (R76, R77, R125 to R128): element by element, rounded once; between widths the narrow side is the half that the part
names, and the other half keeps its value and its mark; a fourfold width is a register pair. To a block format the 32 lanes convert
together, which a gang that is not whole may not do. -/
def Obligations.Conversions : Prop :=
  ∀ (s : State) (d a : RegField) (st dt : BitVec 3) (h : BitVec 2) (p : Bool) (r : BitVec 3), Calm s →
    let i : Instr := .fcvt d a st dt h p r
    let ws := fcvtWidth st
    let wd := fcvtWidth dt
    let rm : BitVec 3 := if convExact st dt then 0 else r
    let conv (l : LaneId) (k x : Nat) : Nat := convDst dt.toNat rm.toNat (drawAt s l k) (convSrc st.toNat x)
    let keeps (l : LaneId) (z : VCell) : Prop := half z.bits (!p) = half (s.v d l).bits (!p) ∧ z.mark (!p) = (s.v d l).mark (!p)
    (dt.toNat < 6 →
      (ws = wd → DrawOp i s d rm (64 / ws) fun l z =>
        (∀ k, k < 64 / ws → elem wd z.bits k = conv l k (elem ws (s.v a l).bits k)) ∧ Marked wd [s.v a l] z) ∧
      (ws = 2 * wd → DrawOp i s d rm (64 / ws) fun l z =>
        (∀ k, k < 64 / ws → elem wd z.bits (if p then k + 64 / ws else k) = conv l k (elem ws (s.v a l).bits k)) ∧
          keeps l z ∧ z.mark p = (s.v a l).marked) ∧
      (ws = 4 * wd → DrawOp i s d rm 4 fun l z =>
        (∀ k, k < 4 → elem wd z.bits (if p then k + 4 else k) =
          conv l k (elem ws (s.v (if k < 2 then a else a + 1) l).bits (k % 2))) ∧
          keeps l z ∧ z.mark p = ((s.v a l).marked || (s.v (a + 1) l).marked)) ∧
      (wd = 2 * ws → DrawOp i s d rm (64 / wd) fun l z =>
        (∀ k, k < 64 / wd → elem wd z.bits k = conv l k (elem ws (s.v a l).bits (if p then k + 64 / wd else k))) ∧
          z.g0 = (s.v a l).mark p ∧ z.g1 = (s.v a l).mark p) ∧
      (wd = 4 * ws → i.wf = true → Completes i s { vec := [d, d + 1], rng := rm == 4 } fun t => Drew s t rm 4 ∧
        ∀ l, s.active l → ∀ k, k < 4 → let z := t.v (if k < 2 then d else d + 1) l
          elem wd z.bits (k % 2) = conv l k (elem ws (s.v a l).bits (if p then k + 4 else k)) ∧
            z.g0 = (s.v a l).mark p ∧ z.g1 = (s.v a l).mark p)) ∧
    (6 ≤ dt.toNat →
      (s.whole = true → i.wf = true → Completes i s { vec := [d], rng := r == 4 } fun t => Drew s t r 1 ∧
        ∃ (S : Nat) (code : LaneId → Nat),
          IsBlock (dt == 7) r.toNat (fun l => drawAt s l 0) (fun l => (half (s.v a l).bits p).toNat) S code ∧
          ∀ l, let z := t.v d l
            z.bits = BitVec.ofNat 64 (code l + 256 * S) ∧ (z.g0 = true ↔ ∃ k, (s.v a k).mark p = true) ∧ z.g1 = z.g0) ∧
      (s.whole = false → i.wf = true → TrapsAt i s 0x02 (BitVec.ofNat 64 s.iword.toNat)))

/-- The special functions (R51, R119, R123): each element is what its function gives, with the draws of R119; with no lookahead the result
is there at once, else it waits in an open window, and the instruction never fails. Special operands (R124): what every function gives for
zeros, infinities, NaNs and negative values, in both types and every mode. -/
def Obligations.SpecialFunctions : Prop :=
  (∀ (s : State) (d a : RegField) (t : Bool) (r : BitVec 3) (look : BitVec 4) (h : BitVec 2), Calm s →
     let f := fmtOf t
     let n := 64 / f.width
     let op (i : Instr) (fn : Fmt → Nat → Nat → FVal → Nat) : Prop :=
       let good (l : LaneId) (z : VCell) : Prop :=
         (∀ k, k < n → elem f.width z.bits k = fn f r.toNat (drawAt s l k) (f.decode (elem f.width (s.v a l).bits k)) % 2 ^ f.width) ∧
           Marked f.width [s.v a l] z
       LookOp i s look.toNat { vec := [d], rng := r == 4 } (fun t => ∀ l, s.active l → good l (t.v d l))
         (fun p => p.dst = .vec d false ∧ p.em = s.em ∧ p.fail = none ∧ p.ready = true ∧
           ∀ l, s.active l → ∃ c, WritesLane p d l c ∧ good l c)
         (fun t => Drew s t r n)
     op (.frcp d a t r look h) frcpVal ∧ op (.frsq d a t r look h) frsqVal ∧ op (.fsqrt d a t r look h) fsqrtVal ∧
     op (.fexp2 d a t r look h) fexp2Val ∧ op (.flog2 d a t r look h) flog2Val ∧ op (.fsin d a t r look h) fsinVal ∧
     op (.fcos d a t r look h) fcosVal) ∧
  ∀ (t : Bool) (mode draw : Nat), mode ≤ 4 →
    let f := fmtOf t
    let inf := if t then 0x7F80 else 0x7F800000
    let nan := if t then 0x7FC0 else 0x7FC00000
    let one := if t then 0x3F80 else 0x3F800000
    let sign := if t then 0x8000 else 0x80000000
    let gives (x : Nat) (results : List Nat) : Prop :=
      [frcpVal, frsqVal, fsqrtVal, fexp2Val, flog2Val, fsinVal, fcosVal].map (fun fn => fn f mode draw (f.decode x)) = results
    gives 0 [inf, inf, 0, one, sign + inf, 0, one] ∧
    gives sign [sign + inf, sign + inf, sign, one, sign + inf, sign, one] ∧
    gives inf [0, 0, inf, inf, inf, nan, nan] ∧
    gives (sign + inf) [sign, nan, nan, 0, nan, nan, nan] ∧
    ∀ x, x < 2 ^ f.width →
      (f.isNan x = true → gives x (List.replicate 7 nan)) ∧
      (sign < x → x < sign + inf →
        [frsqVal, fsqrtVal, flog2Val].map (fun fn => fn f mode draw (f.decode x)) = [nan, nan, nan])

/-! ### Cross-lane instructions -/

/-- Exchange within a gang (R159, R160, R163, R164, R165): every source is read before any lane is written, and a lane outside the
fragment supplies 0 without marks. Segmented reduction (R168, R169): the active lanes in ascending order, a segment starting at each head;
segscan gives each lane its segment's fold up to itself, segred the fold of the whole segment; marks are those of the values folded. -/
def Obligations.LaneExchangeAndSegments : Prop :=
  (∀ (s : State) (d a b : RegField) (h f : BitVec 2), Calm s →
     let w := 8 * 2 ^ f.toNat
     let src (l : LaneId) : VCell :=
       match f.toNat with
       | 0 => Supplied s a (half (s.v b l).bits false).toNat
       | 1 => if b.toNat ≤ l.val then Supplied s a (l.val - b.toNat) else VCell.both 0 false
       | 2 => Supplied s a (l.val + b.toNat)
       | _ => Supplied s a (l.val ^^^ b.toNat)
     LaneOp (.shfl d a b h f) s d (fun l z =>
       let mk := decide (f = 0) && (s.v b l).g0
       z.bits = (src l).bits ∧ z.g0 = ((src l).g0 || mk) ∧ z.g1 = ((src l).g1 || mk)) ∧
     LaneOp (.gath d a b h f) s d (fun l z =>
       (∀ k, k < 64 / w →
         let j := elem w (s.v b l).bits k
         elem w z.bits k = elem w (Supplied s a (j / (64 / w))).bits (j % (64 / w))) ∧
       (∀ hi : Bool, w < 64 → z.mark hi = ((s.v b l).mark hi || (List.range (32 / w)).any fun k =>
         let j := elem w (s.v b l).bits (if hi then k + 32 / w else k)
         (Supplied s a (j / (64 / w))).mark (decide (32 ≤ w * (j % (64 / w)))))) ∧
       (w = 64 → let m := (Supplied s a (elem 64 (s.v b l).bits 0)).marked || (s.v b l).marked
         z.g0 = m ∧ z.g1 = m)) ∧
     LaneOp (.bcast d a b h f) s d fun _ z =>
       (f = 0 → z = Supplied s a b.toNat) ∧
       (f = 1 → ∃ l, s.active l ∧ (∀ k, s.active k → l ≤ k) ∧ z = s.v a l) ∧
       (f = 2 → z = VCell.both (s.u a) false)) ∧
  (∀ (s : State) (d a b : RegField) (h o t : BitVec 2), Calm s →
     let w := if t = 3 then 64 else 32
     let op (x y : Nat) : Nat :=
       if t = 2 then (if o = 0 then f32.add 0 0 x y else f32.minmax (o != 1) false x y)
       else if o = 0 then (x + y) % 2 ^ w
       else
         let v := intOf w (t != 1)
         if o = 1 then (if v y < v x then y else x) else (if v x < v y then y else x)
     let good (lanes : List LaneId) (z : VCell) : Prop :=
       (∀ k, k < 64 / w → elem w z.bits k = foldFirst op (lanes.map fun j => elem w (s.v a j).bits k)) ∧
         Marked w (lanes.map fun j => s.v a j) z
     LaneOp (.segscan d a b h o t) s d (fun l z => good ((segmentOf s b l).filter fun j => decide (j ≤ l)) z) ∧
     LaneOp (.segred d a b h o t) s d fun l z => good (segmentOf s b l) z)

/-- Votes (R161, R166, R167): over the active lanes alone, of operands without marks or with `.g`. Mask instructions (R145): bit by
bit over the 32 lanes; mpop counts, mfirst finds the lowest one bit or gives 32, and emrd reads the execution mask. -/
def Obligations.VotesAndMasks : Prop :=
  (∀ (s : State) (d a : RegField) (h : BitVec 2) (g : Bool) (c : BitVec 2), Calm s → Clean s g a true false →
     let low (l : LaneId) : Word := half (s.v a l).bits false
     (∀ y : Bool, (y = true ↔ match c.toNat with
         | 0 => ∃ l, s.active l ∧ low l ≠ 0
         | 1 => ∀ l, s.active l → low l ≠ 0
         | _ => ∀ l k, s.active l → s.active k → low l = low k) →
       UniOp (.vote d a h g c) s d (if y then 1 else 0)) ∧
     ∀ x : BitVec 32, (∀ l : LaneId, x.getLsbD l.val = (s.active l && low l != 0)) → MaskOp (.ballot d a h g) s d x) ∧
  (∀ (s : State) (d a b : RegField), Calm s →
     let bits (i : Instr) (f : Nat → Bool) : Prop := ∀ x : BitVec 32, (∀ j, j < 32 → x.getLsbD j = f j) → MaskOp i s d x
     bits (.mand d a b) (fun j => (s.m a).getLsbD j && (s.m b).getLsbD j) ∧
     bits (.mor d a b) (fun j => (s.m a).getLsbD j || (s.m b).getLsbD j) ∧
     bits (.mxor d a b) (fun j => (s.m a).getLsbD j != (s.m b).getLsbD j) ∧
     bits (.mnot d a) (fun j => !(s.m a).getLsbD j) ∧
     bits (.emrd d) (fun j => s.em.getLsbD j) ∧
     UniOp (.mpop d a) s d (BitVec.ofNat 64 ((List.range 32).countP fun j => (s.m a).getLsbD j)) ∧
     ∀ n, n ≤ 32 → (∀ j, j < n → (s.m a).getLsbD j = false) → (n < 32 → (s.m a).getLsbD n = true) →
       UniOp (.mfirst d a) s d (BitVec.ofNat 64 n))

/-- Wide accumulators (R84, R85, R170, R171, R172): kadd adds every addend of every active lane exactly, modulo 2^320, and keeps a
sticky status, in which ovf is set where an addition takes the exact sum outside the range; kclr clears; krd reads out as FP32 with the
status beside it. By the model's choice (log 95) the addends enter by ascending lane, then by ascending element, which only ovf shows. -/
def Obligations.WideAccumulators : Prop :=
  ∀ (s : State) (d a : RegField) (h : BitVec 2) (g : Bool) (sel : BitVec 2) (r : BitVec 3) (look : BitVec 4), Calm s →
    let addends : List Nat := s.lanes.flatMap fun l =>
      match sel.toNat with
      | 0 => [elem 32 (s.v a l).bits 0, elem 32 (s.v a l).bits 1]
      | 1 => [elem 32 (s.v a l).bits 0]
      | 2 => [elem 32 (s.v a l).bits 1]
      | _ => (List.range 4).map fun k => 65536 * elem 16 (s.v a l).bits k
    let overflows (n : Nat) : Bool :=
      let sum : Int := (s.g.k.get (kIx d) + BitVec.ofInt 320 (((addends.take n).map unitsOf).sum)).toInt + unitsOf (addends.getD n 0)
      decide (sum < -(2 ^ 319) ∨ 2 ^ 319 ≤ sum)
    let z := s.g.k.get (kIx a)
    let ks := s.g.ks.get (kIx a)
    let good (l : LaneId) (c : VCell) : Prop :=
      elem 32 c.bits 0 = readOut z ks r.toNat (drawAt s l 0) ∧ elem 32 c.bits 1 = ks.toNat ∧ c.g0 = false ∧ c.g1 = false
    (Clean s g a (sel != 2) (sel != 1) → (Instr.kadd d a h g sel).wf = true →
      Completes (.kadd d a h g sel) s { acc := [d] } fun t =>
        t.g.k.get (kIx d) = s.g.k.get (kIx d) + BitVec.ofInt 320 ((addends.map unitsOf).sum) ∧
        ((t.g.ks.get (kIx d)).getLsbD 0 = ((s.g.ks.get (kIx d)).getLsbD 0 || addends.any fun x => f32.decode x == .inf false)) ∧
        ((t.g.ks.get (kIx d)).getLsbD 1 = ((s.g.ks.get (kIx d)).getLsbD 1 || addends.any fun x => f32.decode x == .inf true)) ∧
        ((t.g.ks.get (kIx d)).getLsbD 2 = ((s.g.ks.get (kIx d)).getLsbD 2 || addends.any fun x => f32.decode x == .nan)) ∧
        (t.g.ks.get (kIx d)).getLsbD 3 = ((s.g.ks.get (kIx d)).getLsbD 3 || (List.range addends.length).any overflows)) ∧
    ((Instr.kclr d).wf = true → Completes (.kclr d) s { acc := [d], owned := true } fun t =>
      t.g.k.get (kIx d) = 0 ∧ t.g.ks.get (kIx d) = 0) ∧
    LookOp (.krd d a r look) s look.toNat { vec := [d], rng := r == 4 } (fun t => ∀ l, s.active l → good l (t.v d l))
      (fun p => p.dst = .vec d false ∧ p.em = s.em ∧ p.fail = none ∧ p.ready = true ∧
        ∀ l, s.active l → ∃ c, WritesLane p d l c ∧ good l c)
      (fun t => Drew s t r 1)

/-! ### Uniform instructions -/

/-- The uniform ALU (R46, R133, R134): 64-bit results in one uniform register, shift counts of 64 or more shift everything out, and
immediates extended as R45 states. -/
def Obligations.UniformArithmetic : Prop :=
  ∀ (s : State) (d a b : RegField) (u c : BitVec 6) (n : BitVec 12) (lit : Word), Calm s →
    let x := s.u a
    let y := s.u b
    let shl (k : Nat) : DWord := BitVec.ofNat 64 (x.toNat * 2 ^ k)
    let shr (k : Nat) : DWord := BitVec.ofNat 64 (x.toNat / 2 ^ k)
    let sar (k : Nat) : DWord := BitVec.ofInt 64 (x.toInt / 2 ^ k)
    let cond : Bool := match u.toNat with
      | 0 => decide (x = y)
      | 1 => decide (x ≠ y)
      | 2 => decide (x.toInt < y.toInt)
      | 3 => decide (x.toNat < y.toNat)
      | 4 => decide (x.toInt ≤ y.toInt)
      | _ => decide (x.toNat ≤ y.toNat)
    let less (x y : DWord) : Bool := if u = 0 then decide (x.toInt < y.toInt) else decide (x.toNat < y.toNat)
    (UniOp (.sadd d a b) s d (x + y) ∧ UniOp (.ssub d a b) s d (x - y) ∧ UniOp (.smul d a b) s d (x * y) ∧
     UniOp (.sand d a b) s d (x &&& y) ∧ UniOp (.sor d a b) s d (x ||| y) ∧ UniOp (.sxor d a b) s d (x ^^^ y)) ∧
    (UniOp (.sshl d a b) s d (shl y.toNat) ∧ UniOp (.sshr d a b) s d (shr y.toNat) ∧ UniOp (.ssar d a b) s d (sar y.toNat)) ∧
    (UniOp (.scmp d a b u) s d (if cond then 1 else 0) ∧
     UniOp (.smin d a b u) s d (if less y x then y else x) ∧ UniOp (.smax d a b u) s d (if less x y then y else x)) ∧
    (UniOp (.smov d a) s d x ∧ UniOp (.slit d lit) s d (BitVec.ofInt 64 lit.toInt) ∧ UniOp (.smovi d n) s d (BitVec.ofInt 64 n.toInt)) ∧
    (UniOp (.saddImm d a n) s d (x + BitVec.ofInt 64 n.toInt) ∧ UniOp (.ssubImm d a n) s d (x - BitVec.ofInt 64 n.toInt) ∧
     UniOp (.smulImm d a n) s d (x * BitVec.ofInt 64 n.toInt)) ∧
    (UniOp (.sandImm d a n) s d (x &&& BitVec.ofNat 64 n.toNat) ∧ UniOp (.sorImm d a n) s d (x ||| BitVec.ofNat 64 n.toNat) ∧
     UniOp (.sxorImm d a n) s d (x ^^^ BitVec.ofNat 64 n.toNat)) ∧
    UniOp (.sshlImm d a c) s d (shl c.toNat) ∧ UniOp (.sshrImm d a c) s d (shr c.toNat) ∧ UniOp (.ssarImm d a c) s d (sar c.toNat)

/-! ### Special registers -/

/-- Special registers (R75, R101 to R104, R107, R108): each number's value at issue, into a uniform register or, the same in every
active lane but for laneid, into a vector register without marks; a write changes the writable fields of the register named, rngseed seeds
every lane again, leafctl's CLR empties the leaf table, and every other special register and every general register keep theirs. -/
def Obligations.SpecialRegisters : Prop :=
  (∀ (s : State) (d : RegField), Calm s →
     let table (l : LaneId) : List (BitVec 6 × Nat) :=
       [(0x00, l.val), (0x01, s.g.gangid.toNat), (0x02, s.t.teamid.toNat), (0x03, s.cur.core.val % 192), (0x04, s.cur.core.val / 192),
        (0x05, s.devid.toNat), (0x06, s.t.gridid.toNat), (0x07, s.t.depth.toNat), (0x08, s.t.ngang % 2 ^ 64), (0x09, s.curCore.cycle.toNat),
        (0x0A, s.t.steep.toNat), (0x0B, (s.clusters.get (clusOf s.cur.core)).passCount.toNat), (0x0C, s.g.rngseed.toNat),
        (0x10, s.t.trapbase.toNat), (0x11, s.g.trapcause.toNat), (0x12, s.g.trappc.toNat), (0x13, s.g.trapinfo.toNat),
        (0x14, s.curCore.leafEn.toNat + 2 ^ 16 * s.curCore.pcount.toNat),
        (0x15, s.g.usplit.toNat + 2 * s.g.reread.toNat + 8 * s.g.dsat.toNat + 256 * s.g.intrap.toNat + 2 ^ 16 * (s.g.nfrag - 1)),
        (0x16, s.g.traplate.toNat), (0x18, s.g.skm.toNat), (0x19, s.g.skseed.toNat)]
     (∀ n x, (n, x) ∈ table 0 → UniOp (.srd d false n) s d (BitVec.ofNat 64 x)) ∧
     (∀ n, (∃ x, (n, x) ∈ table 0) → LaneOp (.srd d true n) s d fun l z => z.g0 = false ∧ z.g1 = false ∧
       ∃ x, (n, x) ∈ table l ∧ z.bits = BitVec.ofNat 64 x) ∧
     (∀ n x, (n, x) ∈ table 0 → n ≠ 0 → (Instr.srd d false n).wf = true ∧ (Instr.srd d true n).wf = true) ∧
     ∀ n v, (∀ x, (n, x) ∉ table 0) → (Instr.srd d v n).wf = false) ∧
  (∀ (s : State) (a : RegField) (n : BitVec 6), Calm s → (Instr.swr a n).wf = true →
     let x := s.u a
     ∃ t, exec (.swr a n) s = .next t ∧ t.sel = false ∧
       (t.g.v = s.g.v ∧ t.g.u = s.g.u ∧ t.g.m = s.g.m ∧ t.g.dc = s.g.dc ∧ t.g.dn = s.g.dn ∧ t.g.k = s.g.k ∧ t.g.ks = s.g.ks) ∧
       (∀ b, t.mem.read b = s.mem.read b) ∧ (∀ c, c ≠ s.cur.core → t.core c = s.core c) ∧
       (∀ k l, k ≠ n → k ≠ 0x15 → t.specialReg k l = s.specialReg k l) ∧
       (n ≠ 0x15 → t.g.usplit = s.g.usplit ∧ t.g.reread = s.g.reread ∧ t.g.dsat = s.g.dsat) ∧ t.g.intrap = s.g.intrap ∧
       (n ≠ 0x0C → t.g.rng = s.g.rng) ∧
       (n = 0x0A → t.t.steep.toNat = x.toNat % 8) ∧
       (n = 0x0C → t.g.rngseed.toNat = x.toNat % 2 ^ 32 ∧ ∀ l, t.g.rng.get l = seedLane t.g.rngseed l.val) ∧
       (n = 0x10 → t.t.trapbase.toNat = x.toNat / 4 * 4) ∧
       (n = 0x12 → t.g.trappc = x) ∧
       (n = 0x14 → t.curCore.leafEn = x.getLsbD 0 ∧
         if x.getLsbD 1 then t.curCore.pcount = 0 ∧ t.curCore.leaf = Vector.replicate 64 LeafEntry.reset
         else t.curCore.pcount = s.curCore.pcount ∧ t.curCore.leaf = s.curCore.leaf) ∧
       (n = 0x15 → t.g.usplit = x.getLsbD 0 ∧ t.g.reread = x.getLsbD 1 ∧ t.g.dsat = x.getLsbD 3) ∧
       (n = 0x18 → t.g.skm.toNat = Max.max 4 (Min.min 20 (x.toNat % 32))) ∧
       (n = 0x19 → t.g.skseed = x))

/-! ### Control flow -/

/-- Transfers to one address (R136, R137, R142, R143): br and call move every active lane to PC plus the word displacement, call leaves
PC + 8 without marks in `vd`, and nop and yield go on at PC + 4. -/
def Obligations.Transfers : Prop :=
  ∀ (s : State) (d : RegField) (lit : Word), Calm s → Placed s →
    let target : DWord := s.pc + BitVec.ofInt 64 (4 * lit.toInt)
    Completes (.br lit) s {} (fun t => ∀ l, s.active l → Goes s t l target) ∧
    Completes (.call d lit) s { vec := [d] } (fun t => ∀ l, s.active l → Goes s t l target ∧ t.v d l = VCell.both (s.pc + 8) false) ∧
    Completes .nop s {} (fun t => ∀ l, s.active l → Goes s t l (s.pc + 4)) ∧
    Completes .yield s {} (fun t => ∀ l, s.active l → Goes s t l (s.pc + 4))

/-- Branches by lane (R20, R136, R138 to R141, R156): each active lane goes to its own target, whether or not the fragment diverges, when
no operand is marked or the branch accepts marks; a handler whose lanes agree goes to their target, and one whose lanes differ is a double
fault. -/
def Obligations.Branches : Prop :=
  ∀ (s : State) (a : RegField) (v neg g : Bool) (t r n : BitVec 16), Calm s →
    let low (l : LaneId) : Word := half (s.v a l).bits false
    let taken (l : LaneId) : Bool := (if v then low l != 0 else (s.m a).getLsbD l.val) != neg
    let goes (i : Instr) (dest : LaneId → DWord) : Prop := i.wf = true →
      (s.cur.hnd = false → s.f.valid = true → Room s → Completes i s {} fun u => ∀ l, s.active l → StandsAt u.g l (dest l)) ∧
      (s.cur.hnd = true →
        (∀ x, s.em ≠ 0 → (∀ l, s.active l → dest l = x) → Completes i s {} fun u => u.g.handler.pc = x) ∧
        ∀ l k, s.active l → s.active k → dest l ≠ dest k → s.t.halted = false → ∃ u, exec i s = .next u ∧ u.t.halted = true ∧ u.g.trapcause = 0x0E ∧
          u.g.trapinfo.toNat = s.g.trapcause.toNat * 256 + 0x02)
    ((v = true → Clean s g a true false) → goes (.bc a v neg g t r) fun l =>
      if taken l then s.pc + BitVec.ofInt 64 (4 * t.toInt) else s.pc + 8) ∧
    (Clean s g a true false → goes (.brx a g n r) fun l => s.pc + 8 + BitVec.ofNat 64 (8 * Min.min (low l).toNat n.toNat)) ∧
    (Clean s g a true true → (∀ l, s.active l → (s.v a l).bits.toNat % 4 = 0) → goes (.ret a g) fun l => (s.v a l).bits)

/-- Joins (R19, R21, R22): every instruction of a fragment that may issue, every event and every step keep the split and join tables:
the fragments hold the live lanes, each one once and none empty, no join is left whose fragments all wait at it, and none with fewer than two
children (what waits there: log 53); only a resume takes the tables from memory. The fragment that comes last to its join's rcv, shown for
nop, makes one fragment there of all that belong to the join. Regrouping (R23): the fragments at the issuing fragment's address become one, which goes on at PC + 4. Narrowing (R146): emwr
keeps the lanes of EM that the mask names and sends the others to the fragment's reconvergence address, inside a hardware loop as outside
one; where it removes no lane, nothing else happens, and as a loop's end instruction it takes the back edge (R148). In a handler, by the
model's choice (log 24), it narrows the trapped fragment alike, and the handler goes on or, with no lane left, ends. -/
def Obligations.RegroupingAndNarrowing : Prop :=
  (∀ (s t : State), (∀ c k, SplitTables (s.gangAt c k)) → (∀ p, (s.parts.get p).resumes = []) →
     ((∃ i, (encode i = none ∨ s.cursorLive = true) ∧ exec i s = .next t) ∨
       ((∀ i rest, s.agenda = i :: rest → encode i = none) ∧ step s = .next t)) →
     ∀ c k, SplitTables (t.gangAt c k)) ∧
  (∀ (s : State) (j : JoinId), Calm s → s.cur.hnd = false → s.f.valid = true → s.f.wait = .none → s.g.inHandler s.cur.frag = false →
     s.f.join = some j → (s.g.joins.get j).valid = true → (∀ k, (s.g.joins.get k).valid = true → (s.g.joins.get k).parent ≠ some j) →
     s.pc + 4 = (s.g.joins.get j).rcv → (∀ r ∈ s.g.loops, s.pc + 4 ≠ r.endAddr) →
     let belongs (k : FragId) : Prop := (s.g.frags.get k).valid = true ∧ (s.g.frags.get k).join = some j
     (∀ k, belongs k → k ≠ s.cur.frag → (s.g.frags.get k).pc = s.pc + 4 ∧ (s.g.frags.get k).wait = .none ∧ s.g.inHandler k = false) →
     Completes .nop s {} fun t => ∃ i, (t.g.frags.get i).valid = true ∧ (t.g.frags.get i).pc = s.pc + 4 ∧
       ∀ k, belongs k → ∀ l : LaneId, (s.g.frags.get k).mask.getLsbD l.val = true → (t.g.frags.get i).mask.getLsbD l.val = true) ∧
  (∀ (s : State), Calm s → s.cur.hnd = false → s.f.valid = true → s.g.inHandler s.cur.frag = false → s.f.wait ≠ .held →
     Completes .regang s {} fun t => ∃ i, (t.g.frags.get i).valid = true ∧ (t.g.frags.get i).pc = s.pc + 4 ∧
       ∀ k, (s.g.frags.get k).valid = true → (s.g.frags.get k).pc = s.pc → s.g.inHandler k = false →
         (s.g.frags.get k).wait ≠ .held → ∀ l : LaneId, (s.g.frags.get k).mask.getLsbD l.val = true →
           (t.g.frags.get i).mask.getLsbD l.val = true) ∧
  (∀ (s : State) (a : RegField), Calm s → s.f.valid = true → (Instr.emwr a).wf = true → s.g.nfrag ≤ 31 →
     (s.cur.hnd = false →
       (s.em &&& ~~~s.m a = 0 → Completes (.emwr a) s {} fun t => ∀ l, s.active l → StandsAt t.g l (nextAt s.g (s.pc + 4))) ∧
       ∀ j, s.f.join = some j → s.em &&& ~~~s.m a ≠ 0 → (∀ r ∈ s.g.loops, s.pc + 4 ≠ r.endAddr) →
         Completes (.emwr a) s {} fun t => ∀ l, s.active l →
           StandsAt t.g l (if (s.m a).getLsbD l.val then s.pc + 4 else (s.g.joins.get j).rcv)) ∧
     (s.cur.hnd = true → s.g.intrap = true → s.g.handler.frag = s.cur.frag → s.t.halted = false →
       (s.em &&& ~~~s.m a = 0 → Completes (.emwr a) s {} fun t => t.g.handler.pc = s.pc + 4) ∧
       ∀ j, s.f.join = some j → s.em &&& ~~~s.m a ≠ 0 →
         (s.em &&& s.m a ≠ 0 → Completes (.emwr a) s {} fun t => t.g.handler.pc = s.pc + 4 ∧
           (t.g.frags.get t.g.handler.frag).mask = s.em &&& s.m a ∧
           ∀ l, s.active l → (s.m a).getLsbD l.val = false → StandsAt t.g l (s.g.joins.get j).rcv) ∧
         (s.em &&& s.m a = 0 → s.g.heldTraps = [] → ∃ t, exec (.emwr a) s = .next t ∧ t.sel = false ∧ t.g.intrap = false ∧
           t.g.latch = [] ∧ t.g.v = s.g.v ∧ t.g.u = s.g.u ∧ t.g.m = s.g.m ∧ (∀ b, t.mem.read b = s.mem.read b) ∧
           ∀ l, s.active l → StandsAt t.g l (s.g.joins.get j).rcv)))

/-- Hardware loops (R147 to R150): loop sets the counter and records the body, or skips it when the count is 0; lbrk pops the
innermost record and goes to its End, or has no effect; the end instruction, shown for smov, counts down and goes back to Start, or pops
the record and goes on at End when the counter reaches 0. -/
def Obligations.HardwareLoops : Prop :=
  (∀ (s : State) (d a : RegField) (w : BitVec 9), Calm s → s.cur.hnd = false → s.f.valid = true → s.g.nfrag ≤ 1 →
     let c : Word := half (s.u a) false
     let endA : DWord := s.pc + 8 + BitVec.ofNat 64 (4 * w.toNat)
     ((Instr.loop d a w).wf = true → s.g.loops.length < 3 → (∀ r ∈ s.g.loops, r.counter ≠ d.toNat) →
       (∀ r ∈ s.g.loops.head?, endA.toNat < r.endAddr.toNat) →
       (c = 0 → Completes (.loop d a w) s {} fun t => t.g.loops = s.g.loops ∧ ∀ l, s.active l → StandsAt t.g l endA) ∧
       (c ≠ 0 → Completes (.loop d a w) s { lc := [lcIx d.toNat] } fun t => t.g.lc.get (lcIx d.toNat) = c ∧
         t.g.loops = { counter := d.toNat, start := s.pc + 8, endAddr := endA, lanes := s.em } :: s.g.loops ∧
         ∀ l, s.active l → StandsAt t.g l (s.pc + 8))) ∧
     ∀ r rest, s.g.loops = r :: rest →
       (s.u a = 0 → Completes (.lbrk a) s {} fun t => t.g.loops = s.g.loops ∧ ∀ l, s.active l → StandsAt t.g l (s.pc + 4)) ∧
       (s.u a ≠ 0 → Completes (.lbrk a) s {} fun t => t.g.loops = rest ∧ t.g.lc = s.g.lc ∧
         ∀ l, s.active l → StandsAt t.g l r.endAddr)) ∧
  (∀ (s : State) (d a : RegField) (r : LoopRec) (rest : List LoopRec), Calm s → s.cur.hnd = false → s.f.valid = true →
     s.g.intrap = false → s.g.loops = r :: rest → s.pc + 4 = r.endAddr →
     let n := s.g.lc.get (lcIx r.counter) - 1
     ∃ t, exec (.smov d a) s = .next t ∧ t.u d = s.u a ∧ t.g.lc.get (lcIx r.counter) = n ∧
       (n = 0 → t.g.loops = rest ∧ ∀ l, s.active l → StandsAt t.g l r.endAddr) ∧
       (n ≠ 0 → t.g.loops = s.g.loops ∧ ∀ l, s.active l → StandsAt t.g l r.start))

/-- Exit (R24, R144, R151): the fragment's lanes leave the gang and every loop record; while another fragment of the gang lives every
register of the gang, the rest of the core and all memory stay as they are, and every other fragment's lanes stay where they stand; the last
one to exit ends the gang's lease and held operand (R312, R317). -/
def Obligations.LanesExit : Prop :=
  ∀ (s : State), Calm s → s.cur.hnd = false → s.g.intrap = false → s.g.heldTraps = [] → s.f.valid = true → s.t.halted = false →
    ∃ t, exec .exit s = .next t ∧ t.sel = false ∧ t.g.exited = s.g.exited ||| s.em ∧
      t.g.loops = (s.g.loops.map fun r => { r with lanes := r.lanes &&& ~~~s.em }).filter (fun r => r.lanes != 0) ∧
      (2 ≤ s.g.nfrag → OnlyGang s t ∧ Kept {} s.em s.g t.g) ∧
      (∀ a, t.mem.read a = s.mem.read a) ∧
      t.g.v = s.g.v ∧ t.g.u = s.g.u ∧ t.g.m = s.g.m ∧ t.g.k = s.g.k ∧ t.g.lc = s.g.lc ∧
      (∀ i l a, i ≠ s.cur.frag → (s.g.frags.get i).valid = true → (s.g.frags.get i).mask.getLsbD l = true →
        (s.g.frags.get i).pc = a → ∃ k, (t.g.frags.get k).valid = true ∧ (t.g.frags.get k).mask.getLsbD l = true ∧
          (t.g.frags.get k).pc = a) ∧
      (s.g.nfrag = 1 → t.g.nfrag = 0 ∧ t.g.left = 0 ∧ t.g.heldA = none ∧ (t.core s.cur.core).holder ≠ some s.cur.slot)

/-! ### Traps -/

/-- Taking a trap (R62, R63, R152 to R156): an instruction whose fields its rules forbid traps ILLEGAL_OP at its own address, with its
words in trapinfo, and has no other effect; trap raises SW_TRAP with its code and trappc at the next instruction; a team without a handler,
and a trap within a handler, halt the team, with INTRAP set (R153); and a trap while another fragment's handler runs is held before its
instruction takes effect. -/
def Obligations.TrapEntry : Prop :=
  (∀ (s : State) (i : Instr), i.wf = false → TrapsAt i s 0x01 (s.ilit ++ s.iword)) ∧
  (∀ (s : State) (x : BitVec 12), Calm s → TrapReady s → s.f.valid = true →
     ∃ t, exec (.trap x) s = .next t ∧ t.sel = false ∧ Trapped s t 0x0D (s.pc + 4) (BitVec.ofNat 64 x.toNat)) ∧
  (∀ (s : State) (i : Instr), i.wf = false →
     (s.cur.hnd = false → s.g.intrap = false → s.t.trapbase = 0 → s.t.halted = false →
       ∃ t, exec i s = .next t ∧ t.t.halted = true ∧ t.g.trapcause = 0x01 ∧ t.g.trappc = s.pc ∧ t.g.intrap = true) ∧
     (s.cur.hnd = true → s.t.halted = false →
       ∃ t, exec i s = .next t ∧ t.t.halted = true ∧ t.g.trapcause = 0x0E ∧ t.g.trappc = s.pc ∧
         t.g.trapinfo.toNat = s.g.trapcause.toNat * 256 + 0x01)) ∧
  (∀ (s : State) (i : Instr), i.wf = false → s.cur.hnd = false → s.g.intrap = true → s.t.halted = false →
     ∃ t, exec i s = .next t ∧
       t.g.heldTraps = s.g.heldTraps ++ [{ frag := s.cur.frag, cause := .illegalOp, info := s.ilit ++ s.iword, late := 0 }] ∧
       t.f.wait = .held ∧ t.f.pc = s.f.pc ∧ t.g.trapcause = s.g.trapcause ∧ t.g.handler = s.g.handler ∧ t.g.v = s.g.v ∧ t.g.u = s.g.u)

/-- Return from a trap (R155, R157): the trapped fragment goes on at trappc, INTRAP is cleared and the latch is empty; a held trap is
taken next, the oldest first, with trappc the address at which its fragment stands. -/
def Obligations.ReturnFromTrap : Prop :=
  ∀ (s : State), Calm s → s.cur.hnd = true → s.g.trappc.toNat % 4 = 0 → s.t.halted = false →
    (s.g.frags.get s.g.handler.frag).valid = true →
    ∃ t, exec .rti s = .next t ∧ t.sel = false ∧ t.g.latch = [] ∧ t.g.v = s.g.v ∧ t.g.u = s.g.u ∧ t.g.m = s.g.m ∧
      (∀ a, t.mem.read a = s.mem.read a) ∧
      (∀ l : LaneId, (s.g.frags.get s.g.handler.frag).mask.getLsbD l.val = true → StandsAt t.g l s.g.trappc) ∧
      (s.g.heldTraps = [] → t.g.intrap = false) ∧
      ∀ h rest, s.g.heldTraps = h :: rest → s.t.trapbase ≠ 0 →
        t.g.intrap = true ∧ t.g.trapcause = h.cause.code ∧ t.g.trapinfo = h.info ∧ t.g.traplate = h.late ∧
          t.g.handler.pc = s.t.trapbase ∧ (h.frag = s.g.handler.frag → t.g.trappc = s.g.trappc) ∧
          (h.frag ≠ s.g.handler.frag → (s.g.frags.get h.frag).wait = .held → t.g.trappc = (s.g.frags.get h.frag).pc)

/-- Traps at issue of what a rule forbids (R139, R141, R146, R149, R152, R156, R157, R161, R211, R221, R265): guesses met without `.g`,
in every instruction that checks them and in each half that it checks, misaligned returns and accesses, at the lowest lane's address, loops
and emwr where they may not stand, and rti outside a handler. -/
def Obligations.ForbiddenUsesTrap : Prop :=
  (∀ (s : State) (d a b sf sm : RegField) (h c sel : BitVec 2) (v f t : Bool) (n r : BitVec 16) (disp : BitVec 16)
     (cls op : BitVec 4) (scope : BitVec 3) (acq rem rel lreg p : Bool) (ty look : BitVec 4) (z : BitVec 3) (aty tz : BitVec 2), Calm s →
     let low (x : RegField) : Operand := (x, true, false)
     let both (x : RegField) : Operand := (x, true, true)
     let part (x : RegField) : Operand := (x, !p, p)
     let traps (i : Instr) (checked : List Operand) : Prop := Escapes i s s.em checked []
     traps (.vote d a h false c) [low a] ∧ traps (.ballot d a h false) [low a] ∧ traps (.kadd d a h false sel) [(a, sel != 2, sel != 1)] ∧
     traps (.bc a true v false n r) [low a] ∧ traps (.brx a false n r) [low a] ∧ traps (.ret a false) [both a] ∧
     Escapes (.ld d a b look h disp cls scope acq rem ty lreg false p) s s.em [both a] (if lreg then [low b] else []) ∧
     traps (.st d a h false p disp scope rel z)
       (both a :: if z = 4 then [both d, both (d + 1)] else if z = 3 then [both d] else [part d]) ∧
     traps (.atom d a look h disp op scope acq rem rel aty) (both a :: if op = 7 ∧ aty = 3 then [both d, both (d + 1)] else [both d]) ∧
     (let again := s.lanes.filter fun i => demands ty p (s.v d i) && (s.g.covers d ty p i).isNone
       ∀ em : BitVec 32, (∀ l : LaneId, em.getLsbD l.val = again.contains l) →
         Escapes (.gdemand d a ty p false look h) s em [both a] [if wideType ty then both d else part d]) ∧
     traps (.tld d a false tz p look h) [both a] ∧
     traps (.tst d a h false p tz) (both a :: if tz = 2 then [both d, both (d + 1)] else if tz = 1 then [both d] else [part d]) ∧
     traps (.tatom d a op aty look h) [both a, both d] ∧
     traps (.skins d a b h t) [both a, low b] ∧ traps (.skdel d a b h t) [both a, low b] ∧
     (s.whole = true →
       traps (.dfrom d a h false f) (both a :: if f then [both (a + 1)] else []) ∧ traps (.dmulv d a b h false) [both b] ∧
       ((mmaFmt (s.u sf)).valid = true → (h = 1 → s.g.heldA = none) →
         traps (.mma d a b h false sf sm t v) ((List.range 16).map fun q => both (a + BitVec.ofNat 6 q))))) ∧
  (∀ (s : State) (d a : RegField) (w : BitVec 9), Calm s →
     let word : DWord := BitVec.ofNat 64 s.iword.toNat
     (∀ l : LaneId, (Instr.ret a true).wf = true → s.active l → (s.v a l).bits.toNat % 4 ≠ 0 →
       (∀ k, s.active k → k < l → (s.v a k).bits.toNat % 4 = 0) →
       TrapsAt (.ret a true) s 0x06 (BitVec.ofNat 64 ((s.v a l).bits.toNat % 2 ^ 57))) ∧
     ((Instr.loop d a w).wf = true → (2 ≤ s.g.nfrag ∨ 3 ≤ s.g.loops.length) → TrapsAt (.loop d a w) s 0x02 word) ∧
     ((Instr.lbrk a).wf = true → (2 ≤ s.g.nfrag ∨ s.g.loops = []) → TrapsAt (.lbrk a) s 0x02 word) ∧
     ((Instr.emwr a).wf = true → s.f.join = none → s.em &&& ~~~s.m a ≠ 0 → TrapsAt (.emwr a) s 0x02 word) ∧
     TrapsAt .rti s 0x02 word) ∧
  (∀ (s : State) (d a b : RegField) (l : BitVec 4) (h : BitVec 2) (disp : BitVec 16) (cls op : BitVec 4) (scope : BitVec 3)
     (acq rem rel lreg g p : Bool) (ty : BitVec 4) (z uty : BitVec 3) (aty : BitVec 2) (i : LaneId), Calm s →
     let ea (k : LaneId) : DWord := (s.v a k).bits + BitVec.ofInt 64 disp.toInt
     let uea : DWord := s.u a + BitVec.ofInt 64 disp.toInt
     let first (n : Nat) : Prop := s.active i ∧ (ea i).toNat % n ≠ 0 ∧ ∀ k, s.active k → k < i → (ea k).toNat % n = 0
     let traps (j : Instr) (x : DWord) : Prop := j.wf = true → TrapsAt j s 0x06 (BitVec.ofNat 64 (x.toNat % 2 ^ 57))
     let asize := if aty = 3 then 8 else 4
     (Clean s g a true true → first (tyBytes ty) → traps (.ld d a b l h disp cls scope acq rem ty lreg g p) (ea i)) ∧
     (Clean s g a true true → Clean s g d (decide (3 ≤ z.toNat) || !p) (decide (3 ≤ z.toNat) || p) → (z = 4 → Clean s g (d + 1) true true) →
       first (2 ^ z.toNat) → traps (.st d a h g p disp scope rel z) (ea i)) ∧
     (Clean s false a true true → Clean s false d true true → (op = 7 → aty = 3 → Clean s false (d + 1) true true) → first asize →
       traps (.atom d a l h disp op scope acq rem rel aty) (ea i)) ∧
     (uea.toNat % sldBytes uty ≠ 0 → traps (.sld d a l disp scope acq rem uty) uea) ∧
     (uea.toNat % 2 ^ z.toNat ≠ 0 → traps (.sst d a disp scope rel z) uea) ∧
     (uea.toNat % asize ≠ 0 → traps (.satom d a l disp op scope acq rem rel aty) uea))

/-! ### Device memory -/

/-- Vector loads (R209, R211, R214, R222): each active lane's access enters the core's list at its own address, in ascending lane
order, and the window opens with each lane's limit; 0, a wait for the data, under an acquire and at an ordered page. -/
def Obligations.VectorLoadIssues : Prop :=
  ∀ (s : State) (d a b : RegField) (l : BitVec 4) (h : BitVec 2) (disp : BitVec 16) (cls : BitVec 4) (scope : BitVec 3)
    (acq rem : Bool) (ty : BitVec 4) (lreg g p : Bool) (pl : LaneId → Place),
    Calm s → Quiet s → (Instr.ld d a b l h disp cls scope acq rem ty lreg g p).wf = true → Clean s g a true true → s.em ≠ 0 →
    (∀ i, s.active i → Reach s ((s.v a i).bits + BitVec.ofInt 64 disp.toInt) (tyBytes ty) false (pl i)) →
    let limit (i : LaneId) : Nat :=
      if acq = true ∨ 2 ≤ (pl i).ptype.toNat then 0
      else if lreg then (half (s.v b i).bits false).toNat else if cls = 0 then 0 else 2 ^ (cls.toNat + 2)
    ∃ t new, exec (.ld d a b l h disp cls scope acq rem ty lreg g p) s = .next t ∧ Issues {} s t new ∧
      new.map accKey = s.lanes.flatMap (fun i => piecesAt (pl i) (tyBytes ty) fun _ => .load) ∧
      (∀ x ∈ new, x.acq = if x.ptype = 3 then some 4 else if acq then some scope else none) ∧
      Opened s t l.toNat fun q => q.dst = .vec d (ty.toNat == 11) ∧ q.em = s.em ∧ q.fail = none ∧ q.wr = [] ∧
        (ty.toNat ≠ 11 → ∃ w, q.await = .lanes w [] ∧ w.map (fun x => (x.1.lane, x.1.ea, x.2)) =
          s.lanes.map fun i => (i, (s.v a i).bits + BitVec.ofInt 64 disp.toInt, limit i))

/-- Stores (R209, R211, R244, R406 to R408): st issues the stores of each active lane, in ascending lane order, of the bytes its size
code takes from the register; sst stores S[d] at S[a] once for the fragment, whatever its EM (R209); a store to a multicast address is one
to the vault of each target core; nothing is in memory before it is performed. -/
def Obligations.StoresIssue : Prop :=
  ∀ (s : State) (d a : RegField) (h : BitVec 2) (g p : Bool) (disp : BitVec 16) (scope : BitVec 3) (rel : Bool) (z : BitVec 3)
    (pl : LaneId → List Place) (ps : List Place), Calm s → Quiet s →
    let n := 2 ^ z.toNat
    let bytes (i : LaneId) (k : Nat) : List Byte :=
      match z.toNat with
      | 4 => leBytes 8 (s.v (if k = 0 then d else d + 1) i).bits.toNat
      | 3 => leBytes 8 (s.v d i).bits.toNat
      | _ => leBytes n (half (s.v d i).bits p).toNat
    ((Instr.st d a h g p disp scope rel z).wf = true → Clean s g a true true → Clean s g d (decide (3 ≤ z.toNat) || !p) (decide (3 ≤ z.toNat) || p) →
      (z = 4 → Clean s g (d + 1) true true) →
      (∀ i, s.active i → Stores s ((s.v a i).bits + BitVec.ofInt 64 disp.toInt) n (pl i)) →
      ∃ t new, exec (.st d a h g p disp scope rel z) s = .next t ∧ Issues {} s t new ∧
        new.map accKey = s.lanes.flatMap fun i => (pl i).flatMap fun q => piecesAt q n fun k => .store (bytes i k)) ∧
    ((Instr.sst d a disp scope rel z).wf = true → Stores s (s.u a + BitVec.ofInt 64 disp.toInt) n ps →
      ∃ t new, exec (.sst d a disp scope rel z) s = .next t ∧ Issues {} s t new ∧
        new.map accKey = ps.map fun q => (q.dev, q.pa, n, .store (leBytes n (s.u d).toNat)))

/-- Uniform loads and atomics (R209, R210, R263, R264, R265): the accesses enter the core's list with the operands read at issue, and
the window opens; an atomic makes its read-modify-write at the owning die, not here. -/
def Obligations.AtomicsIssue : Prop :=
  ∀ (s : State) (d a : RegField) (l : BitVec 4) (h : BitVec 2) (disp : BitVec 16) (op : BitVec 4) (scope : BitVec 3)
    (acq rem rel : Bool) (ty : BitVec 2) (lty : BitVec 3) (pl : LaneId → Place), Calm s → Quiet s → s.em ≠ 0 →
    let wide := decide (ty = 3)
    let n := if wide then 8 else 4
    let x (i : LaneId) : DWord := if wide then (s.v d i).bits else (half (s.v d i).bits false).setWidth 64
    let y (i : LaneId) : DWord := if wide then (s.v (d + 1) i).bits else (half (s.v d i).bits true).setWidth 64
    let ux : DWord := if wide then s.u d else (half (s.u d) false).setWidth 64
    let uy : DWord := if wide then s.u (d + 1) else (half (s.u d) true).setWidth 64
    let ea : DWord := s.u a + BitVec.ofInt 64 disp.toInt
    ((Instr.sld d a l disp scope acq rem lty).wf = true → Reach s ea (sldBytes lty) false (pl 0) →
      ∃ t new, exec (.sld d a l disp scope acq rem lty) s = .next t ∧ Issues {} s t new ∧
        new.map accKey = [((pl 0).dev, (pl 0).pa, sldBytes lty, .load)] ∧
        Opened s t l.toNat fun q => q.dst = .uni d ∧ q.fail = none ∧ q.await = .accesses (new.map (·.id))) ∧
    ((Instr.atom d a l h disp op scope acq rem rel ty).wf = true → Clean s false a true true → Clean s false d true true →
      (op = 7 → wide = true → Clean s false (d + 1) true true) →
      (∀ i, s.active i → Reach s ((s.v a i).bits + BitVec.ofInt 64 disp.toInt) n true (pl i)) →
      ∃ t new, exec (.atom d a l h disp op scope acq rem rel ty) s = .next t ∧ Issues {} s t new ∧
        new.map accKey = s.lanes.map (fun i => ((pl i).dev, (pl i).pa, n, .atomic op ty (x i) (y i))) ∧
        Opened s t l.toNat fun q => q.dst = .vec d false ∧ q.em = s.em ∧ q.fail = none ∧ q.await = .accesses (new.map (·.id))) ∧
    ((Instr.satom d a l disp op scope acq rem rel ty).wf = true → Reach s ea n true (pl 0) →
      ∃ t new, exec (.satom d a l disp op scope acq rem rel ty) s = .next t ∧ Issues {} s t new ∧
        new.map accKey = [((pl 0).dev, (pl 0).pa, n, .atomic op ty ux uy)] ∧
        Opened s t l.toNat fun q => q.dst = .uni d ∧ q.fail = none ∧ q.await = .accesses (new.map (·.id)))

/-- STORE_PERFORMED (R34, R244, R424): the store's bytes, and no others, become what its partition reads. That a store performed at .core
stays out of memory and goes to the end of its core's list, where the core alone sees it, is the model's choice (log 46). LOAD_DATA_ARRIVAL (R215, R226,
R228, R263): the data reach the lanes that waited for them, and an atomic operation reads and replaces its bytes in one step. -/
def Obligations.AccessesArePerformed : Prop :=
  (∀ (s : State) (c : CoreId) (k : Nat) (x : Access) (bs : List Byte), (s.core c).acc? k = some x → x.kind = .store bs →
     (s.core c).mayPerform x = true → s.bad (memIx x.dev x.pa) = false → bs.length = x.size →
     (x.done = false → x.ptype ≠ 3 → ∃ t y, exec (.storePerformed c k false) s = .next t ∧ t.mem = s.mem ∧
       (t.core c).accs = (s.core c).accs.filter (fun z => z.id != x.id) ++ [y] ∧ y.done = true ∧ y.id = x.id ∧ accKey y = accKey x ∧
       y.part = x.part ∧ y.rel = x.rel) ∧
     ((x.done = true ∨ x.rel = none) → (s.core c).mayRaise x = true → ∃ t, exec (.storePerformed c k true) s = .next t ∧
       t.rdN (s.keyOf x.part) (memIx x.dev x.pa) x.size = bs ∧
       (∀ a, ¬(memIx x.dev x.pa ≤ a ∧ a < memIx x.dev x.pa + x.size) → t.mem.read a = s.mem.read a ∧
         ∀ key, s.byteKeyOf a = key ∨ s.byteKeyOf a = 0 → t.rdByte key a = s.rdByte key a) ∧
       (t.core c).accs = (s.core c).accs.filter (fun y => y.id != x.id) ∧
       ∀ d, (t.core d).slots = (s.core d).slots ∧ (t.core d).spad = (s.core d).spad)) ∧
  (∀ (s : State) (c : CoreId) (k : Nat) (x : Access) (l : LaneId) (p : Pending), (s.core c).acc? k = some x → x.acq = none →
     (s.core c).mayPerform x = true → (s.gangAt c x.slot).live = true → (s.gangAt c x.slot).team = x.team →
     (s.gangAt c x.slot).pend = [p] → (s.gangAt c x.slot).late = [] → x.dst = some (p.id, l, 0) → p.closed = false → p.fail = none →
     (∀ (d : RegField) (w : LateLane) (n : Nat), x.kind = .load → p.dst = .vec d false → p.await = .lanes [(w, n)] [] → w.acc = x.id →
       ∃ t q, exec (.loadDataArrival c k) s = .next t ∧ (t.gangAt c x.slot).pend = [q] ∧ q.ready = true ∧ t.mem = s.mem ∧
         (t.core c).accs = (s.core c).accs.filter (fun y => y.id != x.id) ∧
         (s.bad (memIx x.dev x.pa) = false → q.fail = none ∧
           q.wr = p.wr ++ tyWrites d p.ty p.part l (tyExtend p.ty (leNat (s.viewN c x.part x.dev x.pa.toNat x.size))) (p.addrMarks.getLsbD l.val)) ∧
         (s.bad (memIx x.dev x.pa) = true → q.wr = p.wr ∧
           q.fail = some { cause := .uncorrectable, info := BitVec.ofNat 64 (x.va.toNat % 2 ^ 57) })) ∧
     ∀ (op : BitVec 4) (ty : BitVec 2) (u v : DWord), x.kind = .atomic op ty u v → p.await = .accesses [x.id] → x.size ≤ 8 →
       (s.core c).mayRaise x = true → (s.core c).accs.all (fun y => !y.done) = true → s.badLine (memIx x.dev x.pa) = false →
       ∃ t q, exec (.loadDataArrival c k) s = .next t ∧ (t.gangAt c x.slot).pend = [q] ∧ q.ready = true ∧ q.fail = none ∧
         t.rdN (s.keyOf x.part) (memIx x.dev x.pa) x.size =
           leBytes x.size (atomNew op ty (leNat (s.rdN (s.keyOf x.part) (memIx x.dev x.pa) x.size)) u.toNat v.toNat) ∧
         ∀ a, ¬(memIx x.dev x.pa ≤ a ∧ a < memIx x.dev x.pa + x.size) → t.mem.read a = s.mem.read a ∧
           ∀ key, s.byteKeyOf a = key ∨ s.byteKeyOf a = 0 → t.rdByte key a = s.rdByte key a)

/-- LOAD_DEADLINE (R215, R218, R224): a lane whose limit is not 0 takes the leaf table's prediction, marked, and the core counts one
more guess. LONG_LATENCY_RESULT (R51, R53, R57): a closed and complete result is written; one that failed leaves its destination and traps
at the fragment's next instruction, with the failed instruction's address in traplate. -/
def Obligations.DeadlinesAndResults : Prop :=
  (∀ (s : State) (c : CoreId) (i : SlotId) (p : Pending) (d : RegField) (w : LateLane) (n : Nat),
     (s.gangAt c i).pend = [p] → p.dst = .vec d false → p.await = .lanes [(w, n)] [] → p.closed = false →
     ∃ t q, exec (.loadDeadline c i p.id w.lane) s = .next t ∧ (t.gangAt c i).pend = [q] ∧ t.mem = s.mem ∧
       (n = 0 → t = s) ∧
       (n ≠ 0 → q.ready = true ∧ q.await = .lanes [] [w] ∧
         q.wr = p.wr ++ tyWrites d p.ty p.part w.lane
           ((s.core c).predict { pc := p.pc, asid := (s.teamAt c i).asid, ty := p.ty, part := p.part } w.lane) true ∧
         (t.core c).pcount.toNat = Min.min ((s.core c).pcount.toNat + 1) 0xFFFFFFFF)) ∧
  (∀ (s : State) (c : CoreId) (i : SlotId) (p : Pending), (s.gangAt c i).pend = [p] → p.closed = true → p.ready = true → p.hnd = false →
     (∀ d, p.dst = .uni d → p.part = false → p.fail = none → p.overA = .none →
       ∃ t, exec (.longLatencyResult c i p.id) s = .next t ∧ (t.gangAt c i).pend = [] ∧ (t.gangAt c i).u.get (vIx d) = p.uval ∧
         (∀ r, r ≠ d → (t.gangAt c i).u.get (vIx r) = (s.gangAt c i).u.get (vIx r)) ∧ (t.gangAt c i).v = (s.gangAt c i).v ∧
         t.mem = s.mem) ∧
     (∀ e, p.fail = some e → ((s.gangAt c i).frags.get p.frag).wait = .none → (s.gangAt c i).intrap = false →
       (s.teamAt c i).trapbase ≠ 0 → (s.teamAt c i).halted = false →
       ∃ t, exec (.longLatencyResult c i p.id) s = .next t ∧ (t.gangAt c i).pend = [] ∧
         (t.gangAt c i).trapcause = e.cause.code ∧ (t.gangAt c i).trapinfo = e.info ∧ (t.gangAt c i).traplate = p.pc ∧
         (t.gangAt c i).trappc = ((s.gangAt c i).frags.get p.frag).pc ∧ (t.gangAt c i).intrap = true ∧
         (t.gangAt c i).v = (s.gangAt c i).v ∧ (t.gangAt c i).u = (s.gangAt c i).u ∧ t.mem = s.mem))

/-- The guess instructions (R229, R230, R231, R232): gtest reads marks into a mask, gacc copies a register and clears the selected
marks, and gdemand takes the true values that late slots hold in place of the marked halves, or reads them again where no slot covers
them. -/
def Obligations.GuessInstructions : Prop :=
  ∀ (s : State) (d a : RegField) (h sel : BitVec 2) (t : BitVec 4) (p g : Bool) (l : BitVec 4), Calm s →
    (∀ x : BitVec 32, (∀ l : LaneId, x.getLsbD l.val =
        (s.active l && ((decide (sel ≠ 2) && (s.v a l).g0) || (decide (sel ≠ 1) && (s.v a l).g1)))) →
      MaskOp (.gtest d a h sel) s d x) ∧
    LaneOp (.gacc d a h sel) s d (fun l z => z.bits = (s.v a l).bits ∧
      z.g0 = ((s.v a l).g0 && decide (sel = 2)) ∧ z.g1 = ((s.v a l).g1 && decide (sel = 1))) ∧
    (∀ (val : LaneId → DWord),
      (∀ i, s.active i → demands t p (s.v d i) = true → ∃ y, s.g.covers d t p i = some y ∧ y.bad = none ∧ y.data = some (val i)) →
      let good (X : LaneId → VCell) : Prop := ∀ i, s.active i → X i =
        if demands t p (s.v d i) then
          (if wideType t then VCell.both (val i) false else (s.v d i).withHalf p (half (val i) false) false)
        else s.v d i
      LookOp (.gdemand d a t p g l h) s l.toNat { vec := [d] } (fun u => good (u.v d))
        (fun q => q.dst = .vec d false ∧ q.fail = none ∧ q.ready = true ∧ good fun i => mergeAll q.wr d i (s.v d i)) (fun _ => True)) ∧
    ∀ (pl : LaneId → Place),
      let want := s.lanes.filter fun i => demands t p (s.v d i)
      (Instr.gdemand d a t p g l h).wf = true → Quiet s → want ≠ [] → (∀ i ∈ want, s.g.covers d t p i = none) →
      (g = true ∨ ∀ i ∈ want, (s.v a i).marked = false) → (∀ i ∈ want, Reach s (s.v a i).bits (tyBytes t) false (pl i)) →
      ∃ u new, exec (.gdemand d a t p g l h) s = .next u ∧ Issues {} (s.modG fun g => { g with reread := true }) u new ∧
        new.map accKey = want.map (fun i => ((pl i).dev, (pl i).pa, tyBytes t, .load)) ∧
        Opened s u l.toNat fun q => q.dst = .vec d false ∧ q.fail = none ∧ q.await = .demand [] (new.map (·.id))

/-! ### Scratchpad tiles -/

/-- Allocating and freeing a tile (R180, R181, R182, R184): talloc fills the lowest free entry with the shape and the lowest run of the
team's reservation that holds it, and gives the handle with the entry's generation; a shape that is none, a table without a free entry and a
reservation without a run trap TILE_FAULT; tfree frees the entry and moves the generation on. -/
def Obligations.TilesAreAllotted : Prop :=
  ∀ (s : State) (d a : RegField) (lvl2 : Bool) (e : Fin 64) (b : Nat), Calm s →
    let x := s.u a
    let rows := x.toNat / 65536
    let rowb := x.toNat % 65536
    let size := (rows * rowb + 127) / 128 * 128
    ((Instr.talloc d a lvl2).wf = true → 1 ≤ rows → rows ≤ 4096 → rowb % 4 = 0 → 4 ≤ rowb →
      (s.curCore.tiles.get e).v = false → (∀ f, f < e → (s.curCore.tiles.get f).v = true) →
      freeRun s.t.spadBase s.t.spadLen size ((s.curCore.tilesOf s.g.team).map (·.2)) = some b →
      ∃ t, exec (.talloc d a lvl2) s = .next t ∧ t.sel = false ∧ Kept { uni := [d] } s.em s.g t.g ∧ t.mem = s.mem ∧
        t.u d = BitVec.ofNat 64 ((s.curCore.tiles.get e).gen.toNat * 16384 + coreidOf s.cur.core * 64 + e.val) ∧
        (t.curCore.tiles.get e).v = true ∧ (t.curCore.tiles.get e).gen = (s.curCore.tiles.get e).gen ∧
        (t.curCore.tiles.get e).lvl2 = lvl2 ∧ (t.curCore.tiles.get e).team = s.g.team ∧ (t.curCore.tiles.get e).asid = s.t.asid ∧
        (t.curCore.tiles.get e).base = BitVec.ofNat 12 (b / 128) ∧ (t.curCore.tiles.get e).rowsm1.toNat = rows - 1 ∧
        (t.curCore.tiles.get e).rowbw.toNat = rowb / 4 - 1 ∧
        (∀ f, f ≠ e → t.curCore.tiles.get f = s.curCore.tiles.get f) ∧ t.curCore.spad = s.curCore.spad) ∧
    ((Instr.talloc d a lvl2).wf = true →
      let shape : Prop := 1 ≤ rows ∧ rows ≤ 4096 ∧ rowb % 4 = 0 ∧ 4 ≤ rowb
      let traps (n : Nat) : Prop := TrapsAt (.talloc d a lvl2) s 0x07 (BitVec.ofNat 64 (0xFFFF + n * 65536))
      (¬shape → traps 0) ∧
      (shape → (∀ f, (s.curCore.tiles.get f).v = true) → traps 0xFFFFFFFF) ∧
      (shape → (∃ f, (s.curCore.tiles.get f).v = false) →
        freeRun s.t.spadBase s.t.spadLen size ((s.curCore.tilesOf s.g.team).map (·.2)) = none → traps size)) ∧
    (freeRun s.t.spadBase s.t.spadLen size ((s.curCore.tilesOf s.g.team).map (·.2)) = some b → 0 < size →
      let free (x : Nat) : Prop := s.t.spadBase ≤ x ∧ x + size ≤ s.t.spadBase + s.t.spadLen ∧
        ∀ y ∈ s.curCore.tilesOf s.g.team, x + size ≤ y.2.addr ∨ y.2.addr + y.2.size ≤ x
      free b ∧ ∀ x, free x → b ≤ x) ∧
    ((Instr.tfree a).wf = true → ∀ t0 : TileEntry, s.tileOf (clusOf s.cur.core) (x.extractLsb' 0 16) = some (s.cur.core, t0) →
      t0.team = s.g.team → s.curCore.tileLocked (x.extractLsb' 0 16) = false →
      ∃ t, exec (.tfree a) s = .next t ∧ t.sel = false ∧ Kept {} s.em s.g t.g ∧ t.mem = s.mem ∧
        t.curCore.tiles.get (handleEntry (x.extractLsb' 0 16)) = { t0 with v := false, gen := t0.gen + 1 } ∧
        (∀ f, f ≠ handleEntry (x.extractLsb' 0 16) → t.curCore.tiles.get f = s.curCore.tiles.get f) ∧ t.curCore.spad = s.curCore.spad)

/-- Tile accesses (R179, R186 to R191): tld reads each lane's bytes at issue, tst writes each lane's bytes in ascending lane order and
no other byte of the scratchpad, and tatom replaces each word by its operation's result and returns the old one; what is read stands in
the register at once, or in an open window. By the model's choice (log 12) the banks are passed at issue, for a tile of another core too.
The first active lane that reaches no tile traps TILE_FAULT, in tld, tst and tatom alike, before any lane's misalignment; that a lane which
names another core than the lowest active lane is one of these is the model's choice (log 86). Where all reach theirs, the first misaligned lane traps ALIGN_FAULT. -/
def Obligations.TileAccesses : Prop :=
  ∀ (s : State) (d a : RegField) (h z : BitVec 2) (g p : Bool) (op : BitVec 4) (ty : BitVec 2) (l : BitVec 4) (o : CoreId)
    (b : LaneId → Nat), Calm s → Quiet s → s.em ≠ 0 → (s.core o).spadBad = [] →
    let n := 4 * 2 ^ z.toNat
    let spad := (s.core o).spad
    let word (i : LaneId) (k : Nat) : Word := BitVec.ofNat 32 (leNat (spad.readN (b i + 4 * k) 4))
    (Clean s g a true true → (∀ i, s.active i → TileReach s (s.v a i).bits n false o (b i)) →
      let good (X : RegField → LaneId → VCell) : Prop := ∀ i, s.active i →
        let mk := g && ((s.v a i).g0 || (s.v a i).g1)
        (z = 0 → X d i = (s.v d i).withHalf p (word i 0) mk) ∧
        (z = 1 → X d i = VCell.both (word i 1 ++ word i 0) mk) ∧
        (z = 2 → X d i = VCell.both (word i 1 ++ word i 0) mk ∧ X (d + 1) i = VCell.both (word i 3 ++ word i 2) mk)
      LookOp (.tld d a g z p l h) s l.toNat { vec := if z = 2 then [d, d + 1] else [d] } (fun t => good t.v)
        (fun q => q.dst = .vec d (z == 2) ∧ q.em = s.em ∧ q.fail = none ∧ q.ready = true ∧ good fun r i => mergeAll q.wr r i (s.v r i))
        (fun _ => True)) ∧
    ((Instr.tst d a h g p z).wf = true → Clean s g a true true → Clean s g d (z != 0 || !p) (z != 0 || p) →
      (z = 2 → Clean s g (d + 1) true true) → (∀ i, s.active i → TileReach s (s.v a i).bits n true o (b i)) →
      ∃ t, exec (.tst d a h g p z) s = .next t ∧ OnlySpad {} s t o ∧
        (∀ c, (∀ i, s.active i → c < b i ∨ b i + n ≤ c) → (t.core o).spad.read c = spad.read c) ∧
        ∀ i, s.active i → (∀ k, s.active k → i < k → b k + n ≤ b i ∨ b i + n ≤ b k) →
          (t.core o).spad.readN (b i) n = match z.toNat with
            | 0 => leBytes 4 (half (s.v d i).bits p).toNat
            | 1 => leBytes 8 (s.v d i).bits.toNat
            | _ => leBytes 8 (s.v d i).bits.toNat ++ leBytes 8 (s.v (d + 1) i).bits.toNat) ∧
    ((Instr.tatom d a op ty l h).wf = true → Clean s false a true true → Clean s false d true true →
      let n := if ty = 3 then 8 else 4
      let old (i : LaneId) : Nat := leNat (spad.readN (b i) n)
      (∀ i, s.active i → TileReach s (s.v a i).bits n true o (b i)) →
      (∀ i k, s.active i → s.active k → k ≠ i → b k + n ≤ b i ∨ b i + n ≤ b k) →
      let good (X : LaneId → VCell) : Prop := ∀ i, s.active i →
        X i = if ty = 3 then VCell.both (BitVec.ofNat 64 (old i)) false else (s.v d i).withHalf false (BitVec.ofNat 32 (old i)) false
      ∃ t, exec (.tatom d a op ty l h) s = .next t ∧ OnlySpad { vec := if l = 0 then [d] else [] } s t o ∧
        (∀ c, (∀ i, s.active i → c < b i ∨ b i + n ≤ c) → (t.core o).spad.read c = spad.read c) ∧
        (∀ i, s.active i →
          let x := if ty = 3 then (s.v d i).bits.toNat else (half (s.v d i).bits false).toNat
          (t.core o).spad.readN (b i) n = leBytes n (atomNew op ty (old i) x (half (s.v d i).bits true).toNat)) ∧
        (l = 0 → good (t.v d)) ∧
        (l ≠ 0 → Opened s t l.toNat fun q => q.dst = .vec d false ∧ q.fail = none ∧ q.ready = true ∧
          good fun i => mergeAll q.wr d i (s.v d i))) ∧
    ∀ i first, s.active i → s.active first → (∀ k, s.active k → first ≤ k) → Clean s g a true true →
      let x (k : LaneId) : DWord := (s.v a k).bits
      let core (k : LaneId) : Nat := (tileHandle (x k)).toNat / 64 % 256
      let reaches (n : Nat) (k : LaneId) : Prop := (x k).toNat < 2 ^ 48 ∧ core k = core first ∧
        (s.reach s.cur.core s.g.team s.t.asid (tileHandle (x k)) (tileOff (x k)) n).isSome = true
      let faults (j : Instr) (n : Nat) : Prop := j.wf = true →
        ((∀ k, s.active k → k < i → reaches n k) → ¬reaches n i →
          TrapsAt j s 0x07 (BitVec.ofNat 64 ((tileHandle (x i)).toNat + tileOff (x i) * 65536))) ∧
        ((∀ k, s.active k → reaches n k) → (∀ k, s.active k → k < i → tileOff (x k) % n = 0) → tileOff (x i) % n ≠ 0 →
          TrapsAt j s 0x06 (BitVec.ofNat 64 ((x i).toNat % 2 ^ 48)))
      faults (.tld d a g z p l h) n ∧
      (Clean s g d (z != 0 || !p) (z != 0 || p) → (z = 2 → Clean s g (d + 1) true true) → faults (.tst d a h g p z) n) ∧
      (Clean s false a true true → Clean s false d true true → faults (.tatom d a op ty l h) (if ty = 3 then 8 else 4))

/-! ### Directional registers -/

/-- Directional registers (R338 to R351): every operation works on the exact vector and norms it once, with the marks and DSAT of its
rule; a record is 260 bytes of components and norm (R350), which dld and dst move by 65 separate accesses of four bytes (R351). -/
def Obligations.DirectionalRegisters : Prop :=
  (∀ (s : State) (d a b : RegField) (h : BitVec 2) (g f : Bool) (r : BitVec 3) (l : BitVec 4), Calm s →
     let A := s.g.comps a
     let B := s.g.comps b
     let nA := (s.g.norm a).toInt
     let nB := (s.g.norm b).toInt
     let ints (x : Nat → FVal) : List Int := (List.range 128).map fun k => (unitsOf160 (x k)).getD 0
     let finite (x : Nat → FVal) : Prop := ∀ k, k < 128 → (unitsOf160 (x k)).isSome = true
     let zero (t : State) : Prop := t.g.norm d = 0x8000 ∧ t.g.comps d = List.replicate 128 0 ∧ t.g.dsat = s.g.dsat
     let sum (i : Instr) (B : List Int) : Prop := i.wf = true → Completes i s { dir := [d], dsat := true } fun t =>
       (∃ x ∈ A, x ≠ 0) → (∃ x ∈ B, x ≠ 0) → (nA - nB) % 256 = 0 →
         Renormed (List.zipWith (fun x y => x * 2 ^ ((nA - nB).toNat / 256) + y * 2 ^ ((nB - nA).toNat / 256)) A B)
           (Min.min nA nB - 14 * 256) s.g t.g d
     (s.whole = true →
       ((Instr.dfrom d a h g f).wf = true → Clean s g a true true → (f = true → Clean s g (a + 1) true true) →
         Completes (.dfrom d a h g f) s { dir := [d], dsat := true } fun t =>
           (finite (dirInput s a f) → Renormed (ints (dirInput s a f)) (-(160 * 256)) s.g t.g d) ∧
           (¬finite (dirInput s a f) → zero t)) ∧
       ((Instr.dmulv d a b h g).wf = true → Clean s g b true true →
         Completes (.dmulv d a b h g) s { dir := [d], dsat := true } fun t =>
           (finite (dirInput s b false) → Renormed (List.zipWith (fun x y => x * y) A (ints (dirInput s b false))) (nA - 174 * 256) s.g t.g d) ∧
           (¬finite (dirInput s b false) → zero t)) ∧
       ((Instr.dnorm d a).wf = true → Completes (.dnorm d a) s { dir := [d], dsat := true } fun t =>
         Renormed A (nA - 14 * 256) s.g t.g d) ∧
       sum (.dadd d a b) B ∧ sum (.dsub d a b) (B.map fun y => -y) ∧
       ((Instr.dneg d a).wf = true → Completes (.dneg d a) s { dir := [d] } fun t =>
         t.g.norm d = s.g.norm a ∧ ∀ k, k < 128 → (t.g.comps d).getD k 0 = Min.min 32767 (-A.getD k 0)) ∧
       ((Instr.dto d a r f).wf = true →
         Completes (.dto d a r f) s { vec := if f then [d, d + 1] else [d], rng := r == 4 } fun t =>
           Drew s t r 4 ∧ (nA % 256 = 0 → ∀ (i : LaneId) (k : Nat), k < 4 →
             let fmt := if f then f32 else bf16
             let c := A.getD (4 * i.val + k) 0
             let z := if f then elem 32 (t.v (if k < 2 then d else d + 1) i).bits (k % 2) else elem 16 (t.v d i).bits k
             (t.v d i).g0 = false ∧ (t.v d i).g1 = false ∧
               z = if c = 0 then 0 else fmt.ofVal r.toNat (drawAt s i k) (.fin (c < 0) c.natAbs (nA / 256 - 14)))) ∧
       LookOp (.ddot d a b l) s l.toNat { uni := [d] }
         (fun t => (nA + nB) % 256 = 0 →
           let P := (List.zipWith (fun x y => x * y) A B).sum
           t.u d = BitVec.ofNat 64 (if P = 0 then 0 else f32.ofVal 0 0 (.fin (P < 0) P.natAbs ((nA + nB) / 256 - 28))))
         (fun p => p.dst = .uni d ∧ p.fail = none ∧ p.ready = true) (fun _ => True) ∧
       UniOp (.dtest d a true) s d (if s.g.norm a = 0x8000 ∨ ((A.map fun c => c * c).sum - 2 ^ 28).natAbs < 2 ^ 18 then 1 else 0)) ∧
     UniOp (.dtest d a false) s d (BitVec.ofInt 64 nA) ∧
     ((Instr.dscl d a).wf = true → Completes (.dscl d a) s { dir := [d], dsat := true } fun t =>
       let n := (s.g.norm d).toInt + signedVal 16 (elem 16 (s.u a) 0)
       t.g.dc.get (dIx d) = s.g.dc.get (dIx d) ∧
         (s.g.norm d = 0x8000 → t.g.norm d = 0x8000 ∧ t.g.dsat = s.g.dsat) ∧
         (s.g.norm d ≠ 0x8000 → (t.g.norm d).toInt = Max.max (-32767) (Min.min 32767 n) ∧
           t.g.dsat = (s.g.dsat || decide ((t.g.norm d).toInt ≠ n)))) ∧
     ((Instr.dsetn d a).wf = true → Completes (.dsetn d a) s { dir := [d] } fun t =>
       t.g.dc.get (dIx d) = s.g.dc.get (dIx d) ∧
         t.g.norm d = if s.g.norm d = 0x8000 then 0x8000 else BitVec.ofNat 16 (elem 16 (s.u a) 0)) ∧
     (s.whole = false → ∀ i ∈ [Instr.dfrom d a h g f, .dto d a r f, .dadd d a b, .dsub d a b, .dmulv d a b h g, .dneg d a, .dnorm d a,
       .ddot d a b l, .dtest d a true, .dld d a l, .dst d a], i.wf = true → TrapsAt i s 0x02 (BitVec.ofNat 64 s.iword.toNat))) ∧
  (∀ (s : State) (d a : RegField) (l : BitVec 4) (pl : Nat → Place), Calm s → Quiet s → s.whole = true →
     let word (i : Nat) : List Byte :=
       if i = 64 then leBytes 4 (s.g.norm d).toNat
       else leBytes 2 (wrap 16 ((s.g.comps d).getD (2 * i) 0)) ++ leBytes 2 (wrap 16 ((s.g.comps d).getD (2 * i + 1) 0))
     ((Instr.dld d a l).wf = true → (∀ i, i < 65 → Reach s (s.u a + BitVec.ofNat 64 (4 * i)) 4 false (pl i)) →
       ∃ t new, exec (.dld d a l) s = .next t ∧ Issues {} s t new ∧
         new.map accKey = (List.range 65).map (fun i => ((pl i).dev, (pl i).pa, 4, .load)) ∧
         Opened s t l.toNat fun q => q.dst = .dir d ∧ q.fail = none ∧ q.await = .accesses (new.map (·.id))) ∧
     ((Instr.dst d a).wf = true → (∀ i, i < 65 → Reach s (s.u a + BitVec.ofNat 64 (4 * i)) 4 true (pl i)) →
       ∃ t new, exec (.dst d a) s = .next t ∧ Issues {} s t new ∧
         new.map accKey = (List.range 65).map fun i => ((pl i).dev, (pl i).pa, 4, .store (word i))))

/-! ### Sketches -/

/-- Sketch updates (R356, R358 to R363): each active lane's entry changes three cells, one in each partition, COUNT by an addition and
the other fields by XOR; in a tile at once, in memory by one whole update for each cell; skclr writes an empty sketch. -/
def Obligations.SketchUpdates : Prop :=
  ∀ (s : State) (d a b : RegField) (h : BitVec 2) (neg : Bool) (o : CoreId) (x : Nat), Calm s → Quiet s →
    let K := s.g.skm.toNat
    let len := 16 + 72 * 2 ^ K
    let key (l : LaneId) : DWord := (s.v a l).bits
    let dig (l : LaneId) : Word := half (s.v b l).bits false
    let cell (l : LaneId) (p : Nat) : Nat := p * 2 ^ K + (sketchHash s.g.skseed p (key l) (dig l)).toNat / 2 ^ (32 - K)
    let chk (l : LaneId) : DWord := sketchHash s.g.skseed 3 (key l) (dig l) ++ dig l
    let one : Word := if neg then -1 else 1
    let op (t : Bool) : Instr := if neg then .skdel d a b h t else .skins d a b h t
    (Clean s false a true true → Clean s false b true false → TileRoom s (s.u d) len 8 o x → (op true).wf = true →
      ∃ t, exec (op true) s = .next t ∧ OnlySpad {} s t o ∧
        (∀ y, (y < x + 16 ∨ x + len ≤ y) → (t.core o).spad.read y = (s.core o).spad.read y) ∧
        ∀ n, n < 3 * 2 ^ K →
          let old := cellAt (s.core o).spad x n
          let new := cellAt (t.core o).spad x n
          let hits := s.lanes.filter fun l => cell l (n / 2 ^ K) == n
          half (new 0) false = half (old 0) false + BitVec.ofNat 32 hits.length * one ∧ half (new 0) true = half (old 0) true ∧
            new 1 = hits.foldl (fun y l => y ^^^ key l) (old 1) ∧ new 2 = hits.foldl (fun y l => y ^^^ chk l) (old 2)) ∧
    (∀ pl : LaneId → Nat → Nat → Place, Clean s false a true true → Clean s false b true false → (s.u d).toNat % 8 = 0 → (op false).wf = true →
      (∀ l p k, s.active l → p < 3 → k < 3 →
        Reach s (s.u d + BitVec.ofNat 64 (16 + 24 * cell l p + 8 * k)) 8 true (pl l p k)) →
      ∃ t new, exec (op false) s = .next t ∧ Issues {} s t new ∧
        new.map accKey = s.lanes.flatMap fun l => (List.range 3).map fun p =>
          ((pl l p 0).dev, (pl l p 0).pa, 24, cellUpdate (pl l p) [some (one.setWidth 64), some (key l), some (chk l)])) ∧
    (TileRoom s (s.u d) len 8 o x → (Instr.skclr d true).wf = true →
      ∃ t, exec (.skclr d true) s = .next t ∧ OnlySpad {} s t o ∧
        (∀ y, (y < x ∨ x + len ≤ y) → (t.core o).spad.read y = (s.core o).spad.read y) ∧
        (t.core o).spad.readN x 16 = leBytes 8 K ++ leBytes 8 s.g.skseed.toNat ∧
        ∀ y, x + 16 ≤ y → y < x + len → (t.core o).spad.read y = 0) ∧
    ∀ pl : Nat → Place, (Instr.skclr d false).wf = true → (s.u d).toNat % 8 = 0 →
      (∀ i, i < 2 + 9 * 2 ^ K → Reach s (s.u d + BitVec.ofNat 64 (8 * i)) 8 true (pl i)) →
      ∃ t new, exec (.skclr d false) s = .next t ∧ Issues {} s t new ∧
        new.map accKey = (List.range (2 + 9 * 2 ^ K)).map fun i =>
          ((pl i).dev, (pl i).pa, 8, .store (leBytes 8 (if i = 0 then K else if i = 1 then s.g.skseed.toNat else 0)))

/-- Subtraction and statistics of sketches (R356, R361, R362, R364, R365), the sketch read at issue from a tile or from memory as 64-bit
words: sksub takes each source cell from the destination's where the headers are equal, in a tile at once, in memory by one update for
each cell; skstat counts the cells that are not empty and the pure ones. -/
def Obligations.SketchDifferences : Prop :=
  ∀ (s : State) (d a : RegField) (st : Bool) (K : Nat) (seed : DWord) (W : Nat → DWord), Calm s → Quiet s → 4 ≤ K → K ≤ 20 →
    let len := 16 + 72 * 2 ^ K
    let cells := List.range (3 * 2 ^ K)
    let seen (p : Place) : DWord := le64 (s.viewN s.cur.core s.t.part p.dev p.pa.toNat 8)
    let c (n k : Nat) : DWord := W (2 + 3 * n + k)
    let full (n : Nat) : Bool := c n 0 != 0 || c n 1 != 0 || c n 2 != 0
    let pure (n : Nat) : Bool :=
      (half (c n 0) false == 1 || half (c n 0) false == -1) && half (c n 2) true == sketchHash seed 3 (c n 1) (half (c n 2) false)
    (if st then ∃ q y, TileRoom s (s.u a) len 8 q y ∧ ∀ i, i < 2 + 9 * 2 ^ K → W i = le64 ((s.core q).spad.readN (y + 8 * i) 8)
      else (s.u a).toNat % 8 = 0 ∧ ∀ i, i < 2 + 9 * 2 ^ K →
        ∃ p, Reach s (s.u a + BitVec.ofNat 64 (8 * i)) 8 false p ∧ s.bad (memIx p.dev p.pa) = false ∧ W i = seen p) →
    W 0 = BitVec.ofNat 64 K → W 1 = seed →
    ((Instr.skstat d a st).wf = true → ∃ t, exec (.skstat d a st) s = .next t ∧ Issues { uni := [d] } s t [] ∧
      t.curCore.spad = s.curCore.spad ∧ t.u d = BitVec.ofNat 64 (cells.countP full * 2 ^ 40 + cells.countP pure * 2 ^ 16 + K)) ∧
    (∀ (o : CoreId) (x : Nat), (Instr.sksub d a st true).wf = true → TileRoom s (s.u d) len 8 o x →
      (s.core o).spad.readN x 16 = leBytes 8 K ++ leBytes 8 seed.toNat →
      (st = true → ∀ q y, TileRoom s (s.u a) len 8 q y → o ≠ q ∨ x + len ≤ y ∨ y + len ≤ x) →
      ∃ t, exec (.sksub d a st true) s = .next t ∧ OnlySpad {} s t o ∧
        (∀ z, (z < x + 16 ∨ x + len ≤ z) → (t.core o).spad.read z = (s.core o).spad.read z) ∧
        ∀ n, n < 3 * 2 ^ K →
          let old := cellAt (s.core o).spad x n
          let new := cellAt (t.core o).spad x n
          half (new 0) false = half (old 0) false - half (c n 0) false ∧ half (new 0) true = half (old 0) true ∧
            new 1 = old 1 ^^^ c n 1 ∧ new 2 = old 2 ^^^ c n 2) ∧
    ∀ pl : Nat → Nat → Place, (Instr.sksub d a st false).wf = true → (s.u d).toNat % 8 = 0 →
      (∀ i, i < 2 → ∃ p, Reach s (s.u d + BitVec.ofNat 64 (8 * i)) 8 true p ∧ s.bad (memIx p.dev p.pa) = false ∧ seen p = W i) →
      (∀ n k, n < 3 * 2 ^ K → k < 3 → Reach s (s.u d + BitVec.ofNat 64 (16 + 24 * n + 8 * k)) 8 true (pl n k)) →
      ∃ t new, exec (.sksub d a st false) s = .next t ∧ Issues {} s t new ∧
        (new.filter fun y => y.size == 24).map accKey = cells.map fun n => ((pl n 0).dev, (pl n 0).pa, 24, cellUpdate (pl n)
          (if st then [some ((0 - half (c n 0) false).setWidth 64), some (c n 1), some (c n 2)] else [none, none, none]))

/-! ### The matrix engine -/

/-- Issue of matrix operations (R311, R314 to R318, R320, R323, R330, R332, R333): with the lease where it is needed, permitted tiles and
room, each enters the queue with the operands read at issue; mma takes A from 16 registers in all lanes, or from the held value, and
holds it as its hold field says. -/
def Obligations.MatrixOperationsIssue : Prop :=
  ∀ (s : State) (d a b sf sm : RegField) (h : BitVec 2) (g f spa spb : Bool) (c : BitVec 4) (sigma : Word), Calm s → MatReady s →
    let n := s.t.atiles.length
    let holds : Prop := s.curCore.holder = some s.cur.slot
    let fmt := mmaFmt (s.u sf)
    let spans := fmt.spans (s.u b)
    let u (i : Nat) : DWord := s.u (a + BitVec.ofNat 6 i)
    let bits : List DWord := if spa && spb then [s.u sm, s.u (sm + 1), s.u (sm + 2), s.u (sm + 3)]
      else if spa || spb then [s.u sm, s.u (sm + 1), 0, 0] else [0, 0, 0, 0]
    let regs : AImage := (List.range 16).flatMap fun q => (List.finRange 32).map fun l => (s.v (a + BitVec.ofNat 6 q) l).bits
    let marks : List DWord := (List.range 16).map fun q => BitVec.ofNat 64 (((List.finRange 32).map fun l =>
      let c := s.v (a + BitVec.ofNat 6 q) l
      c.g0.toNat * 4 ^ l.val + c.g1.toNat * 2 * 4 ^ l.val).sum)
    let issues (i : Instr) (ranges : List Range) (leased : Bool) (P : MatOp → Prop) (Q : State → Prop) : Prop :=
      ∃ t, exec i s = .next t ∧ MatIssued s t ranges leased P ∧ Q t
    (∀ img, (img = match s.g.heldA with | some x => if h = 1 then x.img else regs | none => regs) →
      (Instr.mma d a b h g sf sm spa spb).wf = true → holds → s.whole = true → fmt.valid = true →
      (∀ x, h = 1 → s.g.heldA = some x → x.reg = a) →
      ((h = 1 ∧ s.g.heldA.isSome = true) ∨ ∀ q, q < 16 → Clean s g (a + BitVec.ofNat 6 q) true true) → d.toNat < n →
      (∀ x ∈ spans, s.tileSpan x.1 x.2 = true) → tileOff (s.u b) % 128 = 0 →
      issues (.mma d a b h g sf sm spa spb) (spans.map fun x => tileRange false x.1 x.2) true
        (Asked s .mma [s.u b, s.u sf, 0, 0] bits img) fun t =>
          t.g.heldA = if fld s.iword 4 2 = 0 then none else if fld s.iword 4 2 = 1 ∧ s.g.heldA.isSome then s.g.heldA
            else some { reg := fld s.iword 12 6, img := img
                        marks := match s.g.heldA with | some x => if h = 1 then x.marks else marks | none => marks }) ∧
    ((Instr.mzero d c).wf = true → d.toNat + c.toNat + 1 ≤ n →
      issues (.mzero d c) [] false (Asked s .mzero [] [] []) fun _ => True) ∧
    ((Instr.mld d a f).wf = true → d.toNat < n → SpanOk s (s.u a) (if f then 8192 else 16384) 128 →
      issues (.mld d a f) [tileRange false (s.u a) (if f then 8192 else 16384)] false (Asked s .mld [s.u a] [] []) fun _ => True) ∧
    ((Instr.mst d a f).wf = true → d.toNat < n → SpanOk s (s.u a) (if f then 8192 else 16384) 128 →
      issues (.mst d a f) [tileRange true (s.u a) (if f then 8192 else 16384)] false (Asked s .mst [s.u a] [] []) fun _ => True) ∧
    ((Instr.attn d a b sigma).wf = true → holds → attnOk (u 0) (u 1) (u 2) (u 3) = true → d.toNat + 7 ≤ n →
      (∀ i, i < 3 → SpanOk s (u i) 16384 256) →
      issues (.attn d a b sigma) [tileRange false (u 0) 16384, tileRange false (u 1) 16384, tileRange false (u 2) 16384] true
        (Asked s .attn [u 0, u 1, u 2] [u 3, s.u b, 0, 0] []) fun _ => True) ∧
    ((Instr.amerge d a).wf = true → holds → d.toNat + 7 ≤ n → a.toNat + 7 ≤ n →
      issues (.amerge d a) [] true (Asked s .amerge [] [] []) fun _ => True) ∧
    ((Instr.anorm d a f).wf = true → holds → d.toNat + 7 ≤ n → SpanOk s (s.u a) (if f then 16384 else 32768) 256 →
      issues (.anorm d a f) [tileRange true (s.u a) (if f then 16384 else 32768)] true (Asked s .anorm [s.u a] [] []) fun _ => True)

/-- The lease (R312, R313) and the stop records (R325 to R327): what mlease, mrel, mfence and the idle rule do, and what msave, mres
and mres.drop write and read. A record outside its tile traps TILE_FAULT, a misaligned one ALIGN_FAULT, and mres refuses a record that
does not agree with itself with ILLEGAL_CONV, and by the model's choice (log 59) one of TYPE 1 whose format block is invalid. A record of
TYPE 0 needs no lease (log 99). -/
def Obligations.MatrixLeaseAndStopRecords : Prop :=
  (∀ (s : State) (a : RegField) (n : BitVec 6) (c : CoreId) (i : SlotId), Calm s →
     let i0 := s.cur.slot
     let mine : Prop := s.curCore.holder = some i0 ∧ ∀ r ∈ s.curCore.leaseQ, r.1 = i0
     let count := (s.u a).toNat % 2 ^ 16
     let freed (t : State) : Prop := t.g.left = 0 ∧ t.curCore.holder ≠ some i0 ∧ (∀ r ∈ t.curCore.leaseQ, r.1 ≠ i0) ∧
       Kept {} s.em s.g t.g ∧ t.mem = s.mem
     ((Instr.mlease n).wf = true → mine → Completes (.mlease n) s {} fun t => t.g.left = n.toNat + 1) ∧
     ((Instr.mleaseReg a).wf = true → mine → count ≠ 0 → Completes (.mleaseReg a) s {} fun t => t.g.left = count) ∧
     ((Instr.mleaseReg a).wf = true → s.curCore.holder = some i0 → count = 0 → ∃ t, exec (.mleaseReg a) s = .next t ∧ freed t) ∧
     ((Instr.mrel).wf = true → s.curCore.holder = some i0 → ∃ t, exec .mrel s = .next t ∧ freed t) ∧
     ((Instr.mrel).wf = true → s.curCore.holder ≠ some i0 → Completes .mrel s {} fun t =>
       t.g.left = s.g.left ∧ t.curCore.holder = s.curCore.holder) ∧
     ((Instr.mlease n).wf = true → s.cur.hnd = false → s.curCore.holder ≠ some i0 → (∀ r ∈ s.curCore.leaseQ, r.1 ≠ i0) →
       ∃ t, exec (.mlease n) s = .next t ∧ t.curCore.leaseQ = s.curCore.leaseQ ++ [(i0, n.toNat + 1)] ∧ t.f.wait = .mlease ∧
         t.f.pc = s.f.pc ∧ t.curCore.holder = s.curCore.holder ∧ t.mem = s.mem) ∧
     (∀ m rest, (s.core c).holder = none → (s.core c).leaseQ = (i, m) :: rest →
       (∀ f, ((s.gangAt c i).frags.get f).wait ≠ .mlease) → (s.gangAt c i).handler.wait ≠ .mlease →
       ∃ t, exec (.leaseGrant c) s = .next t ∧ (t.core c).holder = some i ∧ (t.core c).leaseQ = rest ∧ (t.gangAt c i).left = m ∧
         (∀ f, ((t.gangAt c i).frags.get f).wait = if ((s.gangAt c i).frags.get f).wait = .lease then .none
           else ((s.gangAt c i).frags.get f).wait) ∧
         (∀ j, j ≠ i → t.gangAt c j = s.gangAt c j) ∧ t.mem = s.mem) ∧
     ((s.core c).holder = some i → (∃ r ∈ (s.core c).leaseQ, r.1 ≠ i) →
       ∃ t, exec (.leaseIdleEnd c) s = .next t ∧ t.mem = s.mem ∧
         (4096 ≤ (s.core c).leaseIdle → (t.core c).holder = none ∧ (t.gangAt c i).left = 0) ∧
         ((s.core c).leaseIdle < 4096 → t = s))) ∧
  (∀ (s : State) (a : RegField) (o : CoreId) (x : Nat), Calm s → Quiet s →
     let r := StopRec.parse ((s.core o).spad.readN x 4192)
     let n := s.t.atiles.length
     let again (m : MatOp) : Prop := m.kind = (if r.kind = 1 then .mma else .attn) ∧ m.word = r.word ∧ m.lit = r.lit ∧ m.ops = r.ops ∧
       m.aux = r.aux ∧ m.aimg = r.aimg ∧ m.step = r.step ∧ m.byMres = true
     let spans := (mmaFmt (r.ops.getD 1 0)).spans (r.ops.getD 0 0)
     ((Instr.mfence).wf = true → Completes .mfence s {} fun t => t.g.mfence = s.curCore.nextMat) ∧
     ((Instr.mresDrop).wf = true → Completes .mresDrop s {} fun t => t.g.stopSlot = none) ∧
     (TileRoom s (s.u a) 4192 32 o x → (Instr.msave a).wf = true →
       ∃ t, exec (.msave a) s = .next t ∧ OnlySpad {} s t o ∧ t.g.stopSlot = none ∧
         (∀ y, (y < x ∨ x + 4192 ≤ y) → (t.core o).spad.read y = (s.core o).spad.read y) ∧
         (s.g.stopSlot = none → ∀ y, x ≤ y → y < x + 4192 → (t.core o).spad.read y = 0) ∧
         ∀ q, s.g.stopSlot = some q → (t.core o).spad.readN x 4192 = q.bytes) ∧
     (∀ i ∈ [Instr.msave a, .mres a], i.wf = true →
       (s.tileSpan (s.u a) 4192 = false → TrapsAt i s 0x07 (BitVec.ofNat 64 ((tileHandle (s.u a)).toNat + tileOff (s.u a) * 65536))) ∧
       (s.tileSpan (s.u a) 4192 = true → tileOff (s.u a) % 32 ≠ 0 → TrapsAt i s 0x06 (BitVec.ofNat 64 ((s.u a).toNat % 2 ^ 48)))) ∧
     (TileRoom s (s.u a) 4192 32 o x → (Instr.mres a).wf = true →
       let m := s.resumed r
       let disagrees : Prop :=
         2 < r.kind ∨ (∀ i, decode r.word r.lit ≠ .ok i) ∨
         (r.kind = 1 ∧ (16 * m.groups.length ≤ r.step ∨ r.row.toNat ≠ r.step / 4 % 4 ∨ r.col.toNat ≠ r.step % 4 ∨
           r.depth.toNat ≠ (m.groups.getD (r.step / 16) []).headD 0)) ∨
         (r.kind = 2 ∧ (64 < r.step ∨ 1 < r.depth.toNat ∨ (r.depth = 1 ∧ attnInit (r.aux.getD 0 0) = false) ∨
           (r.depth = 0 ∧ attnInit (r.aux.getD 0 0) = true ∧ r.step ≠ 0)))
       (r.kind ≠ 0 → (r.sound m = false ∨ disagrees) → TrapsAt (.mres a) s 0x02 (BitVec.ofNat 64 s.iword.toNat)) ∧
       (r.sound m = true → r.kind = 1 → n ≤ (fld r.word 18 6).toNat → TrapsAt (.mres a) s 0x07 (BitVec.ofNat 64 (fld r.word 18 6).toNat)) ∧
       (r.sound m = true → r.kind = 2 → n < (fld r.word 18 6).toNat + 7 →
         TrapsAt (.mres a) s 0x07 (BitVec.ofNat 64 (Nat.max (fld r.word 18 6).toNat n)))) ∧
     (TileRoom s (s.u a) 4192 32 o x → (Instr.mres a).wf = true →
       (r.kind = 0 → Completes (.mres a) s {} fun t => (t.core o).spad = (s.core o).spad ∧ t.g.stopSlot = s.g.stopSlot) ∧
       (r.sound (s.resumed r) = true → s.curCore.holder = some s.cur.slot → MatReady s →
         (r.kind = 1 → (fld r.word 18 6).toNat < n → (∀ y ∈ spans, s.tileSpan y.1 y.2 = true) → tileOff (r.ops.getD 0 0) % 128 = 0 →
           ∃ t, exec (.mres a) s = .next t ∧ MatIssued s t (spans.map fun y => tileRange false y.1 y.2) true again) ∧
         (r.kind = 2 → (fld r.word 18 6).toNat + 7 ≤ n → (∀ i, i < 3 → SpanOk s (r.ops.getD i 0) 16384 256) →
           ∃ t, exec (.mres a) s = .next t ∧
             MatIssued s t ((List.range 3).map fun i => tileRange false (r.ops.getD i 0) 16384) true again))))

/-- MATRIX_STEP (R80, R310, R311, R316, R319, R323, R330 to R333): one step of an operation writes one 16×16 block of its tile and no other
element: zeros, the elements loaded from the tile, or each element plus the exact sum of a group's products in any of the formats, scales
and PT2 terms with them, rounded once; a step of mst writes one block to the scratchpad; attn first empties the rows of its triple, then
folds one key into each row that it concerns, amerge merges one row, and anorm writes one row. Operations that must come first hold a step
back. The model's choice: that a PT2 term with shift code 7 is left out of a product (log 88), and that STEP of an attn is the last folded
key plus 1 (log 100). -/
def Obligations.MatrixSteps : Prop :=
  ∀ (s : State) (c : CoreId) (m : MatOp) (o : CoreId) (x : Nat), (s.core c).mat.find? (fun y => y.id == m.id) = some m →
    let R := m.step / 4 % 4
    let C := m.step % 4
    let vd := (fld m.word 18 6).toNat
    let tile (n : Nat) : Nat := (((s.core c).team m.team).atiles.getD n 0).val
    let ix (n i j : Nat) : Nat := tile n * 4096 + 64 * (16 * R + i) + 16 * C + j
    let elemAt (k : Core) (n i j : Nat) : Word := sget 0 k.acc (ix n i j)
    let steps (n : Nat) (Q : State → Prop) : Prop := ∃ t, exec (.matrixStep c m.id) s = .next t ∧ t.mem = s.mem ∧
      (∀ k, (∀ i j, i < 16 → j < 16 → k ≠ ix n i j) → sget 0 (t.core c).acc k = sget 0 (s.core c).acc k) ∧
      (∀ d, d ≠ c → (t.core d).acc = (s.core d).acc) ∧ Q t
    let va := (fld m.word 12 6).toNat
    let atiles := ((s.core c).team m.team).atiles
    let half : Bool := (fld m.word 0 4).toNat % 2 == 1
    let rowsOnly (rows : List Nat) (Q : State → Prop) : Prop := ∃ t, exec (.matrixStep c m.id) s = .next t ∧ t.mem = s.mem ∧
      (∀ k, (∀ i ∈ rows, ∀ y ∈ wholeRow vd i, k ≠ tile y.1 * 4096 + y.2) → sget 0 (t.core c).acc k = sget 0 (s.core c).acc k) ∧
      (∀ d, d ≠ c → (t.core d).acc = (s.core d).acc) ∧ (∀ d, (t.core d).spad = (s.core d).spad) ∧ Q t
    let stores (Q : State → Prop) : Prop := ∃ t, exec (.matrixStep c m.id) s = .next t ∧ t.mem = s.mem ∧
      (∀ d, (t.core d).acc = (s.core d).acc) ∧ (∀ d, d ≠ o → (t.core d).spad = (s.core d).spad) ∧ Q t
    (((s.core c).mayStep m = false) → exec (.matrixStep c m.id) s = .next s) ∧
    ((s.core c).mayStep m = true →
      (m.kind = .mzero → m.step < 16 * ((fld m.word 0 4).toNat + 1) →
        steps (vd + m.step / 16) fun t => ∀ i j, i < 16 → j < 16 → elemAt (t.core c) (vd + m.step / 16) i j = 0) ∧
      (m.kind = .mld → m.step < 16 → s.engTile c (m.ops.getD 0 0) = (o, x) →
        (tileOff (m.ops.getD 0 0)) + 16384 ≤ 2 ^ 32 → (s.core o).spadBad = [] →
        steps vd fun t => ∀ i j, i < 16 → j < 16 →
          elemAt (t.core c) vd i j = BitVec.ofNat 32 (if half
            then f32.ofVal 0 0 (bf16.decode (leNat ((s.core o).spad.readN (x + 128 * (16 * R + i) + 32 * C + 2 * j) 2)))
            else leNat ((s.core o).spad.readN (x + 256 * (16 * R + i) + 64 * C + 4 * j) 4))) ∧
      (m.kind = .mst → m.step < 16 → s.engTile c (m.ops.getD 0 0) = (o, x) → tileOff (m.ops.getD 0 0) + 16384 ≤ 2 ^ 32 →
        (s.core c).accBad = [] →
        let size := if half then 2 else 4
        let at_ (i j : Nat) : Nat := x + size * (64 * (16 * R + i) + 16 * C + j)
        stores fun t =>
          (∀ y, (∀ i j, i < 16 → j < 16 → y < at_ i j ∨ at_ i j + size ≤ y) → (t.core o).spad.read y = (s.core o).spad.read y) ∧
          ∀ i j, i < 16 → j < 16 →
            let z := (elemAt (s.core c) vd i j).toNat
            (t.core o).spad.readN (at_ i j) size = leBytes size (if half then bf16.ofVal 0 0 (f32.decode z) else z)) ∧
      (∀ (oa ob : CoreId) (xa xb : Nat), m.kind = .mma → m.step < 16 * m.groups.length → s.engTile c (m.ops.getD 0 0) = (o, x) →
        tileOff (m.ops.getD 0 0) + 4096 ≤ 2 ^ 32 → (∀ k, (s.core k).spadBad = []) → (s.core c).accBad = [] →
        let f := mmaFmt (m.ops.getD 1 0)
        f.valid = true → s.engTile c f.ascale = (oa, xa) → s.engTile c f.bscale = (ob, xb) →
        let width (k : Nat) : Nat := if k = 0 then 16 else if k = 4 then 4 else 8
        let blocks := 16 / width f.af
        steps vd fun t => ∀ i j, i < 16 → j < 16 →
          let row := 16 * R + i
          let col := 16 * C + j
          let group := m.groups.getD (m.step / 16) []
          let A (r : Nat) : List FVal :=
            (termsOf f.af (elem (width f.af) (m.aimg.getD (32 * (row / 4) + 8 * (row % 4) + r * width f.af / 64) 0)
              (r % (64 / width f.af)))).map fun v =>
                if f.ablk then FVal.mul v (scaleOf (((s.core oa).spad.read (xa + row * blocks + r / 32)).toNat)) else v
          let B (r : Nat) : List FVal :=
            (termsOf f.bf (if width f.bf = 16 then leNat ((s.core o).spad.readN (x + 128 * r + 2 * col) 2)
              else if width f.bf = 8 then ((s.core o).spad.read (x + 64 * r + col)).toNat
              else ((s.core o).spad.read (x + 32 * r + col / 2)).toNat / 16 ^ (col % 2) % 16)).map fun v =>
                if f.bblk then FVal.mul v (scaleOf (((s.core ob).spad.read (xb + 64 * (r / 32) + col)).toNat)) else v
          let old := (elemAt (s.core c) vd i j).toNat
          let products := group.flatMap fun r => (A r).flatMap fun a => (B r).map fun b => FVal.mul a b
          elemAt (t.core c) vd i j = BitVec.ofNat 32 (match products.foldl (FVal.add 0) (.fin false 0 0) with
            | .fin _ 0 _ => if f32.isNan old then f32.nan else old
            | sum => f32.ofVal 0 0 (FVal.add 0 (f32.decode old) sum))) ∧
      (m.kind = .attn → attnInit (m.aux.getD 0 0) = true → m.cleared = false → vd + 6 < atiles.length → atiles.Nodup →
        rowsOnly (List.range 64) fun t => ∀ i, i < 64 →
          (t.core c).row m.team vd i =
            { r := { e := 0x8000, nan := false, ovf := false, flr := false, vw := 0, xl := 0 }, xo := List.replicate 128 0 }) ∧
      (∀ (j : Nat) (oq ok ov : CoreId) (xq xk xv : Nat), m.kind = .attn → (attnInit (m.aux.getD 0 0) = false ∨ m.cleared = true) →
        m.step ≤ j → j < 64 → (m.aux.getD 1 0).getLsbD j = true →
        (∀ k, m.step ≤ k → k < j → (m.aux.getD 1 0).getLsbD k = false) → vd + 6 < atiles.length → atiles.Nodup →
        s.engTile c (m.ops.getD 0 0) = (oq, xq) → s.engTile c (m.ops.getD 1 0) = (ok, xk) → s.engTile c (m.ops.getD 2 0) = (ov, xv) →
        (∀ k, k < 3 → tileOff (m.ops.getD k 0) + 16384 ≤ 2 ^ 32) → (∀ k, (s.core k).spadBad = []) → (s.core c).accBad = [] →
        let bf (k : CoreId) (b i d : Nat) : FVal := bf16.decode (leNat ((s.core k).spad.readN (b + 256 * i + 2 * d) 2))
        let used (i : Nat) : Prop := attnCausal (m.aux.getD 0 0) = false ∨ (j : Int) ≤ i + attnDiag (m.aux.getD 0 0)
        let score (i : Nat) : Nat := f32.ofVal 0 0 (FVal.mul (f32.decode m.lit.toNat)
          (((List.range 128).map fun d => FVal.mul (bf oq xq i d) (bf ok xk j d)).foldl (FVal.add 0) (.fin false 0 0)))
        rowsOnly ((List.range 64).filter fun i => used i) fun t =>
          (∀ i, i < 64 → used i →
            Folded (attnVw (m.aux.getD 0 0)) (score i) (bf ov xv j) ((s.core c).row m.team vd i) ((t.core c).row m.team vd i)) ∧
          ∀ y ∈ (t.core c).mat, y.id = m.id → y.step = j + 1) ∧
      (m.kind = .amerge → m.step < 64 → vd + 6 < atiles.length → va + 6 < atiles.length → atiles.Nodup → (vd + 7 ≤ va ∨ va + 7 ≤ vd) →
        (s.core c).accBad = [] →
        rowsOnly [m.step] fun t =>
          Merged ((s.core c).row m.team vd m.step) ((s.core c).row m.team va m.step) ((t.core c).row m.team vd m.step)) ∧
      (m.kind = .anorm → m.step < 64 → s.engTile c (m.ops.getD 0 0) = (o, x) → tileOff (m.ops.getD 0 0) + 32768 ≤ 2 ^ 32 →
        (s.core c).accBad = [] →
        let size := if half then 2 else 4
        let row := x + 128 * size * m.step
        stores fun t => (∀ y, (y < row ∨ row + 128 * size ≤ y) → (t.core o).spad.read y = (s.core o).spad.read y) ∧
          ∀ d, d < 128 → ∃ z, Normed (if half then bf16 else f32) ((s.core c).row m.team vd m.step) d z ∧
            (t.core o).spad.readN (row + size * d) size = leBytes size z))

/-! ### Ordering and barriers -/

/-- Fences write no register (R246) and leave their order in the issuing fragment (R247); that two fences with REL leave one record, at the
greater scope, is the model's choice (log 54). Barriers count arrivals, and a phase ends when every expected fragment has arrived (R268 to
R273). -/
def Obligations.FencesAndBarriers : Prop :=
  (∀ (s : State) (v r q : Bool) (sc : BitVec 3), Calm s → s.cur.hnd = false → s.f.valid = true → s.f.join = none → s.openCombining = false →
     (Instr.fence v r q sc).wf = true → Completes (.fence v r q sc) s {} fun t =>
       t.f.tileSeq = s.curCore.seq ∧ t.f.vhSeq = (if v then s.curCore.seq else Nat.max s.f.vhSeq s.f.viaTile) ∧
         t.f.acqSeq = (if q then s.curCore.seq else s.f.acqSeq) ∧ (r = false → t.f.relFence = s.f.relFence) ∧
         (r = true → ∃ scope, t.f.relFence = some (scope, s.curCore.seq) ∧
           match s.f.relFence with
           | none => scope = sc
           | some x => scope.toNat = Max.max x.1.toNat sc.toNat)) ∧
  (∀ (s : State) (d a : RegField) (r : Bool) (cnt : BitVec 5) (n : BitVec 4) (count : Nat), Calm s →
     let c := s.cur.core
     let ti := s.g.team
     let b := s.barOf c ti n
     let mine := b.arrived.getLsbD s.g.gangid.toNat
     let held : Prop := ∃ f m k, (s.g.frags.get f).valid = true ∧ (s.g.frags.get f).wait = .arrival n m k
     (∀ x : Bool, (x = true ↔ held) → (Instr.barq d n).wf = true → ∃ t, exec (.barq d n) s = .next t ∧ Issues { uni := [d] } s t [] ∧
       t.u d = BitVec.ofNat 64 (b.arr + 256 * b.exp + 2 ^ 14 * x.toNat + 2 ^ 15 * mine.toNat + 65536 * b.phase.toNat)) ∧
     (Quiet s → s.cur.hnd = false → s.g.intrap = false → s.f.valid = true → s.f.wait = .none → s.g.nfrag ≤ 1 → s.g.live = true →
       s.t.halted = false →
       (∀ i j, (s.gangAt c i).live = true → (s.gangAt c j).live = true → (s.gangAt c i).team = ti → (s.gangAt c j).team = ti →
         (s.gangAt c i).gangid = (s.gangAt c j).gangid → i = j) →
       (∀ i f m k x, (s.gangAt c i).team = ti → ((s.gangAt c i).frags.get f).wait ≠ .arrival m k x) →
       (r = false → count = if cnt = 0 then s.t.ngang else cnt.toNat) →
       (r = true → ∃ l, s.active l ∧ (∀ k, s.active k → l ≤ k) ∧ (s.v a l).g0 = false ∧ count = (half (s.v a l).bits false).toNat) →
       1 ≤ count → count ≤ s.t.ngang → mine = false → (b.exp = 0 ∨ b.exp = count) → (∀ m, m ≠ n → (s.barOf c ti m).exp = 0) →
       ∀ waits : Bool, let i : Instr := if waits then .bar a r cnt n else .bara a r cnt n
         i.wf = true →
         (b.arr + 1 = count → ∃ t, exec i s = .next t ∧ t.sel = false ∧ t.mem = s.mem ∧ Kept {} s.em s.g t.g ∧
           (let x := t.barOf c ti n; x.phase = b.phase + 1 ∧ x.exp = 0 ∧ x.arr = 0 ∧ x.arrived = 0 ∧ x.coming = []) ∧ (∀ m, m ≠ n → t.barOf c ti m = s.barOf c ti m) ∧
           (∀ l, s.active l → StandsAt t.g l (nextAt s.g (s.pc + 4))) ∧
           ∀ j f, j ≠ s.cur.slot → (s.gangAt c j).team = ti → Waiting s c j f (.barrier n) → (s.gangAt c j).nfrag ≤ 1 → WentOn s t c j f 4) ∧
         (b.arr + 1 < count → count ≤ b.arr + s.notArrived c ti n → ∃ t, exec i s = .next t ∧ t.sel = false ∧ t.mem = s.mem ∧
           Kept {} s.em s.g t.g ∧
           (let x := t.barOf c ti n; x.phase = b.phase ∧ x.exp = count ∧ x.arr = b.arr + 1 ∧
             x.arrived = b.arrived ||| BitVec.twoPow 16 s.g.gangid.toNat) ∧
           (waits = true → t.f.wait = .barrier n ∧ t.f.pc = s.f.pc) ∧
           (waits = false → ∀ l, s.active l → StandsAt t.g l (nextAt s.g (s.pc + 4))))))

/-! ### Engines -/

/-- Issue of engine instructions (R277, R280, R285 to R290, R293, R297, R298, R367): with their checks passed and room, cpy, cpyt, coll
and recon enter the journal and the open batch of their class, and have accessed nothing; bseal closes the batch; bwait goes on where
few enough sealed batches are unfinished and none of the finished ones has failed. -/
def Obligations.EngineInstructionsIssue : Prop :=
  ∀ (s : State) (d a b : RegField) (t st y : Bool) (cls : BitVec 2) (k : BitVec 5), Calm s →
    let D := s.u d
    let A := s.u a
    let B := s.u b
    let B1 := s.u (b + 1)
    let w := partyOn s s.cur.core s.cur.slot
    let fits (x : DWord) (n : Nat) : Prop := x.toNat % 2 ^ 57 + n ≤ 2 ^ 57
    let issues (i : Instr) (cls : Fin 4) (kind : EngKind) (rs : List Range) (P : State → Prop) : Prop :=
      ∃ u, exec i s = .next u ∧ EngIssued s u cls kind rs ∧ P u
    let bat := s.g.batches.get cls.toFin
    (Unlocked s → s.curCore.journalRoom = true →
      ((Instr.cpy d a b t st).wf = true → 1 ≤ B.toNat → B.toNat < 2 ^ 40 →
        (if t then SpanOk s D B.toNat 4 else fits D B.toNat) → (if st then SpanOk s A B.toNat 4 else fits A B.toNat) →
        issues (.cpy d a b t st) 0 (.copy D A t st B.toNat) [engRange true t 0 D B.toNat, engRange false st 0 A B.toNat] fun _ => True) ∧
      (∀ roww win rows, (Instr.cpy d a b false false).wf = true →
        B.toNat = 2 ^ 62 + (roww - 1) * 2 ^ 48 + win * 2 ^ 24 + rows → 1 ≤ roww → roww ≤ 2 ^ 14 → 1 ≤ win → win < 2 ^ 24 → 1 ≤ rows →
        rows < 2 ^ 24 → D.toNat % 4 = 0 → A.toNat % 4 = 0 → B1.toNat % 4 = 0 → fits A (4 * roww * win) → fits B1 (4 * rows) →
        fits D (4 * roww * rows) →
        issues (.cpy d a b false false) 0 (.gather D A B1 roww win rows) [engRange true false 1 D (4 * roww * rows),
          engRange false false 1 A (4 * roww * win), engRange false false 1 B1 (4 * rows)] fun _ => True) ∧
      (let m := cpytDesc B
       (Instr.cpyt d a b).wf = true → cpytCode A m = 0 → SpanOk s D (m.rows * m.rowb) 4 →
        issues (.cpyt d a b) 0 (.cpyt D A B) [engRange true true 0 D (m.rows * m.rowb), engRange false false 0 A m.span] fun _ => True) ∧
      (∀ bs p, (Instr.coll a).wf = true → Quiet s → A.toNat % 64 = 0 → s.translate w.core w.asid A 64 false = .ok p →
        s.engRead w A 64 = .ok bs →
        let q := collBlock A bs
        let r := q.req
        s.collCode s.t.part (some (clusOf s.cur.core)) q = 0 → r.misaligned = none →
        issues (.coll a) 1 (.coll r (s.nextColl s.t.part r)) [engRange false false 2 A 64, engRange false false 2 r.src r.srcLen,
          engRange true false 2 r.dst r.dstLen, engRange true false 2 r.stat 8] fun u =>
            ∃ x ∈ u.colls, x.part = s.t.part ∧ x.group = r.group ∧ x.n = s.nextColl s.t.part r ∧ ∃ m ∈ x.mems, m.rank = r.rank ∧ m.req = r) ∧
      (∀ bs h p, (Instr.recon a).wf = true → Quiet s → A.toNat % 64 = 0 → s.translate w.core w.asid A 64 false = .ok p →
        s.engRead w A 64 = .ok bs → s.engRead w (BitVec.ofNat 64 (leNat (bs.take 8))) 16 = .ok h → reconRefused bs (wordsOf h) = false →
        let r := (reconReq A bs).withHeader (wordsOf h)
        let n := 16 + 72 * 2 ^ r.k
        r.misaligned = none → s.curCore.eng.countP (fun o => o.cls == 3) < 16 →
        issues (.recon a) 3 (.recon r) [engRange false false 4 A 64, engRange false false 4 r.loc n, engRange true false 4 r.work n,
          engRange true false 4 r.diff (16 + 16 * r.cap)] fun _ => True)) ∧
    ((Instr.bseal cls).wf = true → bat.sealedB.length < 16 → Completes (.bseal cls) s { owned := true } fun u =>
      let new := u.g.batches.get cls.toFin
      new.next = bat.next + 1 ∧ new.recs = bat.recs ∧
        ((∀ n ∈ bat.sealedB ++ [bat.next], s.curCore.unfinished s.cur.slot s.g.team cls.toFin n = true) → s.g.live = true →
          new.sealedB = bat.sealedB ++ [bat.next]) ∧
        (s.curCore.eng = [] → s.curCore.mat = [] → s.g.live = true → new.sealedB = [])) ∧
    ((Instr.bwait a y k cls).wf = true → Placed s → (y = true → A.toNat % 4 = 0) → s.openCombining = false → bat.sealedB.length ≤ k.toNat →
      (∀ x ∈ bat.recs, x.batch ∈ bat.sealedB ∨ x.batch = bat.next) →
      ∃ u, exec (.bwait a y k cls) s = .next u ∧ Enters {} s u ∧ (bat.past = [] → Frame {} s u) ∧ ∀ l, s.active l → Goes s u l
        (if y then A else if s.cur.hnd then s.pc + 4 else nextAt s.g (s.pc + 4))) ∧
    (∀ x, (Instr.bwait a y k cls).wf = true → TrapReady s → (y = true → A.toNat % 4 = 0) → s.openCombining = false →
      bat.sealedB.length ≤ k.toNat → bat.recs = [x] → x.batch ∉ bat.sealedB → x.batch ≠ bat.next →
      ∃ u, exec (.bwait a y k cls) s = .next u ∧ Trapped s u x.fail.cause.code s.pc x.fail.info ∧
        (u.g.batches.get cls.toFin).recs = [])

/-- Launching and queueing from a core (R30, R94, R96, R98, R301, R309, R380, R384, R385): launch puts a child grid with the block's values
at the end of the placement list and gives its gridid, which no live grid has (which one: log 21); qpush claims the index WIDX, which
rises by one, and waits to write its slot. -/
def Obligations.LaunchAndQueuePush : Prop :=
  ∀ (s : State) (d a b : RegField) (bs hs : List Byte), Calm s → s.curCore.accs = [] → s.curCore.marks = [] →
    let A := s.u a
    let w := partyOn s s.cur.core s.cur.slot
    let ask := launchAsk bs
    let h := codeHead ask.code hs
    ((Instr.launch d a).wf = true → s.g.gangid = 0 → s.em.getLsbD 0 = true → s.t.depth.toNat < 10 → A.toNat % 8 = 0 →
      s.engRead w A 32 = .ok bs → ask.code.toNat % 256 = 0 → s.engRead w ask.code 256 = .ok hs → ask.teams ≠ 0 → ask.flags < 32 →
      1 ≤ ask.lanes → ask.lanes ≤ 512 → ask.atiles ≤ 16 → ask.spad ≤ 128 → h.hash = 0x4F1C92A7 →
      (ask.gathered = true → s.canGather s.t.part ask = true) → s.listRoom s.t.part = true → s.grids.length < 2 ^ 32 →
      ∃ t g, exec (.launch d a) s = .next t ∧ t.sel = false ∧ t.mem = s.mem ∧ Kept { uni := [d] } s.em s.g t.g ∧
        t.grids = s.grids ++ [g] ∧ t.u d = g.gridid.setWidth 64 ∧ (∀ x ∈ s.grids, x.gridid ≠ g.gridid) ∧
        (t.parts.get s.t.part).placement = (s.parts.get s.t.part).placement ++ [g.gridid] ∧
        g.part = s.t.part ∧ g.asid = s.t.asid ∧ g.code = ask.code ∧ g.args = ask.args ∧ g.entry = h.entry ∧ g.trapbase = h.trapbase ∧
        g.teams = ask.teams ∧ g.lanes = ask.lanes ∧ g.atiles = ask.atiles ∧ g.spad = ask.spad ∧ g.gathered = ask.gathered ∧
        g.rngseed = ask.rngseed ∧ g.depth = s.t.depth.toNat + 1 ∧ g.parent = some (s.t.gridid, s.t.teamid) ∧ g.nextTeam = 0 ∧
        g.retired = 0) ∧
    ∀ (p : Place) (ib rb : List Byte), (Instr.qpush d a b).wf = true → s.cur.hnd = false → s.f.valid = true → A.toNat % 64 = 0 →
      (s.u b).toNat % 256 ≠ 0 → (∃ q, s.translate w.core w.asid A 64 true = .ok q) → Lands s w A 8 p →
      (∀ e, (s.curCore.locks.get e).v = false) → s.engRead w A 8 = .ok ib → s.engRead w (A + 0x20) 16 = .ok rb →
      ∃ t, exec (.qpush d a b) s = .next t ∧ t.sel = false ∧ Kept { uni := [d] } s.em s.g t.g ∧ t.u d = le64 ib ∧
        bytesAt t s.t.part p 8 = leBytes 8 ((leNat ib + 1) % 2 ^ 64) ∧ t.f.pc = s.f.pc ∧
        t.f.wait = .qpush (le64 ib) A (le64 (rb.drop 8)) (leNat (rb.take 8)) ((List.range 8).map fun i => s.u (b + BitVec.ofNat 6 i))

/-- Instructions that wait (R143, R184, R280, R298, R309): once there is room the operation enters the journal, once its batches are done
bwait goes on, once no range lock names the tile the entry is freed, or the fragment traps TILE_FAULT where the handle names a tile of the
team no longer, once the ring has room qpush writes its slot with the header last,
and a yield ends where no other fragment can issue; each fragment then stands behind its instruction. The slot of a ring that starts at
a unit of memory holds the eight words of the packet: its header in the first eight bytes, S[b+1] to S[b+7] in the other 56. -/
def Obligations.WaitingInstructionsGoOn : Prop :=
  ∀ (s : State) (c : CoreId) (i : SlotId) (f : FragId),
    let g := s.gangAt c i
    let w := partyOn s c i
    let keeps (t : State) : Prop := Kept {} (g.frags.get f).mask g (t.gangAt c i) ∧ t.sel = s.sel ∧ t.cur = s.cur
    (∀ o, Waiting s c i f (.engine o) → (∀ r n, o.kind ≠ .coll r n) → Unlocked s → (s.core c).journalRoom = true →
      (o.cls = 3 → (s.core c).eng.countP (fun x => x.cls == 3) < 16) →
      ∃ t x, exec (.engineIssueAdmit c i f) s = .next t ∧ keeps t ∧ t.mem = s.mem ∧ (t.core c).eng = (s.core c).eng ++ [x] ∧
        x.kind = o.kind ∧ x.cls = o.cls ∧ x.ranges = o.ranges ∧ x.batch = (g.batches.get o.cls).next ∧ WentOn s t c i f 4) ∧
    (∀ cls n, Waiting s c i f (.bwait cls n none) → (g.batches.get cls).recs = [] →
      ((g.batches.get cls).sealedB.length ≤ n → ∃ t, exec (.bwaitResume c i f) s = .next t ∧ keeps t ∧ t.mem = s.mem ∧ WentOn s t c i f 4) ∧
      (n < (g.batches.get cls).sealedB.length → exec (.bwaitResume c i f) s = .next s)) ∧
    (∀ h, Waiting s c i f (.tileFree h) →
      ((s.core c).tileLocked h = true → exec (.tileEntryFree c i f) s = .next s) ∧
      ((s.core c).tileLocked h = false →
        (∀ t0 : TileEntry, s.tileOf (clusOf c) h = some (c, t0) → t0.team = g.team →
          ∃ t, exec (.tileEntryFree c i f) s = .next t ∧ keeps t ∧ t.mem = s.mem ∧ WentOn s t c i f 4 ∧
            (t.core c).tiles.get (handleEntry h) = { t0 with v := false, gen := t0.gen + 1 }) ∧
        ((∀ t0 : TileEntry, s.tileOf (clusOf c) h = some (c, t0) → t0.team ≠ g.team) → (s.teamAt c i).trapbase ≠ 0 →
          ∃ t, exec (.tileEntryFree c i f) s = .next t ∧ t.mem = s.mem ∧ (t.core c).tiles = (s.core c).tiles ∧
            (t.gangAt c i).intrap = true ∧ (t.gangAt c i).trapcause = 0x07 ∧ (t.gangAt c i).trapinfo = h.setWidth 64 ∧
            (t.gangAt c i).trappc = (g.frags.get f).pc))) ∧
    (∀ n cb rb npkt pkt db, Waiting s c i f (.qpush n cb rb npkt pkt) → (s.core c).accs = [] → s.engRead w (cb + 8) 8 = .ok db →
      let va := rb + BitVec.ofNat 64 (64 * (n.toNat % npkt))
      (leNat db + npkt ≤ n.toNat → exec (.qpushSlotWrite c i f) s = .next s) ∧
      let body := (pkt.drop 1).flatMap fun x => leBytes 8 x.toNat
      (∀ p q r : Place, n.toNat < leNat db + npkt → s.engMayWrite w va 64 = .ok () → pkt.length = 8 → va.toNat % 32 = 0 →
        Lands s w (va + 8) 24 q → Lands (s.engWrite w (va + 8) (body.take 24)) w (va + 32) 32 r → Lands (s.engWrite w (va + 8) body) w va 8 p →
        (memIx p.dev p.pa + 8 ≤ memIx q.dev q.pa ∨ memIx q.dev q.pa + 24 ≤ memIx p.dev p.pa) →
        (memIx p.dev p.pa + 8 ≤ memIx r.dev r.pa ∨ memIx r.dev r.pa + 32 ≤ memIx p.dev p.pa) →
        (memIx q.dev q.pa + 24 ≤ memIx r.dev r.pa ∨ memIx r.dev r.pa + 32 ≤ memIx q.dev q.pa) →
        ∃ t, exec (.qpushSlotWrite c i f) s = .next t ∧ keeps t ∧ WentOn s t c i f 4 ∧
          bytesAt t w.part p 8 = leBytes 8 (pkt.headD 0).toNat ∧
          bytesAt t w.part q 24 = ((pkt.drop 1).take 3).flatMap (fun x => leBytes 8 x.toNat) ∧
          bytesAt t w.part r 32 = (pkt.drop 4).flatMap fun x => leBytes 8 x.toNat)) ∧
    (g.live = true → (g.frags.get f).valid = true → (g.frags.get f).yield ≠ 0 → s.noIssue c = false →
      let me : Cursor := { core := c, slot := i, hnd := false, frag := f }
      ((∀ y : Cursor, y.core = c → y.hnd = false → y ≠ me → s.eligible y = false) →
        ∃ t, exec (.yieldExpiry c i f) s = .next t ∧ keeps t ∧ t.mem = s.mem ∧ ((t.gangAt c i).frags.get f).yield = 0) ∧
      ∀ y : Cursor, y.core = c → y.hnd = false → y ≠ me → s.eligible y = true → exec (.yieldExpiry c i f) s = .next s)

/-- ISSUE_SELECT (R32, R143, R155, R386): a pipe of a core gets an instruction exactly where some fragment or running handler is eligible
for it; handlers go first, and a fragment whose age has reached 2048 is chosen before any younger one. Where no ordinary fragment is eligible
at an opportunity of the lane pipe, the core's yields end, and the fragments that had yielded are eligible in it. The model's choice: that
only a choice of the lane pipe is an opportunity (log 5), and that the cycle counter goes on with it alone (log 9). -/
def Obligations.IssueSelection : Prop :=
  ∀ (s : State) (c : CoreId) (v : Bool), s.sel = false → s.inReset = false → s.noIssue c = false → (s.core c).gated = false →
    let s0 := if v then s.tick c else s
    let idle : Prop := v = true ∧ ∀ x : Cursor, x.core = c → x.hnd = false → s0.eligible x = false
    let on (s : State) (x : Cursor) : Prop := x.core = c ∧ s.eligible x = true ∧ ({ s with cur := x } : State).pipe.1 = v
    let handler (x : Cursor) : Prop := x.hnd = true ∧ on s0 x
    ∀ s1, (idle → s1 = s0.endYields c) → (¬idle → s1 = s0) →
      let ready (x : Cursor) : Prop := x.hnd = false ∧ on s1 x
      ∃ t, exec (.issueSelect c v) s = .next t ∧ t.mem = s.mem ∧ (∀ d, d ≠ c → t.core d = s.core d) ∧
        (t.sel = true ↔ ∃ x, handler x ∨ ready x) ∧
        ((∃ x, handler x) → handler t.cur) ∧
        (t.sel = true → t.cur.hnd = false → ready t.cur ∧
          ((∃ x, ready x ∧ 2048 ≤ s1.age v x) → ∀ y, ready y → s1.age v y ≤ s1.age v t.cur))

/-- Exchange between gangs (R174 to R176): xchg sends the registers of all lanes to the partner and waits in its window; the partner's
datum, 0 without marks in lanes that it has not active, then completes the result; a datum that a die link has damaged, or a partner that
is gone, fails it. -/
def Obligations.Exchange : Prop :=
  ∀ (s : State) (d a b : RegField) (l : BitVec 4) (h : BitVec 2),
    let team : Word := half (s.u b) true
    let gang : BitVec 4 := (s.u b).extractLsb' 16 4
    let tag : Byte := (s.u b).extractLsb' 0 8
    (∀ gr, Calm s → (Instr.xchg d a b l h).wf = true → s.g.nfrag ≤ 1 → s.t.gathered = true → s.gridOf s.t = some gr →
      (s.u b).toNat % 2 ^ 32 = gang.toNat * 2 ^ 16 + tag.toNat → team.toNat < gr.teams → gang.toNat < s.t.ngang →
      ¬(team = s.t.teamid ∧ gang = s.g.gangid) → s.g.pairs.length < 64 →
      let n := (pairCount s.g.pairs team gang tag).getD 0
      let msg : XMsg :=
        { part := s.t.part, grid := s.t.gridid, fromTeam := s.t.teamid, fromGang := s.g.gangid, toTeam := team, toGang := gang, tag := tag, n := n
          em := s.em, data := (List.finRange 32).map fun k => s.v a k }
      ∃ t, exec (.xchg d a b l h) s = .next t ∧ t.sel = false ∧ t.mem = s.mem ∧ Kept {} s.em s.g t.g ∧ t.xmsgs = s.xmsgs ++ [msg] ∧
        Opened s t l.toNat fun p => p.dst = .vec d false ∧ p.em = s.em ∧ p.fail = none ∧ p.await = .partner team gang tag n) ∧
    ∀ (c : CoreId) (i : SlotId) (p : Pending) (team : Word) (gang : BitVec 4) (tag : Byte) (n : Word) (bad : Bool), (s.gangAt c i).pend = [p] →
      p.closed = false → p.dst = .vec d false → p.await = .partner team gang tag n → s.xchgErrs = [] →
      (∀ m rest, s.xmsgs = m :: rest → m.part = (s.teamAt c i).part → m.grid = (s.teamAt c i).gridid → m.toTeam = (s.teamAt c i).teamid → m.toGang = (s.gangAt c i).gangid →
        m.fromTeam = team → m.fromGang = gang → m.tag = tag → m.n = n →
        ∃ t q, exec (.xchgComplete c i ⟨p.id, bad⟩) s = .next t ∧ t.mem = s.mem ∧ (t.gangAt c i).pend = [q] ∧ q.ready = true ∧
          m ∉ t.xmsgs ∧ (bad = true → q.fail = some { cause := .uncorrectable, info := 0 }) ∧
          (bad = false → q.fail = p.fail ∧ ∀ k : LaneId, p.em.getLsbD k.val = true →
            WritesLane q d k (if m.em.getLsbD k.val then m.data.getD k.val VCell.zero else VCell.zero))) ∧
      (s.xmsgs = [] → s.partnerLives (s.teamAt c i) team gang = true → exec (.xchgComplete c i ⟨p.id, bad⟩) s = .next s) ∧
      (s.xmsgs = [] → s.partnerLives (s.teamAt c i) team gang = false →
        ∃ t q, exec (.xchgComplete c i ⟨p.id, bad⟩) s = .next t ∧ t.mem = s.mem ∧ (t.gangAt c i).pend = [q] ∧ q.ready = true ∧
          q.fail = some { cause := .engineFault, info := engineInfo 0x0104 2 })

/-- The engines at work (R87 to R90, R288, R291, R294, R300, R368, R369): a copy brings the bytes it reads to their place, between tiles and
memory or within memory, and no others change in a tile; a gather brings each row that its index names, or zeros and failure 0x0012; a cpyt
brings each row, expanded where it is 2:4 compressed; a collective sums each element exactly over all its ranks, or brings the root's, and
writes DST, then STAT, at every member; two equal sketches reconcile in one pass with nothing found; the operation and its range locks are
then gone. One whose team was saved meanwhile completes in the saved batch state. -/
def Obligations.EnginesRun : Prop :=
  ∀ (s : State) (c : CoreId) (o : EngOp), (s.core c).op? o.id = some o → (s.core c).engReady o = true → o.refused = false →
    let w := o.party c
    let ended (t : State) : Prop := (t.core c).op? o.id = none ∧ ∀ r ∈ o.ranges, r.len ≠ 0 → ∀ e,
      let y := (t.core (r.table c)).locks.get e
      ¬(y.v = true ∧ y.opCore = c ∧ y.op = 2 * o.id)
    let recs (t : State) : List FailRec := ((t.gangAt c o.slot).batches.get o.cls).recs
    let failed (t : State) (code : Nat) : Prop := s.issuerLives c o.slot o.team = true →
      recs t = recs s ++ [{ batch := o.batch, op := o.ord, fail := { cause := .engineFault, info := engineInfo code 0 } }]
    (∀ (h : Home) (sv : SavedTeam) (g : SavedGang) (q : Collective) (m : CollMember) (p : Place) vals inv, o.home = some h →
      o.kind = .coll m.req q.n → s.colls = [q] → q.result = some (vals, inv) → q.mems = [m] → m.who = .engine c o.id → m.core = some c →
      m.asid = o.asid → q.part = o.part → m.wrote = true → (s.core c).accs = [] → Lands s (m.party q.part) m.req.stat 8 p →
      s.saved = [sv] → sv.is h.part h.gridid h.teamid = true → sv.gangs = [g] → g.gangid = h.gangid →
      ∃ t y r, exec (.collectiveRun q.group q.n (.run [] [])) s = .next t ∧ ended t ∧ t.saved = [y] ∧ y.gangs = [r] ∧
        (r.batches.get o.cls).recs = (g.batches.get o.cls).recs ++
          (if m.code = 0 then [] else [{ batch := o.batch, op := o.ord, fail := match m.badAt with
            | some a => { cause := .uncorrectable, info := BitVec.ofNat 64 (a.toNat % 2 ^ 57) }
            | none => { cause := .engineFault, info := engineInfo m.code 1 } }]) ∧
        ∀ b rest, (g.batches.get o.cls).sealedB = b :: rest → (o.cls, b) ∉ g.todo →
          (∀ x ∈ (s.core c).eng, x.id ≠ o.id → x.home = some h → x.cls = o.cls → x.batch ≠ b) → b ∉ rest →
          b ∉ (r.batches.get o.cls).sealedB) ∧
    (o.home = none →
    (∀ D A n bs q x, o.cls = 0 → o.run = .fresh → o.kind = .copy D A true false n → s.engRead w A n = .ok bs → s.engTile c D = (q, x) →
      ∃ t, exec (.copyEngineRun c o.id) s = .next t ∧ ended t ∧ t.mem = s.mem ∧ (t.core q).spad.readN x n = bs ∧
        (∀ y, (y < x ∨ x + n ≤ y) → (t.core q).spad.read y = (s.core q).spad.read y) ∧
        ∀ r, r ≠ q → (t.core r).spad = (s.core r).spad) ∧
    (∀ D A n p q x, o.cls = 0 → o.run = .fresh → o.kind = .copy D A false true n → s.engTile c A = (q, x) → (s.core q).spadBad = [] → (s.core c).accs = [] →
      Lands s w D n p →
      ∃ t, exec (.copyEngineRun c o.id) s = .next t ∧ ended t ∧ bytesAt t o.part p n = (s.core q).spad.readN x n ∧
        ∀ r, (t.core r).spad = (s.core r).spad) ∧
    (∀ D A n bs p, o.cls = 0 → o.run = .fresh → o.kind = .copy D A false false n → s.engRead w A n = .ok bs → (s.core c).accs = [] →
      Lands s w D n p →
      ∃ t, exec (.copyEngineRun c o.id) s = .next t ∧ ended t ∧ recs t = recs s ∧ bytesAt t o.part p n = bs ∧
        ∀ r, (t.core r).spad = (s.core r).spad) ∧
    (∀ D A ix roww win rows (st : Nat → State) (k : Nat → List Byte) (row : Nat → List Byte) (pl : Nat → Place), o.cls = 0 →
      o.run = .fresh → o.kind = .gather D A ix roww win rows → (s.core c).accs = [] →
      let n := 4 * roww
      st 0 = s → (∀ r, r < rows → st (r + 1) = (st r).engWrite w (off D (n * r)) (row r)) →
      (∀ r, r < rows → (st r).engRead w (off ix (4 * r)) 4 = .ok (k r) ∧ Lands (st r) w (off D (n * r)) n (pl r) ∧
        (leNat (k r) < win → (st r).engRead w (off A (n * leNat (k r))) n = .ok (row r)) ∧
        (win ≤ leNat (k r) → row r = List.replicate n 0)) →
      ∃ t, exec (.copyEngineRun c o.id) s = .next t ∧ ended t ∧ (∀ r, (t.core r).spad = (s.core r).spad) ∧
        ((∀ r, r < rows → leNat (k r) < win) → recs t = recs s) ∧ ((∃ r, r < rows ∧ win ≤ leNat (k r)) → failed t 0x12) ∧
        ∀ r, r < rows → (∀ j, r < j → j < rows → memIx (pl r).dev (pl r).pa + n ≤ memIx (pl j).dev (pl j).pa ∨
          memIx (pl j).dev (pl j).pa + n ≤ memIx (pl r).dev (pl r).pa) → bytesAt t o.part (pl r) n = row r) ∧
    (∀ D A B q x (row : Nat → List Byte), o.cls = 0 → o.run = .fresh → o.kind = .cpyt D A B → cpytCode A (cpytDesc B) = 0 →
      s.engTile c D = (q, x) →
      let d := cpytDesc B
      let E := 2 ^ d.esz
      let G := d.rowb / (4 * E)
      let code (r j : Nat) : Nat := ((row r).getD (2 * E * G + j / 2) 0).toNat / 16 ^ (j % 2) % 16
      let kept (r j k : Nat) : List Byte := ((row r).drop (E * (2 * j + k))).take E
      tileOff D + d.rows * d.rowb ≤ 2 ^ 32 →
      (∀ r, r < d.rows → s.engRead w (off A (if d.rows = 1 then 0 else r * d.pitch))
        (if d.x then d.rowb / 2 + d.rowb / (8 * E) else d.rowb) = .ok (row r)) →
      ∃ t, exec (.copyEngineRun c o.id) s = .next t ∧ ended t ∧ t.mem = s.mem ∧ (∀ r, r ≠ q → (t.core r).spad = (s.core r).spad) ∧
        (∀ y, (y < x ∨ x + d.rows * d.rowb ≤ y) → (t.core q).spad.read y = (s.core q).spad.read y) ∧
        (∀ r, r < d.rows → d.x = false → (t.core q).spad.readN (x + d.rowb * r) d.rowb = row r) ∧
        (∀ r j i, r < d.rows → d.x = true → j < G → i < 4 →
          (t.core q).spad.readN (x + d.rowb * r + E * (4 * j + i)) E =
            if code r j % 4 < code r j / 4 ∧ i = code r j % 4 then kept r j 0
            else if code r j % 4 < code r j / 4 ∧ i = code r j / 4 then kept r j 1 else List.replicate E 0) ∧
        ((d.x = false ∨ ∀ r j, r < d.rows → j < G → code r j % 4 < code r j / 4) → recs t = recs s) ∧
        ((d.x = true ∧ ∃ r j, r < d.rows ∧ j < G ∧ code r j / 4 ≤ code r j % 4) → failed t 0x14)) ∧
    (∀ (q : Collective) (m : CollMember) (g : Group) (src : Nat → List Byte) (ps : List Place), Joined s q g → m ∈ q.mems →
      m.who = .engine c o.id →
      let r := m.req
      let fmt (wide : Bool) : Fmt := if wide then f32 else bf16
      r.op ≤ 2 → (r.op = 2 → r.inFp32 = r.outFp32 ∧ r.root < g.members.length) →
      (∀ y ∈ q.mems, y.req.srcLen ≠ 0 → s.engRead (y.party q.part) y.req.src y.req.srcLen = .ok (src y.rank)) →
      let terms (e : Nat) : List (Option Int) := q.mems.map fun y =>
        addend r.w ((fmt r.inFp32).decode (leNat (((src y.rank).drop (r.inBytes * e)).take r.inBytes)))
      let total (e : Nat) : Int := ((terms e).map fun y => y.getD 0).sum
      ∀ (out : List Byte) (invalid : Nat),
      (r.op = 2 → out = src r.root ∧ invalid = 0) →
      (r.op ≠ 2 → out.length = r.count * r.outBytes ∧ (∃ es : List Nat, es.Nodup ∧ es.length = invalid ∧
          ∀ e, e ∈ es ↔ e < r.count ∧ ¬SumValid (terms e)) ∧
        ∀ e, e < r.count →
          (SumValid (terms e) → (out.drop (r.outBytes * e)).take r.outBytes =
            leBytes r.outBytes ((fmt r.outFp32).ofVal 0 0 (.fin (total e < 0) (total e).natAbs (r.w - 111)))) ∧
          (¬SumValid (terms e) → (out.drop (r.outBytes * e)).take r.outBytes = leBytes r.outBytes (fmt r.outFp32).nan)) →
      let writes := q.mems.flatMap fun y =>
        let stat (n : Nat) : Party × DWord × List Byte := (y.party q.part, y.req.stat, leBytes 8 (n * 2 ^ 32 + 1))
        if (r.op = 1 ∧ y.rank ≠ r.root) ∨ (r.op = 2 ∧ y.rank = r.root) then [stat 0]
        else [(y.party q.part, y.req.dst, out), stat invalid]
      LandInTurn s writes ps →
      ∃ t, exec (.collectiveRun q.group q.n (.run [] [])) s = .next t ∧ ended t ∧ t.colls = [] ∧
        (∀ y ∈ q.mems, ∀ k id, y.who = .engine k id → (t.core k).op? id = none) ∧
        ∀ x ∈ writes.zip ps, bytesAt t q.part x.2 x.1.2.2.length = x.1.2.2) ∧
    (∀ (q : Collective) (m : CollMember) (g : Group) (mem : Member) (bs : List Byte) (p p2 : Place), o.kind = .coll m.req q.n →
      s.colls = [q] → q.result = none → q.mems = [m] → q.joined = [0] → m.rank = 0 → m.req.rank = 0 → m.code = 0 → m.wrote = false → m.who = .engine c o.id →
      m.core = some c → m.asid = o.asid → q.part = o.part → s.groups = [g] → g.part = q.part → g.num = q.group → g.members = [mem] →
      mem.dev = s.devid → mem.port = none → m.req.op = 0 → 1 ≤ m.req.count → (s.core c).accs = [] →
      s.engRead w m.req.src (m.req.count * m.req.inBytes) = .ok bs →
      let r := m.req
      let fmt (wide : Bool) : Fmt := if wide then f32 else bf16
      let sums := (elemsOf r.inBytes bs).map fun x => collElem r.w (fmt r.inFp32) (fmt r.outFp32) [x.toNat]
      let out := sums.flatMap fun x => leBytes r.outBytes x.1.toNat
      Lands s w r.dst (r.count * r.outBytes) p → Lands (s.engWrite w r.dst out) w r.stat 8 p2 →
      (memIx p.dev p.pa + r.count * r.outBytes ≤ memIx p2.dev p2.pa ∨ memIx p2.dev p2.pa + 8 ≤ memIx p.dev p.pa) →
      ∃ t, exec (.collectiveRun q.group q.n (.run [] [])) s = .next t ∧ ended t ∧ t.colls = [] ∧
        bytesAt t o.part p (r.count * r.outBytes) = out ∧
        bytesAt t o.part p2 8 = leBytes 8 (sums.countP (fun x => x.2) * 2 ^ 32 + 1)) ∧
    ∀ (r : ReconReq) (cells : List Byte) (p : Place), o.kind = .recon r → 4 ≤ r.k → r.k ≤ 20 → 1 ≤ r.passes → (s.core c).accs = [] →
      let n := 72 * 2 ^ r.k
      let header := leBytes 8 r.k ++ leBytes 8 r.seed.toNat
      s.engRead w r.loc 16 = .ok header → s.engRead w r.peerSk 16 = .ok header → s.onPeer w r.peer r.peerSk (16 + n) = true →
      s.onPeer w r.peer r.peerSk 16 = true →
      s.engRead w (r.loc + 16) n = .ok cells → s.engRead w (r.peerSk + 16) n = .ok cells → s.engMayWrite w r.work (16 + n) = .ok () →
      s.dropsAt w r.work (16 + n) = none →
      Lands (s.engWrite w r.work (header ++ (List.range (3 * 2 ^ r.k)).flatMap fun k =>
        leBytes 4 0 ++ (cells.drop (24 * k + 4)).take 4 ++ List.replicate 16 0)) w r.diff 16 p →
      ∃ t, exec (.linkEngineRun c o.id) s = .next t ∧ ended t ∧ bytesAt t o.part p 16 = leBytes 8 (2 ^ 24 + 1) ++ leBytes 8 0)

/-! ### Queues -/

/-- Packets (R304 to R309, R373): a started packet does what its OP says and is then done: NOP nothing, LAUNCH enters its grid, COPY moves
its bytes, COLL joins its collective, WAITV once its condition holds, SIGNAL stores or adds, RECON runs, QBAR once every named queue has come
far enough; that one which names a queue that does not exist goes on waiting is the model's choice (log 68). -/
def Obligations.PacketsRun : Prop :=
  ∀ (s : State) (q : QueueId) (i : Nat) (x : Queue) (p : Packet) (op : Nat), s.packet? q i op = some (x, p) → p.refused = false →
    let w := s.queueParty x
    let f (k n : Nat) : Nat := packetField p.words k n
    let a (k : Nat) : DWord := BitVec.ofNat 64 (f k 8)
    let now (t : State) (P : Packet → Prop) : Prop := ∃ y r, t.queue? q = some y ∧ y.pkt? (BitVec.ofNat 64 i) = some r ∧ P r
    let done (t : State) : Prop := now t fun r => r.done = true ∧ r.failed = false
    let begun (t : State) : Prop := now t fun r => r.begun = true ∧ r.done = false ∧ r.failed = false
    (op = 1 → ∃ t, exec (.nopPacket q i) s = .next t ∧ done t ∧ t.mem = s.mem ∧ t.cores = s.cores) ∧
    (∀ hs, op = 2 → p.head = none →
      let ask := launchAsk ((p.words.flatMap fun y => leBytes 8 y.toNat).drop 8)
      let h := codeHead ask.code hs
      ask.teams ≠ 0 → ask.code.toNat % 256 = 0 → 1 ≤ ask.lanes → ask.lanes ≤ 512 → ask.atiles ≤ 16 → ask.spad ≤ 128 →
      s.engRead w ask.code 256 = .ok hs → h.hash = 0x4F1C92A7 → (ask.gathered = true → s.canGather w.part ask = true) →
      s.listRoom w.part = true → p.grid = none → p.done = false → p.failed = false →
      ∃ t g, exec (.launchPacket q i) s = .next t ∧ begun t ∧ t.mem = s.mem ∧ t.grids = s.grids ++ [g] ∧
        (t.parts.get w.part).placement = (s.parts.get w.part).placement ++ [g.gridid] ∧ now t (fun r => r.grid = some g.gridid) ∧
        g.part = w.part ∧ g.asid = x.asid ∧ g.code = ask.code ∧ g.args = ask.args ∧ g.entry = h.entry ∧ g.trapbase = h.trapbase ∧
        g.teams = ask.teams ∧ g.lanes = ask.lanes ∧ g.depth = 0 ∧ g.prio = x.prio ∧ g.parent = none ∧ g.queue = some (q, p.idx)) ∧
    (∀ bs pl, op = 3 → p.run = .fresh → 1 ≤ f 0x18 8 → f 0x18 8 < 2 ^ 40 → (a 8).toNat % 2 ^ 57 + f 0x18 8 ≤ 2 ^ 57 →
      (a 0x10).toNat % 2 ^ 57 + f 0x18 8 ≤ 2 ^ 57 → s.engRead w (a 0x10) (f 0x18 8) = .ok bs → Lands s w (a 8) (f 0x18 8) pl →
      ∃ t, exec (.copyPacket q i) s = .next t ∧ done t ∧ bytesAt t w.part pl (f 0x18 8) = bs ∧ t.cores = s.cores) ∧
    (∀ bs, op = 4 → p.begun = false → f 8 8 % 64 = 0 → s.engRead w (a 8) 64 = .ok bs →
      let b := collBlock (a 8) bs
      s.collCode w.part none b = 0 → b.req.misaligned = none →
      ∃ t, exec (.collPacket q i) s = .next t ∧ begun t ∧ t.mem = s.mem ∧
        ∃ y ∈ t.colls, y.part = w.part ∧ y.group = b.req.group ∧ y.n = s.nextColl w.part b.req ∧
          ∃ m ∈ y.mems, m.rank = b.req.rank ∧ m.req = b.req ∧ m.who = .queue q (some p.idx)) ∧
    (∀ bs, op = 5 → s.engRead w (a 8) 8 = .ok bs →
      let y := leNat bs &&& f 0x18 8
      let holds : Prop := match f 0x20 4 with
        | 0 => y = f 0x10 8
        | 1 => y ≠ f 0x10 8
        | 2 => f 0x10 8 ≤ y
        | _ => y < f 0x10 8
      ∃ t, exec (.waitvPacket q i) s = .next t ∧ t.mem = s.mem ∧ (holds → done t) ∧ (¬holds → begun t)) ∧
    (∀ bs pl, op = 6 → Lands s w (a 8) 8 pl → s.engRead w (a 8) 8 = .ok bs →
      ∃ t, exec (.signalPacket q i) s = .next t ∧ done t ∧ t.cores = s.cores ∧
        bytesAt t w.part pl 8 = leBytes 8 (if f 0x18 4 = 1 then (leNat bs + f 0x10 8) % 2 ^ 64 else f 0x10 8)) ∧
    (∀ bs h, op = 7 → p.recon = none → f 8 8 % 64 = 0 → s.readRecon w (a 8) = .ok (bs, h) → reconRefused bs h = false →
      let r := (reconReq (a 8) bs).withHeader h
      r.misaligned = none → ∃ t, exec (.reconPacket q i) s = .next t ∧ begun t ∧ now t (fun y => y.recon = some r) ∧ t.mem = s.mem) ∧
    (∀ r u code e, op = 7 → p.recon = some r → s.reconRun w r false = .ended u code e → u.queues = s.queues →
      ∃ t, exec (.reconPacket q i) s = .next t ∧ done t ∧ t.mem = u.mem) ∧
    (op = 8 →
      let reached : Prop := ∀ n, n < f 8 4 → ∃ y ∈ s.queues, y.num.val = f (0x10 + 16 * n) 8 ∧ f (0x18 + 16 * n) 8 ≤ y.didx.toNat
      ∃ t, exec (.qbarPacket q i) s = .next t ∧ t.mem = s.mem ∧ (reached → done t) ∧ (¬reached → begun t))

/-- Queues (R301 to R305, R379, R427): creation, restart, the taking of a packet, which raises RIDX and frees the slot, and the completion of
packets in order, which raises DIDX. That a number in use and an ASID that is not allotted are refused too is the model's choice (log 30), and
so is it that a restart keeps the packets and DIDX (log 31). -/
def Obligations.QueuesAreServed : Prop :=
  ∀ (s : State) (q : QueueId), s.inReset = false →
    (∀ asid prio cb rb npkt, s.hyper = true → s.queueOk q asid cb rb npkt = true →
      ∃ t y, exec (.queueCreate q asid prio cb rb npkt) s = .next t ∧ t.queue? q = some y ∧ y.asid = asid ∧ y.prio = prio ∧ y.cb = cb ∧
        y.rb = rb ∧ y.npkt = npkt ∧ y.didx = 0 ∧ y.pkts = [] ∧ y.stopped = false ∧ t.queues.length = s.queues.length + 1 ∧
        (∀ z ∈ s.queues, z ∈ t.queues) ∧ t.cores = s.cores) ∧
    (∀ asid prio cb rb npkt, s.hyper = false ∨ s.queueOk q asid cb rb npkt = false →
      exec (.queueCreate q asid prio cb rb npkt) s = .next (s.report (.refused "queue"))) ∧
    (∀ x, s.queue? q = some x → s.managed = true → x.stopped = true →
      ∃ t y, exec (.queueRestart q) s = .next t ∧ t.queue? q = some y ∧ y.stopped = false ∧ y.didx = x.didx ∧ t.mem = s.mem ∧
        y.pkts = x.pkts) ∧
    (∀ x, s.queue? q = some x → s.managed = false ∨ x.stopped = false →
      exec (.queueRestart q) s = .next (s.report (.refused "queue"))) ∧
    (∀ x i slot ws p, s.nextQueue = some x → s.queue? q = some x → (∀ y ∈ s.queues, y.stop = none ∨ y.faulted = true) →
      s.look x = .take i slot ws → Lands (s.engWrite (s.queueParty x) slot (leBytes 8 0)) (s.queueParty x) (x.cb + 8) 8 p →
      ∃ t y r, exec .cpServeQueue s = .next t ∧ t.queue? q = some y ∧ y.pkts = x.pkts ++ [r] ∧ r.idx = i ∧ r.words = ws ∧
        r.begun = false ∧ r.done = false ∧ t.served.get x.prio = some q ∧
        bytesAt t (s.queueParty x).part p 8 = leBytes 8 ((i.toNat + 1) % 2 ^ 64)) ∧
    ∀ x p pl, s.queue? q = some x → x.faulted = false → p ∈ x.pkts → p.done = true → (∀ r ∈ x.pkts, p.idx.toNat ≤ r.idx.toNat) →
      Lands s (s.queueParty x) (x.cb + 0x10) 8 pl →
      ∃ t y, exec (.packetComplete q p.idx.toNat) s = .next t ∧ t.queue? q = some y ∧ y.didx = p.idx + 1 ∧
        y.pkts = x.pkts.filter (fun r => r.idx != p.idx) ∧
        bytesAt t (s.queueParty x).part pl 8 = leBytes 8 ((p.idx.toNat + 1) % 2 ^ 64)

/-! ### Translation faults -/

/-- The fault queue (R204, R205): its set-up, the entry that the device writes for the oldest fault once the ring has room, and the answers:
RESP 1 lets the access be tried again, RESP 2 refuses it with XLATE_FAULT. That a second set-up queues the unanswered faults again before the
others is the model's choice (log 32). -/
def Obligations.TranslationFaults : Prop :=
  ∀ (s : State) (p : PartId), s.inReset = false →
    (∀ cb ring nent alert, s.bound (some p) p = true → s.fqOk p cb ring nent alert = true →
      ∃ t, exec (.faultQueueSetup (some p) p cb ring nent alert) s = .next t ∧ t.cores = s.cores ∧
        (t.parts.get p).fq = some { cb := cb, ring := ring, nent := nent, alert := alert, widx := 0, told := false } ∧
        (t.parts.get p).faults = (s.parts.get p).watched.map (·.2) ++ (s.parts.get p).faults ∧ (t.parts.get p).watched = []) ∧
    (∀ agent cb ring nent alert, s.bound agent p = false →
      exec (.faultQueueSetup agent p cb ring nent alert) s = .next (s.report (.refused "fault queue"))) ∧
    (∀ fq x rest, (s.parts.get p).fq = some fq → (s.parts.get p).faults = x :: rest →
      let e := fq.ring.toNat + 32 * (fq.widx.toNat % fq.nent)
      let place (n : Nat) : Nat := memIx s.devid (BitVec.ofNat 39 n)
      fq.alert = 0 → s.bad (place fq.cb.toNat) = false → fq.cb.toNat % 64 = 0 → fq.ring.toNat % 32 = 0 → e + 32 ≤ 2 ^ 39 →
      (e + 32 ≤ fq.cb.toNat ∨ fq.cb.toNat + 64 ≤ e) →
      let room : Prop := fq.widx.toNat < (s.physRead p (fq.cb.toNat + 8)).toNat + fq.nent
      (¬room → exec (.faultEntryWrite p) s = .next s) ∧
      (room → ∃ t, exec (.faultEntryWrite p) s = .next t ∧ t.cores = s.cores ∧
        (t.parts.get p).faults = rest ∧ (t.parts.get p).watched = (s.parts.get p).watched ++ [(fq.widx.toNat, x)] ∧
        (∃ u, (t.parts.get p).fq = some u ∧ u.widx = fq.widx + 1) ∧ t.reports = s.reports ++ [.faultSignal p] ∧
        t.rdN (s.keyOf p) (place e) 32 = leBytes 8 (x.va.toNat % 2 ^ 57) ++
          leBytes 8 (x.asid.toNat + x.clus.toNat * 2 ^ 13 + x.core.toNat * 2 ^ 16 + x.slot.toNat * 2 ^ 24 + x.kind.toNat * 2 ^ 28 +
            x.why.toNat * 2 ^ 31) ++ leBytes 8 x.queue.toNat ++ leBytes 8 0 ∧
        t.rdN (s.keyOf p) (place fq.cb.toNat) 8 = leBytes 8 (fq.widx.toNat + 1))) ∧
    ∀ fq i x c j f, (s.parts.get p).fq = some fq → (s.parts.get p).watched.find? (fun y => y.1 == i) = some (i, x) →
      x.who = .frag c j false f → ((s.gangAt c j).frags.get f).wait = .fault →
      let e := fq.entry i + 0x18
      s.physBad e = false →
      (s.physRead p e = 1 → ∃ t, exec (.faultResp p i) s = .next t ∧ ((t.gangAt c j).frags.get f).wait = .none ∧
        (((s.gangAt c j).frags.get f).valid = true → ∀ l : LaneId, ((s.gangAt c j).frags.get f).mask.getLsbD l.val = true →
          StandsAt (t.gangAt c j) l ((s.gangAt c j).frags.get f).pc) ∧ t.mem = s.mem ∧
        (t.parts.get p).watched = (s.parts.get p).watched.filter (fun y => y.1 != i)) ∧
      (s.physRead p e = 2 → (s.gangAt c j).intrap = false → (s.teamAt c j).trapbase ≠ 0 → (s.teamAt c j).halted = false →
        ∃ t, exec (.faultResp p i) s = .next t ∧ (t.gangAt c j).intrap = true ∧ (t.gangAt c j).trapcause = 0x05 ∧
          (t.gangAt c j).trappc = ((s.gangAt c j).frags.get f).pc ∧ (t.gangAt c j).trapinfo = BitVec.ofNat 64 (x.va.toNat % 2 ^ 57) ∧
          t.mem = s.mem)

/-! ### Teams -/

/-- Placement and the end of a team (R15, R19, R31, R95, R98, R183, R205, R380 to R382): a team gets a core of its partition with room, the
first one under PACK, and starts with every register and its accumulator tiles at the contents of R98, the special registers at those of
R101; a retired team gives back its gangs and tiles, and its reservation reads 0. That a team which needs its index no longer may give it to
a new one and retires under a number from 16 on is the model's choice (log 107). -/
def Obligations.TeamsStartAndEnd : Prop :=
  ∀ (s : State),
    (∀ (p : PartId) (id : Word) (g : Grid), (s.parts.get p).valid = true →
      (s.parts.get p).fq.isSome = true → s.inReset = false → (s.parts.get p).resumes = [] → (s.parts.get p).placement = [id] →
      s.grid? p id = some g → g.gathered = false → g.restart = [] → g.nextTeam = 0 → g.teams = 1 →
      let fits (c : CoreId) : Prop := (s.parts.get p).clusters.getLsbD (clusOf c).val = true ∧ ((s.core c).roomForGrid g).isSome = true
      (∃ c, fits c) →
      ∃ t c r, exec (.teamPlace p) s = .next t ∧ fits c ∧ (s.core c).roomForGrid g = some r ∧ t.mem = s.mem ∧
        (∀ d, d ≠ c → t.core d = s.core d) ∧ (t.parts.get p).placement = [] ∧
        ((s.parts.get p).pack = true → ∀ d, fits d → c ≤ d) ∧
        (let x := (t.core c).team r.team
         x.live = true ∧ x.gridid = id ∧ x.teamid = 0 ∧ x.asid = g.asid ∧ x.part = p ∧ x.lanes = g.lanes ∧ x.ngang = (g.lanes + 31) / 32 ∧
           x.trapbase = g.trapbase ∧ x.spadBase = r.base ∧ x.spadLen = 4096 * g.spad ∧ x.atiles.length = g.atiles ∧ x.halted = false ∧
           x.steep = g.steep ∧ (∀ b, x.bars.get b = Barrier.reset) ∧
           ∀ a ∈ x.atiles, ∀ e, e < 4096 → sget 0 (t.core c).acc (4096 * a.val + e) = 0) ∧
        ∀ n, n < (g.lanes + 31) / 32 → ∃ i ∈ r.slots, let k := t.gangAt c i
          k.live = true ∧ k.team = r.team ∧ k.gangid = BitVec.ofNat 4 n ∧ k.nfrag = 1 ∧ (k.frags.get 0).valid = true ∧
            (k.frags.get 0).pc = g.entry ∧ (∀ l : LaneId, (k.frags.get 0).mask.getLsbD l.val = decide (32 * n + l.val < g.lanes)) ∧
            k.u = (Vector.replicate 64 0).set 0 g.args ∧ (∀ r l, (k.v.get r).get l = VCell.zero) ∧ (∀ r, k.m.get r = 0) ∧
            (∀ r, k.dn.get r = 0x8000 ∧ ∀ l, (k.dc.get r).get l = 0) ∧ (∀ r, k.k.get r = 0 ∧ k.ks.get r = 0) ∧ (∀ r, k.lc.get r = 0) ∧
            k.rngseed = g.rngseed ∧ (∀ l : LaneId, k.rng.get l = seedLane g.rngseed l.val) ∧ k.skm = 4 ∧ k.skseed = 0 ∧
            k.trapcause = 0 ∧ k.trappc = 0 ∧ k.trapinfo = 0 ∧ k.traplate = 0 ∧ k.intrap = false ∧
            k.dsat = false ∧ k.reread = false ∧ k.usplit = false ∧ k.latch = [] ∧ k.pend = [] ∧ k.late = [] ∧ k.loops = [] ∧
            k.heldA = none ∧ k.stopSlot = none ∧ k.left = 0) ∧
    (∀ (c : CoreId) (n : Nat) (x : Team), (s.core c).gone[n]? = some x → s.hasChild x = false →
      ∃ t, exec (.teamRetire c (16 + n)) s = .next t ∧ t.mem = s.mem ∧ (t.core c).gone = (s.core c).gone.eraseIdx n ∧
        ((t.core c).slots = (s.core c).slots ∧ (t.core c).teams = (s.core c).teams ∧ (t.core c).tiles = (s.core c).tiles) ∧
        (∀ a, (t.core c).spad.read a = if x.spadBase ≤ a ∧ a < x.spadBase + x.spadLen then 0 else (s.core c).spad.read a)) ∧
    ∀ (c : CoreId) (ti : SlotId), let x := (s.core c).team ti
      x.live = true → x.allExited = true → s.hasChild x = false → s.teamBusy c ti = false → x.stopping.saving = false →
      ∃ t, exec (.teamRetire c ti.val) s = .next t ∧ t.mem = s.mem ∧ ((t.core c).team ti).live = false ∧
        (∀ i, (s.gangAt c i).live = true → (s.gangAt c i).team = ti → (t.gangAt c i).live = false) ∧
        (∀ e, let y := (s.core c).tiles.get e
          y.v = true → y.team = ti → (t.core c).tiles.get e = { y with v := false, gen := y.gen + 1 }) ∧
        (∀ a, (t.core c).spad.read a = if x.spadBase ≤ a ∧ a < x.spadBase + x.spadLen then 0 else (s.core c).spad.read a) ∧
        ∀ g, s.grid? x.part x.gridid = some g →
          (g.retired + 1 < g.teams → t.grid? x.part x.gridid = some { g with retired := g.retired + 1 }) ∧
          (g.teams ≤ g.retired + 1 → t.grid? x.part x.gridid = none)

/-- Pre-emption (R28, R236, R388 to R391, R395, R396, R427): the estimator drains, discards or saves a team, and on a halted core the request
waits; a drained one that is late is saved; a settled team's save writes its area's header and frees the core; and a saved area may be named
to resume once. A request without a session is refused. The model's choice: that a second naming of an area is refused (log 29), and that
any finished session suffices (log 93). -/
def Obligations.Preemption : Prop :=
  ∀ (s : State) (c : CoreId) (ti : SlotId), s.inReset = false → let x := (s.core c).team ti
    let size := s.saveSize c ti
    let cost := (size + 127) / 128 + 2000
    let now := (s.core c).cycle
    (∀ dl area, s.managed = false → exec (.preemptRequest [(c, ti)] dl [area]) s = .next (s.report .preemptRefused)) ∧
    (∀ dl area, s.managed = true → x.live = true → x.stopping = .no → x.gathered = false → s.noIssue c = true →
      s.areaOk x.part area size = true →
      ∃ t, exec (.preemptRequest [(c, ti)] dl [area]) s = .next t ∧ t.mem = s.mem ∧
        ((t.core c).team ti).stopping = .asked { area := area, size := size, since := now, dl := dl }) ∧
    (∀ dl area, s.managed = true → x.live = true → x.stopping = .no → x.gathered = false → s.noIssue c = false →
      s.areaOk x.part area size = true →
      let q : Preempt := { area := area, size := size, since := now, dl := dl }
      let discard : Prop := x.restartable = true ∧ s.hasChild x = false ∧ x.issued ≤ cost
      ∃ t, exec (.preemptRequest [(c, ti)] dl [area]) s = .next t ∧ t.mem = s.mem ∧
        (x.allExited = true ∨ cost < dl → ((t.core c).team ti).stopping = .drain q (now + BitVec.ofNat 64 (dl - cost))) ∧
        (x.allExited = false → dl ≤ cost → discard → ((t.core c).team ti).live = false ∧
          (∀ g, s.grid? x.part x.gridid = some g → ∃ h, t.grid? x.part x.gridid = some h ∧ x.teamid.toNat ∈ h.restart) ∧
          .preempt x.gridid x.teamid 2 size 0 0 ∈ t.reports) ∧
        (x.allExited = false → dl ≤ cost → ¬discard → ((t.core c).team ti).stopping = .save q)) ∧
    (∀ q u, x.stopping = .drain q u → x.live = true → x.gathered = false → x.allExited = false →
      (now.toNat < u.toNat → exec (.drainExpiry c ti) s = .next s) ∧
      (u.toNat ≤ now.toNat → ∃ t, exec (.drainExpiry c ti) s = .next t ∧ ((t.core c).team ti).stopping = .save q ∧ t.mem = s.mem)) ∧
    (∀ q, x.stopping = .save q → x.live = true → s.noIssue c = false → (∀ i, (s.gangAt c i).team = ti → (s.gangAt c i).pend = []) →
      s.settled c ti = true → (∀ n, n < 16 → s.bad (memIx s.devid q.area + n) = false) →
      ∃ t, exec (.teamSave c ti) s = .next t ∧ ((t.core c).team ti).live = false ∧
        (∀ i, (s.gangAt c i).live = true → (s.gangAt c i).team = ti → (t.gangAt c i).live = false) ∧
        (∃ y ∈ t.saved, y.part = x.part ∧ y.gridid = x.gridid ∧ y.teamid = x.teamid) ∧
        t.rdN (s.keyOf x.part) (memIx s.devid q.area) 16 =
          leBytes 4 0x43544A46 ++ leBytes 4 1 ++ leBytes 4 0x4F1C92A7 ++ leBytes 4 1 ∧
        .preempt x.gridid x.teamid 3 size (now - q.since) ((now - q.since).toNat - q.dl) ∈ t.reports) ∧
    ∀ (p : PartId) (area : BitVec 39),
      (∀ grid team, s.managed = true → s.mayResume p area = some (grid, team) → ∃ t, exec (.resumeRequest p area) s = .next t ∧
        (t.parts.get p).resumes = (s.parts.get p).resumes ++ [(grid, team, area)] ∧ t.mem = s.mem ∧ t.mayResume p area = none) ∧
      (s.managed = false ∨ s.mayResume p area = none → exec (.resumeRequest p area) s = .next (s.report (.resumeRefused area)))

/-- The debug interface (R251, R396 to R398, R426): only where no partition has the core or debug is enabled; a halt stops issue, quiesce
ends once accesses, matrix queue and range locks are empty, and the gangs named at the halt's end are to take DEBUG_HALT, behind the traps
that they hold: a gang whose turn has come takes it at its next issue (StepRunsDecoded says how). The model's choice: that a core which no
partition has may be halted (log 90). -/
def Obligations.DebugInterface : Prop :=
  ∀ (s : State) (c : CoreId) (gangs : BitVec 16), s.inReset = false →
    let k := s.core c
    let idle : Prop := k.accs = [] ∧ k.mat = [] ∧ ∀ e, (k.locks.get e).v = false
    (s.mayDebug c = true →
      (∃ t, exec (.coreHalt c) s = .next t ∧ t.noIssue c = true ∧ t.core c = { k with halted := true } ∧
        (∀ d, d ≠ c → t.core d = s.core d) ∧ t.mem = s.mem) ∧
      (k.halted = true → ∃ t, exec (.quiesce c) s = .next t ∧ t.core c = { k with quiesce := true } ∧ t.mem = s.mem) ∧
      (∃ t l, exec (.rangeLockTableRead c) s = .next t ∧ t.reports = s.reports ++ [.lockTable c l] ∧
        (∀ e : Fin 64, (k.locks.get e).v = true ↔ (e.val, k.locks.get e) ∈ l) ∧ t.cores = s.cores ∧ t.mem = s.mem)) ∧
    (s.mayDebug c = false →
      exec (.coreHalt c) s = .next (s.report (.refused "core halt")) ∧ exec (.quiesce c) s = .next (s.report (.refused "quiesce")) ∧
      exec (.rangeLockTableRead c) s = .next (s.report (.refused "range-lock table"))) ∧
    (k.quiesce = true → k.halted = true →
      (idle → ∃ t, exec (.quiesceComplete c) s = .next t ∧ t.core c = { k with quiesce := false } ∧
        t.reports = s.reports ++ [.quiesced c] ∧ t.mem = s.mem) ∧
      (¬idle → exec (.quiesceComplete c) s = .next s)) ∧
    (k.halted = true → ∃ t, exec (.haltEnd c gangs) s = .next t ∧ (t.core c).halted = false ∧ (t.core c).quiesce = false ∧ t.mem = s.mem ∧
      ∀ i, t.gangAt c i = if gangs.getLsbD i.val ∧ (s.gangAt c i).live then (let g := s.gangAt c i
        { g with debugHalt := some (match g.debugHalt with | some n => n | none => if g.intrap then g.heldTraps.length else 0) })
        else s.gangAt c i)

/-! ### The partition management interface -/

/-- Partitions (R195, R198, R382, R387, R413, R415, R418, R424 to R427): what creation sets, what is refused, and the end of a partition,
whose key is erased once nothing of it is at work; the hypervisor's requests need its session, and those of a partition's own software the
partition's. The model's choice: KEY_ERASE waits for saved teams, accesses in flight and started packets too, and spaces, grids and the
partition's record go with the key (log 33); a debug halt of a core ends as its partition is created (log 90). -/
def Obligations.Partitions : Prop :=
  ∀ (s : State) (p : PartId) (asid : Asid) (agent : Option PartId), s.inReset = false →
    (∀ clusters floor rail keys, s.mayCreate p clusters floor = true →
      ∃ t, exec (.partitionCreate p clusters floor rail keys) s = .next t ∧
        t.parts.get p = { Partition.reset with valid := true, clusters := clusters, floor := floor, key := s.nextKey, ownerKeys := keys } ∧
        t.nextKey = s.nextKey + 1 ∧ (∀ q, q ≠ p → t.parts.get q = s.parts.get q) ∧ t.mem = s.mem ∧
        (∀ c, t.core c = if clusters.getLsbD (clusOf c).val then { s.core c with halted := false, quiesce := false } else s.core c) ∧
        ∀ k : ClusId, (clusters.getLsbD k.val = true → (t.clusters.get k).rail = rail ∧ (t.clusters.get k).ilvZ = 0) ∧
          (clusters.getLsbD k.val = false → t.clusters.get k = s.clusters.get k)) ∧
    (∀ clusters floor rail keys, (s.hyper = false ∨ (s.parts.get p).valid = true ∨ clusters = 0 ∨ clusters &&& s.takenClusters ≠ 0 ∨ s.cap < s.floors + floor) →
      exec (.partitionCreate p clusters floor rail keys) s = .next (s.report (.refused "partition create"))) ∧
    (s.hyper = false → exec (.partitionDestroy p) s = .next (s.report (.refused "partition destroy"))) ∧
    ((s.parts.get p).valid = true →
      (s.hyper = true → ∃ t, exec (.partitionDestroy p) s = .next t ∧ t.parts.get p = { s.parts.get p with destroying := true } ∧ t.mem = s.mem) ∧
      ((s.parts.get p).destroying = true → s.partBusy p = false →
        ∃ t, exec (.keyErase p) s = .next t ∧ t.parts.get p = Partition.reset ∧ (∀ x ∈ t.spaces, x.part ≠ p) ∧ (∀ g ∈ t.grids, g.part ≠ p) ∧
          t.mem = s.mem ∧ t.byteKey = s.byteKey ∧ t.reports = s.reports ++ [.destroyed p]) ∧
      (s.partBusy p = true → exec (.keyErase p) s = .next s) ∧
      (s.hyper = true → s.spaceOf asid = none → ∃ t, exec (.asidAllot p asid) s = .next t ∧
        t.spaces = s.spaces ++ [{ asid := asid, part := p, root := none }] ∧ t.mem = s.mem)) ∧
    (s.hyper = false ∨ s.spaceOf asid ≠ none → exec (.asidAllot p asid) s = .next (s.report (.refused "asid"))) ∧
    (s.bound agent p = true → ∃ t, exec (.debugEnable agent p) s = .next t ∧ t.parts.get p = { s.parts.get p with debug := true }) ∧
    (s.bound agent p = false → exec (.debugEnable agent p) s = .next (s.report (.refused "debug")))

/-- Translation tables and vault layout (R195, R198, R200, R203, R427): only for the agent whose partition has them; an invalidation drops
the held translations at once and is complete when the accesses in flight are over; private and interleaved bytes do not overlap. That the
completion waits for every access in flight of the ASID, and not only for those that used the old entry, is the model's choice (log 71). -/
def Obligations.TranslationControl : Prop :=
  ∀ (s : State) (agent : Option PartId) (asid : Asid) (va : DWord) (c : CoreId) (k : ClusId), s.inReset = false →
    let owns := s.ownsAsid agent asid
    (owns = true →
      (∀ root, ∃ t, exec (.rootTableSet agent asid root) s = .next t ∧ t.mem = s.mem ∧ t.cores = s.cores ∧
        t.spaceOf asid = (s.spaceOf asid).map (fun x => { x with root := some root })) ∧
      (∃ t fl, exec (.translationInvalidate agent asid va) s = .next t ∧ t.mem = s.mem ∧ t.invals = s.invals ++ [(asid, va, fl)] ∧
        (∀ d, ∀ e ∈ (t.core d).tlb, e.serves asid va = false) ∧ (∀ d, ∀ e ∈ (t.clusters.get d).tcache, e.serves asid va = false) ∧
        ∀ d, ∀ a ∈ (s.core d).accs, a.asid = asid → (d, a.id) ∈ fl)) ∧
    (owns = false → (∀ root, exec (.rootTableSet agent asid root) s = .next (s.report (.refused "root table"))) ∧
      exec (.translationInvalidate agent asid va) s = .next (s.report (.refused "invalidate"))) ∧
    (∀ fl, s.invals.find? (fun x => x.1 == asid && x.2.1 == va) = some (asid, va, fl) →
      let open_ : Prop := ∃ y ∈ fl, ((s.core y.1).acc? y.2).isSome = true
      (open_ → exec (.invalidationComplete asid va) s = .next s) ∧
      (¬open_ → ∃ t, exec (.invalidationComplete asid va) s = .next t ∧ t.invals = s.invals.erase (asid, va, fl) ∧
        t.reports = s.reports ++ [.invalidated asid va] ∧ t.mem = s.mem)) ∧
    (∀ size, s.ownsCore agent c = true → owns = true → size % 2 ^ 21 = 0 → size ≤ 2 ^ 27 →
      let z := s.clusters.get (clusOf c)
      ((z.ilvZ = 0 ∨ z.ilvQ + z.ilvZ + size ≤ 192 * 2 ^ 20) →
        ∃ t, exec (.privateSizeSet agent c size asid) s = .next t ∧ t.core c = { s.core c with psize := size, powner := asid } ∧
          (∀ d, d ≠ c → t.core d = s.core d) ∧ t.mem = s.mem) ∧
      (z.ilvZ ≠ 0 → 192 * 2 ^ 20 < z.ilvQ + z.ilvZ + size →
        exec (.privateSizeSet agent c size asid) s = .next (s.report (.refused "private size")))) ∧
    ∀ q z, s.ownsCore agent (coreAt k 0) = true → q % 2 ^ 21 = 0 → z % 2 ^ 21 = 0 →
      let fits : Prop := ∀ i, i < 192 → q + z + (s.core (coreAt k i)).psize ≤ 192 * 2 ^ 20
      (fits → ∃ t, exec (.interleaveSet agent k q z) s = .next t ∧ t.clusters.get k = { s.clusters.get k with ilvQ := q, ilvZ := z } ∧
        t.mem = s.mem ∧ t.cores = s.cores) ∧
      (¬fits → exec (.interleaveSet agent k q z) s = .next (s.report (.refused "interleave")))

/-- Policies, groups and the host (R292, R382, R387, R404, R405, R409, R413, R418, R426): values in range are written and no other state;
ESCWAIT is at least 16; a rail moves only without a resident team; the hypervisor's requests need its session; and the host reads and writes
as the partition of its ASID. The model's choice: that a group defined a second time has its members replaced and its counts cleared
(log 36), and that a policy value out of range is refused (log 35). -/
def Obligations.PoliciesAndHost : Prop :=
  ∀ (s : State) (p : PartId) (value : DWord), s.inReset = false →
    let onlyPart (t : State) : Prop := (∀ q, q ≠ p → t.parts.get q = s.parts.get q) ∧ { t with parts := s.parts } = s
    (s.hyper = true → (s.parts.get p).valid = true →
      (∀ cls, ∃ t b, exec (.pbudgetWrite p cls value) s = .next t ∧
        t.parts.get p = { s.parts.get p with budgets := (s.parts.get p).budgets.set cls b } ∧ b.flits.toNat = value.toNat % 2 ^ 24 ∧
        b.unlim = value.getLsbD 24 ∧ b.collpri = (decide (cls = 3) && value.getLsbD 25) ∧ onlyPart t) ∧
      (∀ n, n ≤ 1 → ∃ t, exec (.policyRegisterWrite p .pack n) s = .next t ∧ t.parts.get p = { s.parts.get p with pack := n == 1 } ∧ onlyPart t) ∧
      (∀ n, 1 ≤ n → n ≤ 16 → ∃ t, exec (.policyRegisterWrite p .run n) s = .next t ∧ t.parts.get p = { s.parts.get p with run := n } ∧ onlyPart t) ∧
      (∀ n, 2 ^ 16 ≤ n → n ≤ 2 ^ 40 →
        ∃ t, exec (.policyRegisterWrite p .wdlim n) s = .next t ∧ t.parts.get p = { s.parts.get p with wdlim := n } ∧ onlyPart t) ∧
      (∀ n, 1 < n → exec (.policyRegisterWrite p .pack n) s = .next (s.report (.refused "policy"))) ∧
      (∀ n, n = 0 ∨ 16 < n → exec (.policyRegisterWrite p .run n) s = .next (s.report (.refused "policy"))) ∧
      ∀ n, n < 2 ^ 16 ∨ 2 ^ 40 < n → exec (.policyRegisterWrite p .wdlim n) s = .next (s.report (.refused "policy"))) ∧
    (s.hyper = true →
      ∃ t, exec (.escwaitWrite value) s = .next t ∧ t.escwait.toNat = Max.max 16 (value.toNat % 2 ^ 12) ∧ { t with escwait := s.escwait } = s) ∧
    (s.hyper = false →
      (∀ cls, exec (.pbudgetWrite p cls value) s = .next (s.report (.refused "budget"))) ∧
      (∀ pol n, exec (.policyRegisterWrite p pol n) s = .next (s.report (.refused "policy"))) ∧
      exec (.escwaitWrite value) s = .next (s.report (.refused "network register"))) ∧
    (∀ k rail, s.hyper = true → s.resident k = false →
      ∃ t, exec (.railSet k rail) s = .next t ∧ t.clusters.get k = { s.clusters.get k with rail := rail } ∧
        (∀ j, j ≠ k → t.clusters.get j = s.clusters.get j) ∧ { t with clusters := s.clusters } = s) ∧
    (∀ k rail, s.hyper = false ∨ s.resident k = true → exec (.railSet k rail) s = .next (s.report (.refused "rail"))) ∧
    (∀ group members tree, s.managed = true → (s.parts.get p).valid = true → members ≠ [] → (s.groups.countP fun g => g.part == p) < 4096 →
      (∀ q ∈ s.colls, ¬(q.part = p ∧ q.group = group)) →
      ∃ t, exec (.collectiveGroupDefine p group ⟨members, tree⟩) s = .next t ∧
        t.group? p group = some { part := p, num := group, members := members, tree := tree, counts := [] } ∧
        (∀ q n, ¬(q = p ∧ n = group) → t.group? q n = s.group? q n) ∧ { t with groups := s.groups } = s) ∧
    ∀ (asid : Asid) (x : Space), s.spaceOf asid = some x →
      (∀ agent, (s.bound agent x.part = true → ∃ t, exec (.hostAsidBind ⟨agent, asid⟩) s = .next t ∧ t.hostAsid = some asid ∧ { t with hostAsid := s.hostAsid } = s) ∧
        (s.bound agent x.part = false → exec (.hostAsidBind ⟨agent, asid⟩) s = .next (s.report (.refused "host")))) ∧
      (s.hostAsid = some asid →
        let w : Party := { core := none, part := x.part, asid := x.asid }
        (∀ va n bs, s.engRead w va n = .ok bs →
          exec (.hostLoadStore (.load va n)) s = .next (s.report (.hostData va bs))) ∧
        (∀ va bs r pl, Lands s w va bs.length pl → ∃ t, exec (.hostLoadStore (.store va bs r)) s = .next t ∧ t.cores = s.cores ∧
          bytesAt t x.part pl bs.length = bs) ∧
        ∀ va v bs pl, Lands s w va 8 pl → s.engRead w va 8 = .ok bs → ∃ t, exec (.hostLoadStore (.atomicAdd va v)) s = .next t ∧
          bytesAt t x.part pl 8 = leBytes 8 ((leNat bs + v.toNat) % 2 ^ 64) ∧ t.reports = s.reports ++ [.hostData va bs])

/-! ### Power, network and trust -/

/-- Caps and regulators (R413, R414, R415): a cap is clamped and refused below the floors, and board management reads it and what the last
clamp or refusal was (R429; the layout of register 0x11 is the model's, log 91); a failed phase takes its rail's clusters to pass count 4,
which fall again one cluster at a time in ascending clusid. -/
def Obligations.CapsAndPhases : Prop :=
  ∀ (s : State), s.inReset = false →
    (∀ watts, let v := Max.max 420 (Min.min 2700 watts)
      ∃ t, exec (.powerCapWrite watts) s = .next t ∧ t.cap = (if v < s.floors then s.cap else v) ∧
        t.reports = s.reports ++ (if v = watts then [] else [.capClamped v]) ++ (if v < s.floors then [.capRefused v] else []) ∧
        { t with cap := s.cap, capEvent := s.capEvent, reports := s.reports } = s ∧ t.i3c 0x10 = some [t.cap] ∧
        (v < s.floors → t.i3c 0x11 = some [2, v]) ∧ (s.floors ≤ v → v ≠ watts → t.i3c 0x11 = some [1, v]) ∧
        (s.floors ≤ v → v = watts → t.i3c 0x11 = s.i3c 0x11)) ∧
    (∀ rail, (s.rails.get rail).phaseok ≠ 0 → let n := (s.rails.get rail).phaseok.toNat - 1
      ∃ t, exec (.phaseFailure rail) s = .next t ∧ (t.rails.get rail).phaseok.toNat = n ∧ (t.rails.get rail).ilim.toNat = 60 * n ∧
        (∀ r, r ≠ rail → t.rails.get r = s.rails.get r) ∧
        (∀ k, t.clusters.get k = if (s.clusters.get k).rail = rail then { s.clusters.get k with passes := 4 } else s.clusters.get k) ∧
        t.reports = s.reports ++ [.phaseFailed rail] ∧ (∃ l, t.i3c 0x12 = some l ∧ l[rail.val]? = some n) ∧
        { t with clusters := s.clusters, rails := s.rails, reports := s.reports } = s) ∧
    ∀ k current, let z := s.clusters.get k
      let turn : Prop := z.passes ≠ 1 ∧ ∀ j, j < k → (s.clusters.get j).rail = z.rail → (s.clusters.get j).passes = 1
      (current < (s.rails.get z.rail).ilim.toNat → turn →
        ∃ t, exec (.passCountLower k current) s = .next t ∧
          OnlyCluster s t k fun z => { z with passes := if z.passes = 4 then 2 else 1 }) ∧
      (¬(current < (s.rails.get z.rail).ilim.toNat ∧ turn) → exec (.passCountLower k current) s = .next s)

/-- The cap kept, one step in each window (R416), in which the temperatures of the dies are measured, as the management registers show
them (R429; which register shows which quantity is left open); a core gates after 1024 idle cycles (R412); what each DRAM temperature threshold does, that
a thermal trip loses everything but its record (R417, R429), and that a hang is reported and does not trap (R418). The model's choice: how far
a step throttles and that one partition is chosen (log 38), the pass count after a throttle ends (log 75), that a hang is reported once
(log 77), and that memory lists nothing after a trip (log 72). -/
def Obligations.ThrottlingAndTemperature : Prop :=
  (∀ (s : State) (x : PowerSample), s.inReset = false →
     let draw := x.draw
     let dies : Vector Nat 8 := Vector.ofFn fun k => x.dies.getD k.val 0
     let slows (p : PartId) : Bool := (List.finRange 8).any fun k => let z := s.clusters.get k
       (s.parts.get p).clusters.getLsbD k.val && (z.passes == 1 || z.passes == 2 || !z.lowClock)
     let above (p : PartId) : Nat := if (s.parts.get p).valid && slows p then draw.getD p.val 0 - (s.parts.get p).floor else 0
     (draw.sum ≤ s.cap → ∃ t, exec (.powerWindow x) s = .next t ∧
       (∀ k, t.clusters.get k = { s.clusters.get k with lowClock := false }) ∧ t.power = draw.sum ∧ t.dies = dies ∧
       { t with clusters := s.clusters, power := s.power, dies := s.dies } = s) ∧
     (∀ p, s.cap < draw.sum → 0 < above p → (∀ q, q < p → above q < above p) → (∀ q, above q ≤ above p) →
       ∃ t, exec (.powerWindow x) s = .next t ∧ { t with clusters := s.clusters, power := s.power, dies := s.dies } = s ∧
         t.power = draw.sum ∧ t.dies = dies ∧
         ∀ k, let z := s.clusters.get k
           t.clusters.get k = if (s.parts.get p).clusters.getLsbD k.val = false then z
             else if z.passes = 1 then { z with passes := 2 } else if z.passes = 2 then { z with passes := 4 }
             else { z with lowClock := true }) ∧
     (s.cap < draw.sum → (∀ p, above p = 0) → exec (.powerWindow x) s = .next { s with power := draw.sum, dies := dies }) ∧
     (∀ r, r < 0x10 → s.i3c r = some ((Config.sensorShows r).map fun i =>
       if i < 8 then s.dies.toList.getD i 0 else if i < 16 then s.junctions.toList.getD (i - 8) 0 else if i = 16 then s.power else 0)) ∧
     ∀ c, let k := s.core c
       let vacant : Prop := (∀ ti, (k.team ti).live = false) ∧ k.eng = [] ∧ k.mat = []
       (vacant → 1024 ≤ k.idle → ∃ t, exec (.coreGate c) s = .next t ∧ t.core c = { k with gated := true } ∧
         (∀ d, d ≠ c → t.core d = s.core d) ∧ { t with cores := s.cores } = s) ∧
       (¬(vacant ∧ 1024 ≤ k.idle) → exec (.coreGate c) s = .next s)) ∧
  (∀ (s : State) (k : ClusId) (temp : Nat), s.inReset = false →
     let z := s.clusters.get k
     let h := { s with junctions := s.junctions.set k temp }
     (85 < temp → ∃ t, exec (.refreshDouble k temp) s = .next t ∧ OnlyCluster h t k fun z => { z with refresh2 := true }) ∧
     (temp ≤ 85 → exec (.refreshDouble k temp) s = .next h) ∧
     (90 ≤ temp → z.throttled = false → ∃ t, exec (.thermalThrottle k temp) s = .next t ∧
       OnlyCluster h t k (fun z => { z with throttled := true }) ∧ (t.clusters.get k).passCount = 4 ∧
       t.reports = s.reports ++ [.throttled k]) ∧
     (temp < 90 → exec (.thermalThrottle k temp) s = .next h) ∧
     (95 ≤ temp → z.stopped = false → ∃ t, exec (.thermalStop k temp) s = .next t ∧
       OnlyCluster h t k (fun z => { z with stopped := true }) ∧ (∀ c, clusOf c = k → t.noIssue c = true) ∧
       t.reports = s.reports ++ [.stopped k]) ∧
     (temp < 95 → exec (.thermalStop k temp) s = .next h) ∧
     (temp ≤ 85 → ∃ t, exec (.refreshRateRestore k temp) s = .next t ∧ OnlyCluster h t k fun z => { z with refresh2 := false }) ∧
     (85 < temp → exec (.refreshRateRestore k temp) s = .next h) ∧
     (temp < 90 →
       (∃ t, exec (.thermalThrottleEnd k temp) s = .next t ∧ OnlyCluster h t k (fun z => { z with throttled := false }) ∧
         (t.clusters.get k).passCount = z.passes) ∧
       ∃ t, exec (.thermalStopEnd k temp) s = .next t ∧ OnlyCluster h t k fun z => { z with stopped := false }) ∧
     (90 ≤ temp → exec (.thermalThrottleEnd k temp) s = .next h ∧ exec (.thermalStopEnd k temp) s = .next h) ∧
     (105 ≤ temp → ∃ t, exec (.thermalTrip k temp) s = .next t ∧ t.inReset = true ∧ t.trip = some k ∧ t.mem = [] ∧
       (∀ c, t.core c = Core.reset) ∧ (∀ p, (t.parts.get p).valid = false) ∧ t.spaces = [] ∧ t.queues = [] ∧ t.grids = []) ∧
     (temp < 105 → exec (.thermalTrip k temp) s = .next h) ∧
     (∃ t a b, exec .thermalStateRead s = .next t ∧ t.trip = none ∧ t.reports = s.reports ++ [.thermal a b s.trip] ∧
       (∀ j : ClusId, a.getLsbD j.val = (s.clusters.get j).throttled ∧ b.getLsbD j.val = (s.clusters.get j).stopped) ∧
       { t with trip := s.trip, reports := s.reports } = s) ∧
     ∀ c i, let g := s.gangAt c i
       let x := s.teamAt c i
       let due : Prop := g.live = true ∧ g.hung = false ∧ (s.parts.get x.part).wdlim ≤ g.watchdog
       (due → ∃ t, exec (.watchdogExpiry c i) s = .next t ∧ t.gangAt c i = { g with hung := true } ∧
         (∀ d j, ¬(d = c ∧ j = i) → t.gangAt d j = s.gangAt d j) ∧ t.mem = s.mem ∧
         t.reports = s.reports ++ [.hang x.gridid x.teamid g.gangid (clusOf c) (coreidOf c)]) ∧
       (¬due → exec (.watchdogExpiry c i) s = .next s))

/-- The crossbar (R400, R403, R405, R412): what an output grants, how it counts, how long a message keeps it, the promotion of a best-effort
flit that has waited, and the escape channel, on which a message takes no hop but along the row and then across, and which it leaves at its
destination. An output to the cores of a cluster that are all gated grants nothing. That inputs which were never granted go by port number is
the model's choice (log 39). -/
def Obligations.CrossbarGrants : Prop :=
  ∀ (s : State) (k : ClusId) (o : Fin 208) (reqs : List Flit), s.inReset = false → (reqs.map (·.input)).Nodup →
    let fs := reqs.filter (s.onRoute k o)
    let z := s.clusters.get k
    let x := z.output o
    let gated : Prop := o.val < 192 ∧ ∀ i, i < 192 → (s.core (coreAt k i)).gated = true
    (∀ f ∈ fs, ¬gated → (x.lock = some f.input ∨ (x.lock = none ∧ Granted z o fs f)) →
      ∃ t, exec (.crossbarGrant k o reqs) s = .next t ∧ { t with clusters := s.clusters, escaped := s.escaped } = s ∧
        (∀ j, j ≠ k → t.clusters.get j = s.clusters.get j) ∧
        (let z' := t.clusters.get k
         (z'.output o).lock = (if f.last then none else some f.input) ∧
          (z'.output o).order = x.order.filter (fun i => i != f.input) ++ [f.input] ∧
          z'.granted f.part f.cls = z.granted f.part f.cls + 1 ∧
          (∀ p c, (p, c) ≠ (f.part, f.cls) → z'.granted p c = z.granted p c) ∧
          (∀ q, q ≠ o → z'.output q = z.output q) ∧ ∀ y, y ∈ z'.promoted ↔ y ∈ z.promoted ∧ y ≠ (o, f.input)) ∧
        (f.last = false ∨ s.escapedMsg k f = none → t.escaped = s.escaped) ∧
        ∀ m, f.last = true → s.escapedMsg k f = some m → (∀ y ∈ s.escaped, y ≠ m → y ∈ t.escaped) ∧
          (dieNext k o ≠ m.dest → { m with place := dieNext k o } ∈ t.escaped) ∧
          (dieNext k o = m.dest → ∀ y ∈ t.escaped, y ∈ s.escaped ∧ y ≠ m)) ∧
    (gated ∨ fs = [] ∨ (∃ i, x.lock = some i ∧ ∀ f ∈ fs, f.input ≠ i) → exec (.crossbarGrant k o reqs) s = .next s) ∧
    (∃ t, exec (.budgetPeriodEnd k) s = .next t ∧
      OnlyCluster s t k (fun z => { z with flits := [], inForce := s.parts.map fun p => p.budgets }) ∧
      ∀ p c, (t.clusters.get k).granted p c = 0) ∧
    (∀ i waited, (8192 ≤ waited → ∃ t, exec (.bestEffortPromote k o i waited) s = .next t ∧
        (t.clusters.get k).promoted.contains (o, i) = true ∧ OnlyCluster s t k fun z => { z with promoted := (t.clusters.get k).promoted }) ∧
      (waited < 8192 → exec (.bestEffortPromote k o i waited) s = .next s)) ∧
    (∀ a b : ClusId, a ≠ b → ∃ p, escapeHop a b = some p ∧ p ∈ minimalHops a b ∧
      (if dieCol a = dieCol b then dieNext a p = b else dieRow (dieNext a p) = dieRow a)) ∧
    ∀ msg blocked, (∀ y ∈ s.escaped, y.num ≠ msg.num) →
      (s.escwait.toNat ≤ blocked → msg.place ≠ msg.dest → ∃ t, exec (.escapeEnter msg blocked) s = .next t ∧
        t.escaped = s.escaped ++ [msg] ∧ { t with escaped := s.escaped } = s) ∧
      (blocked < s.escwait.toNat → exec (.escapeEnter msg blocked) s = .next s)

/-- Links (R176, R295, R410, R420, R421, R428): a chain verifies where each certificate does, under both signatures, from the root's keys on;
a Brodlink link comes up on the keys of the session with its far end, one for each direction, only where both chains of the peer verify;
sixteen frames in a row that fail take a link down; a direction gets a new key after 2^40 frames under the old one, or the link goes
down; and a link that goes down fails the exchanges lost on it and the collectives that cross it. The model's choice: which collectives those
are and how they end (log 40), that the keys of a link that is down read 0 (log 76), that an Ethernet port comes up on the keys installed
alone, without signatures (log 78), the standards' signatures (log 108), and what a direction's new key is (log 109). -/
def Obligations.Links : Prop :=
  (∀ xs : List Cert, chainOk xs = true ↔ xs ≠ [] ∧ ∀ i x, xs[i]? = some x →
    let keys : PubKeys := if i = 0 then Config.rootKeys else match xs[i - 1]? with | some y => Config.keysIn y.bytes | none => Config.rootKeys
    rsaPssOk keys x.bytes x.rsaSig = true ∧ slhDsaOk keys x.bytes x.slhSig = true) ∧
  ∀ (s : State) (port : LinkPort), s.inReset = false →
    let x := s.link port
    let others (t : State) : Prop := ∀ q, q ≠ port → t.link q = s.link q
    let onlyLinks (t : State) : Prop := others t ∧ { t with links := s.links } = s
    let crosses (q : Collective) : Prop := q.result = none ∧ ∃ g, s.group? q.part q.group = some g ∧ g.crosses port = true
    let down (t : State) (lost : List (CoreId × SlotId × Nat)) : Prop :=
      t.link port = { port := port, up := false, tx := 0, rx := 0, sent := 0, received := 0, authFails := 0 } ∧ others t ∧
      t.reports = s.reports ++ [.linkDown port] ∧ t.mem = s.mem ∧
      (∀ y, y ∈ t.xchgErrs ↔ y ∈ s.xchgErrs ∨ (y ∈ lost ∧ s.exchangeSent y = true)) ∧
      ∀ q ∈ s.colls, (crosses q → ∃ q' ∈ t.colls, q'.part = q.part ∧ q'.group = q.group ∧ q'.n = q.n ∧
        q'.result.isSome = true ∧ ∀ m ∈ q'.mems, m.code = 0x25) ∧ (¬crosses q → q ∈ t.colls)
    (x.up = true →
      (∀ lost, ∃ t, exec (.linkDown ⟨port, lost⟩) s = .next t ∧ down t lost) ∧
      (∀ (good : Bool) lost, let n := if good then 1 else x.authFails + 1
        (16 ≤ n → ∃ t, exec (.frameAuthFail ⟨port, good, lost⟩) s = .next t ∧ down t lost) ∧
        (n < 16 → ∃ t, exec (.frameAuthFail ⟨port, good, lost⟩) s = .next t ∧
          t.link port = { x with authFails := n, received := x.received + 1 } ∧ onlyLinks t)) ∧
      ∀ (rx : Bool) (frames key : Nat) lost,
        let total := frames + if rx then x.received else x.sent
        let replaced (k : Nat) : Prop := ∃ t, exec (.linkKeyReplace ⟨port, rx, frames, true, key, lost⟩) s = .next t ∧ onlyLinks t ∧
          t.link port = if rx then { x with rx := k, received := 0 } else { x with tx := k, sent := 0 }
        let lostAs (ok : Bool) : Prop := ∃ t, exec (.linkKeyReplace ⟨port, rx, frames, ok, key, lost⟩) s = .next t ∧ down t lost
        let next := nextKeyOf (if rx then x.rx else x.tx)
        (∀ ok, total < 2 ^ 40 → ∃ t, exec (.linkKeyReplace ⟨port, rx, frames, ok, key, lost⟩) s = .next t ∧ onlyLinks t ∧
          t.link port = if rx then { x with received := total } else { x with sent := total }) ∧
        (2 ^ 40 ≤ total → lostAs false ∧
          (∀ n, port = .brodlink n → (next ≠ 0 → replaced next) ∧ (next = 0 → lostAs true)) ∧
          ∀ n, port = .ethernet n → (key ≠ 0 → replaced key) ∧ (key = 0 → lostAs true))) ∧
    (x.up = false → ∀ lost, exec (.linkDown ⟨port, lost⟩) s = .next s ∧ (∀ good, exec (.frameAuthFail ⟨port, good, lost⟩) s = .next s) ∧
      ∀ rx frames ok key, exec (.linkKeyReplace ⟨port, rx, frames, ok, key, lost⟩) s = .next s) ∧
    (x.up = false → ∀ (id : Nat) (rsa slh : List Cert),
      let refused : Prop := exec (.linkUp ⟨port, id⟩ rsa slh) s = .next (s.report (.refused "link"))
      (∀ n, port = .brodlink n →
        let far (y : Session) : Prop := y ∈ s.spdm.sessions ∧ y.id = id ∧ y.finished = true ∧ y.port = some n
        (∀ y, far y → (∀ z ∈ s.spdm.sessions, z.id = id → z = y) → chainOk rsa = true → chainOk slh = true →
          ∃ t, exec (.linkUp ⟨port, id⟩ rsa slh) s = .next t ∧ onlyLinks t ∧
            t.link port = { port := port, up := true, tx := y.rspKey, rx := y.reqKey, sent := 0, received := 0, authFails := 0 }) ∧
        (¬(chainOk rsa = true ∧ chainOk slh = true) ∨ (∀ y, ¬far y) → refused)) ∧
      ∀ n, port = .ethernet n →
        (x.tx ≠ 0 → x.rx ≠ 0 → ∃ t, exec (.linkUp ⟨port, id⟩ rsa slh) s = .next t ∧
          t.link port = { x with up := true, authFails := 0 } ∧ onlyLinks t) ∧
        (x.tx = 0 ∨ x.rx = 0 → refused)) ∧
    ∀ n tx rx, port = .ethernet n →
      ∃ t, exec (.ethernetKeyInstall n ⟨tx, rx⟩) s = .next t ∧ t.link port = { x with tx := tx, rx := rx, sent := 0, received := 0 } ∧
        onlyLinks t

/-- Boot (R419, R420): the images of the power controller, of link training and of the responder, in this order; the first that is missing, fails
either signature over the same bytes, or is older than the fused minimum stops the boot; the minimum rises only when every image has verified.
Attestation (R421 to R423, R427): each supported request, both signatures over one transcript, the measurement blocks, of which 9 goes to a
session bound to a partition alone, and a session bound to a partition only under both owner keys; every other code is answered
UnsupportedRequest. The model's choice: the layout of the messages, the transcripts, the flags and the order of requests (log 14), that
GET_VERSION clears what was negotiated (log 80), what is cleared at reset (log 72), that the first three images of the flash are taken, that a
missing one stops the boot with its index, and that the minimum waits for all of them (log 73), what the blocks 2, 4 to 6, 8 and 9 digest
(log 74), which bytes of an image are signed (log 92), and the standards' digests, signatures and key agreement, which the spec names alone
(log 108). -/
def Obligations.BootAndAttestation : Prop :=
  (∀ (s : State) (flash : List Image),
     let good (x : Image) : Prop := rsaPssOk Config.rootKeys (imageBytes x) x.rsaSig = true ∧
       slhDsaOk Config.rootKeys (imageBytes x) x.slhSig = true ∧ s.minVersion ≤ x.version.toNat
     let cleared (t : State) : Prop := t.mem = [] ∧ (∀ c, t.core c = Core.reset) ∧ (∀ p, (t.parts.get p).valid = false) ∧ t.spaces = [] ∧
       t.queues = [] ∧ t.grids = [] ∧ t.cap = 2700 ∧ t.escwait = 256 ∧ t.trip = s.trip ∧ t.devid = s.devid ∧ t.bootMin = s.minVersion
     (∀ a b c rest, flash = a :: b :: c :: rest → good a → good b → good c → ∃ t, exec (.packageReset flash) s = .next t ∧
       cleared t ∧ t.inReset = false ∧ t.images = [imageBytes a, imageBytes b, imageBytes c] ∧
       t.minVersion = Nat.max s.minVersion (Nat.max a.version.toNat (Nat.max b.version.toNat c.version.toNat))) ∧
     ∀ n, n < 3 → (∀ i, i < n → ∃ x, flash[i]? = some x ∧ good x) → (∀ x, flash[n]? = some x → ¬good x) →
       ∃ t, exec (.packageReset flash) s = .next t ∧ cleared t ∧ t.inReset = true ∧ t.bootImage = n + 1 ∧
         t.minVersion = s.minVersion ∧ t.reports = s.reports ++ [.bootFailed (n + 1)]) ∧
  (∀ (s : State), s.inReset = false →
     let ok (i : Instr) (what : String) (message : List Byte) (f : Spdm → Spdm) : Prop :=
       ∃ t, exec i s = .next t ∧ Answers s t what message f
     let signed (i : Instr) (what : String) (before : List Byte) (code : Byte) (body : List Byte) (f : Nat → Spdm → Spdm) : Prop :=
       ∃ t, exec i s = .next t ∧ AnswersSigned s t what before code body f
     let early (i : Instr) : Prop := ok i "UnexpectedRequest" [] id
     let wrong (i : Instr) : Prop := ok i "InvalidRequest" [] id
     let msg (code : Byte) (body : List Byte) : List Byte := 0x13 :: code :: body
     let m := s.spdm
     ok .getVersion "VERSION" (msg 0x04 [0x13]) (fun _ =>
       { version := true, caps := false, algs := false, vca := msg 0x84 [] ++ msg 0x04 [0x13], ident := [], sessions := [] }) ∧
     (let r := msg 0x61 (leBytes 4 0x3D6)
      if m.version then ok .getCapabilities "CAPABILITIES" r (fun x => { x with caps := true, vca := x.vca ++ msg 0xE1 [] ++ r })
      else early .getCapabilities) ∧
     (∀ a : SpdmAlgs, let all := a.rsaPss3072 && a.sha384 && a.p384 && a.aes256gcm
       let r := msg 0x63 (algBytes a)
       if m.caps then ok (.negotiateAlgorithms a) "ALGORITHMS" r (fun x => { x with algs := all, vca := x.vca ++ msg 0xE3 (algBytes a) ++ r })
       else early (.negotiateAlgorithms a)) ∧
     (let r := msg 0x01 (sha384 (idChain 0) ++ sha384 (idChain 1))
      if m.algs then ok .getDigests "DIGESTS" r (fun x => { x with ident := x.ident ++ msg 0x81 [] ++ r }) else early .getDigests) ∧
     (∀ (slot : Fin 2) (nonce : Nat),
       let b := leBytes 1 slot.val
       let r := msg 0x02 (b ++ idChain slot)
       if m.algs then
         ok (.getCertificate slot.val) "CERTIFICATE" r (fun x => { x with ident := x.ident ++ msg 0x82 b ++ r }) ∧
         signed (.challenge slot.val nonce) "CHALLENGE_AUTH" (m.vca ++ m.ident ++ msg 0x83 (b ++ leBytes 32 nonce)) 0x03
           (b ++ sha384 (idChain slot)) (fun _ x => { x with ident := [] })
       else early (.getCertificate slot.val) ∧ early (.challenge slot.val nonce)) ∧
     (∀ slot nonce, m.algs = true → 2 ≤ slot → wrong (.getCertificate slot) ∧ wrong (.challenge slot nonce)) ∧
     (∀ (agent : Option PartId) (index nonce : Nat),
       let i : Instr := .getMeasurements agent index nonce
       let bound : Prop := ∃ p, agent = some p ∧ s.bound (some p) p = true
       let blocks (n : Nat) (l : List (Nat × List Byte)) : Prop := l.map (·.1) = (List.range n).map (· + 1) ∧
         (1, sha384 Config.romImage) ∈ l ∧ (2, sha384 (Config.fuses ++ leBytes 4 s.bootMin)) ∈ l ∧
         (3, leBytes 4 0x4F1C92A7) ∈ l ∧ (7, leBytes 4 s.minVersion) ∈ l ∧ (8, sha384 s.partitionMap) ∈ l ∧
         (∀ j, j < 3 → (4 + j, sha384 (s.runningImage (j + 1))) ∈ l) ∧
         ∀ p, n = 9 → agent = some p → (9, sha384 (s.policies p)) ∈ l
       let bytes (n : Nat) (v : List Byte) : List Byte := leBytes 1 n ++ leBytes 2 v.length ++ v
       let answers (body : List Byte) : Prop :=
         signed i "MEASUREMENTS" (m.vca ++ msg 0xE0 (leBytes 1 index ++ leBytes 32 nonce)) 0x60 body fun _ => id
       if m.algs then ∃ l, (bound → blocks 9 l) ∧ (¬bound → blocks 8 l) ∧
         (∀ v, (index, v) ∈ l → answers (bytes index v)) ∧
         (index = 0 → answers (leBytes 1 l.length)) ∧
         (index = 255 → answers (l.flatMap fun x => bytes x.1 x.2)) ∧
         (index ≠ 0 → index ≠ 255 → (∀ v, (index, v) ∉ l) → wrong i)
       else early i) ∧
     (∀ x : DheShare, let known : Prop := ∃ y ∈ m.sessions, y.id = x.session
       let before := m.vca ++ sha384 (idChain 0) ++ msg 0xE4 (leBytes 4 x.session ++ beBytes 48 x.x ++ beBytes 48 x.y)
       (m.algs = true → ¬known → onP384 (x.x, x.y) = true → ∃ d, 1 ≤ d ∧ d < p384N ∧
         let body := leBytes 4 x.session ++ dhePoint d
         signed (.keyExchange x) "KEY_EXCHANGE_RSP" before 0x64 body fun r z => { z with sessions := z.sessions ++
           [{ id := x.session, transcript := before ++ msg 0x64 (body ++ leBytes 32 r), secret := handshakeSecret (dheShared d x)
              reqKey := 0, rspKey := 0, port := x.port, finished := false, part := none }] }) ∧
       (m.algs = true → known ∨ onP384 (x.x, x.y) = false → wrong (.keyExchange x)) ∧
       (m.algs = false → early (.keyExchange x))) ∧
     (∀ id_ : Nat, let known : Prop := ∃ y ∈ m.sessions, y.id = id_
       (known → ok (.endSession id_) "END_SESSION_ACK" (msg 0x6C []) fun x =>
         { x with sessions := x.sessions.filter fun y => y.id != id_ }) ∧
       (¬known → early (.endSession id_) ∧ ∀ p rsa slh, early (.finish id_ p rsa slh)) ∧
       ∀ (p : Option PartId) (rsa slh : List Byte) (y : Session), s.session? id_ = some y →
         let req := msg 0xE5 (leBytes 4 id_)
         let rsp := msg 0x65 (leBytes 4 id_)
         (y.finished = true → early (.finish id_ p rsa slh)) ∧
         (y.finished = false →
           let bind : Prop := ∀ q, p = some q → y.port = none ∧ (s.parts.get q).valid = true ∧
             rsaPssOk (s.parts.get q).ownerKeys (y.transcript ++ req) rsa = true ∧
             slhDsaOk (s.parts.get q).ownerKeys (y.transcript ++ req) slh = true
           (bind → ok (.finish id_ p rsa slh) "FINISH_RSP" rsp fun x => { x with sessions := x.sessions.map fun z =>
             let th := sha384 (z.transcript ++ req ++ rsp)
             if z.id == id_ then { z with finished := true, part := p, reqKey := sessionKey z.secret th false
                                          rspKey := sessionKey z.secret th true } else z }) ∧
           (¬bind → ok (.finish id_ p rsa slh) "DecryptError" [] id))) ∧
     ∀ code, (code ∉ spdmCodes → ok (.unsupportedRequest code) "UnsupportedRequest" (msg 0x7F [0x07, code]) id) ∧
       (code ∈ spdmCodes → exec (.unsupportedRequest code) s = .next s))

/-! ### The whole machine -/

/-- Reset (R103, R180, R183, R251, R404, R405, R413, R415): what the spec states of the machine right after reset, that its memory has the
canonical form (log 2), that firmware already runs, which is the model's choice (log 72), and that a gang slot already holds what R98 gives
it at placement, but its lanes' generators 0, which is the model's choice (log 3). Its split and join tables are sound (R19). -/
def Obligations.ResetState : Prop :=
  let s := State.reset
  MemWf s ∧ (∀ a, s.mem.read a = 0) ∧ s.inReset = false ∧ s.bootImage = 0 ∧ s.cap = 2700 ∧ s.escwait = 256 ∧ s.trip = none ∧
    (∀ r, (s.rails.get r).phaseok = 16 ∧ (s.rails.get r).ilim = 960) ∧
    (∀ p, (s.parts.get p).valid = false ∧ ∀ c, ((s.parts.get p).budgets.get c).unlim = true ∧
      ((s.parts.get p).budgets.get c).collpri = false ∧ ((s.parts.get p).budgets.get c).flits = 0) ∧
    ∀ c, let k := s.core c
      k.leafEn = true ∧ k.pcount = 0 ∧ k.holder = none ∧ k.accs = [] ∧ k.eng = [] ∧ k.mat = [] ∧
        (∀ e, (k.leaf.get e).valid = 0) ∧ (∀ e, (k.tiles.get e).v = false ∧ (k.tiles.get e).gen = 0) ∧
        (∀ e, (k.locks.get e).v = false) ∧ (∀ a, k.spad.read a = 0) ∧ (∀ t, (k.team t).live = false) ∧
        ∀ i, let g := k.gang i
          g.live = false ∧ (∀ r l, (g.v.get r).get l = VCell.zero) ∧ (∀ r, g.u.get r = 0) ∧ (∀ r, g.m.get r = 0) ∧
            (∀ r, g.dn.get r = 0x8000 ∧ ∀ l, (g.dc.get r).get l = 0) ∧ (∀ r, g.k.get r = 0 ∧ g.ks.get r = 0) ∧ (∀ r, g.lc.get r = 0) ∧
            (∀ l, g.rng.get l = 0) ∧ g.skm = 4 ∧ g.skseed = 0 ∧ g.intrap = false ∧ g.trapcause = 0 ∧ g.trappc = 0 ∧ g.trapinfo = 0 ∧
            g.traplate = 0 ∧ g.latch = [] ∧ g.pend = [] ∧ SplitTables g

/-- The canonical form of device memory is kept by every step, whatever instruction or event it is (log 2). -/
def Obligations.MemoryStaysCanonical : Prop :=
  ∀ s t : State, MemWf s → step s = .next t → MemWf t

/-- Encoding and decoding agree (R38 to R47, R61, R62): a well-formed instruction is decoded from its own words, whatever follows them;
it takes a literal word exactly where its opcode does; and a word that decodes is the only encoding of its instruction, so that no bit of
a word is dropped. -/
def Obligations.DecodeEncodeRoundTrip : Prop :=
  (∀ (i : Instr) (w : Word) (lit : Option Word) (rest : List Byte), i.wf = true → encode i = some (w, lit) →
    decode w (lit.getD 0) = .ok i ∧ takesLiteral (opcodeOf w) = lit.isSome ∧ decodeBytes (encodeBytes i ++ rest) = .ok (i, rest)) ∧
  ∀ (w lit : Word) (i : Instr), decode w lit = .ok i →
    i.wf = true ∧ encode i = some (w, if takesLiteral (opcodeOf w) then some lit else none)

/-- The manual's worked encodings, one or two of each family, are decoded to what they stand for, and its examples of words that are no
instruction are rejected (R62, R64). -/
def Obligations.WorkedEncodings : Prop :=
  (decode 0x01101086 0 = .ok (.add 4 1 2 0 6) ∧ decode 0x1D20431C 0 = .ok (.ffma 8 4 12 1 true 4) ∧
    decode 0x231820C8 0 = .ok (.fcvt 6 2 0 3 0 true 0) ∧ decode 0x2C0C0000 0x3FC00000 = .ok (.movi 3 0 0x3FC00000) ∧
    decode 0x30101043 0 = .ok (.shfl 4 1 1 0 3) ∧ decode 0x3930108C 0 = .ok (.krd 12 1 2 3)) ∧
  (decode 0x4010830C 0x00000044 = .ok (.ld 4 8 12 3 0 0 0 0 false false 8 true false false) ∧
    decode 0x43244000 0x00280703 = .ok (.sst 9 4 40 3 true 3) ∧ decode 0x46108088 0 = .ok (.tld 4 8 false 1 false 2 0) ∧
    decode 0x4C188000 0x00107770 = .ok (.atom 6 8 0 0 16 7 3 true false true 3) ∧
    decode 0x520D0138 0x18000000 = .ok (.mma 3 16 4 3 true 6 0 false false) ∧
    decode 0x641410C8 0 = .ok (.ddot 5 1 3 2) ∧ decode 0x701020D1 0 = .ok (.skins 4 2 3 1 true)) ∧
  (decode 0x900C1FFF 0 = .ok (.saddImm 3 1 0xFFF) ∧ decode 0xA1001000 0x00050009 = .ok (.bc 1 false false false 5 9) ∧
    decode 0xA6044000 6 = .ok (.loop 1 4 6) ∧ decode 0xC0080040 0 = .ok (.mand 2 0 1) ∧ decode 0xD0080040 0 = .ok (.srd 2 true 0) ∧
    decode 0xE400C080 0 = .ok (.bwait 12 true 0 0) ∧ decode 0xF0000020 0 = .ok (.fence true false false 0) ∧
    decode 0xF1005803 0 = .ok (.bar 5 true 0 3)) ∧
  ∀ x ∈ [(0x00000000, 0), (0xFFFFFFFF, 0), (0x8C0C1001, 0), (0x1A1010B0, 0), (0x08101086, 0), (0x4010830C, 0x64), (0x520F2100, 0),
      (0x65401080, 0), (0x75000000, 0), (0xA1001004, 0), (0xE01021C0, 0), (0xF1000111, 0)],
    ∀ i, decode (BitVec.ofNat 32 x.1) (BitVec.ofNat 32 x.2) ≠ .ok i

/-- A step runs the instruction that stands at the pc (R32, R53, R62, R64, R149): where its bytes decode to `i`, and it waits for no result
and ends no loop that R149 forbids, the step is the meaning of `i` in the state that has fetched it; where they decode to nothing, the
fragment traps ILLEGAL_OP with its words in trapinfo. A gang that is to take a DEBUG_HALT (R398) takes it in place of its next instruction,
with trappc at that instruction and trapinfo 0, unless its handler runs. A fragment that an event has since kept from issuing uses its
selection up (model's choice: log 19). -/
def Obligations.StepRunsDecoded : Prop :=
  ∀ (s : State), s.agenda = [] → s.sel = true → (s.cursorLive = false → step s = .next { s with sel := false }) ∧
    (s.cursorLive = true → s.g.debugHalt.isSome = true → TrapReady s →
      ∃ t, step s = .next t ∧ t.sel = false ∧ Trapped s t 0x0F s.pc 0 ∧ t.g.debugHalt = none) ∧
    (s.cursorLive = true → (s.g.debugHalt = none ∨ s.cur.hnd = true ∨ s.g.intrap = true) →
    let w (bs : List Byte) : Word := BitVec.ofNat 32 (leNat bs)
    let fetched (p : Place) (x y : Word) : State :=
      { (s.fill s.cur.core p.fill).noteOwn [(s.pc, if takesLiteral (opcodeOf x) then 8 else 4)] with iword := x, ilit := y }
    let runs (i : Instr) (p : Place) (x y : Word) : Prop :=
      s.interlocked i = false → s.badEnd x = false → step s = exec i (fetched p x y)
    let bad (x y : Word) : Prop :=
      TrapReady s → ∃ t, step s = .next t ∧ t.sel = false ∧ Trapped s t 0x01 s.pc (y ++ x)
    ∀ bs p, Fetches s s.pc bs p →
      (∀ i, decodeBytes bs = .ok (i, []) → runs i p (w bs) 0) ∧
      (takesLiteral (opcodeOf (w bs)) = false → (∀ i, decodeBytes bs ≠ .ok (i, [])) → bad (w bs) 0) ∧
      ∀ cs q, takesLiteral (opcodeOf (w bs)) = true → Fetches s (s.pc + 4) cs q →
        (∀ i, decodeBytes (bs ++ cs) = .ok (i, []) → runs i p (w bs) (w cs)) ∧
        ((∀ i, decodeBytes (bs ++ cs) ≠ .ok (i, [])) → bad (w bs) (w cs)))
end

