-- ==== Sys2Proof/Laws/State.lean ====
section
/-!
SUPPORT. What each update leaves alone, field by field, and what it leaves in the place it writes.
-/
namespace Sys2Proof.Machine

@[simp] theorem State.modCore_agenda (s : State) (c : CoreId) (f : Core → Core) : (s.modCore c f).agenda = s.agenda := rfl
@[simp] theorem State.modCore_sel (s : State) (c : CoreId) (f : Core → Core) : (s.modCore c f).sel = s.sel := rfl
@[simp] theorem State.modCore_cur (s : State) (c : CoreId) (f : Core → Core) : (s.modCore c f).cur = s.cur := rfl
@[simp] theorem State.modCore_iword (s : State) (c : CoreId) (f : Core → Core) : (s.modCore c f).iword = s.iword := rfl
@[simp] theorem State.modCore_ilit (s : State) (c : CoreId) (f : Core → Core) : (s.modCore c f).ilit = s.ilit := rfl
@[simp] theorem State.modCore_free (s : State) (c : CoreId) (f : Core → Core) : (s.modCore c f).free = s.free := rfl
@[simp] theorem State.modCore_devid (s : State) (c : CoreId) (f : Core → Core) : (s.modCore c f).devid = s.devid := rfl
@[simp] theorem State.modCore_inReset (s : State) (c : CoreId) (f : Core → Core) : (s.modCore c f).inReset = s.inReset := rfl
@[simp] theorem State.modCore_bootImage (s : State) (c : CoreId) (f : Core → Core) : (s.modCore c f).bootImage = s.bootImage := rfl
@[simp] theorem State.modCore_minVersion (s : State) (c : CoreId) (f : Core → Core) : (s.modCore c f).minVersion = s.minVersion := rfl
@[simp] theorem State.modCore_bootMin (s : State) (c : CoreId) (f : Core → Core) : (s.modCore c f).bootMin = s.bootMin := rfl
@[simp] theorem State.modCore_images (s : State) (c : CoreId) (f : Core → Core) : (s.modCore c f).images = s.images := rfl
@[simp] theorem State.modCore_mem (s : State) (c : CoreId) (f : Core → Core) : (s.modCore c f).mem = s.mem := rfl
@[simp] theorem State.modCore_byteKey (s : State) (c : CoreId) (f : Core → Core) : (s.modCore c f).byteKey = s.byteKey := rfl
@[simp] theorem State.modCore_badUnits (s : State) (c : CoreId) (f : Core → Core) : (s.modCore c f).badUnits = s.badUnits := rfl
@[simp] theorem State.modCore_relTags (s : State) (c : CoreId) (f : Core → Core) : (s.modCore c f).relTags = s.relTags := rfl
@[simp] theorem State.modCore_spaces (s : State) (c : CoreId) (f : Core → Core) : (s.modCore c f).spaces = s.spaces := rfl
@[simp] theorem State.modCore_parts (s : State) (c : CoreId) (f : Core → Core) : (s.modCore c f).parts = s.parts := rfl
@[simp] theorem State.modCore_nextKey (s : State) (c : CoreId) (f : Core → Core) : (s.modCore c f).nextKey = s.nextKey := rfl
@[simp] theorem State.modCore_clusters (s : State) (c : CoreId) (f : Core → Core) : (s.modCore c f).clusters = s.clusters := rfl
@[simp] theorem State.modCore_queues (s : State) (c : CoreId) (f : Core → Core) : (s.modCore c f).queues = s.queues := rfl
@[simp] theorem State.modCore_served (s : State) (c : CoreId) (f : Core → Core) : (s.modCore c f).served = s.served := rfl
@[simp] theorem State.modCore_grids (s : State) (c : CoreId) (f : Core → Core) : (s.modCore c f).grids = s.grids := rfl
@[simp] theorem State.modCore_saved (s : State) (c : CoreId) (f : Core → Core) : (s.modCore c f).saved = s.saved := rfl
@[simp] theorem State.modCore_nextGrid (s : State) (c : CoreId) (f : Core → Core) : (s.modCore c f).nextGrid = s.nextGrid := rfl
@[simp] theorem State.modCore_groups (s : State) (c : CoreId) (f : Core → Core) : (s.modCore c f).groups = s.groups := rfl
@[simp] theorem State.modCore_colls (s : State) (c : CoreId) (f : Core → Core) : (s.modCore c f).colls = s.colls := rfl
@[simp] theorem State.modCore_xmsgs (s : State) (c : CoreId) (f : Core → Core) : (s.modCore c f).xmsgs = s.xmsgs := rfl
@[simp] theorem State.modCore_xchgErrs (s : State) (c : CoreId) (f : Core → Core) : (s.modCore c f).xchgErrs = s.xchgErrs := rfl
@[simp] theorem State.modCore_reports (s : State) (c : CoreId) (f : Core → Core) : (s.modCore c f).reports = s.reports := rfl
@[simp] theorem State.modCore_hostAsid (s : State) (c : CoreId) (f : Core → Core) : (s.modCore c f).hostAsid = s.hostAsid := rfl
@[simp] theorem State.modCore_invals (s : State) (c : CoreId) (f : Core → Core) : (s.modCore c f).invals = s.invals := rfl
@[simp] theorem State.modCore_escwait (s : State) (c : CoreId) (f : Core → Core) : (s.modCore c f).escwait = s.escwait := rfl
@[simp] theorem State.modCore_escaped (s : State) (c : CoreId) (f : Core → Core) : (s.modCore c f).escaped = s.escaped := rfl
@[simp] theorem State.modCore_rails (s : State) (c : CoreId) (f : Core → Core) : (s.modCore c f).rails = s.rails := rfl
@[simp] theorem State.modCore_cap (s : State) (c : CoreId) (f : Core → Core) : (s.modCore c f).cap = s.cap := rfl
@[simp] theorem State.modCore_capEvent (s : State) (c : CoreId) (f : Core → Core) : (s.modCore c f).capEvent = s.capEvent := rfl
@[simp] theorem State.modCore_junctions (s : State) (c : CoreId) (f : Core → Core) : (s.modCore c f).junctions = s.junctions := rfl
@[simp] theorem State.modCore_power (s : State) (c : CoreId) (f : Core → Core) : (s.modCore c f).power = s.power := rfl
@[simp] theorem State.modCore_dies (s : State) (c : CoreId) (f : Core → Core) : (s.modCore c f).dies = s.dies := rfl
@[simp] theorem State.modCore_trip (s : State) (c : CoreId) (f : Core → Core) : (s.modCore c f).trip = s.trip := rfl
@[simp] theorem State.modCore_spdm (s : State) (c : CoreId) (f : Core → Core) : (s.modCore c f).spdm = s.spdm := rfl
@[simp] theorem State.modCore_links (s : State) (c : CoreId) (f : Core → Core) : (s.modCore c f).links = s.links := rfl

@[simp] theorem State.modGangAt_agenda (s : State) (c : CoreId) (i : SlotId) (f : Gang → Gang) : (s.modGangAt c i f).agenda = s.agenda := rfl
@[simp] theorem State.modGangAt_sel (s : State) (c : CoreId) (i : SlotId) (f : Gang → Gang) : (s.modGangAt c i f).sel = s.sel := rfl
@[simp] theorem State.modGangAt_cur (s : State) (c : CoreId) (i : SlotId) (f : Gang → Gang) : (s.modGangAt c i f).cur = s.cur := rfl
@[simp] theorem State.modGangAt_iword (s : State) (c : CoreId) (i : SlotId) (f : Gang → Gang) : (s.modGangAt c i f).iword = s.iword := rfl
@[simp] theorem State.modGangAt_ilit (s : State) (c : CoreId) (i : SlotId) (f : Gang → Gang) : (s.modGangAt c i f).ilit = s.ilit := rfl
@[simp] theorem State.modGangAt_free (s : State) (c : CoreId) (i : SlotId) (f : Gang → Gang) : (s.modGangAt c i f).free = s.free := rfl
@[simp] theorem State.modGangAt_devid (s : State) (c : CoreId) (i : SlotId) (f : Gang → Gang) : (s.modGangAt c i f).devid = s.devid := rfl
@[simp] theorem State.modGangAt_inReset (s : State) (c : CoreId) (i : SlotId) (f : Gang → Gang) : (s.modGangAt c i f).inReset = s.inReset := rfl
@[simp] theorem State.modGangAt_bootImage (s : State) (c : CoreId) (i : SlotId) (f : Gang → Gang) : (s.modGangAt c i f).bootImage = s.bootImage := rfl
@[simp] theorem State.modGangAt_minVersion (s : State) (c : CoreId) (i : SlotId) (f : Gang → Gang) : (s.modGangAt c i f).minVersion = s.minVersion := rfl
@[simp] theorem State.modGangAt_bootMin (s : State) (c : CoreId) (i : SlotId) (f : Gang → Gang) : (s.modGangAt c i f).bootMin = s.bootMin := rfl
@[simp] theorem State.modGangAt_images (s : State) (c : CoreId) (i : SlotId) (f : Gang → Gang) : (s.modGangAt c i f).images = s.images := rfl
@[simp] theorem State.modGangAt_mem (s : State) (c : CoreId) (i : SlotId) (f : Gang → Gang) : (s.modGangAt c i f).mem = s.mem := rfl
@[simp] theorem State.modGangAt_byteKey (s : State) (c : CoreId) (i : SlotId) (f : Gang → Gang) : (s.modGangAt c i f).byteKey = s.byteKey := rfl
@[simp] theorem State.modGangAt_badUnits (s : State) (c : CoreId) (i : SlotId) (f : Gang → Gang) : (s.modGangAt c i f).badUnits = s.badUnits := rfl
@[simp] theorem State.modGangAt_relTags (s : State) (c : CoreId) (i : SlotId) (f : Gang → Gang) : (s.modGangAt c i f).relTags = s.relTags := rfl
@[simp] theorem State.modGangAt_spaces (s : State) (c : CoreId) (i : SlotId) (f : Gang → Gang) : (s.modGangAt c i f).spaces = s.spaces := rfl
@[simp] theorem State.modGangAt_parts (s : State) (c : CoreId) (i : SlotId) (f : Gang → Gang) : (s.modGangAt c i f).parts = s.parts := rfl
@[simp] theorem State.modGangAt_nextKey (s : State) (c : CoreId) (i : SlotId) (f : Gang → Gang) : (s.modGangAt c i f).nextKey = s.nextKey := rfl
@[simp] theorem State.modGangAt_clusters (s : State) (c : CoreId) (i : SlotId) (f : Gang → Gang) : (s.modGangAt c i f).clusters = s.clusters := rfl
@[simp] theorem State.modGangAt_queues (s : State) (c : CoreId) (i : SlotId) (f : Gang → Gang) : (s.modGangAt c i f).queues = s.queues := rfl
@[simp] theorem State.modGangAt_served (s : State) (c : CoreId) (i : SlotId) (f : Gang → Gang) : (s.modGangAt c i f).served = s.served := rfl
@[simp] theorem State.modGangAt_grids (s : State) (c : CoreId) (i : SlotId) (f : Gang → Gang) : (s.modGangAt c i f).grids = s.grids := rfl
@[simp] theorem State.modGangAt_saved (s : State) (c : CoreId) (i : SlotId) (f : Gang → Gang) : (s.modGangAt c i f).saved = s.saved := rfl
@[simp] theorem State.modGangAt_nextGrid (s : State) (c : CoreId) (i : SlotId) (f : Gang → Gang) : (s.modGangAt c i f).nextGrid = s.nextGrid := rfl
@[simp] theorem State.modGangAt_groups (s : State) (c : CoreId) (i : SlotId) (f : Gang → Gang) : (s.modGangAt c i f).groups = s.groups := rfl
@[simp] theorem State.modGangAt_colls (s : State) (c : CoreId) (i : SlotId) (f : Gang → Gang) : (s.modGangAt c i f).colls = s.colls := rfl
@[simp] theorem State.modGangAt_xmsgs (s : State) (c : CoreId) (i : SlotId) (f : Gang → Gang) : (s.modGangAt c i f).xmsgs = s.xmsgs := rfl
@[simp] theorem State.modGangAt_xchgErrs (s : State) (c : CoreId) (i : SlotId) (f : Gang → Gang) : (s.modGangAt c i f).xchgErrs = s.xchgErrs := rfl
@[simp] theorem State.modGangAt_reports (s : State) (c : CoreId) (i : SlotId) (f : Gang → Gang) : (s.modGangAt c i f).reports = s.reports := rfl
@[simp] theorem State.modGangAt_hostAsid (s : State) (c : CoreId) (i : SlotId) (f : Gang → Gang) : (s.modGangAt c i f).hostAsid = s.hostAsid := rfl
@[simp] theorem State.modGangAt_invals (s : State) (c : CoreId) (i : SlotId) (f : Gang → Gang) : (s.modGangAt c i f).invals = s.invals := rfl
@[simp] theorem State.modGangAt_escwait (s : State) (c : CoreId) (i : SlotId) (f : Gang → Gang) : (s.modGangAt c i f).escwait = s.escwait := rfl
@[simp] theorem State.modGangAt_escaped (s : State) (c : CoreId) (i : SlotId) (f : Gang → Gang) : (s.modGangAt c i f).escaped = s.escaped := rfl
@[simp] theorem State.modGangAt_rails (s : State) (c : CoreId) (i : SlotId) (f : Gang → Gang) : (s.modGangAt c i f).rails = s.rails := rfl
@[simp] theorem State.modGangAt_cap (s : State) (c : CoreId) (i : SlotId) (f : Gang → Gang) : (s.modGangAt c i f).cap = s.cap := rfl
@[simp] theorem State.modGangAt_capEvent (s : State) (c : CoreId) (i : SlotId) (f : Gang → Gang) : (s.modGangAt c i f).capEvent = s.capEvent := rfl
@[simp] theorem State.modGangAt_junctions (s : State) (c : CoreId) (i : SlotId) (f : Gang → Gang) : (s.modGangAt c i f).junctions = s.junctions := rfl
@[simp] theorem State.modGangAt_power (s : State) (c : CoreId) (i : SlotId) (f : Gang → Gang) : (s.modGangAt c i f).power = s.power := rfl
@[simp] theorem State.modGangAt_dies (s : State) (c : CoreId) (i : SlotId) (f : Gang → Gang) : (s.modGangAt c i f).dies = s.dies := rfl
@[simp] theorem State.modGangAt_trip (s : State) (c : CoreId) (i : SlotId) (f : Gang → Gang) : (s.modGangAt c i f).trip = s.trip := rfl
@[simp] theorem State.modGangAt_spdm (s : State) (c : CoreId) (i : SlotId) (f : Gang → Gang) : (s.modGangAt c i f).spdm = s.spdm := rfl
@[simp] theorem State.modGangAt_links (s : State) (c : CoreId) (i : SlotId) (f : Gang → Gang) : (s.modGangAt c i f).links = s.links := rfl

@[simp] theorem State.modTeamAt_agenda (s : State) (c : CoreId) (i : SlotId) (f : Team → Team) : (s.modTeamAt c i f).agenda = s.agenda := rfl
@[simp] theorem State.modTeamAt_sel (s : State) (c : CoreId) (i : SlotId) (f : Team → Team) : (s.modTeamAt c i f).sel = s.sel := rfl
@[simp] theorem State.modTeamAt_cur (s : State) (c : CoreId) (i : SlotId) (f : Team → Team) : (s.modTeamAt c i f).cur = s.cur := rfl
@[simp] theorem State.modTeamAt_iword (s : State) (c : CoreId) (i : SlotId) (f : Team → Team) : (s.modTeamAt c i f).iword = s.iword := rfl
@[simp] theorem State.modTeamAt_ilit (s : State) (c : CoreId) (i : SlotId) (f : Team → Team) : (s.modTeamAt c i f).ilit = s.ilit := rfl
@[simp] theorem State.modTeamAt_free (s : State) (c : CoreId) (i : SlotId) (f : Team → Team) : (s.modTeamAt c i f).free = s.free := rfl
@[simp] theorem State.modTeamAt_devid (s : State) (c : CoreId) (i : SlotId) (f : Team → Team) : (s.modTeamAt c i f).devid = s.devid := rfl
@[simp] theorem State.modTeamAt_inReset (s : State) (c : CoreId) (i : SlotId) (f : Team → Team) : (s.modTeamAt c i f).inReset = s.inReset := rfl
@[simp] theorem State.modTeamAt_bootImage (s : State) (c : CoreId) (i : SlotId) (f : Team → Team) : (s.modTeamAt c i f).bootImage = s.bootImage := rfl
@[simp] theorem State.modTeamAt_minVersion (s : State) (c : CoreId) (i : SlotId) (f : Team → Team) : (s.modTeamAt c i f).minVersion = s.minVersion := rfl
@[simp] theorem State.modTeamAt_bootMin (s : State) (c : CoreId) (i : SlotId) (f : Team → Team) : (s.modTeamAt c i f).bootMin = s.bootMin := rfl
@[simp] theorem State.modTeamAt_images (s : State) (c : CoreId) (i : SlotId) (f : Team → Team) : (s.modTeamAt c i f).images = s.images := rfl
@[simp] theorem State.modTeamAt_mem (s : State) (c : CoreId) (i : SlotId) (f : Team → Team) : (s.modTeamAt c i f).mem = s.mem := rfl
@[simp] theorem State.modTeamAt_byteKey (s : State) (c : CoreId) (i : SlotId) (f : Team → Team) : (s.modTeamAt c i f).byteKey = s.byteKey := rfl
@[simp] theorem State.modTeamAt_badUnits (s : State) (c : CoreId) (i : SlotId) (f : Team → Team) : (s.modTeamAt c i f).badUnits = s.badUnits := rfl
@[simp] theorem State.modTeamAt_relTags (s : State) (c : CoreId) (i : SlotId) (f : Team → Team) : (s.modTeamAt c i f).relTags = s.relTags := rfl
@[simp] theorem State.modTeamAt_spaces (s : State) (c : CoreId) (i : SlotId) (f : Team → Team) : (s.modTeamAt c i f).spaces = s.spaces := rfl
@[simp] theorem State.modTeamAt_parts (s : State) (c : CoreId) (i : SlotId) (f : Team → Team) : (s.modTeamAt c i f).parts = s.parts := rfl
@[simp] theorem State.modTeamAt_nextKey (s : State) (c : CoreId) (i : SlotId) (f : Team → Team) : (s.modTeamAt c i f).nextKey = s.nextKey := rfl
@[simp] theorem State.modTeamAt_clusters (s : State) (c : CoreId) (i : SlotId) (f : Team → Team) : (s.modTeamAt c i f).clusters = s.clusters := rfl
@[simp] theorem State.modTeamAt_queues (s : State) (c : CoreId) (i : SlotId) (f : Team → Team) : (s.modTeamAt c i f).queues = s.queues := rfl
@[simp] theorem State.modTeamAt_served (s : State) (c : CoreId) (i : SlotId) (f : Team → Team) : (s.modTeamAt c i f).served = s.served := rfl
@[simp] theorem State.modTeamAt_grids (s : State) (c : CoreId) (i : SlotId) (f : Team → Team) : (s.modTeamAt c i f).grids = s.grids := rfl
@[simp] theorem State.modTeamAt_saved (s : State) (c : CoreId) (i : SlotId) (f : Team → Team) : (s.modTeamAt c i f).saved = s.saved := rfl
@[simp] theorem State.modTeamAt_nextGrid (s : State) (c : CoreId) (i : SlotId) (f : Team → Team) : (s.modTeamAt c i f).nextGrid = s.nextGrid := rfl
@[simp] theorem State.modTeamAt_groups (s : State) (c : CoreId) (i : SlotId) (f : Team → Team) : (s.modTeamAt c i f).groups = s.groups := rfl
@[simp] theorem State.modTeamAt_colls (s : State) (c : CoreId) (i : SlotId) (f : Team → Team) : (s.modTeamAt c i f).colls = s.colls := rfl
@[simp] theorem State.modTeamAt_xmsgs (s : State) (c : CoreId) (i : SlotId) (f : Team → Team) : (s.modTeamAt c i f).xmsgs = s.xmsgs := rfl
@[simp] theorem State.modTeamAt_xchgErrs (s : State) (c : CoreId) (i : SlotId) (f : Team → Team) : (s.modTeamAt c i f).xchgErrs = s.xchgErrs := rfl
@[simp] theorem State.modTeamAt_reports (s : State) (c : CoreId) (i : SlotId) (f : Team → Team) : (s.modTeamAt c i f).reports = s.reports := rfl
@[simp] theorem State.modTeamAt_hostAsid (s : State) (c : CoreId) (i : SlotId) (f : Team → Team) : (s.modTeamAt c i f).hostAsid = s.hostAsid := rfl
@[simp] theorem State.modTeamAt_invals (s : State) (c : CoreId) (i : SlotId) (f : Team → Team) : (s.modTeamAt c i f).invals = s.invals := rfl
@[simp] theorem State.modTeamAt_escwait (s : State) (c : CoreId) (i : SlotId) (f : Team → Team) : (s.modTeamAt c i f).escwait = s.escwait := rfl
@[simp] theorem State.modTeamAt_escaped (s : State) (c : CoreId) (i : SlotId) (f : Team → Team) : (s.modTeamAt c i f).escaped = s.escaped := rfl
@[simp] theorem State.modTeamAt_rails (s : State) (c : CoreId) (i : SlotId) (f : Team → Team) : (s.modTeamAt c i f).rails = s.rails := rfl
@[simp] theorem State.modTeamAt_cap (s : State) (c : CoreId) (i : SlotId) (f : Team → Team) : (s.modTeamAt c i f).cap = s.cap := rfl
@[simp] theorem State.modTeamAt_capEvent (s : State) (c : CoreId) (i : SlotId) (f : Team → Team) : (s.modTeamAt c i f).capEvent = s.capEvent := rfl
@[simp] theorem State.modTeamAt_junctions (s : State) (c : CoreId) (i : SlotId) (f : Team → Team) : (s.modTeamAt c i f).junctions = s.junctions := rfl
@[simp] theorem State.modTeamAt_power (s : State) (c : CoreId) (i : SlotId) (f : Team → Team) : (s.modTeamAt c i f).power = s.power := rfl
@[simp] theorem State.modTeamAt_dies (s : State) (c : CoreId) (i : SlotId) (f : Team → Team) : (s.modTeamAt c i f).dies = s.dies := rfl
@[simp] theorem State.modTeamAt_trip (s : State) (c : CoreId) (i : SlotId) (f : Team → Team) : (s.modTeamAt c i f).trip = s.trip := rfl
@[simp] theorem State.modTeamAt_spdm (s : State) (c : CoreId) (i : SlotId) (f : Team → Team) : (s.modTeamAt c i f).spdm = s.spdm := rfl
@[simp] theorem State.modTeamAt_links (s : State) (c : CoreId) (i : SlotId) (f : Team → Team) : (s.modTeamAt c i f).links = s.links := rfl

@[simp] theorem State.modG_agenda (s : State) (f : Gang → Gang) : (s.modG f).agenda = s.agenda := rfl
@[simp] theorem State.modG_sel (s : State) (f : Gang → Gang) : (s.modG f).sel = s.sel := rfl
@[simp] theorem State.modG_cur (s : State) (f : Gang → Gang) : (s.modG f).cur = s.cur := rfl
@[simp] theorem State.modG_iword (s : State) (f : Gang → Gang) : (s.modG f).iword = s.iword := rfl
@[simp] theorem State.modG_ilit (s : State) (f : Gang → Gang) : (s.modG f).ilit = s.ilit := rfl
@[simp] theorem State.modG_free (s : State) (f : Gang → Gang) : (s.modG f).free = s.free := rfl
@[simp] theorem State.modG_devid (s : State) (f : Gang → Gang) : (s.modG f).devid = s.devid := rfl
@[simp] theorem State.modG_inReset (s : State) (f : Gang → Gang) : (s.modG f).inReset = s.inReset := rfl
@[simp] theorem State.modG_bootImage (s : State) (f : Gang → Gang) : (s.modG f).bootImage = s.bootImage := rfl
@[simp] theorem State.modG_minVersion (s : State) (f : Gang → Gang) : (s.modG f).minVersion = s.minVersion := rfl
@[simp] theorem State.modG_bootMin (s : State) (f : Gang → Gang) : (s.modG f).bootMin = s.bootMin := rfl
@[simp] theorem State.modG_images (s : State) (f : Gang → Gang) : (s.modG f).images = s.images := rfl
@[simp] theorem State.modG_mem (s : State) (f : Gang → Gang) : (s.modG f).mem = s.mem := rfl
@[simp] theorem State.modG_byteKey (s : State) (f : Gang → Gang) : (s.modG f).byteKey = s.byteKey := rfl
@[simp] theorem State.modG_badUnits (s : State) (f : Gang → Gang) : (s.modG f).badUnits = s.badUnits := rfl
@[simp] theorem State.modG_relTags (s : State) (f : Gang → Gang) : (s.modG f).relTags = s.relTags := rfl
@[simp] theorem State.modG_spaces (s : State) (f : Gang → Gang) : (s.modG f).spaces = s.spaces := rfl
@[simp] theorem State.modG_parts (s : State) (f : Gang → Gang) : (s.modG f).parts = s.parts := rfl
@[simp] theorem State.modG_nextKey (s : State) (f : Gang → Gang) : (s.modG f).nextKey = s.nextKey := rfl
@[simp] theorem State.modG_clusters (s : State) (f : Gang → Gang) : (s.modG f).clusters = s.clusters := rfl
@[simp] theorem State.modG_queues (s : State) (f : Gang → Gang) : (s.modG f).queues = s.queues := rfl
@[simp] theorem State.modG_served (s : State) (f : Gang → Gang) : (s.modG f).served = s.served := rfl
@[simp] theorem State.modG_grids (s : State) (f : Gang → Gang) : (s.modG f).grids = s.grids := rfl
@[simp] theorem State.modG_saved (s : State) (f : Gang → Gang) : (s.modG f).saved = s.saved := rfl
@[simp] theorem State.modG_nextGrid (s : State) (f : Gang → Gang) : (s.modG f).nextGrid = s.nextGrid := rfl
@[simp] theorem State.modG_groups (s : State) (f : Gang → Gang) : (s.modG f).groups = s.groups := rfl
@[simp] theorem State.modG_colls (s : State) (f : Gang → Gang) : (s.modG f).colls = s.colls := rfl
@[simp] theorem State.modG_xmsgs (s : State) (f : Gang → Gang) : (s.modG f).xmsgs = s.xmsgs := rfl
@[simp] theorem State.modG_xchgErrs (s : State) (f : Gang → Gang) : (s.modG f).xchgErrs = s.xchgErrs := rfl
@[simp] theorem State.modG_reports (s : State) (f : Gang → Gang) : (s.modG f).reports = s.reports := rfl
@[simp] theorem State.modG_hostAsid (s : State) (f : Gang → Gang) : (s.modG f).hostAsid = s.hostAsid := rfl
@[simp] theorem State.modG_invals (s : State) (f : Gang → Gang) : (s.modG f).invals = s.invals := rfl
@[simp] theorem State.modG_escwait (s : State) (f : Gang → Gang) : (s.modG f).escwait = s.escwait := rfl
@[simp] theorem State.modG_escaped (s : State) (f : Gang → Gang) : (s.modG f).escaped = s.escaped := rfl
@[simp] theorem State.modG_rails (s : State) (f : Gang → Gang) : (s.modG f).rails = s.rails := rfl
@[simp] theorem State.modG_cap (s : State) (f : Gang → Gang) : (s.modG f).cap = s.cap := rfl
@[simp] theorem State.modG_capEvent (s : State) (f : Gang → Gang) : (s.modG f).capEvent = s.capEvent := rfl
@[simp] theorem State.modG_junctions (s : State) (f : Gang → Gang) : (s.modG f).junctions = s.junctions := rfl
@[simp] theorem State.modG_power (s : State) (f : Gang → Gang) : (s.modG f).power = s.power := rfl
@[simp] theorem State.modG_dies (s : State) (f : Gang → Gang) : (s.modG f).dies = s.dies := rfl
@[simp] theorem State.modG_trip (s : State) (f : Gang → Gang) : (s.modG f).trip = s.trip := rfl
@[simp] theorem State.modG_spdm (s : State) (f : Gang → Gang) : (s.modG f).spdm = s.spdm := rfl
@[simp] theorem State.modG_links (s : State) (f : Gang → Gang) : (s.modG f).links = s.links := rfl

@[simp] theorem State.modK_agenda (s : State) (f : Core → Core) : (s.modK f).agenda = s.agenda := rfl
@[simp] theorem State.modK_sel (s : State) (f : Core → Core) : (s.modK f).sel = s.sel := rfl
@[simp] theorem State.modK_cur (s : State) (f : Core → Core) : (s.modK f).cur = s.cur := rfl
@[simp] theorem State.modK_iword (s : State) (f : Core → Core) : (s.modK f).iword = s.iword := rfl
@[simp] theorem State.modK_ilit (s : State) (f : Core → Core) : (s.modK f).ilit = s.ilit := rfl
@[simp] theorem State.modK_free (s : State) (f : Core → Core) : (s.modK f).free = s.free := rfl
@[simp] theorem State.modK_devid (s : State) (f : Core → Core) : (s.modK f).devid = s.devid := rfl
@[simp] theorem State.modK_inReset (s : State) (f : Core → Core) : (s.modK f).inReset = s.inReset := rfl
@[simp] theorem State.modK_bootImage (s : State) (f : Core → Core) : (s.modK f).bootImage = s.bootImage := rfl
@[simp] theorem State.modK_minVersion (s : State) (f : Core → Core) : (s.modK f).minVersion = s.minVersion := rfl
@[simp] theorem State.modK_bootMin (s : State) (f : Core → Core) : (s.modK f).bootMin = s.bootMin := rfl
@[simp] theorem State.modK_images (s : State) (f : Core → Core) : (s.modK f).images = s.images := rfl
@[simp] theorem State.modK_mem (s : State) (f : Core → Core) : (s.modK f).mem = s.mem := rfl
@[simp] theorem State.modK_byteKey (s : State) (f : Core → Core) : (s.modK f).byteKey = s.byteKey := rfl
@[simp] theorem State.modK_badUnits (s : State) (f : Core → Core) : (s.modK f).badUnits = s.badUnits := rfl
@[simp] theorem State.modK_relTags (s : State) (f : Core → Core) : (s.modK f).relTags = s.relTags := rfl
@[simp] theorem State.modK_spaces (s : State) (f : Core → Core) : (s.modK f).spaces = s.spaces := rfl
@[simp] theorem State.modK_parts (s : State) (f : Core → Core) : (s.modK f).parts = s.parts := rfl
@[simp] theorem State.modK_nextKey (s : State) (f : Core → Core) : (s.modK f).nextKey = s.nextKey := rfl
@[simp] theorem State.modK_clusters (s : State) (f : Core → Core) : (s.modK f).clusters = s.clusters := rfl
@[simp] theorem State.modK_queues (s : State) (f : Core → Core) : (s.modK f).queues = s.queues := rfl
@[simp] theorem State.modK_served (s : State) (f : Core → Core) : (s.modK f).served = s.served := rfl
@[simp] theorem State.modK_grids (s : State) (f : Core → Core) : (s.modK f).grids = s.grids := rfl
@[simp] theorem State.modK_saved (s : State) (f : Core → Core) : (s.modK f).saved = s.saved := rfl
@[simp] theorem State.modK_nextGrid (s : State) (f : Core → Core) : (s.modK f).nextGrid = s.nextGrid := rfl
@[simp] theorem State.modK_groups (s : State) (f : Core → Core) : (s.modK f).groups = s.groups := rfl
@[simp] theorem State.modK_colls (s : State) (f : Core → Core) : (s.modK f).colls = s.colls := rfl
@[simp] theorem State.modK_xmsgs (s : State) (f : Core → Core) : (s.modK f).xmsgs = s.xmsgs := rfl
@[simp] theorem State.modK_xchgErrs (s : State) (f : Core → Core) : (s.modK f).xchgErrs = s.xchgErrs := rfl
@[simp] theorem State.modK_reports (s : State) (f : Core → Core) : (s.modK f).reports = s.reports := rfl
@[simp] theorem State.modK_hostAsid (s : State) (f : Core → Core) : (s.modK f).hostAsid = s.hostAsid := rfl
@[simp] theorem State.modK_invals (s : State) (f : Core → Core) : (s.modK f).invals = s.invals := rfl
@[simp] theorem State.modK_escwait (s : State) (f : Core → Core) : (s.modK f).escwait = s.escwait := rfl
@[simp] theorem State.modK_escaped (s : State) (f : Core → Core) : (s.modK f).escaped = s.escaped := rfl
@[simp] theorem State.modK_rails (s : State) (f : Core → Core) : (s.modK f).rails = s.rails := rfl
@[simp] theorem State.modK_cap (s : State) (f : Core → Core) : (s.modK f).cap = s.cap := rfl
@[simp] theorem State.modK_capEvent (s : State) (f : Core → Core) : (s.modK f).capEvent = s.capEvent := rfl
@[simp] theorem State.modK_junctions (s : State) (f : Core → Core) : (s.modK f).junctions = s.junctions := rfl
@[simp] theorem State.modK_power (s : State) (f : Core → Core) : (s.modK f).power = s.power := rfl
@[simp] theorem State.modK_dies (s : State) (f : Core → Core) : (s.modK f).dies = s.dies := rfl
@[simp] theorem State.modK_trip (s : State) (f : Core → Core) : (s.modK f).trip = s.trip := rfl
@[simp] theorem State.modK_spdm (s : State) (f : Core → Core) : (s.modK f).spdm = s.spdm := rfl
@[simp] theorem State.modK_links (s : State) (f : Core → Core) : (s.modK f).links = s.links := rfl

@[simp] theorem State.modT_agenda (s : State) (f : Team → Team) : (s.modT f).agenda = s.agenda := rfl
@[simp] theorem State.modT_sel (s : State) (f : Team → Team) : (s.modT f).sel = s.sel := rfl
@[simp] theorem State.modT_cur (s : State) (f : Team → Team) : (s.modT f).cur = s.cur := rfl
@[simp] theorem State.modT_iword (s : State) (f : Team → Team) : (s.modT f).iword = s.iword := rfl
@[simp] theorem State.modT_ilit (s : State) (f : Team → Team) : (s.modT f).ilit = s.ilit := rfl
@[simp] theorem State.modT_free (s : State) (f : Team → Team) : (s.modT f).free = s.free := rfl
@[simp] theorem State.modT_devid (s : State) (f : Team → Team) : (s.modT f).devid = s.devid := rfl
@[simp] theorem State.modT_inReset (s : State) (f : Team → Team) : (s.modT f).inReset = s.inReset := rfl
@[simp] theorem State.modT_bootImage (s : State) (f : Team → Team) : (s.modT f).bootImage = s.bootImage := rfl
@[simp] theorem State.modT_minVersion (s : State) (f : Team → Team) : (s.modT f).minVersion = s.minVersion := rfl
@[simp] theorem State.modT_bootMin (s : State) (f : Team → Team) : (s.modT f).bootMin = s.bootMin := rfl
@[simp] theorem State.modT_images (s : State) (f : Team → Team) : (s.modT f).images = s.images := rfl
@[simp] theorem State.modT_mem (s : State) (f : Team → Team) : (s.modT f).mem = s.mem := rfl
@[simp] theorem State.modT_byteKey (s : State) (f : Team → Team) : (s.modT f).byteKey = s.byteKey := rfl
@[simp] theorem State.modT_badUnits (s : State) (f : Team → Team) : (s.modT f).badUnits = s.badUnits := rfl
@[simp] theorem State.modT_relTags (s : State) (f : Team → Team) : (s.modT f).relTags = s.relTags := rfl
@[simp] theorem State.modT_spaces (s : State) (f : Team → Team) : (s.modT f).spaces = s.spaces := rfl
@[simp] theorem State.modT_parts (s : State) (f : Team → Team) : (s.modT f).parts = s.parts := rfl
@[simp] theorem State.modT_nextKey (s : State) (f : Team → Team) : (s.modT f).nextKey = s.nextKey := rfl
@[simp] theorem State.modT_clusters (s : State) (f : Team → Team) : (s.modT f).clusters = s.clusters := rfl
@[simp] theorem State.modT_queues (s : State) (f : Team → Team) : (s.modT f).queues = s.queues := rfl
@[simp] theorem State.modT_served (s : State) (f : Team → Team) : (s.modT f).served = s.served := rfl
@[simp] theorem State.modT_grids (s : State) (f : Team → Team) : (s.modT f).grids = s.grids := rfl
@[simp] theorem State.modT_saved (s : State) (f : Team → Team) : (s.modT f).saved = s.saved := rfl
@[simp] theorem State.modT_nextGrid (s : State) (f : Team → Team) : (s.modT f).nextGrid = s.nextGrid := rfl
@[simp] theorem State.modT_groups (s : State) (f : Team → Team) : (s.modT f).groups = s.groups := rfl
@[simp] theorem State.modT_colls (s : State) (f : Team → Team) : (s.modT f).colls = s.colls := rfl
@[simp] theorem State.modT_xmsgs (s : State) (f : Team → Team) : (s.modT f).xmsgs = s.xmsgs := rfl
@[simp] theorem State.modT_xchgErrs (s : State) (f : Team → Team) : (s.modT f).xchgErrs = s.xchgErrs := rfl
@[simp] theorem State.modT_reports (s : State) (f : Team → Team) : (s.modT f).reports = s.reports := rfl
@[simp] theorem State.modT_hostAsid (s : State) (f : Team → Team) : (s.modT f).hostAsid = s.hostAsid := rfl
@[simp] theorem State.modT_invals (s : State) (f : Team → Team) : (s.modT f).invals = s.invals := rfl
@[simp] theorem State.modT_escwait (s : State) (f : Team → Team) : (s.modT f).escwait = s.escwait := rfl
@[simp] theorem State.modT_escaped (s : State) (f : Team → Team) : (s.modT f).escaped = s.escaped := rfl
@[simp] theorem State.modT_rails (s : State) (f : Team → Team) : (s.modT f).rails = s.rails := rfl
@[simp] theorem State.modT_cap (s : State) (f : Team → Team) : (s.modT f).cap = s.cap := rfl
@[simp] theorem State.modT_capEvent (s : State) (f : Team → Team) : (s.modT f).capEvent = s.capEvent := rfl
@[simp] theorem State.modT_junctions (s : State) (f : Team → Team) : (s.modT f).junctions = s.junctions := rfl
@[simp] theorem State.modT_power (s : State) (f : Team → Team) : (s.modT f).power = s.power := rfl
@[simp] theorem State.modT_dies (s : State) (f : Team → Team) : (s.modT f).dies = s.dies := rfl
@[simp] theorem State.modT_trip (s : State) (f : Team → Team) : (s.modT f).trip = s.trip := rfl
@[simp] theorem State.modT_spdm (s : State) (f : Team → Team) : (s.modT f).spdm = s.spdm := rfl
@[simp] theorem State.modT_links (s : State) (f : Team → Team) : (s.modT f).links = s.links := rfl

@[simp] theorem State.modPart_agenda (s : State) (p : PartId) (f : Partition → Partition) : (s.modPart p f).agenda = s.agenda := rfl
@[simp] theorem State.modPart_sel (s : State) (p : PartId) (f : Partition → Partition) : (s.modPart p f).sel = s.sel := rfl
@[simp] theorem State.modPart_cur (s : State) (p : PartId) (f : Partition → Partition) : (s.modPart p f).cur = s.cur := rfl
@[simp] theorem State.modPart_iword (s : State) (p : PartId) (f : Partition → Partition) : (s.modPart p f).iword = s.iword := rfl
@[simp] theorem State.modPart_ilit (s : State) (p : PartId) (f : Partition → Partition) : (s.modPart p f).ilit = s.ilit := rfl
@[simp] theorem State.modPart_free (s : State) (p : PartId) (f : Partition → Partition) : (s.modPart p f).free = s.free := rfl
@[simp] theorem State.modPart_devid (s : State) (p : PartId) (f : Partition → Partition) : (s.modPart p f).devid = s.devid := rfl
@[simp] theorem State.modPart_inReset (s : State) (p : PartId) (f : Partition → Partition) : (s.modPart p f).inReset = s.inReset := rfl
@[simp] theorem State.modPart_bootImage (s : State) (p : PartId) (f : Partition → Partition) : (s.modPart p f).bootImage = s.bootImage := rfl
@[simp] theorem State.modPart_minVersion (s : State) (p : PartId) (f : Partition → Partition) : (s.modPart p f).minVersion = s.minVersion := rfl
@[simp] theorem State.modPart_bootMin (s : State) (p : PartId) (f : Partition → Partition) : (s.modPart p f).bootMin = s.bootMin := rfl
@[simp] theorem State.modPart_images (s : State) (p : PartId) (f : Partition → Partition) : (s.modPart p f).images = s.images := rfl
@[simp] theorem State.modPart_mem (s : State) (p : PartId) (f : Partition → Partition) : (s.modPart p f).mem = s.mem := rfl
@[simp] theorem State.modPart_byteKey (s : State) (p : PartId) (f : Partition → Partition) : (s.modPart p f).byteKey = s.byteKey := rfl
@[simp] theorem State.modPart_badUnits (s : State) (p : PartId) (f : Partition → Partition) : (s.modPart p f).badUnits = s.badUnits := rfl
@[simp] theorem State.modPart_relTags (s : State) (p : PartId) (f : Partition → Partition) : (s.modPart p f).relTags = s.relTags := rfl
@[simp] theorem State.modPart_spaces (s : State) (p : PartId) (f : Partition → Partition) : (s.modPart p f).spaces = s.spaces := rfl
@[simp] theorem State.modPart_nextKey (s : State) (p : PartId) (f : Partition → Partition) : (s.modPart p f).nextKey = s.nextKey := rfl
@[simp] theorem State.modPart_clusters (s : State) (p : PartId) (f : Partition → Partition) : (s.modPart p f).clusters = s.clusters := rfl
@[simp] theorem State.modPart_cores (s : State) (p : PartId) (f : Partition → Partition) : (s.modPart p f).cores = s.cores := rfl
@[simp] theorem State.modPart_queues (s : State) (p : PartId) (f : Partition → Partition) : (s.modPart p f).queues = s.queues := rfl
@[simp] theorem State.modPart_served (s : State) (p : PartId) (f : Partition → Partition) : (s.modPart p f).served = s.served := rfl
@[simp] theorem State.modPart_grids (s : State) (p : PartId) (f : Partition → Partition) : (s.modPart p f).grids = s.grids := rfl
@[simp] theorem State.modPart_saved (s : State) (p : PartId) (f : Partition → Partition) : (s.modPart p f).saved = s.saved := rfl
@[simp] theorem State.modPart_nextGrid (s : State) (p : PartId) (f : Partition → Partition) : (s.modPart p f).nextGrid = s.nextGrid := rfl
@[simp] theorem State.modPart_groups (s : State) (p : PartId) (f : Partition → Partition) : (s.modPart p f).groups = s.groups := rfl
@[simp] theorem State.modPart_colls (s : State) (p : PartId) (f : Partition → Partition) : (s.modPart p f).colls = s.colls := rfl
@[simp] theorem State.modPart_xmsgs (s : State) (p : PartId) (f : Partition → Partition) : (s.modPart p f).xmsgs = s.xmsgs := rfl
@[simp] theorem State.modPart_xchgErrs (s : State) (p : PartId) (f : Partition → Partition) : (s.modPart p f).xchgErrs = s.xchgErrs := rfl
@[simp] theorem State.modPart_reports (s : State) (p : PartId) (f : Partition → Partition) : (s.modPart p f).reports = s.reports := rfl
@[simp] theorem State.modPart_hostAsid (s : State) (p : PartId) (f : Partition → Partition) : (s.modPart p f).hostAsid = s.hostAsid := rfl
@[simp] theorem State.modPart_invals (s : State) (p : PartId) (f : Partition → Partition) : (s.modPart p f).invals = s.invals := rfl
@[simp] theorem State.modPart_escwait (s : State) (p : PartId) (f : Partition → Partition) : (s.modPart p f).escwait = s.escwait := rfl
@[simp] theorem State.modPart_escaped (s : State) (p : PartId) (f : Partition → Partition) : (s.modPart p f).escaped = s.escaped := rfl
@[simp] theorem State.modPart_rails (s : State) (p : PartId) (f : Partition → Partition) : (s.modPart p f).rails = s.rails := rfl
@[simp] theorem State.modPart_cap (s : State) (p : PartId) (f : Partition → Partition) : (s.modPart p f).cap = s.cap := rfl
@[simp] theorem State.modPart_capEvent (s : State) (p : PartId) (f : Partition → Partition) : (s.modPart p f).capEvent = s.capEvent := rfl
@[simp] theorem State.modPart_junctions (s : State) (p : PartId) (f : Partition → Partition) : (s.modPart p f).junctions = s.junctions := rfl
@[simp] theorem State.modPart_power (s : State) (p : PartId) (f : Partition → Partition) : (s.modPart p f).power = s.power := rfl
@[simp] theorem State.modPart_dies (s : State) (p : PartId) (f : Partition → Partition) : (s.modPart p f).dies = s.dies := rfl
@[simp] theorem State.modPart_trip (s : State) (p : PartId) (f : Partition → Partition) : (s.modPart p f).trip = s.trip := rfl
@[simp] theorem State.modPart_spdm (s : State) (p : PartId) (f : Partition → Partition) : (s.modPart p f).spdm = s.spdm := rfl
@[simp] theorem State.modPart_links (s : State) (p : PartId) (f : Partition → Partition) : (s.modPart p f).links = s.links := rfl

@[simp] theorem State.modClus_agenda (s : State) (k : ClusId) (f : Cluster → Cluster) : (s.modClus k f).agenda = s.agenda := rfl
@[simp] theorem State.modClus_sel (s : State) (k : ClusId) (f : Cluster → Cluster) : (s.modClus k f).sel = s.sel := rfl
@[simp] theorem State.modClus_cur (s : State) (k : ClusId) (f : Cluster → Cluster) : (s.modClus k f).cur = s.cur := rfl
@[simp] theorem State.modClus_iword (s : State) (k : ClusId) (f : Cluster → Cluster) : (s.modClus k f).iword = s.iword := rfl
@[simp] theorem State.modClus_ilit (s : State) (k : ClusId) (f : Cluster → Cluster) : (s.modClus k f).ilit = s.ilit := rfl
@[simp] theorem State.modClus_free (s : State) (k : ClusId) (f : Cluster → Cluster) : (s.modClus k f).free = s.free := rfl
@[simp] theorem State.modClus_devid (s : State) (k : ClusId) (f : Cluster → Cluster) : (s.modClus k f).devid = s.devid := rfl
@[simp] theorem State.modClus_inReset (s : State) (k : ClusId) (f : Cluster → Cluster) : (s.modClus k f).inReset = s.inReset := rfl
@[simp] theorem State.modClus_bootImage (s : State) (k : ClusId) (f : Cluster → Cluster) : (s.modClus k f).bootImage = s.bootImage := rfl
@[simp] theorem State.modClus_minVersion (s : State) (k : ClusId) (f : Cluster → Cluster) : (s.modClus k f).minVersion = s.minVersion := rfl
@[simp] theorem State.modClus_bootMin (s : State) (k : ClusId) (f : Cluster → Cluster) : (s.modClus k f).bootMin = s.bootMin := rfl
@[simp] theorem State.modClus_images (s : State) (k : ClusId) (f : Cluster → Cluster) : (s.modClus k f).images = s.images := rfl
@[simp] theorem State.modClus_mem (s : State) (k : ClusId) (f : Cluster → Cluster) : (s.modClus k f).mem = s.mem := rfl
@[simp] theorem State.modClus_byteKey (s : State) (k : ClusId) (f : Cluster → Cluster) : (s.modClus k f).byteKey = s.byteKey := rfl
@[simp] theorem State.modClus_badUnits (s : State) (k : ClusId) (f : Cluster → Cluster) : (s.modClus k f).badUnits = s.badUnits := rfl
@[simp] theorem State.modClus_relTags (s : State) (k : ClusId) (f : Cluster → Cluster) : (s.modClus k f).relTags = s.relTags := rfl
@[simp] theorem State.modClus_spaces (s : State) (k : ClusId) (f : Cluster → Cluster) : (s.modClus k f).spaces = s.spaces := rfl
@[simp] theorem State.modClus_parts (s : State) (k : ClusId) (f : Cluster → Cluster) : (s.modClus k f).parts = s.parts := rfl
@[simp] theorem State.modClus_nextKey (s : State) (k : ClusId) (f : Cluster → Cluster) : (s.modClus k f).nextKey = s.nextKey := rfl
@[simp] theorem State.modClus_cores (s : State) (k : ClusId) (f : Cluster → Cluster) : (s.modClus k f).cores = s.cores := rfl
@[simp] theorem State.modClus_queues (s : State) (k : ClusId) (f : Cluster → Cluster) : (s.modClus k f).queues = s.queues := rfl
@[simp] theorem State.modClus_served (s : State) (k : ClusId) (f : Cluster → Cluster) : (s.modClus k f).served = s.served := rfl
@[simp] theorem State.modClus_grids (s : State) (k : ClusId) (f : Cluster → Cluster) : (s.modClus k f).grids = s.grids := rfl
@[simp] theorem State.modClus_saved (s : State) (k : ClusId) (f : Cluster → Cluster) : (s.modClus k f).saved = s.saved := rfl
@[simp] theorem State.modClus_nextGrid (s : State) (k : ClusId) (f : Cluster → Cluster) : (s.modClus k f).nextGrid = s.nextGrid := rfl
@[simp] theorem State.modClus_groups (s : State) (k : ClusId) (f : Cluster → Cluster) : (s.modClus k f).groups = s.groups := rfl
@[simp] theorem State.modClus_colls (s : State) (k : ClusId) (f : Cluster → Cluster) : (s.modClus k f).colls = s.colls := rfl
@[simp] theorem State.modClus_xmsgs (s : State) (k : ClusId) (f : Cluster → Cluster) : (s.modClus k f).xmsgs = s.xmsgs := rfl
@[simp] theorem State.modClus_xchgErrs (s : State) (k : ClusId) (f : Cluster → Cluster) : (s.modClus k f).xchgErrs = s.xchgErrs := rfl
@[simp] theorem State.modClus_reports (s : State) (k : ClusId) (f : Cluster → Cluster) : (s.modClus k f).reports = s.reports := rfl
@[simp] theorem State.modClus_hostAsid (s : State) (k : ClusId) (f : Cluster → Cluster) : (s.modClus k f).hostAsid = s.hostAsid := rfl
@[simp] theorem State.modClus_invals (s : State) (k : ClusId) (f : Cluster → Cluster) : (s.modClus k f).invals = s.invals := rfl
@[simp] theorem State.modClus_escwait (s : State) (k : ClusId) (f : Cluster → Cluster) : (s.modClus k f).escwait = s.escwait := rfl
@[simp] theorem State.modClus_escaped (s : State) (k : ClusId) (f : Cluster → Cluster) : (s.modClus k f).escaped = s.escaped := rfl
@[simp] theorem State.modClus_rails (s : State) (k : ClusId) (f : Cluster → Cluster) : (s.modClus k f).rails = s.rails := rfl
@[simp] theorem State.modClus_cap (s : State) (k : ClusId) (f : Cluster → Cluster) : (s.modClus k f).cap = s.cap := rfl
@[simp] theorem State.modClus_capEvent (s : State) (k : ClusId) (f : Cluster → Cluster) : (s.modClus k f).capEvent = s.capEvent := rfl
@[simp] theorem State.modClus_junctions (s : State) (k : ClusId) (f : Cluster → Cluster) : (s.modClus k f).junctions = s.junctions := rfl
@[simp] theorem State.modClus_power (s : State) (k : ClusId) (f : Cluster → Cluster) : (s.modClus k f).power = s.power := rfl
@[simp] theorem State.modClus_dies (s : State) (k : ClusId) (f : Cluster → Cluster) : (s.modClus k f).dies = s.dies := rfl
@[simp] theorem State.modClus_trip (s : State) (k : ClusId) (f : Cluster → Cluster) : (s.modClus k f).trip = s.trip := rfl
@[simp] theorem State.modClus_spdm (s : State) (k : ClusId) (f : Cluster → Cluster) : (s.modClus k f).spdm = s.spdm := rfl
@[simp] theorem State.modClus_links (s : State) (k : ClusId) (f : Cluster → Cluster) : (s.modClus k f).links = s.links := rfl

@[simp] theorem State.report_agenda (s : State) (r : Report) : (s.report r).agenda = s.agenda := rfl
@[simp] theorem State.report_sel (s : State) (r : Report) : (s.report r).sel = s.sel := rfl
@[simp] theorem State.report_cur (s : State) (r : Report) : (s.report r).cur = s.cur := rfl
@[simp] theorem State.report_iword (s : State) (r : Report) : (s.report r).iword = s.iword := rfl
@[simp] theorem State.report_ilit (s : State) (r : Report) : (s.report r).ilit = s.ilit := rfl
@[simp] theorem State.report_free (s : State) (r : Report) : (s.report r).free = s.free := rfl
@[simp] theorem State.report_devid (s : State) (r : Report) : (s.report r).devid = s.devid := rfl
@[simp] theorem State.report_inReset (s : State) (r : Report) : (s.report r).inReset = s.inReset := rfl
@[simp] theorem State.report_bootImage (s : State) (r : Report) : (s.report r).bootImage = s.bootImage := rfl
@[simp] theorem State.report_minVersion (s : State) (r : Report) : (s.report r).minVersion = s.minVersion := rfl
@[simp] theorem State.report_bootMin (s : State) (r : Report) : (s.report r).bootMin = s.bootMin := rfl
@[simp] theorem State.report_images (s : State) (r : Report) : (s.report r).images = s.images := rfl
@[simp] theorem State.report_mem (s : State) (r : Report) : (s.report r).mem = s.mem := rfl
@[simp] theorem State.report_byteKey (s : State) (r : Report) : (s.report r).byteKey = s.byteKey := rfl
@[simp] theorem State.report_badUnits (s : State) (r : Report) : (s.report r).badUnits = s.badUnits := rfl
@[simp] theorem State.report_relTags (s : State) (r : Report) : (s.report r).relTags = s.relTags := rfl
@[simp] theorem State.report_spaces (s : State) (r : Report) : (s.report r).spaces = s.spaces := rfl
@[simp] theorem State.report_parts (s : State) (r : Report) : (s.report r).parts = s.parts := rfl
@[simp] theorem State.report_nextKey (s : State) (r : Report) : (s.report r).nextKey = s.nextKey := rfl
@[simp] theorem State.report_clusters (s : State) (r : Report) : (s.report r).clusters = s.clusters := rfl
@[simp] theorem State.report_cores (s : State) (r : Report) : (s.report r).cores = s.cores := rfl
@[simp] theorem State.report_queues (s : State) (r : Report) : (s.report r).queues = s.queues := rfl
@[simp] theorem State.report_served (s : State) (r : Report) : (s.report r).served = s.served := rfl
@[simp] theorem State.report_grids (s : State) (r : Report) : (s.report r).grids = s.grids := rfl
@[simp] theorem State.report_saved (s : State) (r : Report) : (s.report r).saved = s.saved := rfl
@[simp] theorem State.report_nextGrid (s : State) (r : Report) : (s.report r).nextGrid = s.nextGrid := rfl
@[simp] theorem State.report_groups (s : State) (r : Report) : (s.report r).groups = s.groups := rfl
@[simp] theorem State.report_colls (s : State) (r : Report) : (s.report r).colls = s.colls := rfl
@[simp] theorem State.report_xmsgs (s : State) (r : Report) : (s.report r).xmsgs = s.xmsgs := rfl
@[simp] theorem State.report_xchgErrs (s : State) (r : Report) : (s.report r).xchgErrs = s.xchgErrs := rfl
@[simp] theorem State.report_hostAsid (s : State) (r : Report) : (s.report r).hostAsid = s.hostAsid := rfl
@[simp] theorem State.report_invals (s : State) (r : Report) : (s.report r).invals = s.invals := rfl
@[simp] theorem State.report_escwait (s : State) (r : Report) : (s.report r).escwait = s.escwait := rfl
@[simp] theorem State.report_escaped (s : State) (r : Report) : (s.report r).escaped = s.escaped := rfl
@[simp] theorem State.report_rails (s : State) (r : Report) : (s.report r).rails = s.rails := rfl
@[simp] theorem State.report_cap (s : State) (r : Report) : (s.report r).cap = s.cap := rfl
@[simp] theorem State.report_capEvent (s : State) (r : Report) : (s.report r).capEvent = s.capEvent := rfl
@[simp] theorem State.report_junctions (s : State) (r : Report) : (s.report r).junctions = s.junctions := rfl
@[simp] theorem State.report_power (s : State) (r : Report) : (s.report r).power = s.power := rfl
@[simp] theorem State.report_dies (s : State) (r : Report) : (s.report r).dies = s.dies := rfl
@[simp] theorem State.report_trip (s : State) (r : Report) : (s.report r).trip = s.trip := rfl
@[simp] theorem State.report_spdm (s : State) (r : Report) : (s.report r).spdm = s.spdm := rfl
@[simp] theorem State.report_links (s : State) (r : Report) : (s.report r).links = s.links := rfl

@[simp] theorem State.stall_agenda (s : State) : (s.stall).agenda = s.agenda := rfl
@[simp] theorem State.stall_cur (s : State) : (s.stall).cur = s.cur := rfl
@[simp] theorem State.stall_iword (s : State) : (s.stall).iword = s.iword := rfl
@[simp] theorem State.stall_ilit (s : State) : (s.stall).ilit = s.ilit := rfl
@[simp] theorem State.stall_free (s : State) : (s.stall).free = s.free := rfl
@[simp] theorem State.stall_devid (s : State) : (s.stall).devid = s.devid := rfl
@[simp] theorem State.stall_inReset (s : State) : (s.stall).inReset = s.inReset := rfl
@[simp] theorem State.stall_bootImage (s : State) : (s.stall).bootImage = s.bootImage := rfl
@[simp] theorem State.stall_minVersion (s : State) : (s.stall).minVersion = s.minVersion := rfl
@[simp] theorem State.stall_bootMin (s : State) : (s.stall).bootMin = s.bootMin := rfl
@[simp] theorem State.stall_images (s : State) : (s.stall).images = s.images := rfl
@[simp] theorem State.stall_mem (s : State) : (s.stall).mem = s.mem := rfl
@[simp] theorem State.stall_byteKey (s : State) : (s.stall).byteKey = s.byteKey := rfl
@[simp] theorem State.stall_badUnits (s : State) : (s.stall).badUnits = s.badUnits := rfl
@[simp] theorem State.stall_relTags (s : State) : (s.stall).relTags = s.relTags := rfl
@[simp] theorem State.stall_spaces (s : State) : (s.stall).spaces = s.spaces := rfl
@[simp] theorem State.stall_parts (s : State) : (s.stall).parts = s.parts := rfl
@[simp] theorem State.stall_nextKey (s : State) : (s.stall).nextKey = s.nextKey := rfl
@[simp] theorem State.stall_clusters (s : State) : (s.stall).clusters = s.clusters := rfl
@[simp] theorem State.stall_cores (s : State) : (s.stall).cores = s.cores := rfl
@[simp] theorem State.stall_queues (s : State) : (s.stall).queues = s.queues := rfl
@[simp] theorem State.stall_served (s : State) : (s.stall).served = s.served := rfl
@[simp] theorem State.stall_grids (s : State) : (s.stall).grids = s.grids := rfl
@[simp] theorem State.stall_saved (s : State) : (s.stall).saved = s.saved := rfl
@[simp] theorem State.stall_nextGrid (s : State) : (s.stall).nextGrid = s.nextGrid := rfl
@[simp] theorem State.stall_groups (s : State) : (s.stall).groups = s.groups := rfl
@[simp] theorem State.stall_colls (s : State) : (s.stall).colls = s.colls := rfl
@[simp] theorem State.stall_xmsgs (s : State) : (s.stall).xmsgs = s.xmsgs := rfl
@[simp] theorem State.stall_xchgErrs (s : State) : (s.stall).xchgErrs = s.xchgErrs := rfl
@[simp] theorem State.stall_reports (s : State) : (s.stall).reports = s.reports := rfl
@[simp] theorem State.stall_hostAsid (s : State) : (s.stall).hostAsid = s.hostAsid := rfl
@[simp] theorem State.stall_invals (s : State) : (s.stall).invals = s.invals := rfl
@[simp] theorem State.stall_escwait (s : State) : (s.stall).escwait = s.escwait := rfl
@[simp] theorem State.stall_escaped (s : State) : (s.stall).escaped = s.escaped := rfl
@[simp] theorem State.stall_rails (s : State) : (s.stall).rails = s.rails := rfl
@[simp] theorem State.stall_cap (s : State) : (s.stall).cap = s.cap := rfl
@[simp] theorem State.stall_capEvent (s : State) : (s.stall).capEvent = s.capEvent := rfl
@[simp] theorem State.stall_junctions (s : State) : (s.stall).junctions = s.junctions := rfl
@[simp] theorem State.stall_power (s : State) : (s.stall).power = s.power := rfl
@[simp] theorem State.stall_dies (s : State) : (s.stall).dies = s.dies := rfl
@[simp] theorem State.stall_trip (s : State) : (s.stall).trip = s.trip := rfl
@[simp] theorem State.stall_spdm (s : State) : (s.stall).spdm = s.spdm := rfl
@[simp] theorem State.stall_links (s : State) : (s.stall).links = s.links := rfl

@[simp] theorem Core.modGang_cycle (k : Core) (i : SlotId) (f : Gang → Gang) : (k.modGang i f).cycle = k.cycle := rfl
@[simp] theorem Core.modGang_leafEn (k : Core) (i : SlotId) (f : Gang → Gang) : (k.modGang i f).leafEn = k.leafEn := rfl
@[simp] theorem Core.modGang_pcount (k : Core) (i : SlotId) (f : Gang → Gang) : (k.modGang i f).pcount = k.pcount := rfl
@[simp] theorem Core.modGang_leaf (k : Core) (i : SlotId) (f : Gang → Gang) : (k.modGang i f).leaf = k.leaf := rfl
@[simp] theorem Core.modGang_tiles (k : Core) (i : SlotId) (f : Gang → Gang) : (k.modGang i f).tiles = k.tiles := rfl
@[simp] theorem Core.modGang_spad (k : Core) (i : SlotId) (f : Gang → Gang) : (k.modGang i f).spad = k.spad := rfl
@[simp] theorem Core.modGang_spadBad (k : Core) (i : SlotId) (f : Gang → Gang) : (k.modGang i f).spadBad = k.spadBad := rfl
@[simp] theorem Core.modGang_acc (k : Core) (i : SlotId) (f : Gang → Gang) : (k.modGang i f).acc = k.acc := rfl
@[simp] theorem Core.modGang_accBad (k : Core) (i : SlotId) (f : Gang → Gang) : (k.modGang i f).accBad = k.accBad := rfl
@[simp] theorem Core.modGang_locks (k : Core) (i : SlotId) (f : Gang → Gang) : (k.modGang i f).locks = k.locks := rfl
@[simp] theorem Core.modGang_tlb (k : Core) (i : SlotId) (f : Gang → Gang) : (k.modGang i f).tlb = k.tlb := rfl
@[simp] theorem Core.modGang_psize (k : Core) (i : SlotId) (f : Gang → Gang) : (k.modGang i f).psize = k.psize := rfl
@[simp] theorem Core.modGang_powner (k : Core) (i : SlotId) (f : Gang → Gang) : (k.modGang i f).powner = k.powner := rfl
@[simp] theorem Core.modGang_accs (k : Core) (i : SlotId) (f : Gang → Gang) : (k.modGang i f).accs = k.accs := rfl
@[simp] theorem Core.modGang_marks (k : Core) (i : SlotId) (f : Gang → Gang) : (k.modGang i f).marks = k.marks := rfl
@[simp] theorem Core.modGang_narrow (k : Core) (i : SlotId) (f : Gang → Gang) : (k.modGang i f).narrow = k.narrow := rfl
@[simp] theorem Core.modGang_seq (k : Core) (i : SlotId) (f : Gang → Gang) : (k.modGang i f).seq = k.seq := rfl
@[simp] theorem Core.modGang_instrs (k : Core) (i : SlotId) (f : Gang → Gang) : (k.modGang i f).instrs = k.instrs := rfl
@[simp] theorem Core.modGang_teams (k : Core) (i : SlotId) (f : Gang → Gang) : (k.modGang i f).teams = k.teams := rfl
@[simp] theorem Core.modGang_gone (k : Core) (i : SlotId) (f : Gang → Gang) : (k.modGang i f).gone = k.gone := rfl
@[simp] theorem Core.modGang_holder (k : Core) (i : SlotId) (f : Gang → Gang) : (k.modGang i f).holder = k.holder := rfl
@[simp] theorem Core.modGang_leaseQ (k : Core) (i : SlotId) (f : Gang → Gang) : (k.modGang i f).leaseQ = k.leaseQ := rfl
@[simp] theorem Core.modGang_leaseIdle (k : Core) (i : SlotId) (f : Gang → Gang) : (k.modGang i f).leaseIdle = k.leaseIdle := rfl
@[simp] theorem Core.modGang_mat (k : Core) (i : SlotId) (f : Gang → Gang) : (k.modGang i f).mat = k.mat := rfl
@[simp] theorem Core.modGang_nextMat (k : Core) (i : SlotId) (f : Gang → Gang) : (k.modGang i f).nextMat = k.nextMat := rfl
@[simp] theorem Core.modGang_eng (k : Core) (i : SlotId) (f : Gang → Gang) : (k.modGang i f).eng = k.eng := rfl
@[simp] theorem Core.modGang_nextEng (k : Core) (i : SlotId) (f : Gang → Gang) : (k.modGang i f).nextEng = k.nextEng := rfl
@[simp] theorem Core.modGang_nextTrap (k : Core) (i : SlotId) (f : Gang → Gang) : (k.modGang i f).nextTrap = k.nextTrap := rfl
@[simp] theorem Core.modGang_runL (k : Core) (i : SlotId) (f : Gang → Gang) : (k.modGang i f).runL = k.runL := rfl
@[simp] theorem Core.modGang_runU (k : Core) (i : SlotId) (f : Gang → Gang) : (k.modGang i f).runU = k.runU := rfl
@[simp] theorem Core.modGang_halted (k : Core) (i : SlotId) (f : Gang → Gang) : (k.modGang i f).halted = k.halted := rfl
@[simp] theorem Core.modGang_quiesce (k : Core) (i : SlotId) (f : Gang → Gang) : (k.modGang i f).quiesce = k.quiesce := rfl
@[simp] theorem Core.modGang_gated (k : Core) (i : SlotId) (f : Gang → Gang) : (k.modGang i f).gated = k.gated := rfl
@[simp] theorem Core.modGang_idle (k : Core) (i : SlotId) (f : Gang → Gang) : (k.modGang i f).idle = k.idle := rfl

@[simp] theorem Core.modTeam_cycle (k : Core) (i : SlotId) (f : Team → Team) : (k.modTeam i f).cycle = k.cycle := rfl
@[simp] theorem Core.modTeam_leafEn (k : Core) (i : SlotId) (f : Team → Team) : (k.modTeam i f).leafEn = k.leafEn := rfl
@[simp] theorem Core.modTeam_pcount (k : Core) (i : SlotId) (f : Team → Team) : (k.modTeam i f).pcount = k.pcount := rfl
@[simp] theorem Core.modTeam_leaf (k : Core) (i : SlotId) (f : Team → Team) : (k.modTeam i f).leaf = k.leaf := rfl
@[simp] theorem Core.modTeam_tiles (k : Core) (i : SlotId) (f : Team → Team) : (k.modTeam i f).tiles = k.tiles := rfl
@[simp] theorem Core.modTeam_spad (k : Core) (i : SlotId) (f : Team → Team) : (k.modTeam i f).spad = k.spad := rfl
@[simp] theorem Core.modTeam_spadBad (k : Core) (i : SlotId) (f : Team → Team) : (k.modTeam i f).spadBad = k.spadBad := rfl
@[simp] theorem Core.modTeam_acc (k : Core) (i : SlotId) (f : Team → Team) : (k.modTeam i f).acc = k.acc := rfl
@[simp] theorem Core.modTeam_accBad (k : Core) (i : SlotId) (f : Team → Team) : (k.modTeam i f).accBad = k.accBad := rfl
@[simp] theorem Core.modTeam_locks (k : Core) (i : SlotId) (f : Team → Team) : (k.modTeam i f).locks = k.locks := rfl
@[simp] theorem Core.modTeam_tlb (k : Core) (i : SlotId) (f : Team → Team) : (k.modTeam i f).tlb = k.tlb := rfl
@[simp] theorem Core.modTeam_psize (k : Core) (i : SlotId) (f : Team → Team) : (k.modTeam i f).psize = k.psize := rfl
@[simp] theorem Core.modTeam_powner (k : Core) (i : SlotId) (f : Team → Team) : (k.modTeam i f).powner = k.powner := rfl
@[simp] theorem Core.modTeam_accs (k : Core) (i : SlotId) (f : Team → Team) : (k.modTeam i f).accs = k.accs := rfl
@[simp] theorem Core.modTeam_marks (k : Core) (i : SlotId) (f : Team → Team) : (k.modTeam i f).marks = k.marks := rfl
@[simp] theorem Core.modTeam_narrow (k : Core) (i : SlotId) (f : Team → Team) : (k.modTeam i f).narrow = k.narrow := rfl
@[simp] theorem Core.modTeam_seq (k : Core) (i : SlotId) (f : Team → Team) : (k.modTeam i f).seq = k.seq := rfl
@[simp] theorem Core.modTeam_instrs (k : Core) (i : SlotId) (f : Team → Team) : (k.modTeam i f).instrs = k.instrs := rfl
@[simp] theorem Core.modTeam_gone (k : Core) (i : SlotId) (f : Team → Team) : (k.modTeam i f).gone = k.gone := rfl
@[simp] theorem Core.modTeam_slots (k : Core) (i : SlotId) (f : Team → Team) : (k.modTeam i f).slots = k.slots := rfl
@[simp] theorem Core.modTeam_holder (k : Core) (i : SlotId) (f : Team → Team) : (k.modTeam i f).holder = k.holder := rfl
@[simp] theorem Core.modTeam_leaseQ (k : Core) (i : SlotId) (f : Team → Team) : (k.modTeam i f).leaseQ = k.leaseQ := rfl
@[simp] theorem Core.modTeam_leaseIdle (k : Core) (i : SlotId) (f : Team → Team) : (k.modTeam i f).leaseIdle = k.leaseIdle := rfl
@[simp] theorem Core.modTeam_mat (k : Core) (i : SlotId) (f : Team → Team) : (k.modTeam i f).mat = k.mat := rfl
@[simp] theorem Core.modTeam_nextMat (k : Core) (i : SlotId) (f : Team → Team) : (k.modTeam i f).nextMat = k.nextMat := rfl
@[simp] theorem Core.modTeam_eng (k : Core) (i : SlotId) (f : Team → Team) : (k.modTeam i f).eng = k.eng := rfl
@[simp] theorem Core.modTeam_nextEng (k : Core) (i : SlotId) (f : Team → Team) : (k.modTeam i f).nextEng = k.nextEng := rfl
@[simp] theorem Core.modTeam_nextTrap (k : Core) (i : SlotId) (f : Team → Team) : (k.modTeam i f).nextTrap = k.nextTrap := rfl
@[simp] theorem Core.modTeam_runL (k : Core) (i : SlotId) (f : Team → Team) : (k.modTeam i f).runL = k.runL := rfl
@[simp] theorem Core.modTeam_runU (k : Core) (i : SlotId) (f : Team → Team) : (k.modTeam i f).runU = k.runU := rfl
@[simp] theorem Core.modTeam_halted (k : Core) (i : SlotId) (f : Team → Team) : (k.modTeam i f).halted = k.halted := rfl
@[simp] theorem Core.modTeam_quiesce (k : Core) (i : SlotId) (f : Team → Team) : (k.modTeam i f).quiesce = k.quiesce := rfl
@[simp] theorem Core.modTeam_gated (k : Core) (i : SlotId) (f : Team → Team) : (k.modTeam i f).gated = k.gated := rfl
@[simp] theorem Core.modTeam_idle (k : Core) (i : SlotId) (f : Team → Team) : (k.modTeam i f).idle = k.idle := rfl

@[simp] theorem Gang.modFrag_live (g : Gang) (i : FragId) (f : Frag → Frag) : (g.modFrag i f).live = g.live := rfl
@[simp] theorem Gang.modFrag_team (g : Gang) (i : FragId) (f : Frag → Frag) : (g.modFrag i f).team = g.team := rfl
@[simp] theorem Gang.modFrag_gangid (g : Gang) (i : FragId) (f : Frag → Frag) : (g.modFrag i f).gangid = g.gangid := rfl
@[simp] theorem Gang.modFrag_launched (g : Gang) (i : FragId) (f : Frag → Frag) : (g.modFrag i f).launched = g.launched := rfl
@[simp] theorem Gang.modFrag_exited (g : Gang) (i : FragId) (f : Frag → Frag) : (g.modFrag i f).exited = g.exited := rfl
@[simp] theorem Gang.modFrag_v (g : Gang) (i : FragId) (f : Frag → Frag) : (g.modFrag i f).v = g.v := rfl
@[simp] theorem Gang.modFrag_u (g : Gang) (i : FragId) (f : Frag → Frag) : (g.modFrag i f).u = g.u := rfl
@[simp] theorem Gang.modFrag_m (g : Gang) (i : FragId) (f : Frag → Frag) : (g.modFrag i f).m = g.m := rfl
@[simp] theorem Gang.modFrag_dc (g : Gang) (i : FragId) (f : Frag → Frag) : (g.modFrag i f).dc = g.dc := rfl
@[simp] theorem Gang.modFrag_dn (g : Gang) (i : FragId) (f : Frag → Frag) : (g.modFrag i f).dn = g.dn := rfl
@[simp] theorem Gang.modFrag_k (g : Gang) (i : FragId) (f : Frag → Frag) : (g.modFrag i f).k = g.k := rfl
@[simp] theorem Gang.modFrag_ks (g : Gang) (i : FragId) (f : Frag → Frag) : (g.modFrag i f).ks = g.ks := rfl
@[simp] theorem Gang.modFrag_lc (g : Gang) (i : FragId) (f : Frag → Frag) : (g.modFrag i f).lc = g.lc := rfl
@[simp] theorem Gang.modFrag_rng (g : Gang) (i : FragId) (f : Frag → Frag) : (g.modFrag i f).rng = g.rng := rfl
@[simp] theorem Gang.modFrag_joins (g : Gang) (i : FragId) (f : Frag → Frag) : (g.modFrag i f).joins = g.joins := rfl
@[simp] theorem Gang.modFrag_latch (g : Gang) (i : FragId) (f : Frag → Frag) : (g.modFrag i f).latch = g.latch := rfl
@[simp] theorem Gang.modFrag_loops (g : Gang) (i : FragId) (f : Frag → Frag) : (g.modFrag i f).loops = g.loops := rfl
@[simp] theorem Gang.modFrag_rngseed (g : Gang) (i : FragId) (f : Frag → Frag) : (g.modFrag i f).rngseed = g.rngseed := rfl
@[simp] theorem Gang.modFrag_trapcause (g : Gang) (i : FragId) (f : Frag → Frag) : (g.modFrag i f).trapcause = g.trapcause := rfl
@[simp] theorem Gang.modFrag_trappc (g : Gang) (i : FragId) (f : Frag → Frag) : (g.modFrag i f).trappc = g.trappc := rfl
@[simp] theorem Gang.modFrag_trapinfo (g : Gang) (i : FragId) (f : Frag → Frag) : (g.modFrag i f).trapinfo = g.trapinfo := rfl
@[simp] theorem Gang.modFrag_traplate (g : Gang) (i : FragId) (f : Frag → Frag) : (g.modFrag i f).traplate = g.traplate := rfl
@[simp] theorem Gang.modFrag_dsat (g : Gang) (i : FragId) (f : Frag → Frag) : (g.modFrag i f).dsat = g.dsat := rfl
@[simp] theorem Gang.modFrag_reread (g : Gang) (i : FragId) (f : Frag → Frag) : (g.modFrag i f).reread = g.reread := rfl
@[simp] theorem Gang.modFrag_usplit (g : Gang) (i : FragId) (f : Frag → Frag) : (g.modFrag i f).usplit = g.usplit := rfl
@[simp] theorem Gang.modFrag_intrap (g : Gang) (i : FragId) (f : Frag → Frag) : (g.modFrag i f).intrap = g.intrap := rfl
@[simp] theorem Gang.modFrag_skm (g : Gang) (i : FragId) (f : Frag → Frag) : (g.modFrag i f).skm = g.skm := rfl
@[simp] theorem Gang.modFrag_skseed (g : Gang) (i : FragId) (f : Frag → Frag) : (g.modFrag i f).skseed = g.skseed := rfl
@[simp] theorem Gang.modFrag_handler (g : Gang) (i : FragId) (f : Frag → Frag) : (g.modFrag i f).handler = g.handler := rfl
@[simp] theorem Gang.modFrag_heldTraps (g : Gang) (i : FragId) (f : Frag → Frag) : (g.modFrag i f).heldTraps = g.heldTraps := rfl
@[simp] theorem Gang.modFrag_debugHalt (g : Gang) (i : FragId) (f : Frag → Frag) : (g.modFrag i f).debugHalt = g.debugHalt := rfl
@[simp] theorem Gang.modFrag_pend (g : Gang) (i : FragId) (f : Frag → Frag) : (g.modFrag i f).pend = g.pend := rfl
@[simp] theorem Gang.modFrag_nextPend (g : Gang) (i : FragId) (f : Frag → Frag) : (g.modFrag i f).nextPend = g.nextPend := rfl
@[simp] theorem Gang.modFrag_late (g : Gang) (i : FragId) (f : Frag → Frag) : (g.modFrag i f).late = g.late := rfl
@[simp] theorem Gang.modFrag_nextLate (g : Gang) (i : FragId) (f : Frag → Frag) : (g.modFrag i f).nextLate = g.nextLate := rfl
@[simp] theorem Gang.modFrag_batches (g : Gang) (i : FragId) (f : Frag → Frag) : (g.modFrag i f).batches = g.batches := rfl
@[simp] theorem Gang.modFrag_nextOp (g : Gang) (i : FragId) (f : Frag → Frag) : (g.modFrag i f).nextOp = g.nextOp := rfl
@[simp] theorem Gang.modFrag_left (g : Gang) (i : FragId) (f : Frag → Frag) : (g.modFrag i f).left = g.left := rfl
@[simp] theorem Gang.modFrag_heldA (g : Gang) (i : FragId) (f : Frag → Frag) : (g.modFrag i f).heldA = g.heldA := rfl
@[simp] theorem Gang.modFrag_stopSlot (g : Gang) (i : FragId) (f : Frag → Frag) : (g.modFrag i f).stopSlot = g.stopSlot := rfl
@[simp] theorem Gang.modFrag_mfence (g : Gang) (i : FragId) (f : Frag → Frag) : (g.modFrag i f).mfence = g.mfence := rfl
@[simp] theorem Gang.modFrag_pairs (g : Gang) (i : FragId) (f : Frag → Frag) : (g.modFrag i f).pairs = g.pairs := rfl
@[simp] theorem Gang.modFrag_watchdog (g : Gang) (i : FragId) (f : Frag → Frag) : (g.modFrag i f).watchdog = g.watchdog := rfl
@[simp] theorem Gang.modFrag_hung (g : Gang) (i : FragId) (f : Frag → Frag) : (g.modFrag i f).hung = g.hung := rfl

@[simp] theorem Gang.setFrag_live (g : Gang) (i : FragId) (f : Frag) : (g.setFrag i f).live = g.live := rfl
@[simp] theorem Gang.setFrag_team (g : Gang) (i : FragId) (f : Frag) : (g.setFrag i f).team = g.team := rfl
@[simp] theorem Gang.setFrag_gangid (g : Gang) (i : FragId) (f : Frag) : (g.setFrag i f).gangid = g.gangid := rfl
@[simp] theorem Gang.setFrag_launched (g : Gang) (i : FragId) (f : Frag) : (g.setFrag i f).launched = g.launched := rfl
@[simp] theorem Gang.setFrag_exited (g : Gang) (i : FragId) (f : Frag) : (g.setFrag i f).exited = g.exited := rfl
@[simp] theorem Gang.setFrag_v (g : Gang) (i : FragId) (f : Frag) : (g.setFrag i f).v = g.v := rfl
@[simp] theorem Gang.setFrag_u (g : Gang) (i : FragId) (f : Frag) : (g.setFrag i f).u = g.u := rfl
@[simp] theorem Gang.setFrag_m (g : Gang) (i : FragId) (f : Frag) : (g.setFrag i f).m = g.m := rfl
@[simp] theorem Gang.setFrag_dc (g : Gang) (i : FragId) (f : Frag) : (g.setFrag i f).dc = g.dc := rfl
@[simp] theorem Gang.setFrag_dn (g : Gang) (i : FragId) (f : Frag) : (g.setFrag i f).dn = g.dn := rfl
@[simp] theorem Gang.setFrag_k (g : Gang) (i : FragId) (f : Frag) : (g.setFrag i f).k = g.k := rfl
@[simp] theorem Gang.setFrag_ks (g : Gang) (i : FragId) (f : Frag) : (g.setFrag i f).ks = g.ks := rfl
@[simp] theorem Gang.setFrag_lc (g : Gang) (i : FragId) (f : Frag) : (g.setFrag i f).lc = g.lc := rfl
@[simp] theorem Gang.setFrag_rng (g : Gang) (i : FragId) (f : Frag) : (g.setFrag i f).rng = g.rng := rfl
@[simp] theorem Gang.setFrag_joins (g : Gang) (i : FragId) (f : Frag) : (g.setFrag i f).joins = g.joins := rfl
@[simp] theorem Gang.setFrag_latch (g : Gang) (i : FragId) (f : Frag) : (g.setFrag i f).latch = g.latch := rfl
@[simp] theorem Gang.setFrag_loops (g : Gang) (i : FragId) (f : Frag) : (g.setFrag i f).loops = g.loops := rfl
@[simp] theorem Gang.setFrag_rngseed (g : Gang) (i : FragId) (f : Frag) : (g.setFrag i f).rngseed = g.rngseed := rfl
@[simp] theorem Gang.setFrag_trapcause (g : Gang) (i : FragId) (f : Frag) : (g.setFrag i f).trapcause = g.trapcause := rfl
@[simp] theorem Gang.setFrag_trappc (g : Gang) (i : FragId) (f : Frag) : (g.setFrag i f).trappc = g.trappc := rfl
@[simp] theorem Gang.setFrag_trapinfo (g : Gang) (i : FragId) (f : Frag) : (g.setFrag i f).trapinfo = g.trapinfo := rfl
@[simp] theorem Gang.setFrag_traplate (g : Gang) (i : FragId) (f : Frag) : (g.setFrag i f).traplate = g.traplate := rfl
@[simp] theorem Gang.setFrag_dsat (g : Gang) (i : FragId) (f : Frag) : (g.setFrag i f).dsat = g.dsat := rfl
@[simp] theorem Gang.setFrag_reread (g : Gang) (i : FragId) (f : Frag) : (g.setFrag i f).reread = g.reread := rfl
@[simp] theorem Gang.setFrag_usplit (g : Gang) (i : FragId) (f : Frag) : (g.setFrag i f).usplit = g.usplit := rfl
@[simp] theorem Gang.setFrag_intrap (g : Gang) (i : FragId) (f : Frag) : (g.setFrag i f).intrap = g.intrap := rfl
@[simp] theorem Gang.setFrag_skm (g : Gang) (i : FragId) (f : Frag) : (g.setFrag i f).skm = g.skm := rfl
@[simp] theorem Gang.setFrag_skseed (g : Gang) (i : FragId) (f : Frag) : (g.setFrag i f).skseed = g.skseed := rfl
@[simp] theorem Gang.setFrag_handler (g : Gang) (i : FragId) (f : Frag) : (g.setFrag i f).handler = g.handler := rfl
@[simp] theorem Gang.setFrag_heldTraps (g : Gang) (i : FragId) (f : Frag) : (g.setFrag i f).heldTraps = g.heldTraps := rfl
@[simp] theorem Gang.setFrag_debugHalt (g : Gang) (i : FragId) (f : Frag) : (g.setFrag i f).debugHalt = g.debugHalt := rfl
@[simp] theorem Gang.setFrag_pend (g : Gang) (i : FragId) (f : Frag) : (g.setFrag i f).pend = g.pend := rfl
@[simp] theorem Gang.setFrag_nextPend (g : Gang) (i : FragId) (f : Frag) : (g.setFrag i f).nextPend = g.nextPend := rfl
@[simp] theorem Gang.setFrag_late (g : Gang) (i : FragId) (f : Frag) : (g.setFrag i f).late = g.late := rfl
@[simp] theorem Gang.setFrag_nextLate (g : Gang) (i : FragId) (f : Frag) : (g.setFrag i f).nextLate = g.nextLate := rfl
@[simp] theorem Gang.setFrag_batches (g : Gang) (i : FragId) (f : Frag) : (g.setFrag i f).batches = g.batches := rfl
@[simp] theorem Gang.setFrag_nextOp (g : Gang) (i : FragId) (f : Frag) : (g.setFrag i f).nextOp = g.nextOp := rfl
@[simp] theorem Gang.setFrag_left (g : Gang) (i : FragId) (f : Frag) : (g.setFrag i f).left = g.left := rfl
@[simp] theorem Gang.setFrag_heldA (g : Gang) (i : FragId) (f : Frag) : (g.setFrag i f).heldA = g.heldA := rfl
@[simp] theorem Gang.setFrag_stopSlot (g : Gang) (i : FragId) (f : Frag) : (g.setFrag i f).stopSlot = g.stopSlot := rfl
@[simp] theorem Gang.setFrag_mfence (g : Gang) (i : FragId) (f : Frag) : (g.setFrag i f).mfence = g.mfence := rfl
@[simp] theorem Gang.setFrag_pairs (g : Gang) (i : FragId) (f : Frag) : (g.setFrag i f).pairs = g.pairs := rfl
@[simp] theorem Gang.setFrag_watchdog (g : Gang) (i : FragId) (f : Frag) : (g.setFrag i f).watchdog = g.watchdog := rfl
@[simp] theorem Gang.setFrag_hung (g : Gang) (i : FragId) (f : Frag) : (g.setFrag i f).hung = g.hung := rfl

@[simp] theorem Gang.setJoin_live (g : Gang) (j : JoinId) (x : Join) : (g.setJoin j x).live = g.live := rfl
@[simp] theorem Gang.setJoin_team (g : Gang) (j : JoinId) (x : Join) : (g.setJoin j x).team = g.team := rfl
@[simp] theorem Gang.setJoin_gangid (g : Gang) (j : JoinId) (x : Join) : (g.setJoin j x).gangid = g.gangid := rfl
@[simp] theorem Gang.setJoin_launched (g : Gang) (j : JoinId) (x : Join) : (g.setJoin j x).launched = g.launched := rfl
@[simp] theorem Gang.setJoin_exited (g : Gang) (j : JoinId) (x : Join) : (g.setJoin j x).exited = g.exited := rfl
@[simp] theorem Gang.setJoin_v (g : Gang) (j : JoinId) (x : Join) : (g.setJoin j x).v = g.v := rfl
@[simp] theorem Gang.setJoin_u (g : Gang) (j : JoinId) (x : Join) : (g.setJoin j x).u = g.u := rfl
@[simp] theorem Gang.setJoin_m (g : Gang) (j : JoinId) (x : Join) : (g.setJoin j x).m = g.m := rfl
@[simp] theorem Gang.setJoin_dc (g : Gang) (j : JoinId) (x : Join) : (g.setJoin j x).dc = g.dc := rfl
@[simp] theorem Gang.setJoin_dn (g : Gang) (j : JoinId) (x : Join) : (g.setJoin j x).dn = g.dn := rfl
@[simp] theorem Gang.setJoin_k (g : Gang) (j : JoinId) (x : Join) : (g.setJoin j x).k = g.k := rfl
@[simp] theorem Gang.setJoin_ks (g : Gang) (j : JoinId) (x : Join) : (g.setJoin j x).ks = g.ks := rfl
@[simp] theorem Gang.setJoin_lc (g : Gang) (j : JoinId) (x : Join) : (g.setJoin j x).lc = g.lc := rfl
@[simp] theorem Gang.setJoin_rng (g : Gang) (j : JoinId) (x : Join) : (g.setJoin j x).rng = g.rng := rfl
@[simp] theorem Gang.setJoin_frags (g : Gang) (j : JoinId) (x : Join) : (g.setJoin j x).frags = g.frags := rfl
@[simp] theorem Gang.setJoin_latch (g : Gang) (j : JoinId) (x : Join) : (g.setJoin j x).latch = g.latch := rfl
@[simp] theorem Gang.setJoin_loops (g : Gang) (j : JoinId) (x : Join) : (g.setJoin j x).loops = g.loops := rfl
@[simp] theorem Gang.setJoin_rngseed (g : Gang) (j : JoinId) (x : Join) : (g.setJoin j x).rngseed = g.rngseed := rfl
@[simp] theorem Gang.setJoin_trapcause (g : Gang) (j : JoinId) (x : Join) : (g.setJoin j x).trapcause = g.trapcause := rfl
@[simp] theorem Gang.setJoin_trappc (g : Gang) (j : JoinId) (x : Join) : (g.setJoin j x).trappc = g.trappc := rfl
@[simp] theorem Gang.setJoin_trapinfo (g : Gang) (j : JoinId) (x : Join) : (g.setJoin j x).trapinfo = g.trapinfo := rfl
@[simp] theorem Gang.setJoin_traplate (g : Gang) (j : JoinId) (x : Join) : (g.setJoin j x).traplate = g.traplate := rfl
@[simp] theorem Gang.setJoin_dsat (g : Gang) (j : JoinId) (x : Join) : (g.setJoin j x).dsat = g.dsat := rfl
@[simp] theorem Gang.setJoin_reread (g : Gang) (j : JoinId) (x : Join) : (g.setJoin j x).reread = g.reread := rfl
@[simp] theorem Gang.setJoin_usplit (g : Gang) (j : JoinId) (x : Join) : (g.setJoin j x).usplit = g.usplit := rfl
@[simp] theorem Gang.setJoin_intrap (g : Gang) (j : JoinId) (x : Join) : (g.setJoin j x).intrap = g.intrap := rfl
@[simp] theorem Gang.setJoin_skm (g : Gang) (j : JoinId) (x : Join) : (g.setJoin j x).skm = g.skm := rfl
@[simp] theorem Gang.setJoin_skseed (g : Gang) (j : JoinId) (x : Join) : (g.setJoin j x).skseed = g.skseed := rfl
@[simp] theorem Gang.setJoin_handler (g : Gang) (j : JoinId) (x : Join) : (g.setJoin j x).handler = g.handler := rfl
@[simp] theorem Gang.setJoin_heldTraps (g : Gang) (j : JoinId) (x : Join) : (g.setJoin j x).heldTraps = g.heldTraps := rfl
@[simp] theorem Gang.setJoin_debugHalt (g : Gang) (j : JoinId) (x : Join) : (g.setJoin j x).debugHalt = g.debugHalt := rfl
@[simp] theorem Gang.setJoin_pend (g : Gang) (j : JoinId) (x : Join) : (g.setJoin j x).pend = g.pend := rfl
@[simp] theorem Gang.setJoin_nextPend (g : Gang) (j : JoinId) (x : Join) : (g.setJoin j x).nextPend = g.nextPend := rfl
@[simp] theorem Gang.setJoin_late (g : Gang) (j : JoinId) (x : Join) : (g.setJoin j x).late = g.late := rfl
@[simp] theorem Gang.setJoin_nextLate (g : Gang) (j : JoinId) (x : Join) : (g.setJoin j x).nextLate = g.nextLate := rfl
@[simp] theorem Gang.setJoin_batches (g : Gang) (j : JoinId) (x : Join) : (g.setJoin j x).batches = g.batches := rfl
@[simp] theorem Gang.setJoin_nextOp (g : Gang) (j : JoinId) (x : Join) : (g.setJoin j x).nextOp = g.nextOp := rfl
@[simp] theorem Gang.setJoin_left (g : Gang) (j : JoinId) (x : Join) : (g.setJoin j x).left = g.left := rfl
@[simp] theorem Gang.setJoin_heldA (g : Gang) (j : JoinId) (x : Join) : (g.setJoin j x).heldA = g.heldA := rfl
@[simp] theorem Gang.setJoin_stopSlot (g : Gang) (j : JoinId) (x : Join) : (g.setJoin j x).stopSlot = g.stopSlot := rfl
@[simp] theorem Gang.setJoin_mfence (g : Gang) (j : JoinId) (x : Join) : (g.setJoin j x).mfence = g.mfence := rfl
@[simp] theorem Gang.setJoin_pairs (g : Gang) (j : JoinId) (x : Join) : (g.setJoin j x).pairs = g.pairs := rfl
@[simp] theorem Gang.setJoin_watchdog (g : Gang) (j : JoinId) (x : Join) : (g.setJoin j x).watchdog = g.watchdog := rfl
@[simp] theorem Gang.setJoin_hung (g : Gang) (j : JoinId) (x : Join) : (g.setJoin j x).hung = g.hung := rfl

@[simp] theorem Gang.noteSplit_live (g : Gang) : (g.noteSplit).live = g.live := rfl
@[simp] theorem Gang.noteSplit_team (g : Gang) : (g.noteSplit).team = g.team := rfl
@[simp] theorem Gang.noteSplit_gangid (g : Gang) : (g.noteSplit).gangid = g.gangid := rfl
@[simp] theorem Gang.noteSplit_launched (g : Gang) : (g.noteSplit).launched = g.launched := rfl
@[simp] theorem Gang.noteSplit_exited (g : Gang) : (g.noteSplit).exited = g.exited := rfl
@[simp] theorem Gang.noteSplit_v (g : Gang) : (g.noteSplit).v = g.v := rfl
@[simp] theorem Gang.noteSplit_u (g : Gang) : (g.noteSplit).u = g.u := rfl
@[simp] theorem Gang.noteSplit_m (g : Gang) : (g.noteSplit).m = g.m := rfl
@[simp] theorem Gang.noteSplit_dc (g : Gang) : (g.noteSplit).dc = g.dc := rfl
@[simp] theorem Gang.noteSplit_dn (g : Gang) : (g.noteSplit).dn = g.dn := rfl
@[simp] theorem Gang.noteSplit_k (g : Gang) : (g.noteSplit).k = g.k := rfl
@[simp] theorem Gang.noteSplit_ks (g : Gang) : (g.noteSplit).ks = g.ks := rfl
@[simp] theorem Gang.noteSplit_lc (g : Gang) : (g.noteSplit).lc = g.lc := rfl
@[simp] theorem Gang.noteSplit_rng (g : Gang) : (g.noteSplit).rng = g.rng := rfl
@[simp] theorem Gang.noteSplit_frags (g : Gang) : (g.noteSplit).frags = g.frags := rfl
@[simp] theorem Gang.noteSplit_joins (g : Gang) : (g.noteSplit).joins = g.joins := rfl
@[simp] theorem Gang.noteSplit_latch (g : Gang) : (g.noteSplit).latch = g.latch := rfl
@[simp] theorem Gang.noteSplit_loops (g : Gang) : (g.noteSplit).loops = g.loops := rfl
@[simp] theorem Gang.noteSplit_rngseed (g : Gang) : (g.noteSplit).rngseed = g.rngseed := rfl
@[simp] theorem Gang.noteSplit_trapcause (g : Gang) : (g.noteSplit).trapcause = g.trapcause := rfl
@[simp] theorem Gang.noteSplit_trappc (g : Gang) : (g.noteSplit).trappc = g.trappc := rfl
@[simp] theorem Gang.noteSplit_trapinfo (g : Gang) : (g.noteSplit).trapinfo = g.trapinfo := rfl
@[simp] theorem Gang.noteSplit_traplate (g : Gang) : (g.noteSplit).traplate = g.traplate := rfl
@[simp] theorem Gang.noteSplit_dsat (g : Gang) : (g.noteSplit).dsat = g.dsat := rfl
@[simp] theorem Gang.noteSplit_reread (g : Gang) : (g.noteSplit).reread = g.reread := rfl
@[simp] theorem Gang.noteSplit_intrap (g : Gang) : (g.noteSplit).intrap = g.intrap := rfl
@[simp] theorem Gang.noteSplit_skm (g : Gang) : (g.noteSplit).skm = g.skm := rfl
@[simp] theorem Gang.noteSplit_skseed (g : Gang) : (g.noteSplit).skseed = g.skseed := rfl
@[simp] theorem Gang.noteSplit_handler (g : Gang) : (g.noteSplit).handler = g.handler := rfl
@[simp] theorem Gang.noteSplit_heldTraps (g : Gang) : (g.noteSplit).heldTraps = g.heldTraps := rfl
@[simp] theorem Gang.noteSplit_debugHalt (g : Gang) : (g.noteSplit).debugHalt = g.debugHalt := rfl
@[simp] theorem Gang.noteSplit_pend (g : Gang) : (g.noteSplit).pend = g.pend := rfl
@[simp] theorem Gang.noteSplit_nextPend (g : Gang) : (g.noteSplit).nextPend = g.nextPend := rfl
@[simp] theorem Gang.noteSplit_late (g : Gang) : (g.noteSplit).late = g.late := rfl
@[simp] theorem Gang.noteSplit_nextLate (g : Gang) : (g.noteSplit).nextLate = g.nextLate := rfl
@[simp] theorem Gang.noteSplit_batches (g : Gang) : (g.noteSplit).batches = g.batches := rfl
@[simp] theorem Gang.noteSplit_nextOp (g : Gang) : (g.noteSplit).nextOp = g.nextOp := rfl
@[simp] theorem Gang.noteSplit_left (g : Gang) : (g.noteSplit).left = g.left := rfl
@[simp] theorem Gang.noteSplit_heldA (g : Gang) : (g.noteSplit).heldA = g.heldA := rfl
@[simp] theorem Gang.noteSplit_stopSlot (g : Gang) : (g.noteSplit).stopSlot = g.stopSlot := rfl
@[simp] theorem Gang.noteSplit_mfence (g : Gang) : (g.noteSplit).mfence = g.mfence := rfl
@[simp] theorem Gang.noteSplit_pairs (g : Gang) : (g.noteSplit).pairs = g.pairs := rfl
@[simp] theorem Gang.noteSplit_watchdog (g : Gang) : (g.noteSplit).watchdog = g.watchdog := rfl
@[simp] theorem Gang.noteSplit_hung (g : Gang) : (g.noteSplit).hung = g.hung := rfl

@[simp] theorem Gang.putV_live (g : Gang) (r : RegField) (em : BitVec 32) (n : Nat) (f : LaneId → VCell) : (g.putV r em n f).live = g.live := rfl
@[simp] theorem Gang.putV_team (g : Gang) (r : RegField) (em : BitVec 32) (n : Nat) (f : LaneId → VCell) : (g.putV r em n f).team = g.team := rfl
@[simp] theorem Gang.putV_gangid (g : Gang) (r : RegField) (em : BitVec 32) (n : Nat) (f : LaneId → VCell) : (g.putV r em n f).gangid = g.gangid := rfl
@[simp] theorem Gang.putV_launched (g : Gang) (r : RegField) (em : BitVec 32) (n : Nat) (f : LaneId → VCell) : (g.putV r em n f).launched = g.launched := rfl
@[simp] theorem Gang.putV_exited (g : Gang) (r : RegField) (em : BitVec 32) (n : Nat) (f : LaneId → VCell) : (g.putV r em n f).exited = g.exited := rfl
@[simp] theorem Gang.putV_u (g : Gang) (r : RegField) (em : BitVec 32) (n : Nat) (f : LaneId → VCell) : (g.putV r em n f).u = g.u := rfl
@[simp] theorem Gang.putV_m (g : Gang) (r : RegField) (em : BitVec 32) (n : Nat) (f : LaneId → VCell) : (g.putV r em n f).m = g.m := rfl
@[simp] theorem Gang.putV_dc (g : Gang) (r : RegField) (em : BitVec 32) (n : Nat) (f : LaneId → VCell) : (g.putV r em n f).dc = g.dc := rfl
@[simp] theorem Gang.putV_dn (g : Gang) (r : RegField) (em : BitVec 32) (n : Nat) (f : LaneId → VCell) : (g.putV r em n f).dn = g.dn := rfl
@[simp] theorem Gang.putV_k (g : Gang) (r : RegField) (em : BitVec 32) (n : Nat) (f : LaneId → VCell) : (g.putV r em n f).k = g.k := rfl
@[simp] theorem Gang.putV_ks (g : Gang) (r : RegField) (em : BitVec 32) (n : Nat) (f : LaneId → VCell) : (g.putV r em n f).ks = g.ks := rfl
@[simp] theorem Gang.putV_lc (g : Gang) (r : RegField) (em : BitVec 32) (n : Nat) (f : LaneId → VCell) : (g.putV r em n f).lc = g.lc := rfl
@[simp] theorem Gang.putV_rng (g : Gang) (r : RegField) (em : BitVec 32) (n : Nat) (f : LaneId → VCell) : (g.putV r em n f).rng = g.rng := rfl
@[simp] theorem Gang.putV_frags (g : Gang) (r : RegField) (em : BitVec 32) (n : Nat) (f : LaneId → VCell) : (g.putV r em n f).frags = g.frags := rfl
@[simp] theorem Gang.putV_joins (g : Gang) (r : RegField) (em : BitVec 32) (n : Nat) (f : LaneId → VCell) : (g.putV r em n f).joins = g.joins := rfl
@[simp] theorem Gang.putV_loops (g : Gang) (r : RegField) (em : BitVec 32) (n : Nat) (f : LaneId → VCell) : (g.putV r em n f).loops = g.loops := rfl
@[simp] theorem Gang.putV_rngseed (g : Gang) (r : RegField) (em : BitVec 32) (n : Nat) (f : LaneId → VCell) : (g.putV r em n f).rngseed = g.rngseed := rfl
@[simp] theorem Gang.putV_trapcause (g : Gang) (r : RegField) (em : BitVec 32) (n : Nat) (f : LaneId → VCell) : (g.putV r em n f).trapcause = g.trapcause := rfl
@[simp] theorem Gang.putV_trappc (g : Gang) (r : RegField) (em : BitVec 32) (n : Nat) (f : LaneId → VCell) : (g.putV r em n f).trappc = g.trappc := rfl
@[simp] theorem Gang.putV_trapinfo (g : Gang) (r : RegField) (em : BitVec 32) (n : Nat) (f : LaneId → VCell) : (g.putV r em n f).trapinfo = g.trapinfo := rfl
@[simp] theorem Gang.putV_traplate (g : Gang) (r : RegField) (em : BitVec 32) (n : Nat) (f : LaneId → VCell) : (g.putV r em n f).traplate = g.traplate := rfl
@[simp] theorem Gang.putV_dsat (g : Gang) (r : RegField) (em : BitVec 32) (n : Nat) (f : LaneId → VCell) : (g.putV r em n f).dsat = g.dsat := rfl
@[simp] theorem Gang.putV_reread (g : Gang) (r : RegField) (em : BitVec 32) (n : Nat) (f : LaneId → VCell) : (g.putV r em n f).reread = g.reread := rfl
@[simp] theorem Gang.putV_usplit (g : Gang) (r : RegField) (em : BitVec 32) (n : Nat) (f : LaneId → VCell) : (g.putV r em n f).usplit = g.usplit := rfl
@[simp] theorem Gang.putV_intrap (g : Gang) (r : RegField) (em : BitVec 32) (n : Nat) (f : LaneId → VCell) : (g.putV r em n f).intrap = g.intrap := rfl
@[simp] theorem Gang.putV_skm (g : Gang) (r : RegField) (em : BitVec 32) (n : Nat) (f : LaneId → VCell) : (g.putV r em n f).skm = g.skm := rfl
@[simp] theorem Gang.putV_skseed (g : Gang) (r : RegField) (em : BitVec 32) (n : Nat) (f : LaneId → VCell) : (g.putV r em n f).skseed = g.skseed := rfl
@[simp] theorem Gang.putV_handler (g : Gang) (r : RegField) (em : BitVec 32) (n : Nat) (f : LaneId → VCell) : (g.putV r em n f).handler = g.handler := rfl
@[simp] theorem Gang.putV_heldTraps (g : Gang) (r : RegField) (em : BitVec 32) (n : Nat) (f : LaneId → VCell) : (g.putV r em n f).heldTraps = g.heldTraps := rfl
@[simp] theorem Gang.putV_debugHalt (g : Gang) (r : RegField) (em : BitVec 32) (n : Nat) (f : LaneId → VCell) : (g.putV r em n f).debugHalt = g.debugHalt := rfl
@[simp] theorem Gang.putV_pend (g : Gang) (r : RegField) (em : BitVec 32) (n : Nat) (f : LaneId → VCell) : (g.putV r em n f).pend = g.pend := rfl
@[simp] theorem Gang.putV_nextPend (g : Gang) (r : RegField) (em : BitVec 32) (n : Nat) (f : LaneId → VCell) : (g.putV r em n f).nextPend = g.nextPend := rfl
@[simp] theorem Gang.putV_nextLate (g : Gang) (r : RegField) (em : BitVec 32) (n : Nat) (f : LaneId → VCell) : (g.putV r em n f).nextLate = g.nextLate := rfl
@[simp] theorem Gang.putV_batches (g : Gang) (r : RegField) (em : BitVec 32) (n : Nat) (f : LaneId → VCell) : (g.putV r em n f).batches = g.batches := rfl
@[simp] theorem Gang.putV_nextOp (g : Gang) (r : RegField) (em : BitVec 32) (n : Nat) (f : LaneId → VCell) : (g.putV r em n f).nextOp = g.nextOp := rfl
@[simp] theorem Gang.putV_left (g : Gang) (r : RegField) (em : BitVec 32) (n : Nat) (f : LaneId → VCell) : (g.putV r em n f).left = g.left := rfl
@[simp] theorem Gang.putV_heldA (g : Gang) (r : RegField) (em : BitVec 32) (n : Nat) (f : LaneId → VCell) : (g.putV r em n f).heldA = g.heldA := rfl
@[simp] theorem Gang.putV_stopSlot (g : Gang) (r : RegField) (em : BitVec 32) (n : Nat) (f : LaneId → VCell) : (g.putV r em n f).stopSlot = g.stopSlot := rfl
@[simp] theorem Gang.putV_mfence (g : Gang) (r : RegField) (em : BitVec 32) (n : Nat) (f : LaneId → VCell) : (g.putV r em n f).mfence = g.mfence := rfl
@[simp] theorem Gang.putV_pairs (g : Gang) (r : RegField) (em : BitVec 32) (n : Nat) (f : LaneId → VCell) : (g.putV r em n f).pairs = g.pairs := rfl
@[simp] theorem Gang.putV_watchdog (g : Gang) (r : RegField) (em : BitVec 32) (n : Nat) (f : LaneId → VCell) : (g.putV r em n f).watchdog = g.watchdog := rfl
@[simp] theorem Gang.putV_hung (g : Gang) (r : RegField) (em : BitVec 32) (n : Nat) (f : LaneId → VCell) : (g.putV r em n f).hung = g.hung := rfl

@[simp] theorem Gang.putU_live (g : Gang) (r : RegField) (x : DWord) : (g.putU r x).live = g.live := rfl
@[simp] theorem Gang.putU_team (g : Gang) (r : RegField) (x : DWord) : (g.putU r x).team = g.team := rfl
@[simp] theorem Gang.putU_gangid (g : Gang) (r : RegField) (x : DWord) : (g.putU r x).gangid = g.gangid := rfl
@[simp] theorem Gang.putU_launched (g : Gang) (r : RegField) (x : DWord) : (g.putU r x).launched = g.launched := rfl
@[simp] theorem Gang.putU_exited (g : Gang) (r : RegField) (x : DWord) : (g.putU r x).exited = g.exited := rfl
@[simp] theorem Gang.putU_v (g : Gang) (r : RegField) (x : DWord) : (g.putU r x).v = g.v := rfl
@[simp] theorem Gang.putU_m (g : Gang) (r : RegField) (x : DWord) : (g.putU r x).m = g.m := rfl
@[simp] theorem Gang.putU_dc (g : Gang) (r : RegField) (x : DWord) : (g.putU r x).dc = g.dc := rfl
@[simp] theorem Gang.putU_dn (g : Gang) (r : RegField) (x : DWord) : (g.putU r x).dn = g.dn := rfl
@[simp] theorem Gang.putU_k (g : Gang) (r : RegField) (x : DWord) : (g.putU r x).k = g.k := rfl
@[simp] theorem Gang.putU_ks (g : Gang) (r : RegField) (x : DWord) : (g.putU r x).ks = g.ks := rfl
@[simp] theorem Gang.putU_lc (g : Gang) (r : RegField) (x : DWord) : (g.putU r x).lc = g.lc := rfl
@[simp] theorem Gang.putU_rng (g : Gang) (r : RegField) (x : DWord) : (g.putU r x).rng = g.rng := rfl
@[simp] theorem Gang.putU_frags (g : Gang) (r : RegField) (x : DWord) : (g.putU r x).frags = g.frags := rfl
@[simp] theorem Gang.putU_joins (g : Gang) (r : RegField) (x : DWord) : (g.putU r x).joins = g.joins := rfl
@[simp] theorem Gang.putU_latch (g : Gang) (r : RegField) (x : DWord) : (g.putU r x).latch = g.latch := rfl
@[simp] theorem Gang.putU_loops (g : Gang) (r : RegField) (x : DWord) : (g.putU r x).loops = g.loops := rfl
@[simp] theorem Gang.putU_rngseed (g : Gang) (r : RegField) (x : DWord) : (g.putU r x).rngseed = g.rngseed := rfl
@[simp] theorem Gang.putU_trapcause (g : Gang) (r : RegField) (x : DWord) : (g.putU r x).trapcause = g.trapcause := rfl
@[simp] theorem Gang.putU_trappc (g : Gang) (r : RegField) (x : DWord) : (g.putU r x).trappc = g.trappc := rfl
@[simp] theorem Gang.putU_trapinfo (g : Gang) (r : RegField) (x : DWord) : (g.putU r x).trapinfo = g.trapinfo := rfl
@[simp] theorem Gang.putU_traplate (g : Gang) (r : RegField) (x : DWord) : (g.putU r x).traplate = g.traplate := rfl
@[simp] theorem Gang.putU_dsat (g : Gang) (r : RegField) (x : DWord) : (g.putU r x).dsat = g.dsat := rfl
@[simp] theorem Gang.putU_reread (g : Gang) (r : RegField) (x : DWord) : (g.putU r x).reread = g.reread := rfl
@[simp] theorem Gang.putU_intrap (g : Gang) (r : RegField) (x : DWord) : (g.putU r x).intrap = g.intrap := rfl
@[simp] theorem Gang.putU_skm (g : Gang) (r : RegField) (x : DWord) : (g.putU r x).skm = g.skm := rfl
@[simp] theorem Gang.putU_skseed (g : Gang) (r : RegField) (x : DWord) : (g.putU r x).skseed = g.skseed := rfl
@[simp] theorem Gang.putU_handler (g : Gang) (r : RegField) (x : DWord) : (g.putU r x).handler = g.handler := rfl
@[simp] theorem Gang.putU_heldTraps (g : Gang) (r : RegField) (x : DWord) : (g.putU r x).heldTraps = g.heldTraps := rfl
@[simp] theorem Gang.putU_debugHalt (g : Gang) (r : RegField) (x : DWord) : (g.putU r x).debugHalt = g.debugHalt := rfl
@[simp] theorem Gang.putU_pend (g : Gang) (r : RegField) (x : DWord) : (g.putU r x).pend = g.pend := rfl
@[simp] theorem Gang.putU_nextPend (g : Gang) (r : RegField) (x : DWord) : (g.putU r x).nextPend = g.nextPend := rfl
@[simp] theorem Gang.putU_late (g : Gang) (r : RegField) (x : DWord) : (g.putU r x).late = g.late := rfl
@[simp] theorem Gang.putU_nextLate (g : Gang) (r : RegField) (x : DWord) : (g.putU r x).nextLate = g.nextLate := rfl
@[simp] theorem Gang.putU_batches (g : Gang) (r : RegField) (x : DWord) : (g.putU r x).batches = g.batches := rfl
@[simp] theorem Gang.putU_nextOp (g : Gang) (r : RegField) (x : DWord) : (g.putU r x).nextOp = g.nextOp := rfl
@[simp] theorem Gang.putU_left (g : Gang) (r : RegField) (x : DWord) : (g.putU r x).left = g.left := rfl
@[simp] theorem Gang.putU_heldA (g : Gang) (r : RegField) (x : DWord) : (g.putU r x).heldA = g.heldA := rfl
@[simp] theorem Gang.putU_stopSlot (g : Gang) (r : RegField) (x : DWord) : (g.putU r x).stopSlot = g.stopSlot := rfl
@[simp] theorem Gang.putU_mfence (g : Gang) (r : RegField) (x : DWord) : (g.putU r x).mfence = g.mfence := rfl
@[simp] theorem Gang.putU_pairs (g : Gang) (r : RegField) (x : DWord) : (g.putU r x).pairs = g.pairs := rfl
@[simp] theorem Gang.putU_watchdog (g : Gang) (r : RegField) (x : DWord) : (g.putU r x).watchdog = g.watchdog := rfl
@[simp] theorem Gang.putU_hung (g : Gang) (r : RegField) (x : DWord) : (g.putU r x).hung = g.hung := rfl

@[simp] theorem Gang.writeV_live (g : Gang) (r : RegField) (em : BitVec 32) (f : LaneId → VCell) : (g.writeV r em f).live = g.live := rfl
@[simp] theorem Gang.writeV_team (g : Gang) (r : RegField) (em : BitVec 32) (f : LaneId → VCell) : (g.writeV r em f).team = g.team := rfl
@[simp] theorem Gang.writeV_gangid (g : Gang) (r : RegField) (em : BitVec 32) (f : LaneId → VCell) : (g.writeV r em f).gangid = g.gangid := rfl
@[simp] theorem Gang.writeV_launched (g : Gang) (r : RegField) (em : BitVec 32) (f : LaneId → VCell) : (g.writeV r em f).launched = g.launched := rfl
@[simp] theorem Gang.writeV_exited (g : Gang) (r : RegField) (em : BitVec 32) (f : LaneId → VCell) : (g.writeV r em f).exited = g.exited := rfl
@[simp] theorem Gang.writeV_u (g : Gang) (r : RegField) (em : BitVec 32) (f : LaneId → VCell) : (g.writeV r em f).u = g.u := rfl
@[simp] theorem Gang.writeV_m (g : Gang) (r : RegField) (em : BitVec 32) (f : LaneId → VCell) : (g.writeV r em f).m = g.m := rfl
@[simp] theorem Gang.writeV_dc (g : Gang) (r : RegField) (em : BitVec 32) (f : LaneId → VCell) : (g.writeV r em f).dc = g.dc := rfl
@[simp] theorem Gang.writeV_dn (g : Gang) (r : RegField) (em : BitVec 32) (f : LaneId → VCell) : (g.writeV r em f).dn = g.dn := rfl
@[simp] theorem Gang.writeV_k (g : Gang) (r : RegField) (em : BitVec 32) (f : LaneId → VCell) : (g.writeV r em f).k = g.k := rfl
@[simp] theorem Gang.writeV_ks (g : Gang) (r : RegField) (em : BitVec 32) (f : LaneId → VCell) : (g.writeV r em f).ks = g.ks := rfl
@[simp] theorem Gang.writeV_lc (g : Gang) (r : RegField) (em : BitVec 32) (f : LaneId → VCell) : (g.writeV r em f).lc = g.lc := rfl
@[simp] theorem Gang.writeV_rng (g : Gang) (r : RegField) (em : BitVec 32) (f : LaneId → VCell) : (g.writeV r em f).rng = g.rng := rfl
@[simp] theorem Gang.writeV_frags (g : Gang) (r : RegField) (em : BitVec 32) (f : LaneId → VCell) : (g.writeV r em f).frags = g.frags := rfl
@[simp] theorem Gang.writeV_joins (g : Gang) (r : RegField) (em : BitVec 32) (f : LaneId → VCell) : (g.writeV r em f).joins = g.joins := rfl
@[simp] theorem Gang.writeV_loops (g : Gang) (r : RegField) (em : BitVec 32) (f : LaneId → VCell) : (g.writeV r em f).loops = g.loops := rfl
@[simp] theorem Gang.writeV_rngseed (g : Gang) (r : RegField) (em : BitVec 32) (f : LaneId → VCell) : (g.writeV r em f).rngseed = g.rngseed := rfl
@[simp] theorem Gang.writeV_trapcause (g : Gang) (r : RegField) (em : BitVec 32) (f : LaneId → VCell) : (g.writeV r em f).trapcause = g.trapcause := rfl
@[simp] theorem Gang.writeV_trappc (g : Gang) (r : RegField) (em : BitVec 32) (f : LaneId → VCell) : (g.writeV r em f).trappc = g.trappc := rfl
@[simp] theorem Gang.writeV_trapinfo (g : Gang) (r : RegField) (em : BitVec 32) (f : LaneId → VCell) : (g.writeV r em f).trapinfo = g.trapinfo := rfl
@[simp] theorem Gang.writeV_traplate (g : Gang) (r : RegField) (em : BitVec 32) (f : LaneId → VCell) : (g.writeV r em f).traplate = g.traplate := rfl
@[simp] theorem Gang.writeV_dsat (g : Gang) (r : RegField) (em : BitVec 32) (f : LaneId → VCell) : (g.writeV r em f).dsat = g.dsat := rfl
@[simp] theorem Gang.writeV_reread (g : Gang) (r : RegField) (em : BitVec 32) (f : LaneId → VCell) : (g.writeV r em f).reread = g.reread := rfl
@[simp] theorem Gang.writeV_usplit (g : Gang) (r : RegField) (em : BitVec 32) (f : LaneId → VCell) : (g.writeV r em f).usplit = g.usplit := rfl
@[simp] theorem Gang.writeV_intrap (g : Gang) (r : RegField) (em : BitVec 32) (f : LaneId → VCell) : (g.writeV r em f).intrap = g.intrap := rfl
@[simp] theorem Gang.writeV_skm (g : Gang) (r : RegField) (em : BitVec 32) (f : LaneId → VCell) : (g.writeV r em f).skm = g.skm := rfl
@[simp] theorem Gang.writeV_skseed (g : Gang) (r : RegField) (em : BitVec 32) (f : LaneId → VCell) : (g.writeV r em f).skseed = g.skseed := rfl
@[simp] theorem Gang.writeV_handler (g : Gang) (r : RegField) (em : BitVec 32) (f : LaneId → VCell) : (g.writeV r em f).handler = g.handler := rfl
@[simp] theorem Gang.writeV_heldTraps (g : Gang) (r : RegField) (em : BitVec 32) (f : LaneId → VCell) : (g.writeV r em f).heldTraps = g.heldTraps := rfl
@[simp] theorem Gang.writeV_debugHalt (g : Gang) (r : RegField) (em : BitVec 32) (f : LaneId → VCell) : (g.writeV r em f).debugHalt = g.debugHalt := rfl
@[simp] theorem Gang.writeV_nextPend (g : Gang) (r : RegField) (em : BitVec 32) (f : LaneId → VCell) : (g.writeV r em f).nextPend = g.nextPend := rfl
@[simp] theorem Gang.writeV_nextLate (g : Gang) (r : RegField) (em : BitVec 32) (f : LaneId → VCell) : (g.writeV r em f).nextLate = g.nextLate := rfl
@[simp] theorem Gang.writeV_batches (g : Gang) (r : RegField) (em : BitVec 32) (f : LaneId → VCell) : (g.writeV r em f).batches = g.batches := rfl
@[simp] theorem Gang.writeV_nextOp (g : Gang) (r : RegField) (em : BitVec 32) (f : LaneId → VCell) : (g.writeV r em f).nextOp = g.nextOp := rfl
@[simp] theorem Gang.writeV_left (g : Gang) (r : RegField) (em : BitVec 32) (f : LaneId → VCell) : (g.writeV r em f).left = g.left := rfl
@[simp] theorem Gang.writeV_heldA (g : Gang) (r : RegField) (em : BitVec 32) (f : LaneId → VCell) : (g.writeV r em f).heldA = g.heldA := rfl
@[simp] theorem Gang.writeV_stopSlot (g : Gang) (r : RegField) (em : BitVec 32) (f : LaneId → VCell) : (g.writeV r em f).stopSlot = g.stopSlot := rfl
@[simp] theorem Gang.writeV_mfence (g : Gang) (r : RegField) (em : BitVec 32) (f : LaneId → VCell) : (g.writeV r em f).mfence = g.mfence := rfl
@[simp] theorem Gang.writeV_pairs (g : Gang) (r : RegField) (em : BitVec 32) (f : LaneId → VCell) : (g.writeV r em f).pairs = g.pairs := rfl
@[simp] theorem Gang.writeV_watchdog (g : Gang) (r : RegField) (em : BitVec 32) (f : LaneId → VCell) : (g.writeV r em f).watchdog = g.watchdog := rfl
@[simp] theorem Gang.writeV_hung (g : Gang) (r : RegField) (em : BitVec 32) (f : LaneId → VCell) : (g.writeV r em f).hung = g.hung := rfl

@[simp] theorem Gang.writeU_live (g : Gang) (r : RegField) (x : DWord) : (g.writeU r x).live = g.live := rfl
@[simp] theorem Gang.writeU_team (g : Gang) (r : RegField) (x : DWord) : (g.writeU r x).team = g.team := rfl
@[simp] theorem Gang.writeU_gangid (g : Gang) (r : RegField) (x : DWord) : (g.writeU r x).gangid = g.gangid := rfl
@[simp] theorem Gang.writeU_launched (g : Gang) (r : RegField) (x : DWord) : (g.writeU r x).launched = g.launched := rfl
@[simp] theorem Gang.writeU_exited (g : Gang) (r : RegField) (x : DWord) : (g.writeU r x).exited = g.exited := rfl
@[simp] theorem Gang.writeU_v (g : Gang) (r : RegField) (x : DWord) : (g.writeU r x).v = g.v := rfl
@[simp] theorem Gang.writeU_m (g : Gang) (r : RegField) (x : DWord) : (g.writeU r x).m = g.m := rfl
@[simp] theorem Gang.writeU_dc (g : Gang) (r : RegField) (x : DWord) : (g.writeU r x).dc = g.dc := rfl
@[simp] theorem Gang.writeU_dn (g : Gang) (r : RegField) (x : DWord) : (g.writeU r x).dn = g.dn := rfl
@[simp] theorem Gang.writeU_k (g : Gang) (r : RegField) (x : DWord) : (g.writeU r x).k = g.k := rfl
@[simp] theorem Gang.writeU_ks (g : Gang) (r : RegField) (x : DWord) : (g.writeU r x).ks = g.ks := rfl
@[simp] theorem Gang.writeU_lc (g : Gang) (r : RegField) (x : DWord) : (g.writeU r x).lc = g.lc := rfl
@[simp] theorem Gang.writeU_rng (g : Gang) (r : RegField) (x : DWord) : (g.writeU r x).rng = g.rng := rfl
@[simp] theorem Gang.writeU_frags (g : Gang) (r : RegField) (x : DWord) : (g.writeU r x).frags = g.frags := rfl
@[simp] theorem Gang.writeU_joins (g : Gang) (r : RegField) (x : DWord) : (g.writeU r x).joins = g.joins := rfl
@[simp] theorem Gang.writeU_latch (g : Gang) (r : RegField) (x : DWord) : (g.writeU r x).latch = g.latch := rfl
@[simp] theorem Gang.writeU_loops (g : Gang) (r : RegField) (x : DWord) : (g.writeU r x).loops = g.loops := rfl
@[simp] theorem Gang.writeU_rngseed (g : Gang) (r : RegField) (x : DWord) : (g.writeU r x).rngseed = g.rngseed := rfl
@[simp] theorem Gang.writeU_trapcause (g : Gang) (r : RegField) (x : DWord) : (g.writeU r x).trapcause = g.trapcause := rfl
@[simp] theorem Gang.writeU_trappc (g : Gang) (r : RegField) (x : DWord) : (g.writeU r x).trappc = g.trappc := rfl
@[simp] theorem Gang.writeU_trapinfo (g : Gang) (r : RegField) (x : DWord) : (g.writeU r x).trapinfo = g.trapinfo := rfl
@[simp] theorem Gang.writeU_traplate (g : Gang) (r : RegField) (x : DWord) : (g.writeU r x).traplate = g.traplate := rfl
@[simp] theorem Gang.writeU_dsat (g : Gang) (r : RegField) (x : DWord) : (g.writeU r x).dsat = g.dsat := rfl
@[simp] theorem Gang.writeU_reread (g : Gang) (r : RegField) (x : DWord) : (g.writeU r x).reread = g.reread := rfl
@[simp] theorem Gang.writeU_intrap (g : Gang) (r : RegField) (x : DWord) : (g.writeU r x).intrap = g.intrap := rfl
@[simp] theorem Gang.writeU_skm (g : Gang) (r : RegField) (x : DWord) : (g.writeU r x).skm = g.skm := rfl
@[simp] theorem Gang.writeU_skseed (g : Gang) (r : RegField) (x : DWord) : (g.writeU r x).skseed = g.skseed := rfl
@[simp] theorem Gang.writeU_handler (g : Gang) (r : RegField) (x : DWord) : (g.writeU r x).handler = g.handler := rfl
@[simp] theorem Gang.writeU_heldTraps (g : Gang) (r : RegField) (x : DWord) : (g.writeU r x).heldTraps = g.heldTraps := rfl
@[simp] theorem Gang.writeU_debugHalt (g : Gang) (r : RegField) (x : DWord) : (g.writeU r x).debugHalt = g.debugHalt := rfl
@[simp] theorem Gang.writeU_nextPend (g : Gang) (r : RegField) (x : DWord) : (g.writeU r x).nextPend = g.nextPend := rfl
@[simp] theorem Gang.writeU_late (g : Gang) (r : RegField) (x : DWord) : (g.writeU r x).late = g.late := rfl
@[simp] theorem Gang.writeU_nextLate (g : Gang) (r : RegField) (x : DWord) : (g.writeU r x).nextLate = g.nextLate := rfl
@[simp] theorem Gang.writeU_batches (g : Gang) (r : RegField) (x : DWord) : (g.writeU r x).batches = g.batches := rfl
@[simp] theorem Gang.writeU_nextOp (g : Gang) (r : RegField) (x : DWord) : (g.writeU r x).nextOp = g.nextOp := rfl
@[simp] theorem Gang.writeU_left (g : Gang) (r : RegField) (x : DWord) : (g.writeU r x).left = g.left := rfl
@[simp] theorem Gang.writeU_heldA (g : Gang) (r : RegField) (x : DWord) : (g.writeU r x).heldA = g.heldA := rfl
@[simp] theorem Gang.writeU_stopSlot (g : Gang) (r : RegField) (x : DWord) : (g.writeU r x).stopSlot = g.stopSlot := rfl
@[simp] theorem Gang.writeU_mfence (g : Gang) (r : RegField) (x : DWord) : (g.writeU r x).mfence = g.mfence := rfl
@[simp] theorem Gang.writeU_pairs (g : Gang) (r : RegField) (x : DWord) : (g.writeU r x).pairs = g.pairs := rfl
@[simp] theorem Gang.writeU_watchdog (g : Gang) (r : RegField) (x : DWord) : (g.writeU r x).watchdog = g.watchdog := rfl
@[simp] theorem Gang.writeU_hung (g : Gang) (r : RegField) (x : DWord) : (g.writeU r x).hung = g.hung := rfl

@[simp] theorem Gang.writeM_live (g : Gang) (r : RegField) (x : BitVec 32) : (g.writeM r x).live = g.live := rfl
@[simp] theorem Gang.writeM_team (g : Gang) (r : RegField) (x : BitVec 32) : (g.writeM r x).team = g.team := rfl
@[simp] theorem Gang.writeM_gangid (g : Gang) (r : RegField) (x : BitVec 32) : (g.writeM r x).gangid = g.gangid := rfl
@[simp] theorem Gang.writeM_launched (g : Gang) (r : RegField) (x : BitVec 32) : (g.writeM r x).launched = g.launched := rfl
@[simp] theorem Gang.writeM_exited (g : Gang) (r : RegField) (x : BitVec 32) : (g.writeM r x).exited = g.exited := rfl
@[simp] theorem Gang.writeM_v (g : Gang) (r : RegField) (x : BitVec 32) : (g.writeM r x).v = g.v := rfl
@[simp] theorem Gang.writeM_u (g : Gang) (r : RegField) (x : BitVec 32) : (g.writeM r x).u = g.u := rfl
@[simp] theorem Gang.writeM_dc (g : Gang) (r : RegField) (x : BitVec 32) : (g.writeM r x).dc = g.dc := rfl
@[simp] theorem Gang.writeM_dn (g : Gang) (r : RegField) (x : BitVec 32) : (g.writeM r x).dn = g.dn := rfl
@[simp] theorem Gang.writeM_k (g : Gang) (r : RegField) (x : BitVec 32) : (g.writeM r x).k = g.k := rfl
@[simp] theorem Gang.writeM_ks (g : Gang) (r : RegField) (x : BitVec 32) : (g.writeM r x).ks = g.ks := rfl
@[simp] theorem Gang.writeM_lc (g : Gang) (r : RegField) (x : BitVec 32) : (g.writeM r x).lc = g.lc := rfl
@[simp] theorem Gang.writeM_rng (g : Gang) (r : RegField) (x : BitVec 32) : (g.writeM r x).rng = g.rng := rfl
@[simp] theorem Gang.writeM_frags (g : Gang) (r : RegField) (x : BitVec 32) : (g.writeM r x).frags = g.frags := rfl
@[simp] theorem Gang.writeM_joins (g : Gang) (r : RegField) (x : BitVec 32) : (g.writeM r x).joins = g.joins := rfl
@[simp] theorem Gang.writeM_latch (g : Gang) (r : RegField) (x : BitVec 32) : (g.writeM r x).latch = g.latch := rfl
@[simp] theorem Gang.writeM_loops (g : Gang) (r : RegField) (x : BitVec 32) : (g.writeM r x).loops = g.loops := rfl
@[simp] theorem Gang.writeM_rngseed (g : Gang) (r : RegField) (x : BitVec 32) : (g.writeM r x).rngseed = g.rngseed := rfl
@[simp] theorem Gang.writeM_trapcause (g : Gang) (r : RegField) (x : BitVec 32) : (g.writeM r x).trapcause = g.trapcause := rfl
@[simp] theorem Gang.writeM_trappc (g : Gang) (r : RegField) (x : BitVec 32) : (g.writeM r x).trappc = g.trappc := rfl
@[simp] theorem Gang.writeM_trapinfo (g : Gang) (r : RegField) (x : BitVec 32) : (g.writeM r x).trapinfo = g.trapinfo := rfl
@[simp] theorem Gang.writeM_traplate (g : Gang) (r : RegField) (x : BitVec 32) : (g.writeM r x).traplate = g.traplate := rfl
@[simp] theorem Gang.writeM_dsat (g : Gang) (r : RegField) (x : BitVec 32) : (g.writeM r x).dsat = g.dsat := rfl
@[simp] theorem Gang.writeM_reread (g : Gang) (r : RegField) (x : BitVec 32) : (g.writeM r x).reread = g.reread := rfl
@[simp] theorem Gang.writeM_intrap (g : Gang) (r : RegField) (x : BitVec 32) : (g.writeM r x).intrap = g.intrap := rfl
@[simp] theorem Gang.writeM_skm (g : Gang) (r : RegField) (x : BitVec 32) : (g.writeM r x).skm = g.skm := rfl
@[simp] theorem Gang.writeM_skseed (g : Gang) (r : RegField) (x : BitVec 32) : (g.writeM r x).skseed = g.skseed := rfl
@[simp] theorem Gang.writeM_handler (g : Gang) (r : RegField) (x : BitVec 32) : (g.writeM r x).handler = g.handler := rfl
@[simp] theorem Gang.writeM_heldTraps (g : Gang) (r : RegField) (x : BitVec 32) : (g.writeM r x).heldTraps = g.heldTraps := rfl
@[simp] theorem Gang.writeM_debugHalt (g : Gang) (r : RegField) (x : BitVec 32) : (g.writeM r x).debugHalt = g.debugHalt := rfl
@[simp] theorem Gang.writeM_pend (g : Gang) (r : RegField) (x : BitVec 32) : (g.writeM r x).pend = g.pend := rfl
@[simp] theorem Gang.writeM_nextPend (g : Gang) (r : RegField) (x : BitVec 32) : (g.writeM r x).nextPend = g.nextPend := rfl
@[simp] theorem Gang.writeM_late (g : Gang) (r : RegField) (x : BitVec 32) : (g.writeM r x).late = g.late := rfl
@[simp] theorem Gang.writeM_nextLate (g : Gang) (r : RegField) (x : BitVec 32) : (g.writeM r x).nextLate = g.nextLate := rfl
@[simp] theorem Gang.writeM_batches (g : Gang) (r : RegField) (x : BitVec 32) : (g.writeM r x).batches = g.batches := rfl
@[simp] theorem Gang.writeM_nextOp (g : Gang) (r : RegField) (x : BitVec 32) : (g.writeM r x).nextOp = g.nextOp := rfl
@[simp] theorem Gang.writeM_left (g : Gang) (r : RegField) (x : BitVec 32) : (g.writeM r x).left = g.left := rfl
@[simp] theorem Gang.writeM_heldA (g : Gang) (r : RegField) (x : BitVec 32) : (g.writeM r x).heldA = g.heldA := rfl
@[simp] theorem Gang.writeM_stopSlot (g : Gang) (r : RegField) (x : BitVec 32) : (g.writeM r x).stopSlot = g.stopSlot := rfl
@[simp] theorem Gang.writeM_mfence (g : Gang) (r : RegField) (x : BitVec 32) : (g.writeM r x).mfence = g.mfence := rfl
@[simp] theorem Gang.writeM_pairs (g : Gang) (r : RegField) (x : BitVec 32) : (g.writeM r x).pairs = g.pairs := rfl
@[simp] theorem Gang.writeM_watchdog (g : Gang) (r : RegField) (x : BitVec 32) : (g.writeM r x).watchdog = g.watchdog := rfl
@[simp] theorem Gang.writeM_hung (g : Gang) (r : RegField) (x : BitVec 32) : (g.writeM r x).hung = g.hung := rfl

@[simp] theorem Gang.writeN_live (g : Gang) (r : RegField) (x : BitVec 16) : (g.writeN r x).live = g.live := rfl
@[simp] theorem Gang.writeN_team (g : Gang) (r : RegField) (x : BitVec 16) : (g.writeN r x).team = g.team := rfl
@[simp] theorem Gang.writeN_gangid (g : Gang) (r : RegField) (x : BitVec 16) : (g.writeN r x).gangid = g.gangid := rfl
@[simp] theorem Gang.writeN_launched (g : Gang) (r : RegField) (x : BitVec 16) : (g.writeN r x).launched = g.launched := rfl
@[simp] theorem Gang.writeN_exited (g : Gang) (r : RegField) (x : BitVec 16) : (g.writeN r x).exited = g.exited := rfl
@[simp] theorem Gang.writeN_v (g : Gang) (r : RegField) (x : BitVec 16) : (g.writeN r x).v = g.v := rfl
@[simp] theorem Gang.writeN_u (g : Gang) (r : RegField) (x : BitVec 16) : (g.writeN r x).u = g.u := rfl
@[simp] theorem Gang.writeN_m (g : Gang) (r : RegField) (x : BitVec 16) : (g.writeN r x).m = g.m := rfl
@[simp] theorem Gang.writeN_dc (g : Gang) (r : RegField) (x : BitVec 16) : (g.writeN r x).dc = g.dc := rfl
@[simp] theorem Gang.writeN_k (g : Gang) (r : RegField) (x : BitVec 16) : (g.writeN r x).k = g.k := rfl
@[simp] theorem Gang.writeN_ks (g : Gang) (r : RegField) (x : BitVec 16) : (g.writeN r x).ks = g.ks := rfl
@[simp] theorem Gang.writeN_lc (g : Gang) (r : RegField) (x : BitVec 16) : (g.writeN r x).lc = g.lc := rfl
@[simp] theorem Gang.writeN_rng (g : Gang) (r : RegField) (x : BitVec 16) : (g.writeN r x).rng = g.rng := rfl
@[simp] theorem Gang.writeN_frags (g : Gang) (r : RegField) (x : BitVec 16) : (g.writeN r x).frags = g.frags := rfl
@[simp] theorem Gang.writeN_joins (g : Gang) (r : RegField) (x : BitVec 16) : (g.writeN r x).joins = g.joins := rfl
@[simp] theorem Gang.writeN_latch (g : Gang) (r : RegField) (x : BitVec 16) : (g.writeN r x).latch = g.latch := rfl
@[simp] theorem Gang.writeN_loops (g : Gang) (r : RegField) (x : BitVec 16) : (g.writeN r x).loops = g.loops := rfl
@[simp] theorem Gang.writeN_rngseed (g : Gang) (r : RegField) (x : BitVec 16) : (g.writeN r x).rngseed = g.rngseed := rfl
@[simp] theorem Gang.writeN_trapcause (g : Gang) (r : RegField) (x : BitVec 16) : (g.writeN r x).trapcause = g.trapcause := rfl
@[simp] theorem Gang.writeN_trappc (g : Gang) (r : RegField) (x : BitVec 16) : (g.writeN r x).trappc = g.trappc := rfl
@[simp] theorem Gang.writeN_trapinfo (g : Gang) (r : RegField) (x : BitVec 16) : (g.writeN r x).trapinfo = g.trapinfo := rfl
@[simp] theorem Gang.writeN_traplate (g : Gang) (r : RegField) (x : BitVec 16) : (g.writeN r x).traplate = g.traplate := rfl
@[simp] theorem Gang.writeN_dsat (g : Gang) (r : RegField) (x : BitVec 16) : (g.writeN r x).dsat = g.dsat := rfl
@[simp] theorem Gang.writeN_reread (g : Gang) (r : RegField) (x : BitVec 16) : (g.writeN r x).reread = g.reread := rfl
@[simp] theorem Gang.writeN_intrap (g : Gang) (r : RegField) (x : BitVec 16) : (g.writeN r x).intrap = g.intrap := rfl
@[simp] theorem Gang.writeN_skm (g : Gang) (r : RegField) (x : BitVec 16) : (g.writeN r x).skm = g.skm := rfl
@[simp] theorem Gang.writeN_skseed (g : Gang) (r : RegField) (x : BitVec 16) : (g.writeN r x).skseed = g.skseed := rfl
@[simp] theorem Gang.writeN_handler (g : Gang) (r : RegField) (x : BitVec 16) : (g.writeN r x).handler = g.handler := rfl
@[simp] theorem Gang.writeN_heldTraps (g : Gang) (r : RegField) (x : BitVec 16) : (g.writeN r x).heldTraps = g.heldTraps := rfl
@[simp] theorem Gang.writeN_debugHalt (g : Gang) (r : RegField) (x : BitVec 16) : (g.writeN r x).debugHalt = g.debugHalt := rfl
@[simp] theorem Gang.writeN_pend (g : Gang) (r : RegField) (x : BitVec 16) : (g.writeN r x).pend = g.pend := rfl
@[simp] theorem Gang.writeN_nextPend (g : Gang) (r : RegField) (x : BitVec 16) : (g.writeN r x).nextPend = g.nextPend := rfl
@[simp] theorem Gang.writeN_late (g : Gang) (r : RegField) (x : BitVec 16) : (g.writeN r x).late = g.late := rfl
@[simp] theorem Gang.writeN_nextLate (g : Gang) (r : RegField) (x : BitVec 16) : (g.writeN r x).nextLate = g.nextLate := rfl
@[simp] theorem Gang.writeN_batches (g : Gang) (r : RegField) (x : BitVec 16) : (g.writeN r x).batches = g.batches := rfl
@[simp] theorem Gang.writeN_nextOp (g : Gang) (r : RegField) (x : BitVec 16) : (g.writeN r x).nextOp = g.nextOp := rfl
@[simp] theorem Gang.writeN_left (g : Gang) (r : RegField) (x : BitVec 16) : (g.writeN r x).left = g.left := rfl
@[simp] theorem Gang.writeN_heldA (g : Gang) (r : RegField) (x : BitVec 16) : (g.writeN r x).heldA = g.heldA := rfl
@[simp] theorem Gang.writeN_stopSlot (g : Gang) (r : RegField) (x : BitVec 16) : (g.writeN r x).stopSlot = g.stopSlot := rfl
@[simp] theorem Gang.writeN_mfence (g : Gang) (r : RegField) (x : BitVec 16) : (g.writeN r x).mfence = g.mfence := rfl
@[simp] theorem Gang.writeN_pairs (g : Gang) (r : RegField) (x : BitVec 16) : (g.writeN r x).pairs = g.pairs := rfl
@[simp] theorem Gang.writeN_watchdog (g : Gang) (r : RegField) (x : BitVec 16) : (g.writeN r x).watchdog = g.watchdog := rfl
@[simp] theorem Gang.writeN_hung (g : Gang) (r : RegField) (x : BitVec 16) : (g.writeN r x).hung = g.hung := rfl

/-! ### Reading what was written -/

/-- Vector read after write. -/
theorem get_set {α : Type} {n : Nat} (v : Vector α n) (i j : Fin n) (x : α) :
    (v.set i x).get j = if i = j then x else v.get j := by
  rw [Vector.get_eq_getElem, Vector.get_eq_getElem]
  by_cases h : i = j
  · subst h; simp
  · have : i.val ≠ j.val := fun e => h (Fin.ext e)
    simp [this, h]

@[simp] theorem State.core_modCore (s : State) (c d : CoreId) (f : Core → Core) :
    (s.modCore c f).core d = if c = d then f (s.core c) else s.core d := by
  simp [State.core, State.modCore, get_set]

@[simp] theorem Core.gang_modGang (k : Core) (i j : SlotId) (f : Gang → Gang) :
    (k.modGang i f).gang j = if i = j then f (k.gang i) else k.gang j := by
  simp [Core.gang, Core.modGang, get_set]

@[simp] theorem Core.team_modGang (k : Core) (i j : SlotId) (f : Gang → Gang) : (k.modGang i f).team j = k.team j := rfl

@[simp] theorem Core.team_modTeam (k : Core) (i j : SlotId) (f : Team → Team) :
    (k.modTeam i f).team j = if i = j then f (k.team i) else k.team j := by
  simp [Core.team, Core.modTeam, get_set]

@[simp] theorem Core.gang_modTeam (k : Core) (i j : SlotId) (f : Team → Team) : (k.modTeam i f).gang j = k.gang j := rfl

@[simp] theorem State.gangAt_modGangAt (s : State) (c d : CoreId) (i j : SlotId) (f : Gang → Gang) :
    (s.modGangAt c i f).gangAt d j = if c = d ∧ i = j then f (s.gangAt c i) else s.gangAt d j := by
  by_cases hc : c = d <;> by_cases hi : i = j <;> simp [State.gangAt, State.modGangAt, hc, hi]

@[simp] theorem State.g_modG (s : State) (f : Gang → Gang) : (s.modG f).g = f s.g := by
  simp [State.g, State.modG]

@[simp] theorem State.g_modT (s : State) (f : Team → Team) : (s.modT f).g = s.g := by
  simp [State.g, State.modT, State.modTeamAt, State.gangAt]

@[simp] theorem State.g_stall (s : State) : s.stall.g = s.g := rfl

@[simp] theorem State.g_report (s : State) (r : Report) : (s.report r).g = s.g := rfl

@[simp] theorem Gang.frags_modFrag (g : Gang) (i j : FragId) (f : Frag → Frag) :
    (g.modFrag i f).frags.get j = if i = j then f (g.frags.get i) else g.frags.get j := by
  simp [Gang.modFrag, get_set]

@[simp] theorem Gang.frags_setFrag (g : Gang) (i j : FragId) (f : Frag) :
    (g.setFrag i f).frags.get j = if i = j then f else g.frags.get j := by
  simp [Gang.setFrag, get_set]

@[simp] theorem Gang.v_putV (g : Gang) (r q : RegField) (em : BitVec 32) (n : Nat) (f : LaneId → VCell) (l : LaneId) :
    ((g.putV r em n f).v.get (vIx q)).get l =
      if vIx r = vIx q ∧ em.getLsbD l.val then f l else (g.v.get (vIx q)).get l := by
  by_cases h : vIx r = vIx q
  · by_cases h2 : em.getLsbD l.val <;> simp [Gang.putV, h, h2, Vector.get_eq_getElem]
  · simp [Gang.putV, get_set, h]

/-- A vector register after a write (R109): the named lanes of the named register alone. -/
@[simp] theorem Gang.v_writeV (g : Gang) (r q : RegField) (em : BitVec 32) (f : LaneId → VCell) (l : LaneId) :
    ((g.writeV r em f).v.get (vIx q)).get l =
      if vIx r = vIx q ∧ em.getLsbD l.val then f l else (g.v.get (vIx q)).get l :=
  Gang.v_putV g r q em g.nextPend f l

@[simp] theorem Gang.u_putU (g : Gang) (r q : RegField) (x : DWord) :
    (g.putU r x).u.get (vIx q) = if vIx r = vIx q then x else g.u.get (vIx q) := by
  simp [Gang.putU, get_set]

@[simp] theorem Gang.u_writeU (g : Gang) (r q : RegField) (x : DWord) :
    (g.writeU r x).u.get (vIx q) = if vIx r = vIx q then x else g.u.get (vIx q) :=
  Gang.u_putU g r q x

@[simp] theorem Gang.m_writeM (g : Gang) (r q : RegField) (x : BitVec 32) :
    (g.writeM r x).m.get (mIx q) = if mIx r = mIx q then x else g.m.get (mIx q) := by
  simp [Gang.writeM, get_set]

/-- A register field names one vector or uniform register. -/
theorem vIx_inj {r q : RegField} (h : vIx r = vIx q) : r = q := by
  have : r.toNat % 64 = q.toNat % 64 := congrArg Fin.val h
  exact BitVec.eq_of_toNat_eq (by omega)

/-- A legal mask field names one mask register. -/
theorem mIx_inj {r q : RegField} (hr : r.toNat < 8) (hq : q.toNat < 8) (h : mIx r = mIx q) : r = q := by
  have : r.toNat % 8 = q.toNat % 8 := congrArg Fin.val h
  exact BitVec.eq_of_toNat_eq (by omega)

end Sys2Proof.Machine
end

