-- ==== Sys2Proof/Laws/Boundary.lean ====
section
/-!
SUPPORT. The instruction boundary: what settling the joins, advancing the pc, counting windows and the latch leave alone, and the
frame of an instruction that completes.
-/
namespace Sys2Proof.Machine

open Sys2Proof.Spec

/-! ### Settling the joins (R21, R22) -/

/-- `h` is `g` but for its fragments, its joins, and the fragment indices in its windows and traps. -/
def SameData (g h : Gang) : Prop :=
  { h with frags := g.frags, joins := g.joins, pend := g.pend, handler := g.handler, heldTraps := g.heldTraps } = g ∧
    (g.pend = [] → h.pend = [])

theorem SameData.refl (g : Gang) : SameData g g := ⟨rfl, id⟩

theorem SameData.trans {g h k : Gang} (a : SameData g h) (b : SameData h k) : SameData g k := by
  refine ⟨?_, fun e => b.2 (a.2 e)⟩
  have := congrArg (fun x : Gang => ({ x with
    frags := g.frags, joins := g.joins, pend := g.pend, handler := g.handler, heldTraps := g.heldTraps } : Gang)) b.1
  exact this.trans a.1

theorem setFrag_same (g : Gang) (i : FragId) (f : Frag) : SameData g (g.setFrag i f) := ⟨rfl, id⟩
theorem modFrag_same (g : Gang) (i : FragId) (f : Frag → Frag) : SameData g (g.modFrag i f) := ⟨rfl, id⟩
theorem setJoin_same (g : Gang) (j : JoinId) (x : Join) : SameData g (g.setJoin j x) := ⟨rfl, id⟩

theorem foldl_same {α : Type} (f : Gang → α → Gang) (h : ∀ g x, SameData g (f g x)) (l : List α) (g : Gang) :
    SameData g (l.foldl f g) := by
  induction l generalizing g with
  | nil => exact .refl g
  | cons x l ih => exact (h g x).trans (ih (f g x))

theorem foldl_setFrag (is : List FragId) (f : Frag) (g : Gang) :
    ∃ fr, is.foldl (fun (g : Gang) k => g.setFrag k f) g = { g with frags := fr } := by
  induction is generalizing g with
  | nil => exact ⟨g.frags, rfl⟩
  | cons i is ih => obtain ⟨fr, e⟩ := ih (g.setFrag i f); exact ⟨fr, e⟩

theorem fuseInto_same (g : Gang) (i : FragId) (is : List FragId) (pc : DWord) (join : Option JoinId) :
    SameData g (g.fuseInto i is pc join) := by
  unfold Gang.fuseInto
  obtain ⟨fr, e⟩ := foldl_setFrag is Frag.reset g
  simp only [e]
  exact ⟨rfl, fun h => by simp [h]⟩

theorem fuseOne_same (g h : Gang) (e : g.fuseOne = some h) : SameData g h := by
  unfold Gang.fuseOne at e
  split at e
  · cases e
  · cases e; exact (fuseInto_same g _ _ _ _).trans (setJoin_same _ _ _)

theorem pruneOne_same (g h : Gang) (e : g.pruneOne = some h) : SameData g h := by
  unfold Gang.pruneOne at e
  split at e
  · cases e
  · cases e
    exact ((foldl_same _ (fun g i => modFrag_same g i _) _ g).trans
      (foldl_same _ (fun g i => setJoin_same g i _) _ _)).trans (setJoin_same _ _ _)

theorem settleJoins_same (n : Nat) (g : Gang) : SameData g (g.settleJoins n) := by
  induction n generalizing g with
  | zero => exact .refl g
  | succ n ih =>
    unfold Gang.settleJoins
    split
    · rename_i h e; exact (pruneOne_same _ _ e).trans (ih h)
    · split
      · rename_i h e; exact (fuseOne_same _ _ e).trans (ih h)
      · exact .refl g

theorem settle_same (g : Gang) : SameData g g.settle := settleJoins_same 64 g

/-- The joins in use. -/
def Gang.joinCount (g : Gang) : Nat := (allFin 31).countP fun j => (g.joins.get j).valid

theorem countP_lt {α : Type} (l : List α) (p q : α → Bool) (h : ∀ x, p x = true → q x = true) (a : α) (ha : a ∈ l) (hp : p a = false)
    (hq : q a = true) : l.countP p < l.countP q := by
  induction l with
  | nil => cases ha
  | cons x xs ih =>
    have hle : xs.countP p ≤ xs.countP q := List.countP_mono_left fun y _ => h y
    simp only [List.countP_cons]
    rcases List.mem_cons.1 ha with rfl | hm
    · simp [hp, hq]; omega
    · have := ih hm
      by_cases hx : p x = true
      · simp [hx, h x hx]; omega
      · simp [hx]; split <;> omega

theorem join_set (g : Gang) (j k : JoinId) (x : Join) : (g.setJoin j x).joins.get k = if k = j then x else g.joins.get k := by
  simp only [Gang.setJoin, Vector.get_eq_getElem, Vector.getElem_set, Fin.ext_iff, eq_comm]

/-- A gang with one join fewer. -/
theorem joinCount_reset (g h : Gang) (j : JoinId) (hj : (g.joins.get j).valid = true)
    (hv : ∀ k, (h.joins.get k).valid = (g.joins.get k).valid) : (h.setJoin j Join.reset).joinCount < g.joinCount := by
  refine countP_lt _ _ _ (fun k hk => ?_) j (List.mem_finRange j) (by simp [join_set, Join.reset]) hj
  rw [join_set] at hk
  split at hk
  · cases hk
  · rwa [hv] at hk

theorem fuseInto_joins (g : Gang) (i : FragId) (is : List FragId) (pc : DWord) (join : Option JoinId) :
    (g.fuseInto i is pc join).joins = g.joins := by
  unfold Gang.fuseInto
  obtain ⟨fr, e⟩ := foldl_setFrag is Frag.reset g
  show (is.foldl (fun (g : Gang) k => g.setFrag k Frag.reset) g).joins = g.joins
  rw [e]

theorem fuseOne_count {g h : Gang} (e : g.fuseOne = some h) : h.joinCount < g.joinCount := by
  unfold Gang.fuseOne at e
  split at e
  · cases e
  · rename_i j hj
    cases e
    have := List.find?_some hj
    simp only [Bool.and_eq_true] at this
    exact joinCount_reset g _ j this.1.1.1 fun k => by rw [fuseInto_joins]

theorem foldl_modFrag_joins (is : List FragId) (f : Frag → Frag) (g : Gang) :
    (is.foldl (fun (g : Gang) i => g.modFrag i f) g).joins = g.joins := by
  induction is generalizing g with
  | nil => rfl
  | cons i is ih => exact (ih _).trans rfl

theorem foldl_parent_valid (js : List JoinId) (up : Option JoinId) (g : Gang) (k : JoinId) :
    ((js.foldl (fun (g : Gang) i => g.setJoin i { g.joins.get i with parent := up }) g).joins.get k).valid = (g.joins.get k).valid := by
  induction js generalizing g with
  | nil => rfl
  | cons i js ih =>
    refine (ih _).trans ?_
    rw [join_set]
    split
    · rename_i h; rw [h]
    · rfl

theorem pruneOne_count {g h : Gang} (e : g.pruneOne = some h) : h.joinCount < g.joinCount := by
  unfold Gang.pruneOne at e
  split at e
  · cases e
  · rename_i j hj
    cases e
    have := List.find?_some hj
    simp only [Bool.and_eq_true] at this
    exact joinCount_reset g _ j this.1 fun k => by rw [foldl_parent_valid, foldl_modFrag_joins]

theorem settleJoins_done (n : Nat) (g : Gang) (h : g.joinCount ≤ n) :
    (g.settleJoins n).pruneOne = none ∧ (g.settleJoins n).fuseOne = none := by
  induction n generalizing g with
  | zero =>
    refine ⟨?_, ?_⟩
    · cases e : g.pruneOne with
      | none => exact e
      | some x => exact absurd (pruneOne_count e) (by omega)
    · cases e : g.fuseOne with
      | none => exact e
      | some x => exact absurd (fuseOne_count e) (by omega)
  | succ n ih =>
    unfold Gang.settleJoins
    split
    · rename_i x e; exact ih x (by have := pruneOne_count e; omega)
    · rename_i hp
      split
      · rename_i x e; exact ih x (by have := fuseOne_count e; omega)
      · rename_i hf; exact ⟨hp, hf⟩

/-- Settled tables stand still: no join has fewer than two children, and none waits to be fused (R21, R22). -/
theorem settle_done (g : Gang) : g.settle.pruneOne = none ∧ g.settle.fuseOne = none :=
  settleJoins_done 64 g (Nat.le_trans List.countP_le_length (by simp [allFin]))

/-- Tables on which neither R21 nor R22 acts any more are sound where their masks are. -/
theorem splitTables_of_done {g : Gang} (hp : g.pruneOne = none) (hf : g.fuseOne = none)
    (disjoint : ∀ i k, (g.frags.get i).valid = true → (g.frags.get k).valid = true → i ≠ k →
      (g.frags.get i).mask &&& (g.frags.get k).mask = 0)
    (nonempty : ∀ i, (g.frags.get i).valid = true → (g.frags.get i).mask ≠ 0)
    (live : ∀ l : LaneId, (∃ i, (g.frags.get i).valid = true ∧ (g.frags.get i).mask.getLsbD l.val = true) ↔
      g.launched.getLsbD l.val = true ∧ g.exited.getLsbD l.val = false) : SplitTables g := by
  have two : ∀ j, (g.joins.get j).valid = true → 2 ≤ (g.members j).length + (g.childJoins j).length := by
    intro j hj
    unfold Gang.pruneOne at hp
    split at hp
    · rename_i e
      have := List.find?_eq_none.1 e j (List.mem_finRange j)
      simp only [hj, Bool.true_and, decide_eq_true_eq] at this
      omega
    · cases hp
  refine ⟨disjoint, nonempty, live, fun j hj => ?_, fun j hj hc => ?_⟩
  · have := two j hj
    simp only [Gang.members, Gang.childJoins, ← List.countP_eq_length_filter, allFin] at this
    simpa only [beq_eq_decide] using this
  · have none : g.childJoins j = [] := List.filter_eq_nil_iff.2 fun k _ h => by
      simp only [Bool.and_eq_true, beq_iff_eq] at h
      exact hc k h.1 h.2
    unfold Gang.fuseOne at hf
    split at hf
    · rename_i e
      have h2 := two j hj
      have := List.find?_eq_none.1 e j (List.mem_finRange j)
      rw [none] at this h2
      have hm : (g.members j).isEmpty = false := by cases hl : g.members j <;> simp_all
      simp only [hj, hm, List.isEmpty_nil, Bool.not_false, Bool.and_self, Bool.true_and, List.all_eq_true, not_forall] at this
      obtain ⟨i, hi, hw⟩ := this
      have mi := (List.mem_filter.1 hi).2
      simp only [Bool.and_eq_true, beq_iff_eq] at mi
      refine ⟨i, mi.1, mi.2, fun ⟨a, b, c⟩ => hw ?_⟩
      unfold Gang.waitsAtJoin
      simp only [mi.2, mi.1, a, b, Gang.inHandler]
      cases hi : g.intrap <;> simp_all
    · cases hf

/-! ### A gang after an instruction boundary with no result outstanding -/

/-- `h` is `g` after an instruction that writes no register: only what keeps the gang's progress differs, and of the loop counters
at most the one that an end instruction counts down. -/
structure Moved (g h : Gang) : Prop where
  same : { h with frags := g.frags, joins := g.joins, handler := g.handler, latch := g.latch, lc := g.lc, loops := g.loops,
                  heldTraps := g.heldTraps, watchdog := g.watchdog, hung := g.hung, pend := g.pend } = g
  lc : ∀ n : Fin 3, h.lc.get n = g.lc.get n ∨ (∃ r ∈ g.loops.head?, lcIx r.counter = n ∧ h.lc.get n = g.lc.get n - 1)
  pend : g.pend = [] → h.pend = []

theorem SameData.moved {g h k : Gang} (a : Moved g h) (b : SameData h k) : Moved g k := by
  have e := b.1
  refine ⟨?_, ?_, fun x => b.2 (a.pend x)⟩
  · have := congrArg (fun x : Gang => ({ x with
      frags := g.frags, joins := g.joins, handler := g.handler, latch := g.latch, lc := g.lc, loops := g.loops,
      heldTraps := g.heldTraps, watchdog := g.watchdog, hung := g.hung, pend := g.pend } : Gang)) e
    exact this.trans a.same
  · have l : k.lc = h.lc := by have := congrArg Gang.lc e; exact this
    rw [l]; exact a.lc

theorem advance_moved (g g0 : Gang) (c : Cursor) (n : DWord)
    (h0 : { g with frags := g0.frags, latch := g0.latch, watchdog := g0.watchdog, hung := g0.hung, pend := g0.pend } = g0)
    (hp : g0.pend = [] → g.pend = []) : Moved g0 (g.advance c n) := by
  have l : g.lc = g0.lc := by rw [← h0]
  have lo : g.loops = g0.loops := by rw [← h0]
  unfold Gang.advance
  split
  · exact ⟨by rw [← h0], fun n => .inl (by rw [← h0]), fun h => by simpa using hp h⟩
  · split
    · exact ⟨by rw [← h0]; rfl, fun n => .inl (by rw [← h0]; rfl), fun h => by simpa using hp h⟩
    · rename_i r rest e
      have key : ∀ h : Gang, h.lc = g.lc.set (lcIx r.counter) (g.lc.get (lcIx r.counter) - 1) →
          ∀ n : Fin 3, h.lc.get n = g0.lc.get n ∨
            (∃ r ∈ g0.loops.head?, lcIx r.counter = n ∧ h.lc.get n = g0.lc.get n - 1) := by
        intro h e1 n
        rw [e1]
        by_cases h : lcIx r.counter = n
        · right; refine ⟨r, by simp [← lo, e], h, ?_⟩; simp [get_set, h, l]
        · left; simp [get_set, h, l]
      dsimp only
      split
      · exact ⟨by rw [← h0]; rfl, fun n => .inl (by rw [← h0]; rfl), fun h => by simpa using hp h⟩
      · split
        · exact ⟨by rw [← h0]; rfl, key _ rfl, fun h => by simpa using hp h⟩
        · exact ⟨by rw [← h0]; rfl, key _ rfl, fun h => by simpa using hp h⟩

theorem stepLatch_form (g : Gang) (p : Option RegField) : ∃ la, g.stepLatch p = { g with latch := la } := by
  unfold Gang.stepLatch
  cases p with
  | none => exact ⟨_, rfl⟩
  | some r => dsimp only; split <;> exact ⟨_, rfl⟩

theorem countWindows_pend {g : Gang} (c : Cursor) (b : Bool) (h : g.pend = []) : (g.countWindows c b).pend = [] := by
  simp [Gang.countWindows, closedFirst, h]

theorem restAges_form (g : Gang) (c : Cursor) : ∃ fr, g.restAges c = { g with frags := fr } := by
  unfold Gang.restAges
  split <;> exact ⟨_, rfl⟩

/-! ### States -/

end Sys2Proof.Machine

namespace Sys2Proof.Spec

open Sys2Proof.Machine

theorem OnlyCore.refl (s : State) : OnlyCore s s := ⟨rfl, List.prefix_refl _, fun _ _ => rfl, fun _ => rfl⟩

theorem OnlyGang.refl (s : State) : OnlyGang s s :=
  { OnlyCore.refl s with core := rfl, gangs := fun _ _ => rfl, teams := fun _ => rfl }

theorem OnlyGang.cur {s t : State} (h : OnlyGang s t) : t.cur = s.cur := by have := congrArg State.cur h.rest; exact this

theorem OnlyGang.trans {s t u : State} (a : OnlyGang s t) (b : OnlyGang t u) : OnlyGang s u := by
  have hc := a.cur
  refine ⟨⟨?_, a.reports.trans b.reports, ?_, ?_⟩, ?_, ?_, ?_⟩
  · have := congrArg (fun x : State => { x with cores := s.cores, sel := s.sel, reports := s.reports }) b.rest
    exact this.trans a.rest
  · intro c hne
    rw [b.cores c (by rw [hc]; exact hne), a.cores c hne]
  · intro x; rw [b.mem, a.mem]
  · have e := b.core
    rw [hc] at e
    have := congrArg (fun x : Core => { x with slots := s.curCore.slots, teams := s.curCore.teams }) e
    refine this.trans ?_
    have : t.curCore = t.core s.cur.core := by simp [State.curCore, hc]
    rw [this]; exact a.core
  · intro i hne
    have e := b.gangs i (by rw [hc]; exact hne)
    rw [hc] at e; rw [e]
    have : t.curCore = t.core s.cur.core := by simp [State.curCore, hc]
    rw [this]; exact a.gangs i hne
  · intro i
    have e := b.teams i
    rw [hc] at e
    have := congrArg (fun x : Team => { x with issued := (s.curCore.team i).issued }) e
    refine this.trans ?_
    have : t.curCore = t.core s.cur.core := by simp [State.curCore, hc]
    rw [this]; exact a.teams i

end Sys2Proof.Spec

namespace Sys2Proof.Machine

open Sys2Proof.Spec


theorem deliver_nil {s : State} {c : CoreId} {i : SlotId} (h : (s.gangAt c i).pend = []) : s.deliver c i = s := by
  simp [State.deliver, h, State.writeReady]

/-- `t` is `s` after an instruction that writes no register. -/
structure Passed (s t : State) : Prop where
  gang : Moved s.g t.g
  only : OnlyGang s t
  cur : t.cur = s.cur
  sel : t.sel = false

theorem onlyGang_modG (s : State) (f : Gang → Gang) : OnlyGang s (s.modG f) := by
  refine ⟨⟨rfl, List.prefix_refl _, ?_, fun _ => rfl⟩, ?_, ?_, ?_⟩
  · intro c h; simp [State.modG, State.modGangAt, Ne.symm h]
  · simp [State.modG, State.modGangAt, State.curCore, Core.modGang]
  · intro i h; simp [State.modG, State.modGangAt, State.curCore, Ne.symm h]
  · intro i; simp [State.modG, State.modGangAt, State.curCore]

theorem onlyGang_issued (s : State) : OnlyGang s (s.modT fun t => { t with issued := t.issued + 1 }) := by
  refine ⟨⟨rfl, List.prefix_refl _, ?_, fun _ => rfl⟩, ?_, ?_, ?_⟩
  · intro c h; simp [State.modT, State.modTeamAt, Ne.symm h]
  · simp [State.modT, State.modTeamAt, State.curCore, Core.modTeam]
  · intro i h; simp [State.modT, State.modTeamAt, State.curCore]
  · intro i
    simp only [State.modT, State.modTeamAt, State.curCore, State.core_modCore, if_true, Core.team_modTeam]
    split
    · rename_i e; rw [← e]
    · rfl

theorem onlyGang_stall (s : State) : OnlyGang s s.stall :=
  { rest := rfl, reports := List.prefix_refl _, cores := fun _ _ => rfl, mem := fun _ => rfl, core := rfl, gangs := fun _ _ => rfl,
    teams := fun _ => rfl }

theorem onlyGang_countIssue (s : State) (b : Bool) : OnlyGang s (s.countIssue b) :=
  (onlyGang_issued s).trans (onlyGang_modG _ _)

theorem g_countIssue (s : State) (b : Bool) :
    (s.countIssue b).g = { (s.g.restAges s.cur).countWindows s.cur b with watchdog := 0, hung := false } := by
  simp [State.countIssue]

theorem finish_passed {s s1 : State} (h : Calm s) (m : Moved s.g s1.g) (o : OnlyGang s s1) : Passed s s1.finish := by
  have hc := o.cur
  have m2 : Moved s.g s1.g.settle := SameData.moved m (settle_same _)
  have hp : ((s1.modG Gang.settle).gangAt (s1.modG Gang.settle).cur.core (s1.modG Gang.settle).cur.slot).pend = [] := by
    have : (s1.modG Gang.settle).g = s1.g.settle := by simp
    exact (congrArg Gang.pend this).trans (m2.pend h)
  unfold State.finish
  dsimp only
  rw [show (s1.modG Gang.settle).deliver s1.cur.core s1.cur.slot = s1.modG Gang.settle from deliver_nil hp]
  refine ⟨?_, (o.trans (onlyGang_modG _ _)).trans (onlyGang_stall _), hc, rfl⟩
  simpa using m2

/-- A U-form instruction that completes with no result outstanding (R51, R52, R148). -/
theorem completeU_passed {s : State} (h : Calm s) (n : Nat) (b : Bool) : Passed s (s.completeU n b) := by
  refine finish_passed h ?_ ((onlyGang_countIssue s b).trans (onlyGang_modG _ _))
  simp only [State.g_modG, g_countIssue]
  obtain ⟨fr, e⟩ := restAges_form s.g s.cur
  rw [e]
  exact advance_moved _ _ _ _ rfl fun h => by simpa using countWindows_pend (g := { s.g with frags := fr }) _ _ h

/-- A V-form instruction that completes with no result outstanding (R49, R51, R148). -/
theorem completeV_passed {s : State} (h : Calm s) (n : Nat) (p : Option RegField) : Passed s (s.completeV n p) := by
  refine finish_passed h ?_ ((onlyGang_countIssue s false).trans (onlyGang_modG _ _))
  simp only [State.g_modG, g_countIssue]
  obtain ⟨fr, e⟩ := restAges_form s.g s.cur
  rw [e]
  obtain ⟨la, e⟩ := stepLatch_form { ({ s.g with frags := fr } : Gang).countWindows s.cur false with
    watchdog := 0, hung := false } p
  rw [e]
  exact advance_moved _ _ _ _ rfl fun h => by simpa using countWindows_pend (g := { s.g with frags := fr }) _ _ h

end Sys2Proof.Machine
end

