-- ==== Sys2Proof/Laws/Completion.lean ====
section
/-!
SUPPORT. Completion: for each way an instruction completes (Operands.lean, Uniform.lean), the next state, its frame and what it
writes, for a gang with no result outstanding.
-/
namespace Sys2Proof.Machine

open Sys2Proof.Spec

theorem legal_next {s t : State} {i : Instr} (h : i.wf = true) : s.legal i t = .next t := by simp [State.legal, h]

theorem legal_trap {s t : State} {i : Instr} (h : i.wf = false) : s.legal i t = .next s.trapIllegalOp := by
  simp [State.legal, h]

/-! ### What a boundary keeps -/

theorem Moved.v {g h : Gang} (m : Moved g h) : h.v = g.v := by have := congrArg Gang.v m.same; exact this
theorem Moved.u {g h : Gang} (m : Moved g h) : h.u = g.u := by have := congrArg Gang.u m.same; exact this
theorem Moved.m {g h : Gang} (m : Moved g h) : h.m = g.m := by have := congrArg Gang.m m.same; exact this
theorem Moved.dc {g h : Gang} (m : Moved g h) : h.dc = g.dc := by have := congrArg Gang.dc m.same; exact this
theorem Moved.dn {g h : Gang} (m : Moved g h) : h.dn = g.dn := by have := congrArg Gang.dn m.same; exact this
theorem Moved.k {g h : Gang} (m : Moved g h) : h.k = g.k := by have := congrArg Gang.k m.same; exact this
theorem Moved.ks {g h : Gang} (m : Moved g h) : h.ks = g.ks := by have := congrArg Gang.ks m.same; exact this
theorem Moved.rng {g h : Gang} (m : Moved g h) : h.rng = g.rng := by have := congrArg Gang.rng m.same; exact this
theorem Moved.dsat {g h : Gang} (m : Moved g h) : h.dsat = g.dsat := by have := congrArg Gang.dsat m.same; exact this
theorem Moved.usplit {g h : Gang} (m : Moved g h) : h.usplit = g.usplit := by have := congrArg Gang.usplit m.same; exact this
theorem Moved.reread {g h : Gang} (m : Moved g h) : h.reread = g.reread := by have := congrArg Gang.reread m.same; exact this
theorem Moved.intrap {g h : Gang} (m : Moved g h) : h.intrap = g.intrap := by have := congrArg Gang.intrap m.same; exact this
theorem Moved.trapcause {g h : Gang} (m : Moved g h) : h.trapcause = g.trapcause := by
  have := congrArg Gang.trapcause m.same; exact this
theorem Moved.trappc {g h : Gang} (m : Moved g h) : h.trappc = g.trappc := by have := congrArg Gang.trappc m.same; exact this
theorem Moved.trapinfo {g h : Gang} (m : Moved g h) : h.trapinfo = g.trapinfo := by
  have := congrArg Gang.trapinfo m.same; exact this
theorem Moved.traplate {g h : Gang} (m : Moved g h) : h.traplate = g.traplate := by
  have := congrArg Gang.traplate m.same; exact this
theorem Moved.rngseed {g h : Gang} (m : Moved g h) : h.rngseed = g.rngseed := by have := congrArg Gang.rngseed m.same; exact this
theorem Moved.skm {g h : Gang} (m : Moved g h) : h.skm = g.skm := by have := congrArg Gang.skm m.same; exact this
theorem Moved.skseed {g h : Gang} (m : Moved g h) : h.skseed = g.skseed := by have := congrArg Gang.skseed m.same; exact this

/-- `h` is `g` with the registers that `w` names written, before the boundary. -/
structure Wrote (w : Writes) (em : BitVec 32) (g h : Gang) : Prop extends Kept w em g h where
  lcSame : h.lc = g.lc
  loops : h.loops = g.loops
  pendNil : g.pend = [] → h.pend = []

theorem Wrote.moved {w : Writes} {em : BitVec 32} {g h k : Gang} (a : Wrote w em g h) (b : Moved h k) : Kept w em g k where
  vec r l x := by rw [b.v]; exact a.vec r l x
  uni r x := by rw [b.u]; exact a.uni r x
  mask r x y := by rw [b.m]; exact a.mask r x y
  dir r x y := by rw [b.dc, b.dn]; exact a.dir r x y
  acc r x y := by rw [b.k, b.ks]; exact a.acc r x y
  lc n := by have := b.lc n; rw [a.lcSame, a.loops] at this; exact .inr this
  rng x := by rw [b.rng]; exact a.rng x
  dsat x := by rw [b.dsat]; exact a.dsat x
  usplit := by rw [b.usplit]; exact a.usplit
  reread := by rw [b.reread]; exact a.reread
  intrap := by rw [b.intrap]; exact a.intrap
  trapcause := by rw [b.trapcause]; exact a.trapcause
  trappc := by rw [b.trappc]; exact a.trappc
  trapinfo := by rw [b.trapinfo]; exact a.trapinfo
  traplate := by rw [b.traplate]; exact a.traplate
  rngseed := by rw [b.rngseed]; exact a.rngseed
  skm := by rw [b.skm]; exact a.skm
  skseed := by rw [b.skseed]; exact a.skseed

/-- An instruction that writes, then completes: the frame of the two. -/
theorem frame_of {w : Writes} {s s1 t : State} (o : OnlyGang s s1) (a : Wrote w s.em s.g s1.g) (p : Passed s1 t) : Frame w s t :=
  { o.trans p.only with kept := a.moved p.gang }

theorem wrote_refl (em : BitVec 32) (g : Gang) : Wrote {} em g g where
  vec _ _ _ := rfl
  uni _ _ := rfl
  mask _ _ _ := rfl
  dir _ _ _ := ⟨rfl, rfl⟩
  acc _ _ _ := ⟨rfl, rfl⟩
  lc _ := .inr (.inl rfl)
  rng _ := rfl
  dsat _ := rfl
  usplit := by simp [Writes.shared]
  reread := rfl
  intrap := rfl
  trapcause := rfl
  trappc := rfl
  trapinfo := rfl
  traplate := rfl
  rngseed := rfl
  skm := rfl
  skseed := rfl
  lcSame := rfl
  loops := rfl
  pendNil := id

/-! ### Writes -/

theorem onlyGang_writeV (s : State) (d : RegField) (f : LaneId → VCell) : OnlyGang s (s.writeV d f) := by
  have o := onlyGang_modG s fun g => g.writeV d s.em f
  exact { o with
    rest := o.rest
    reports := ⟨_, rfl⟩
    cores := o.cores
    mem := fun _ => rfl }

@[simp] theorem g_writeV (s : State) (d : RegField) (f : LaneId → VCell) : (s.writeV d f).g = s.g.writeV d s.em f :=
  State.g_modG s fun g => g.writeV d s.em f

theorem wrote_writeV (em : BitVec 32) (g : Gang) (d : RegField) (f : LaneId → VCell) :
    Wrote { vec := [d] } em g (g.writeV d em f) where
  vec r l x := by
    rw [Gang.v_writeV]
    split
    · rename_i h
      rcases x with x | x
      · simp only [List.mem_singleton] at x; exact absurd (vIx_inj h.1).symm x
      · exact absurd (h.2.symm.trans x) (by decide)
    · rfl
  uni _ _ := rfl
  mask _ _ _ := rfl
  dir _ _ _ := ⟨rfl, rfl⟩
  acc _ _ _ := ⟨rfl, rfl⟩
  lc _ := .inr (.inl rfl)
  rng _ := rfl
  dsat _ := rfl
  usplit := by simp [Writes.shared]
  reread := rfl
  intrap := rfl
  trapcause := rfl
  trappc := rfl
  trapinfo := rfl
  traplate := rfl
  rngseed := rfl
  skm := rfl
  skseed := rfl
  lcSame := rfl
  loops := rfl
  pendNil h := by simp [Gang.writeV, Gang.writeHalves, h]

theorem wrote_writeU (em : BitVec 32) (g : Gang) (d : RegField) (x : DWord) : Wrote { uni := [d] } em g (g.writeU d x) where
  vec _ _ _ := rfl
  uni r h := by
    rw [Gang.u_writeU, if_neg]
    intro e; exact h (by simp [vIx_inj e])
  mask _ _ _ := rfl
  dir _ _ _ := ⟨rfl, rfl⟩
  acc _ _ _ := ⟨rfl, rfl⟩
  lc _ := .inr (.inl rfl)
  rng _ := rfl
  dsat _ := rfl
  usplit := by simp [Writes.shared, Gang.writeU, Gang.putU, Gang.noteSplit]
  reread := rfl
  intrap := rfl
  trapcause := rfl
  trappc := rfl
  trapinfo := rfl
  traplate := rfl
  rngseed := rfl
  skm := rfl
  skseed := rfl
  lcSame := rfl
  loops := rfl
  pendNil h := by simp [Gang.writeU, h]

theorem wrote_writeM (em : BitVec 32) (g : Gang) (d : RegField) (x : BitVec 32) (hd : d.toNat < 8) :
    Wrote { mask := [d] } em g (g.writeM d x) where
  vec _ _ _ := rfl
  uni _ _ := rfl
  mask r h8 h := by
    rw [Gang.m_writeM, if_neg]
    intro e; exact h (by simp [mIx_inj hd h8 e])
  dir _ _ _ := ⟨rfl, rfl⟩
  acc _ _ _ := ⟨rfl, rfl⟩
  lc _ := .inr (.inl rfl)
  rng _ := rfl
  dsat _ := rfl
  usplit := by simp [Writes.shared, Gang.writeM, Gang.noteSplit]
  reread := rfl
  intrap := rfl
  trapcause := rfl
  trappc := rfl
  trapinfo := rfl
  traplate := rfl
  rngseed := rfl
  skm := rfl
  skseed := rfl
  lcSame := rfl
  loops := rfl
  pendNil := id

/-! ### One lemma for each way of completing -/

theorem calm_of {w : Writes} {s s1 : State} (h : Calm s) (a : Wrote w s.em s.g s1.g) : Calm s1 := by
  exact a.pendNil h

theorem writeV_completes {i : Instr} {s : State} {d : RegField} {f : LaneId → VCell} {n : Nat} {p : Option RegField}
    (hc : Calm s) (hx : exec i s = .next ((s.writeV d f).completeV n p)) :
    Completes i s { vec := [d] } fun t => ∀ l, s.active l → t.v d l = f l := by
  have a : Wrote { vec := [d] } s.em s.g (s.writeV d f).g := by rw [g_writeV]; exact wrote_writeV _ _ _ _
  have q := completeV_passed (calm_of hc a) n p
  refine ⟨_, hx, q.sel, frame_of (onlyGang_writeV s d f) a q, ?_⟩
  intro l hl
  simp only [State.v, q.gang.v, g_writeV, Gang.v_writeV]
  rw [if_pos]; exact ⟨trivial, hl⟩

theorem writeV_completesU {i : Instr} {s : State} {d : RegField} {f : LaneId → VCell} {n : Nat} {b : Bool}
    (hc : Calm s) (hx : exec i s = .next ((s.writeV d f).completeU n b)) :
    Completes i s { vec := [d] } fun t => ∀ l, s.active l → t.v d l = f l := by
  have a : Wrote { vec := [d] } s.em s.g (s.writeV d f).g := by rw [g_writeV]; exact wrote_writeV _ _ _ _
  have q := completeU_passed (calm_of hc a) n b
  refine ⟨_, hx, q.sel, frame_of (onlyGang_writeV s d f) a q, ?_⟩
  intro l hl
  simp only [State.v, q.gang.v, g_writeV, Gang.v_writeV]
  rw [if_pos]; exact ⟨trivial, hl⟩

theorem writeU_completes {i : Instr} {s : State} {d : RegField} {x : DWord} {n : Nat} {b : Bool}
    (hc : Calm s) (hx : exec i s = .next ((s.writeU d x).completeU n b)) :
    Completes i s { uni := [d] } fun t => t.u d = x := by
  have a : Wrote { uni := [d] } s.em s.g (s.writeU d x).g := by
    rw [State.writeU, State.g_modG]; exact wrote_writeU _ _ _ _
  have q := completeU_passed (calm_of hc a) n b
  refine ⟨_, hx, q.sel, frame_of (onlyGang_modG s _) a q, ?_⟩
  simp only [State.u, q.gang.u]; simp [State.writeU]

theorem writeM_completes {i : Instr} {s : State} {d : RegField} {x : BitVec 32} {n : Nat} {b : Bool} (hd : d.toNat < 8)
    (hc : Calm s) (hx : exec i s = .next ((s.writeM d x).completeU n b)) :
    Completes i s { mask := [d] } fun t => t.m d = x := by
  have a : Wrote { mask := [d] } s.em s.g (s.writeM d x).g := by
    rw [State.writeM, State.g_modG]; exact wrote_writeM _ _ _ _ hd
  have q := completeU_passed (calm_of hc a) n b
  refine ⟨_, hx, q.sel, frame_of (onlyGang_modG s _) a q, ?_⟩
  simp only [State.m, q.gang.m]; simp [State.writeM]

end Sys2Proof.Machine
end

