-- ==== Sys2Proof/Laws/Decode.lean ====
section
/-!
SUPPORT. The fields of an instruction word: a field of a word put together from pieces is the piece that stands there.
-/
namespace Sys2Proof

@[simp] theorem fld_word {n : Nat} (x : BitVec n) (h : n = 32) (lo c : Nat) : fld (word x h) lo c = fld x lo c := by
  subst h; rfl

@[simp] theorem bitAt_word {n : Nat} (x : BitVec n) (h : n = 32) (i : Nat) : bitAt (word x h) i = bitAt x i := by
  subst h; rfl

/-- A field that lies within the lower piece. -/
theorem fld_low {m n : Nat} (x : BitVec m) (y : BitVec n) (lo c : Nat) (h : lo + c ≤ n) : fld (x ++ y) lo c = fld y lo c := by
  simp only [fld]
  ext i hi
  simp only [BitVec.getElem_extractLsb', BitVec.getLsbD_append]
  have : lo + i < n := by omega
  simp [this]

/-- A field that lies within the upper piece. -/
theorem fld_high {m n : Nat} (x : BitVec m) (y : BitVec n) (lo c : Nat) (h : n ≤ lo) : fld (x ++ y) lo c = fld x (lo - n) c := by
  simp only [fld]
  ext i hi
  simp only [BitVec.getElem_extractLsb', BitVec.getLsbD_append]
  have h1 : ¬lo + i < n := by omega
  have h2 : lo + i - n = lo - n + i := by omega
  simp [h1, h2]

@[simp] theorem fld_all {n : Nat} (x : BitVec n) : fld x 0 n = x := by simp [fld]

theorem bitAt_low {m n : Nat} (x : BitVec m) (y : BitVec n) (i : Nat) (h : i < n) : bitAt (x ++ y) i = bitAt y i := by
  simp [bitAt, BitVec.getLsbD_append, h]

theorem bitAt_high {m n : Nat} (x : BitVec m) (y : BitVec n) (i : Nat) (h : n ≤ i) : bitAt (x ++ y) i = bitAt x (i - n) := by
  have : ¬i < n := by omega
  simp [bitAt, BitVec.getLsbD_append, this]

@[simp] theorem bitAt_ofBool (b : Bool) : bitAt (BitVec.ofBool b) 0 = b := by cases b <;> rfl

theorem opcodeOf_word {n : Nat} (x : BitVec n) (h : n = 32) : opcodeOf (word x h) = (fld x 24 8).toNat := by
  simp [opcodeOf]

/-- The bytes of a word make it again (R6). -/
theorem wordOfBytes_bytesOfWord (w : Word) : wordOfBytes (fld w 0 8) (fld w 8 8) (fld w 16 8) (fld w 24 8) = w := by
  apply BitVec.eq_of_toNat_eq
  have h := w.isLt
  have e : ∀ a b : Nat, b < 2 ^ 8 → a <<< 8 ||| b = a * 2 ^ 8 + b := fun a b hb => by
    rw [← Nat.shiftLeft_add_eq_or_of_lt hb, Nat.shiftLeft_eq]
  simp only [wordOfBytes, fld, BitVec.toNat_append, BitVec.extractLsb'_toNat, Nat.shiftRight_eq_div_pow]
  rw [e _ _ (Nat.mod_lt _ (by decide)), e _ _ (Nat.mod_lt _ (by decide)), e _ _ (Nat.mod_lt _ (by decide))]
  omega

end Sys2Proof
end

