-- ==== Sys2Proof/Laws/Memory.lean ====
section
/-!
SUPPORT. Sparse lists and device memory: reading after writing, and that every memory operation keeps the canonical form (log 2).
-/
namespace Sys2Proof.Machine

/-! ### Sparse lists -/

theorem sget_filter_ne {α : Type} (d : α) (l : List (Nat × α)) (i j : Nat) :
    sget d (l.filter fun x => x.1 != i) j = if j = i then d else sget d l j := by
  induction l with
  | nil => simp [sget]
  | cons x l ih =>
    obtain ⟨k, v⟩ := x
    by_cases h : k = i <;> by_cases hj : j = k <;> simp_all [sget]

theorem sget_sput {α : Type} (d : α) (i : Nat) (v : α) (l : List (Nat × α)) (h : ∀ x ∈ l, x.1 ≠ i) (j : Nat) :
    sget d (sput i v l) j = if j = i then v else sget d l j := by
  induction l with
  | nil => by_cases hj : j = i <;> simp [sput, sget, hj]
  | cons x l ih =>
    obtain ⟨k, w⟩ := x
    have hk : k ≠ i := h (k, w) (by simp)
    have ih' := ih fun x hx => h x (by simp [hx])
    by_cases hlt : i < k
    · simp only [sput, hlt, ↓reduceIte, sget]
    · simp only [sput, hlt, ↓reduceIte, sget, ih']
      by_cases hjk : j = k
      · subst hjk; simp [hk]
      · simp [hjk]

/-- What stands at an index after a write: the value at the index written, and what stood there before at every other. -/
theorem sget_sset {α : Type} [DecidableEq α] (d : α) (l : List (Nat × α)) (i : Nat) (v : α) (j : Nat) :
    sget d (sset d l i v) j = if j = i then v else sget d l j := by
  unfold sset
  have h : ∀ x ∈ l.filter (fun x => x.1 != i), x.1 ≠ i := by simp
  by_cases hv : v = d
  · simp only [hv, ↓reduceIte, sget_filter_ne]
  · simp only [hv, ↓reduceIte, sget_sput d i v _ h, sget_filter_ne]
    by_cases hj : j = i <;> simp [hj]

/-- Every index is `n` or more. -/
def From {α : Type} (n : Nat) (l : List (Nat × α)) : Prop := ∀ x ∈ l, n ≤ x.1

theorem sokFrom_iff {α : Type} [DecidableEq α] (d : α) (lo : Option Nat) (l : List (Nat × α)) :
    sokFrom d lo l = true ↔ (∀ k ∈ lo, From (k + 1) l) ∧ l.Pairwise (fun x y => x.1 < y.1) ∧ ∀ x ∈ l, x.2 ≠ d := by
  induction l generalizing lo with
  | nil => simp [sokFrom, From]
  | cons x l ih =>
    obtain ⟨j, v⟩ := x
    simp only [sokFrom, Bool.and_eq_true, ih, List.pairwise_cons, List.mem_cons, bne_iff_ne, Option.mem_some_iff, forall_eq',
      From, forall_eq_or_imp]
    cases lo with
    | none =>
      simp only [Option.mem_def, reduceCtorEq, false_implies, implies_true, true_and]
      constructor
      · rintro ⟨h2, h3, h4, h5⟩
        exact ⟨⟨fun a ha => by have := h3 a ha; omega, h4⟩, h2, h5⟩
      · rintro ⟨⟨h3, h4⟩, h5, h6⟩
        exact ⟨h5, fun a ha => by have := h3 a ha; omega, h4, h6⟩
    | some k =>
      simp only [Option.mem_def, Option.some.injEq, forall_eq', decide_eq_true_eq]
      constructor
      · rintro ⟨⟨h1, h2⟩, h3, h4, h5⟩
        exact ⟨⟨by omega, fun a ha => by have := h3 a ha; omega⟩, ⟨fun a ha => by have := h3 a ha; omega, h4⟩, h2, h5⟩
      · rintro ⟨⟨h1, h2⟩, ⟨h3, h4⟩, h5, h6⟩
        exact ⟨⟨by omega, h5⟩, fun a ha => by have := h3 a ha; omega, h4, h6⟩

theorem sok_iff {α : Type} [DecidableEq α] (d : α) (l : List (Nat × α)) :
    sok d l = true ↔ l.Pairwise (fun x y => x.1 < y.1) ∧ ∀ x ∈ l, x.2 ≠ d := by
  simp [sok, sokFrom_iff]

theorem sok_filter {α : Type} [DecidableEq α] (d : α) (l : List (Nat × α)) (p : Nat × α → Bool) (h : sok d l = true) :
    sok d (l.filter p) = true := by
  rw [sok_iff] at *
  exact ⟨h.1.filter p, fun x hx => h.2 x (List.mem_of_mem_filter hx)⟩

theorem mem_sput {α : Type} (i : Nat) (v : α) (l : List (Nat × α)) (x : Nat × α) : x ∈ sput i v l ↔ x = (i, v) ∨ x ∈ l := by
  induction l with
  | nil => simp [sput]
  | cons y l ih =>
    obtain ⟨k, w⟩ := y
    by_cases h : i < k <;> simp [sput, h, ih]
    tauto

theorem sput_rising {α : Type} (i : Nat) (v : α) (l : List (Nat × α)) (hn : ∀ x ∈ l, x.1 ≠ i)
    (h : l.Pairwise fun x y => x.1 < y.1) : (sput i v l).Pairwise fun x y => x.1 < y.1 := by
  induction l with
  | nil => simp [sput]
  | cons y l ih =>
    obtain ⟨k, w⟩ := y
    rw [List.pairwise_cons] at h
    by_cases hk : i < k
    · simp only [sput, hk, ↓reduceIte, List.pairwise_cons]
      refine ⟨?_, h⟩
      simp only [List.mem_cons, forall_eq_or_imp, hk, true_and]
      exact fun x hx => by have := h.1 x hx; simp_all; omega
    · simp only [sput, hk, ↓reduceIte, List.pairwise_cons]
      refine ⟨?_, ih (fun x hx => hn x (by simp [hx])) h.2⟩
      intro x hx
      rcases (mem_sput i v l x).1 hx with rfl | hx
      · have := hn (k, w) (by simp); simp at this ⊢; omega
      · exact h.1 x hx

/-- A write keeps the canonical form. -/
theorem sok_sset {α : Type} [DecidableEq α] (d : α) (l : List (Nat × α)) (i : Nat) (v : α) (h : sok d l = true) :
    sok d (sset d l i v) = true := by
  have hf := sok_filter d l (fun x => x.1 != i) h
  unfold sset
  by_cases hv : v = d
  · simpa [hv] using hf
  · simp only [hv, ↓reduceIte]
    rw [sok_iff] at *
    refine ⟨sput_rising i v _ (by simp) hf.1, fun x hx => ?_⟩
    rcases (mem_sput i v _ x).1 hx with rfl | hx
    · exact hv
    · exact hf.2 x hx

/-- Two canonical lists that read alike everywhere are the same list. -/
theorem sok_ext {α : Type} [DecidableEq α] (d : α) (l m : List (Nat × α)) (hl : sok d l = true) (hm : sok d m = true)
    (h : ∀ i, sget d l i = sget d m i) : l = m := by
  rw [sok_iff] at hl hm
  have none_below : ∀ (l : List (Nat × α)) i, (∀ x ∈ l, i < x.1) → sget d l i = d := by
    intro l i hi
    induction l with
    | nil => rfl
    | cons x l ih =>
      obtain ⟨k, v⟩ := x
      have := hi (k, v) (by simp)
      have hne : i ≠ k := by simp at this; omega
      simp [sget, hne, ih fun x hx => hi x (by simp [hx])]
  induction l generalizing m with
  | nil =>
    cases m with
    | nil => rfl
    | cons y m => have := h y.1; simp [sget] at this; exact absurd this.symm (hm.2 y (by simp))
  | cons x l ih =>
    cases m with
    | nil => have := h x.1; simp [sget] at this; exact absurd this (hl.2 x (by simp))
    | cons y m =>
      obtain ⟨i, v⟩ := x
      obtain ⟨j, w⟩ := y
      have hl' := List.pairwise_cons.1 hl.1
      have hm' := List.pairwise_cons.1 hm.1
      have hij : i = j := by
        rcases Nat.lt_trichotomy i j with c | c | c
        · have := h i
          rw [none_below ((j, w) :: m) i (by intro x hx; rcases List.mem_cons.1 hx with rfl | hx; exact c; have := hm'.1 x hx; simp at this; omega)] at this
          simp [sget] at this; exact absurd this (hl.2 (i, v) (by simp))
        · exact c
        · have := h j
          rw [none_below ((i, v) :: l) j (by intro x hx; rcases List.mem_cons.1 hx with rfl | hx; exact c; have := hl'.1 x hx; simp at this; omega)] at this
          simp [sget] at this; exact absurd this.symm (hm.2 (j, w) (by simp))
      subst hij
      have hv : v = w := by have := h i; simpa [sget] using this
      subst hv
      congr 1
      refine ih m ⟨hl'.2, fun x hx => hl.2 x (by simp [hx])⟩ ⟨hm'.2, fun x hx => hm.2 x (by simp [hx])⟩ fun k => ?_
      by_cases hk : k = i
      · subst hk
        rw [none_below l k fun x hx => by have := hl'.1 x hx; simpa using this,
          none_below m k fun x hx => by have := hm'.1 x hx; simpa using this]
      · have := h k; simpa [sget, hk] using this

/-! ### Memories -/

/-- The byte at an address after a write. -/
theorem Memory.read_write (m : Memory) (a : Nat) (b : Byte) (x : Nat) :
    (m.write a b).read x = if x = a then b else m.read x := sget_sset 0 m a b x

theorem Memory.wf_write (m : Memory) (a : Nat) (b : Byte) (h : m.wf = true) : (m.write a b).wf = true := sok_sset 0 m a b h

theorem Memory.wf_writeN (m : Memory) (a : Nat) (bs : List Byte) (h : m.wf = true) : (m.writeN a bs).wf = true := by
  induction bs generalizing m a with
  | nil => exact h
  | cons b bs ih => exact ih _ _ (Memory.wf_write m a b h)

theorem Memory.read_writeN_out (m : Memory) (a : Nat) (bs : List Byte) (x : Nat) (h : x < a ∨ a + bs.length ≤ x) :
    (m.writeN a bs).read x = m.read x := by
  induction bs generalizing m a with
  | nil => rfl
  | cons b bs ih =>
    simp only [List.length_cons] at h
    simp only [Memory.writeN]
    rw [ih _ _ (by omega), Memory.read_write]
    simp; omega

/-- Any byte after a write of several. -/
theorem Memory.read_writeN (m : Memory) (a : Nat) (bs : List Byte) (x : Nat) :
    (m.writeN a bs).read x = if h : a ≤ x ∧ x < a + bs.length then bs[x - a] else m.read x := by
  induction bs generalizing m a with
  | nil =>
    have : ¬(a ≤ x ∧ x < a + ([] : List Byte).length) := by simp
    simp only [Memory.writeN, dif_neg this]
  | cons b bs ih =>
    simp only [Memory.writeN, ih, Memory.read_write, List.length_cons]
    by_cases e : x = a
    · subst e
      have : ¬(x + 1 ≤ x ∧ x < x + 1 + bs.length) := by omega
      simp
    · by_cases r : a + 1 ≤ x ∧ x < a + 1 + bs.length
      · have r' : a ≤ x ∧ x < a + (bs.length + 1) := by omega
        obtain ⟨k, hk⟩ : ∃ k, x - a = k + 1 := ⟨x - a - 1, by omega⟩
        have hk' : x - (a + 1) = k := by omega
        simp [r, r', hk, hk']
      · have r' : ¬(a ≤ x ∧ x < a + (bs.length + 1)) := by omega
        simp only [r, r', e, ↓reduceDIte, ↓reduceIte]

theorem Memory.readN_length (m : Memory) (a n : Nat) : (m.readN a n).length = n := by
  induction n generalizing a with
  | zero => rfl
  | succ n ih => simp [Memory.readN, ih]

theorem Memory.getElem_readN (m : Memory) (a n k : Nat) (h : k < (m.readN a n).length) : (m.readN a n)[k] = m.read (a + k) := by
  induction n generalizing a k with
  | zero => simp [Memory.readN] at h
  | succ n ih =>
    cases k with
    | zero => simp [Memory.readN]
    | succ k => simp only [Memory.readN, List.getElem_cons_succ]; rw [ih]; congr 1; omega

/-- Reading back what was written. -/
theorem Memory.readN_writeN (m : Memory) (a : Nat) (bs : List Byte) : (m.writeN a bs).readN a bs.length = bs := by
  apply List.ext_getElem (Memory.readN_length _ _ _)
  intro i h1 h2
  rw [Memory.getElem_readN, Memory.read_writeN]
  simp [h2]

/-- A memory is determined by what it reads. -/
theorem Memory.ext_read (m n : Memory) (hm : m.wf = true) (hn : n.wf = true) (h : ∀ a, m.read a = n.read a) : m = n :=
  sok_ext 0 m n hm hn h

/-! ### Little-endian values -/

theorem leBytes_length (n v : Nat) : (leBytes n v).length = n := by
  induction n generalizing v with
  | zero => rfl
  | succ n ih => simp [leBytes, ih]

theorem leNat_leBytes (n v : Nat) : leNat (leBytes n v) = v % 256 ^ n := by
  induction n generalizing v with
  | zero => simp [leBytes, leNat, Nat.mod_one]
  | succ n ih =>
    have e : 256 ^ (n + 1) = 256 * 256 ^ n := by rw [Nat.pow_succ, Nat.mul_comm]
    simp only [leBytes, leNat, ih, BitVec.toNat_ofNat, e, Nat.mod_mul]

theorem leNat_lt (bs : List Byte) : leNat bs < 256 ^ bs.length := by
  induction bs with
  | nil => simp [leNat]
  | cons b bs ih =>
    simp only [leNat, List.length_cons, Nat.pow_succ]
    have := b.isLt
    omega

theorem leBytes_leNat (bs : List Byte) : leBytes bs.length (leNat bs) = bs := by
  induction bs with
  | nil => rfl
  | cons b bs ih =>
    have hb := b.isLt
    have h1 : (b.toNat + 256 * leNat bs) / 256 = leNat bs := by omega
    simp only [leNat, List.length_cons, leBytes, h1, ih]
    congr 1
    apply BitVec.eq_of_toNat_eq
    simp only [BitVec.toNat_ofNat]; omega

/-! ### Device memory -/

/-- A byte written under a key keeps the canonical form. -/
theorem wrByte_wf (s : State) (key a : Nat) (b : Byte) (h : s.mem.wf = true) : (s.wrByte key a b).mem.wf = true :=
  Memory.wf_write _ _ _ h

theorem wrN_wf (s : State) (key a : Nat) (bs : List Byte) (h : s.mem.wf = true) : (s.wrN key a bs).mem.wf = true := by
  induction bs generalizing s a with
  | nil => exact h
  | cons b bs ih => exact ih _ _ (wrByte_wf s key a b h)

theorem storeUnit_wf (s : State) (key a : Nat) (bs : List Byte) (h : s.mem.wf = true) : (s.storeUnit key a bs).mem.wf = true := by
  unfold State.storeUnit
  split
  · split
    · exact wrN_wf _ _ _ _ h
    · exact h
  · exact wrN_wf _ _ _ _ h

/-- The key that wrote a byte, after another has been written. -/
theorem byteKeyOf_wrByte (s : State) (key a x : Nat) (b : Byte) :
    (s.wrByte key a b).byteKeyOf x = if x = a then key else s.byteKeyOf x := sget_sset 0 s.byteKey a key x

/-- A byte is the key's own, or nothing has written it: the key reads what stands there. -/
def Owned (s : State) (key x : Nat) : Prop := s.byteKeyOf x = key ∨ s.byteKeyOf x = 0

theorem rdByte_owned {s : State} {key x : Nat} (h : Owned s key x) : s.rdByte key x = s.mem.read x := by
  simpa [State.rdByte, Owned] using fun e f => absurd h (by simp [e, f, Owned])

theorem owned_wrByte {s : State} {key a x : Nat} (b : Byte) (h : x = a ∨ Owned s key x) : Owned (s.wrByte key a b) key x := by
  unfold Owned
  rw [byteKeyOf_wrByte]
  split
  · exact .inl rfl
  · exact h.resolve_left ‹_›

theorem rdN_length (s : State) (key a n : Nat) : (s.rdN key a n).length = n := by
  induction n generalizing a with
  | zero => rfl
  | succ n ih => simp [State.rdN, ih]

theorem getElem_rdN (s : State) (key a n k : Nat) (h : k < (s.rdN key a n).length) : (s.rdN key a n)[k] = s.rdByte key (a + k) := by
  induction n generalizing a k with
  | zero => simp [State.rdN] at h
  | succ n ih =>
    cases k with
    | zero => simp [State.rdN]
    | succ k => simp only [State.rdN, List.getElem_cons_succ]; rw [ih]; congr 1; omega

/-- What a partition reads after it has written a byte, there and among its own bytes (R424). -/
theorem rdByte_wrByte (s : State) (key a : Nat) (b : Byte) (x : Nat) (h : x = a ∨ Owned s key x) :
    (s.wrByte key a b).rdByte key x = if x = a then b else s.rdByte key x := by
  rw [rdByte_owned (owned_wrByte b h), show (s.wrByte key a b).mem.read x = _ from Memory.read_write _ _ _ _]
  split
  · rfl
  · rw [rdByte_owned (h.resolve_left ‹_›)]

/-- What a partition reads after it has written bytes, there and among its own bytes (R424). -/
theorem rdByte_wrN (s : State) (key a : Nat) (bs : List Byte) (x : Nat) (o : (a ≤ x ∧ x < a + bs.length) ∨ Owned s key x) :
    (s.wrN key a bs).rdByte key x = if h : a ≤ x ∧ x < a + bs.length then bs[x - a] else s.rdByte key x := by
  induction bs generalizing s a with
  | nil =>
    have : ¬(a ≤ x ∧ x < a + ([] : List Byte).length) := by simp
    simp only [State.wrN, dif_neg this]
  | cons b bs ih =>
    simp only [List.length_cons] at o ⊢
    have o' : x = a ∨ ((a + 1 ≤ x ∧ x < a + 1 + bs.length) ∨ Owned s key x) := by
      rcases o with o | o
      · omega
      · exact .inr (.inr o)
    have o1 : (a + 1 ≤ x ∧ x < a + 1 + bs.length) ∨ Owned (s.wrByte key a b) key x := by
      rcases o' with e | e | e
      · exact .inr (owned_wrByte b (.inl e))
      · exact .inl e
      · exact .inr (owned_wrByte b (.inr e))
    simp only [State.wrN]
    rw [ih _ _ o1]
    by_cases r : a + 1 ≤ x ∧ x < a + 1 + bs.length
    · have r' : a ≤ x ∧ x < a + (bs.length + 1) := by omega
      obtain ⟨k, hk⟩ : ∃ k, x - a = k + 1 := ⟨x - a - 1, by omega⟩
      have hk' : x - (a + 1) = k := by omega
      simp [r, r', hk, hk']
    · have o2 : x = a ∨ Owned s key x := by
        rcases o' with e | e | e
        · exact .inl e
        · exact absurd e r
        · exact .inr e
      rw [dif_neg r, rdByte_wrByte _ _ _ _ _ o2]
      by_cases e : x = a
      · subst e; simp
      · have r' : ¬(a ≤ x ∧ x < a + (bs.length + 1)) := by omega
        simp [r', e]

/-- A partition reads back the bytes it has written. -/
theorem rdN_wrN (s : State) (key a : Nat) (bs : List Byte) : (s.wrN key a bs).rdN key a bs.length = bs := by
  apply List.ext_getElem (rdN_length _ _ _ _)
  intro i h1 h2
  rw [getElem_rdN, rdByte_wrN _ _ _ _ _ (.inl (by omega))]
  simp [h2]

/-- Device memory differs from `s` in `t` by nothing else than what writes under keys make of it. -/
theorem wrByte_rest (s : State) (key a : Nat) (b : Byte) : { s.wrByte key a b with mem := s.mem, byteKey := s.byteKey } = s :=
  rfl

theorem wrN_rest (s : State) (key a : Nat) (bs : List Byte) : { s.wrN key a bs with mem := s.mem, byteKey := s.byteKey } = s := by
  induction bs generalizing s a with
  | nil => rfl
  | cons b bs ih =>
    have h := wrByte_rest s key a b
    have := congrArg (fun t : State => ({ t with mem := s.mem, byteKey := s.byteKey } : State)) (ih (s.wrByte key a b) (a + 1))
    exact this.trans h

end Sys2Proof.Machine
end

