-- ==== Sys2Proof/Laws/Traps.lean ====
section
/-!
SUPPORT. Taking a trap: everything that `State.trap` does where the gang can take a trap at once (R152, R153), and where its team has
no handler or the trap stands in a handler (R153, R156).
-/
namespace Sys2Proof.Machine

open Sys2Proof.Spec

/-- The gang as a trap of fragment `f` leaves it (R153). -/
def Gang.trapped (g : Gang) (f : FragId) (base : DWord) (order : Nat) (cause : Cause) (pc info late : DWord) : Gang :=
  { g.modFrag f (fun f => { f with wait := .none }) with
    trapcause := cause.code, trappc := pc, trapinfo := info, traplate := late, intrap := true, latch := []
    handler := { pc := base, frag := f, order := order, wait := .none } }

theorem enterTrap_gang {s : State} {c : CoreId} {i : SlotId} {f : FragId} {cause : Cause} {pc info late : DWord}
    (h : (s.teamAt c i).trapbase ≠ 0) :
    (s.enterTrap c i f cause pc info late).gangAt c i =
      (s.gangAt c i).trapped f (s.teamAt c i).trapbase (s.core c).nextTrap cause pc info late ∧
    (s.enterTrap c i f cause pc info late).mem = s.mem ∧ (s.enterTrap c i f cause pc info late).cur = s.cur := by
  unfold State.enterTrap
  simp only [h, ↓reduceIte]
  refine ⟨?_, rfl, rfl⟩
  have : ∀ (t : State) (f : Core → Core) (hf : ∀ k : Core, (f k).slots = k.slots), (t.modCore c f).gangAt c i = t.gangAt c i := by
    intro t f hf
    simp [State.gangAt, Core.gang, hf]
  refine (this _ (fun k => { k with nextTrap := (s.core c).nextTrap + 1 }) fun _ => rfl).trans ?_
  rw [State.gangAt_modGangAt, if_pos ⟨rfl, rfl⟩]
  rfl

/-- The trap that a gang takes at once (R152, R153). -/
theorem trap_trapped {s : State} (h : TrapReady s) (cause : Cause) (info : DWord) :
    Trapped s (s.trap cause info) cause.code s.pc info ∧ (s.trap cause info).sel = false := by
  obtain ⟨h1, h2, h3, h4⟩ := h
  have hg : (s.gangAt s.cur.core s.cur.slot).intrap = false := h2
  have hh : (s.teamAt s.cur.core s.cur.slot).halted = false := h4
  have e : s.trap cause info = (s.enterTrap s.cur.core s.cur.slot s.cur.frag cause s.pc info 0).stall := by
    unfold State.trap State.trapAt
    simp [h1, hg, hh]
  obtain ⟨eg, em, ec⟩ := enterTrap_gang (s := s) (c := s.cur.core) (i := s.cur.slot) (f := s.cur.frag) (cause := cause)
    (pc := s.pc) (info := info) (late := 0) h3
  rw [e]
  generalize s.enterTrap s.cur.core s.cur.slot s.cur.frag cause s.pc info 0 = t at eg em ec
  have k : t.stall.g = s.g.trapped s.cur.frag s.t.trapbase (s.core s.cur.core).nextTrap cause s.pc info 0 := by
    rw [State.g_stall]; show t.gangAt t.cur.core t.cur.slot = _; rw [ec, eg]; rfl
  refine ⟨?_, rfl⟩
  constructor
  case lanes => rw [k]; simp [Gang.trapped, Gang.modFrag, get_set]; rfl
  case regs => rw [k]; simp [Gang.trapped, Gang.modFrag]
  case mem => intro a; show t.mem.read a = _; rw [em]
  all_goals rw [k]; rfl

end Sys2Proof.Machine
end

