-- ==== Sys2Proof/Tests/Slice0.lean ====
section
/-!
SUPPORT. Tests of the model, with expected results from the manual's own words, and for every statement with hypotheses a
state and operands that meet them.
-/
set_option Elab.async false
namespace Sys2Proof.Tests
open Sys2Proof.Machine Sys2Proof.Spec

/-! ### Small states -/

/-- The machine of log 11: one gang of 32 lanes on core 0 is about to issue; its gang is then changed by `f`. -/
def ready (f : Gang → Gang) : State := (State.reset.withFetchWord 32 0).modG f

/-- Every lane of a vector register holds `x` without marks. -/
def setV (r : RegField) (x : DWord) (g : Gang) : Gang :=
  { g with v := g.v.set (vIx r) (Vector.replicate 32 (VCell.both x false)) }

/-- A uniform register holds `x`. -/
def setU (r : RegField) (x : DWord) (g : Gang) : Gang := { g with u := g.u.set (vIx r) x }

/-- Only the lanes `m` are active. -/
def setEm (m : BitVec 32) (g : Gang) : Gang := g.modFrag 0 fun f => { f with mask := m }

/-- The state after one instruction or event. -/
def after (i : Instr) (s : State) : State :=
  match exec i s with
  | .next t => t
  | _ => State.reset

/-- Lane 0 of a vector register after an instruction in a state whose gang is `f`'s. -/
def lane0 (i : Instr) (r : RegField) (f : Gang → Gang) : DWord := ((after i (ready (setEm 1 ∘ f))).v r 0).bits

/-! ### Decoding: words written out from the manual's encodings -/

theorem test_decode_integer :
    decode 0x01149496 0 = .ok (.add 5 9 18 1 6) ∧
    decode 0x02149496 0 = .ok (.sub 5 9 18 1 6) ∧
    decode 0x03149496 0 = .ok (.mul 5 9 18 1 6) ∧
    decode 0x04149496 0 = .ok (.mulhi 5 9 18 1 6) ∧
    decode 0x05149496 0 = .ok (.mad 5 9 18 1 6) ∧
    decode 0x06149496 0 = .ok (.min 5 9 18 1 6) ∧
    decode 0x07149496 0 = .ok (.max 5 9 18 1 6) ∧
    decode 0x08149016 0 = .ok (.abs 5 9 1 6) ∧
    decode 0x09149016 0 = .ok (.neg 5 9 1 6) := by
  decide

theorem test_decode_bitwise :
    decode 0x0A1494A0 0 = .ok (.and 5 9 18 2) ∧
    decode 0x0B1494A0 0 = .ok (.or 5 9 18 2) ∧
    decode 0x0C1494A0 0 = .ok (.xor 5 9 18 2) ∧
    decode 0x0E1494A0 0 = .ok (.andn 5 9 18 2) ∧
    decode 0x0D149010 0 = .ok (.not 5 9 1) ∧
    decode 0x0F149496 0 = .ok (.shl 5 9 18 1 6) ∧
    decode 0x10149496 0 = .ok (.shr 5 9 18 1 6) ∧
    decode 0x11149496 0 = .ok (.sar 5 9 18 1 6) ∧
    decode 0x12149496 0 = .ok (.rol 5 9 18 1 6) ∧
    decode 0x16149496 0 = .ok (.bfx 5 9 18 1 6) ∧
    decode 0x17149496 0 = .ok (.bfi 5 9 18 1 6) ∧
    decode 0x13149012 0 = .ok (.clz 5 9 1 2) ∧
    decode 0x14149012 0 = .ok (.popc 5 9 1 2) ∧
    decode 0x15149012 0 = .ok (.brev 5 9 1 2) ∧
    decode 0x18149493 0 = .ok (.sel 5 9 18 1 3) ∧
    decode 0x1914949E 0 = .ok (.cmp 5 9 18 1 14) := by
  decide

theorem test_decode_float :
    decode 0x1A14949C 0 = .ok (.fadd 5 9 18 1 true 4) ∧
    decode 0x1B14949C 0 = .ok (.fsub 5 9 18 1 true 4) ∧
    decode 0x1C14949C 0 = .ok (.fmul 5 9 18 1 true 4) ∧
    decode 0x1D14949C 0 = .ok (.ffma 5 9 18 1 true 4) ∧
    decode 0x1E149499 0 = .ok (.fmin 5 9 18 1 true true) ∧
    decode 0x1F149498 0 = .ok (.fmax 5 9 18 1 true false) ∧
    decode 0x20149492 0 = .ok (.fcmp 5 9 18 1 false 2) ∧
    decode 0x21149018 0 = .ok (.fclass 5 9 1 true) ∧
    decode 0x22149013 0 = .ok (.fround 5 9 1 false 3) ∧
    decode 0x231820C8 0 = .ok (.fcvt 6 2 0 3 0 true 0) ∧
    decode 0x2414929D 0 = .ok (.frcp 5 9 true 2 7 1) ∧
    decode 0x2514929D 0 = .ok (.frsq 5 9 true 2 7 1) ∧
    decode 0x2614929D 0 = .ok (.fsqrt 5 9 true 2 7 1) ∧
    decode 0x2714929D 0 = .ok (.fexp2 5 9 true 2 7 1) ∧
    decode 0x2814929D 0 = .ok (.flog2 5 9 true 2 7 1) ∧
    decode 0x2914929D 0 = .ok (.fsin 5 9 true 2 7 1) ∧
    decode 0x2A14929D 0 = .ok (.fcos 5 9 true 2 7 1) := by
  decide

theorem test_decode_moves :
    decode 0x2B149010 0 = .ok (.mov 5 9 1) ∧
    decode 0x2C0C0000 0x3FC00000 = .ok (.movi 3 0 0x3FC00000) ∧
    decode 0x2D149496 0 = .ok (.pack 5 9 18 1 6) ∧
    decode 0x2E149015 0 = .ok (.unpk 5 9 1 5) ∧
    decode 0x2F149490 0 = .ok (.perm 5 9 18 1) := by
  decide

theorem test_decode_cross_lane :
    decode 0x30101043 0 = .ok (.shfl 4 1 1 0 3) ∧
    decode 0x31141082 0 = .ok (.gath 5 1 2 0 2) ∧
    decode 0x32183002 0 = .ok (.bcast 6 3 0 0 2) ∧
    decode 0x33087015 0 = .ok (.vote 2 7 1 true 1) ∧
    decode 0x34044014 0 = .ok (.ballot 1 4 1 true) ∧
    decode 0x35203042 0 = .ok (.segred 8 3 1 0 0 2) ∧
    decode 0x36243088 0 = .ok (.segscan 9 3 2 0 2 0) ∧
    decode 0x3704A015 0 = .ok (.kadd 1 10 1 true 1) ∧
    decode 0x38040000 0 = .ok (.kclr 1) ∧
    decode 0x3930108C 0 = .ok (.krd 12 1 2 3) ∧
    decode 0x3A382191 0 = .ok (.xchg 14 2 6 4 1) := by
  decide

theorem test_decode_memory :
    decode 0x4010830C 0x44 = .ok (.ld 4 8 12 3 0 0 0 0 false false 8 true false false) ∧
    decode 0x410C8014 0x400002 = .ok (.st 3 8 1 false true 64 0 false 2) ∧
    decode 0x42044014 0x80903 = .ok (.sld 1 4 5 8 4 true false 3) ∧
    decode 0x43244000 0x280703 = .ok (.sst 9 4 40 3 true 3) ∧
    decode 0x4C188005 0x107770 = .ok (.atom 6 8 1 1 16 7 3 true false true 3) ∧
    decode 0x4D0C2008 0x780 = .ok (.satom 3 2 2 0 0 3 true true false 0) ∧
    decode 0x49084012 0 = .ok (.gtest 2 4 1 2) ∧
    decode 0x4A144012 0 = .ok (.gacc 5 4 1 2) ∧
    decode 0x4B108849 0 = .ok (.gdemand 4 8 8 false true 2 1) := by
  decide

theorem test_decode_tiles :
    decode 0x440C1001 0 = .ok (.talloc 3 1 true) ∧
    decode 0x45003000 0 = .ok (.tfree 3) ∧
    decode 0x46108289 0 = .ok (.tld 4 8 true 1 false 2 1) ∧
    decode 0x470C8014 0 = .ok (.tst 3 8 1 false true 0) ∧
    decode 0x48148705 0 = .ok (.tatom 5 8 7 0 1 1) := by
  decide

theorem test_decode_matrix :
    decode 0x500003C0 0 = .ok (.mlease 15) ∧
    decode 0x50005001 0 = .ok (.mleaseReg 5) ∧
    decode 0x51000000 0 = .ok (.mrel) ∧
    decode 0x520D0138 0x18000000 = .ok (.mma 3 16 4 3 true 6 0 false false) ∧
    decode 0x53000000 0 = .ok (.mfence) ∧
    decode 0x54143000 0 = .ok (.mld 5 3 false) ∧
    decode 0x55143001 0 = .ok (.mst 5 3 true) ∧
    decode 0x56080006 0 = .ok (.mzero 2 6) ∧
    decode 0x57003000 0 = .ok (.msave 3) ∧
    decode 0x58003000 0 = .ok (.mres 3) ∧
    decode 0x58000001 0 = .ok (.mresDrop) ∧
    decode 0x59088300 0x3E000000 = .ok (.attn 2 8 12 0x3E000000) ∧
    decode 0x5A089000 0 = .ok (.amerge 2 9) ∧
    decode 0x5B08A001 0 = .ok (.anorm 2 10 true) := by
  decide

theorem test_decode_directional :
    decode 0x60083004 0 = .ok (.dld 2 3 1) ∧
    decode 0x61083000 0 = .ok (.dst 2 3) ∧
    decode 0x62086019 0 = .ok (.dfrom 2 6 1 true true) ∧
    decode 0x63202009 0 = .ok (.dto 8 2 4 true) ∧
    decode 0x641410C8 0 = .ok (.ddot 5 1 3 2) ∧
    decode 0x650C1080 0 = .ok (.dadd 3 1 2) ∧
    decode 0x660C1080 0 = .ok (.dsub 3 1 2) ∧
    decode 0x67047000 0 = .ok (.dscl 1 7) ∧
    decode 0x68101268 0 = .ok (.dmulv 4 1 9 2 true) ∧
    decode 0x69141000 0 = .ok (.dneg 5 1) ∧
    decode 0x6A144000 0 = .ok (.dnorm 5 4) ∧
    decode 0x6B043000 0 = .ok (.dsetn 1 3) ∧
    decode 0x6C182001 0 = .ok (.dtest 6 2 true) := by
  decide

theorem test_decode_sketch :
    decode 0x701020D1 0 = .ok (.skins 4 2 3 1 true) ∧
    decode 0x711020C0 0 = .ok (.skdel 4 2 3 0 false) ∧
    decode 0x72100001 0 = .ok (.skclr 4 true) ∧
    decode 0x73106002 0 = .ok (.sksub 4 6 true false) ∧
    decode 0x741C4001 0 = .ok (.skstat 7 4 true) ∧
    decode 0xE6005000 0 = .ok (.recon 5) := by
  decide

theorem test_decode_uniform :
    decode 0x800C1080 0 = .ok (.sadd 3 1 2) ∧
    decode 0x810C1080 0 = .ok (.ssub 3 1 2) ∧
    decode 0x820C1080 0 = .ok (.smul 3 1 2) ∧
    decode 0x830C1080 0 = .ok (.sand 3 1 2) ∧
    decode 0x840C1080 0 = .ok (.sor 3 1 2) ∧
    decode 0x850C1080 0 = .ok (.sxor 3 1 2) ∧
    decode 0x860C1080 0 = .ok (.sshl 3 1 2) ∧
    decode 0x870C1080 0 = .ok (.sshr 3 1 2) ∧
    decode 0x880C1080 0 = .ok (.ssar 3 1 2) ∧
    decode 0x890C1081 0 = .ok (.scmp 3 1 2 1) ∧
    decode 0x8A0C1081 0 = .ok (.smin 3 1 2 1) ∧
    decode 0x8B0C1081 0 = .ok (.smax 3 1 2 1) ∧
    decode 0x8C0C1000 0 = .ok (.smov 3 1) ∧
    decode 0x8D1C0000 0x12345678 = .ok (.slit 7 0x12345678) := by
  decide

theorem test_decode_uniform_immediate :
    decode 0x900C1FFF 0 = .ok (.saddImm 3 1 0xFFF) ∧
    decode 0x910C1FFF 0 = .ok (.ssubImm 3 1 0xFFF) ∧
    decode 0x920C1FFF 0 = .ok (.smulImm 3 1 0xFFF) ∧
    decode 0x930C1FFF 0 = .ok (.sandImm 3 1 0xFFF) ∧
    decode 0x940C1FFF 0 = .ok (.sorImm 3 1 0xFFF) ∧
    decode 0x950C1FFF 0 = .ok (.sxorImm 3 1 0xFFF) ∧
    decode 0x9624800C 0 = .ok (.sshlImm 9 8 12) ∧
    decode 0x9724800C 0 = .ok (.sshrImm 9 8 12) ∧
    decode 0x9824800C 0 = .ok (.ssarImm 9 8 12) ∧
    decode 0x9C080800 0 = .ok (.smovi 2 0x800) := by
  decide

theorem test_decode_control :
    decode 0xA0000000 0xFFFFFFFE = .ok (.br 0xFFFFFFFE) ∧
    decode 0xA101C038 0x40009 = .ok (.bc 28 true true true 4 9) ∧
    decode 0xA2007008 0x6000C = .ok (.brx 7 true 6 12) ∧
    decode 0xA3F80000 0x100 = .ok (.call 62 0x100) ∧
    decode 0xA403E008 0 = .ok (.ret 62 true) ∧
    decode 0xA5000000 0 = .ok (.regang) ∧
    decode 0xA6044000 0x6 = .ok (.loop 1 4 6) ∧
    decode 0xA7017000 0 = .ok (.lbrk 23) ∧
    decode 0xA8000000 0 = .ok (.yield) ∧
    decode 0xA9000000 0 = .ok (.exit) ∧
    decode 0xAA000000 0 = .ok (.nop) ∧
    decode 0xAB00002A 0 = .ok (.trap 0x2A) ∧
    decode 0xAC000000 0 = .ok (.rti) := by
  decide

theorem test_decode_masks :
    decode 0xC0080040 0 = .ok (.mand 2 0 1) ∧
    decode 0xC1080040 0 = .ok (.mor 2 0 1) ∧
    decode 0xC2080040 0 = .ok (.mxor 2 0 1) ∧
    decode 0xC3081000 0 = .ok (.mnot 2 1) ∧
    decode 0xC4143000 0 = .ok (.mpop 5 3) ∧
    decode 0xC5143000 0 = .ok (.mfirst 5 3) ∧
    decode 0xC6100000 0 = .ok (.emrd 4) ∧
    decode 0xC7004000 0 = .ok (.emwr 4) ∧
    decode 0xD0100015 0 = .ok (.srd 4 false 0x15) ∧
    decode 0xD0080040 0 = .ok (.srd 2 true 0) ∧
    decode 0xD100700C 0 = .ok (.swr 7 0x0C) := by
  decide

theorem test_decode_engines :
    decode 0xE01021A0 0 = .ok (.cpy 4 2 6 true false) ∧
    decode 0xE1202280 0 = .ok (.cpyt 8 2 10) ∧
    decode 0xE2005000 0 = .ok (.coll 5) ∧
    decode 0xE3000001 0 = .ok (.bseal 1) ∧
    decode 0xE400C080 0 = .ok (.bwait 12 true 0 0) ∧
    decode 0xE50C2400 0 = .ok (.qpush 3 2 16) ∧
    decode 0xE70C2000 0 = .ok (.launch 3 2) ∧
    decode 0xF0000020 0 = .ok (.fence true false false 0) ∧
    decode 0xF000001B 0 = .ok (.fence false true true 3) ∧
    decode 0xF1005803 0 = .ok (.bar 5 true 0 3) ∧
    decode 0xF2000022 0 = .ok (.bara 0 false 2 2) ∧
    decode 0xF3180001 0 = .ok (.barq 6 1) := by
  decide

/-- Every word that the manual gives as an ILLEGAL_OP: it decodes to nothing (R62), the one with a literal too. -/
def rejectedWords : List (Word × Word) :=
  [(0x00000000, 0), (0xFFFFFFFF, 0), (0x96249040, 0), (0x8C0C1001, 0), (0x2D10108B, 0), (0x23102000, 0), (0x1A1010B0, 0), (0x08101086, 0),
  (0xA1009000, 0), (0xA1001004, 0), (0x890C1086, 0), (0xA60C4000, 0), (0x30100801, 0), (0x3520304C, 0), (0x3710A000, 0), (0x3930108D, 0),
  (0x34044001, 0), (0x46108188, 0), (0x48148380, 0), (0x470C8024, 0), (0x440C1081, 0), (0x461C8100, 0), (0x4010830C, 0x00000064), (0x40188000,
  0x00000152), (0x49084003, 0), (0x4B108B00, 0), (0x4C148000, 0x00009000), (0x4C148000, 0x00003020), (0x4C148000, 0x000002C0), (0x4C1C8000,
  0x00007030), (0xF1000111, 0), (0xF1000821, 0), (0xF1000201, 0), (0xF3180011, 0), (0xE01021C0, 0), (0xE4000044, 0), (0xE400C000, 0),
  (0xE50C2300, 0), (0x520F2100, 0), (0x520D0120, 0), (0x59288300, 0), (0x56300004, 0), (0x5A085000, 0), (0x62085001, 0), (0x65401080, 0),
  (0x6320200A, 0), (0x641410C9, 0), (0x67047040, 0), (0x701020F0, 0), (0x701020C8, 0), (0x72100040, 0), (0x741C4002, 0), (0x75000000, 0),
  (0xE6005001, 0), (0x41088008, 0x00000703)]

theorem test_rejected : rejectedWords.all (fun x => match decode x.1 x.2 with | .ok _ => false | .error _ => true) = true := by decide +kernel

/-! ### Well-formedness: a term that each check refuses -/

/-- Holds, saturation, signs and widths of the lane operations (R50, R114 to R134). -/
theorem test_ill_formed_lane : ∀ i ∈ [Instr.add 4 1 2 3 6, .sub 4 1 2 3 6, .mul 4 1 2 0 8, .mul 4 1 2 3 0, .mulhi 4 1 2 0 8, .mulhi 4 1 2 3 0,
    .mad 4 1 2 0 8, .min 4 1 2 0 8, .min 4 1 2 3 0, .max 4 1 2 0 8, .max 4 1 2 3 0, .abs 4 1 0 2, .abs 4 1 2 6, .neg 4 1 0 8, .neg 4 1 2 0,
    .and 4 1 2 3, .or 4 1 2 3, .xor 4 1 2 3, .not 4 1 2, .andn 4 1 2 3, .shl 4 1 2 0 8, .shl 4 1 2 3 0, .shr 4 1 2 0 8, .shr 4 1 2 3 0,
    .sar 4 1 2 0 8, .sar 4 1 2 3 0, .rol 4 1 2 0 8, .rol 4 1 2 3 0, .clz 4 1 0 8, .clz 4 1 2 0, .popc 4 1 0 8, .popc 4 1 2 0, .brev 4 1 0 8,
    .brev 4 1 2 0, .bfx 4 1 2 0 0, .bfx 4 1 2 0 10, .bfx 4 1 2 3 2, .bfi 4 1 2 0 0, .bfi 4 1 2 0 10, .sel 4 1 2 3 0, .cmp 4 1 2 3 0,
    .mov 4 1 2, .movi 4 3 0x10000, .pack 4 1 2 0 3, .pack 4 1 2 3 0, .unpk 4 1 0 3, .unpk 4 1 2 0, .perm 4 1 2 3], i.wf = false := by decide

/-- Rounding codes and types of the floating-point operations (R71, R118 to R128). -/
theorem test_ill_formed_float : ∀ i ∈ [Instr.fadd 4 1 2 3 true 0, .fadd 4 1 2 0 true 5, .fsub 4 1 2 3 true 0, .fsub 4 1 2 0 true 5,
    .fmul 4 1 2 3 true 0, .fmul 4 1 2 0 true 5, .ffma 4 1 2 0 true 5, .fmin 4 1 2 3 true false, .fmax 4 1 2 3 true false,
    .fcmp 4 1 2 3 true 0, .fcmp 4 1 2 0 true 5, .fclass 4 1 2 true, .fround 4 1 2 true 0, .fround 4 1 0 true 5, .fcvt 4 1 0 0 0 false 0,
    .fcvt 4 1 6 0 0 false 0, .fcvt 4 1 0 1 2 false 0, .fcvt 4 1 0 1 0 false 5, .fcvt 4 1 1 2 0 true 0, .fcvt 4 1 0 3 0 false 0,
    .fcvt 5 1 3 0 0 false 0, .fcvt 4 1 1 6 0 false 0, .fcvt 4 1 0 7 0 false 4, .frcp 4 1 true 5 0 0, .frcp 4 1 true 0 0 2, .frsq 4 1 true 5 0 0,
    .fsqrt 4 1 true 5 0 0, .fexp2 4 1 true 5 0 0, .flog2 4 1 true 5 0 0, .fsin 4 1 true 5 0 0, .fcos 4 1 true 5 0 0], i.wf = false := by decide

/-- Lane numbers, mask and accumulator classes of the cross-lane operations (R163 to R175, R230 to R232). -/
theorem test_ill_formed_cross : ∀ i ∈ [Instr.shfl 4 1 2 3 0, .shfl 4 1 32 0 1, .shfl 4 1 2 2 1, .gath 4 1 2 3 0, .bcast 4 1 32 0 0,
    .bcast 4 1 1 0 1, .bcast 4 1 0 1 2, .bcast 4 1 1 0 2, .bcast 4 1 0 0 3, .vote 4 1 2 true 0, .vote 4 1 0 true 3, .ballot 8 1 0 true,
    .ballot 4 1 2 true, .segred 4 1 8 0 0 0, .segred 4 1 2 0 3 0, .segred 4 1 2 2 0 0, .segscan 4 1 8 0 0 0, .segscan 4 1 2 0 3 0,
    .segscan 4 1 2 2 0 0, .kadd 4 1 0 true 0, .kadd 1 1 2 true 0, .kclr 4, .krd 4 4 0 0, .krd 4 1 5 0, .xchg 4 1 2 0 2, .gtest 8 1 0 0,
    .gtest 4 1 0 3, .gtest 4 1 2 0, .gacc 4 1 0 3, .gacc 4 1 2 0, .gdemand 4 1 11 false false 0 0, .gdemand 4 1 3 true false 0 0,
    .gdemand 4 1 0 false false 0 2], i.wf = false := by decide

/-- Memory operations (R187, R208, R219, R220, R262). -/
theorem test_ill_formed_memory : ∀ i ∈ [Instr.ld 4 1 0 0 0 0 0 1 false false 0 false false false, .ld 4 1 0 0 0 0 0 5 true false 0 false false false,
    .ld 4 1 0 0 0 0 0 0 false true 0 false false false, .ld 4 1 0 0 0 0 0 0 false false 12 false false false,
    .ld 4 1 0 0 0 0 0 1 true false 0 false true false, .ld 4 1 0 0 0 0 0 0 false false 3 false false true,
    .ld 5 1 0 0 0 0 0 0 false false 11 false false false, .ld 4 1 2 0 0 0 0 0 false false 0 false false false,
    .ld 4 1 2 0 0 0 1 0 false false 0 true false false, .ld 4 1 0 0 2 0 0 0 false false 0 false false false,
    .st 4 1 0 false false 0 1 false 0, .st 4 1 0 false false 0 0 false 5, .st 4 1 2 false false 0 0 false 0, .st 4 1 0 true false 0 1 true 0,
    .st 4 1 0 false true 0 0 false 3, .st 5 1 0 false false 0 0 false 4, .sld 4 1 0 0 1 false false 0, .sld 4 1 0 0 0 false false 7,
    .sst 4 1 0 1 false 0, .sst 4 1 0 0 false 4, .tld 4 1 false 3 false 0 0, .tld 4 1 false 1 true 0 0, .tld 5 1 false 2 false 0 0,
    .tld 4 1 false 0 false 0 2, .tst 4 1 0 false false 3, .tst 4 1 0 false true 1, .tst 5 1 0 false false 2, .tst 4 1 2 false false 0,
    .tatom 4 1 8 0 0 0, .tatom 4 1 3 2 0 0, .tatom 4 1 7 3 0 0, .tatom 4 1 0 0 0 2, .atom 4 1 0 2 0 0 0 false false false 0,
    .atom 4 1 0 0 0 8 0 false false false 0, .atom 4 1 0 0 0 0 1 false false false 0, .atom 4 1 0 0 0 0 1 false true true 0,
    .atom 5 1 0 0 0 7 0 false false false 3, .satom 4 1 0 0 8 0 false false false 0, .satom 4 1 0 0 0 1 false false false 0,
    .satom 5 1 0 0 7 0 false false false 3], i.wf = false := by decide

/-- Matrix, directional and sketch operations (R314 to R333, R342 to R350, R358). -/
theorem test_ill_formed_engines : ∀ i ∈ [Instr.mma 16 0 0 0 false 0 0 false false, .mma 0 49 0 0 false 0 0 false false,
    .mma 0 0 0 2 false 0 0 false false, .mma 0 0 0 0 false 0 1 false false, .mma 0 0 0 0 false 0 1 true false, .mma 0 0 0 0 false 0 2 true true,
    .mma 0 0 0 0 false 0 63 true true, .mld 16 0 false, .mst 16 0 false, .mzero 15 1, .attn 10 0 0 0, .attn 0 61 0 0, .amerge 10 0, .amerge 0 10,
    .amerge 0 6, .anorm 10 0 false, .dld 16 0 0, .dst 16 0, .dfrom 16 0 0 false false, .dfrom 0 1 0 false true, .dfrom 0 0 2 false false,
    .dto 0 16 0 false, .dto 0 0 5 false, .dto 1 0 0 true, .ddot 0 16 0 0, .ddot 0 0 16 0, .dadd 16 0 0, .dadd 0 16 0, .dadd 0 0 16,
    .dsub 16 0 0, .dsub 0 16 0, .dsub 0 0 16, .dscl 16 0, .dmulv 16 0 0 0 false, .dmulv 0 16 0 0 false, .dmulv 0 0 0 1 false, .dneg 16 0,
    .dneg 0 16, .dnorm 16 0, .dnorm 0 16, .dsetn 16 0, .dtest 0 16 false, .skins 4 1 2 3 false, .skdel 4 1 2 3 false], i.wf = false := by decide

/-- Uniform, control, special-register, engine and barrier instructions (R101, R133 to R147, R245, R269, R285 to R309). -/
theorem test_ill_formed_uniform : ∀ i ∈ [Instr.scmp 4 1 2 6, .smin 4 1 2 2, .smax 4 1 2 2, .bc 8 false false false 0 0, .loop 3 0 1, .loop 0 0 0,
    .loop 0 0 257, .mand 8 0 0, .mand 0 8 0, .mand 0 0 8, .mor 8 0 0, .mor 0 8 0, .mor 0 0 8, .mxor 8 0 0, .mxor 0 8 0, .mxor 0 0 8, .mnot 8 0,
    .mnot 0 8, .mpop 0 8, .mfirst 0 8, .emrd 8, .emwr 8, .srd 0 true 0x0D, .srd 0 true 0x17, .srd 0 false 0, .swr 0 0x01, .cpy 0 0 1 false false,
    .bwait 0 false 17 0, .bwait 1 false 0 0, .qpush 0 0 4, .fence true false false 5, .fence true false false 1, .fence false false false 0,
    .bar 0 false 17 0, .bar 1 false 1 0, .bar 0 true 1 0, .bara 0 false 17 0, .bara 1 false 1 0, .bara 0 true 1 0], i.wf = false := by decide

/-! ### Results that the manual works out -/

/-- The border cases of R114 and R115, each on element 0 of lane 0: operands a, b, d. -/
def border (i : Instr) (a b d : Nat) : DWord :=
  lane0 i 4 (setV 1 (BitVec.ofNat 64 a) ∘ setV 2 (BitVec.ofNat 64 b) ∘ setV 4 (BitVec.ofNat 64 d))

theorem test_add_wraps : elem 8 (border (.add 4 1 2 0 4) 0x64 0x64 0) 0 = 0xC8 := by decide +kernel
theorem test_add_saturates : elem 8 (border (.add 4 1 2 0 12) 0x64 0x64 0) 0 = 0x7F := by decide +kernel
theorem test_sub_saturates : elem 8 (border (.sub 4 1 2 0 8) 0x05 0x09 0) 0 = 0 := by decide +kernel
theorem test_abs_lowest : elem 32 (border (.abs 4 1 0 6) 0x80000000 0 0) 0 = 0x80000000 := by decide +kernel
theorem test_abs_saturates : elem 32 (border (.abs 4 1 0 14) 0x80000000 0 0) 0 = 0x7FFFFFFF := by decide +kernel
theorem test_mulhi_signed : elem 32 (border (.mulhi 4 1 2 0 6) 0xFFFFFFFF 2 0) 0 = 0xFFFFFFFF := by decide +kernel
theorem test_mulhi_unsigned : elem 32 (border (.mulhi 4 1 2 0 2) 0xFFFFFFFF 2 0) 0 = 1 := by decide +kernel
theorem test_shl_far : elem 32 (border (.shl 4 1 2 0 2) 1 40 0) 0 = 0 := by decide +kernel
theorem test_sar_far : elem 32 (border (.sar 4 1 2 0 6) 0xFFFFFFF8 40 0) 0 = 0xFFFFFFFF := by decide +kernel
theorem test_rol_wraps : elem 32 (border (.rol 4 1 2 0 2) 0x80000001 36 0) 0 = 0x18 := by decide +kernel
theorem test_clz_zero : elem 32 (border (.clz 4 1 0 2) 0 0 0) 0 = 32 := by decide +kernel
theorem test_bfx_signed : elem 32 (border (.bfx 4 1 2 0 6) 0xF0000000 0x81C 0) 0 = 0xFFFFFFFF := by decide +kernel
theorem test_bfx_unsigned : elem 32 (border (.bfx 4 1 2 0 2) 0xF0000000 0x81C 0) 0 = 0xF := by decide +kernel
theorem test_bfi_field : elem 32 (border (.bfi 4 1 2 0 2) 0 0x404 0xFFFFFFFF) 0 = 0xFFFFFF0F := by decide +kernel

/-- The narrowing example of R127: fcvt.e4m3.f32.hi of v2 into v6. -/
theorem test_fcvt_hi : lane0 (.fcvt 6 2 0 3 0 true 0) 6 (setV 2 0x43FA00003E99999A ∘ setV 6 0x0123456789ABCDEF) &&& 0x0000FFFFFFFFFFFF =
    0x00007E2A89ABCDEF := by decide +kernel

/-- Register r1 holds `f l` in lane `l`, without marks. -/
def setLanes (r : RegField) (f : LaneId → DWord) (g : Gang) : Gang :=
  { g with v := g.v.set (vIx r) (Vector.ofFn fun l => VCell.both (f l) false) }

/-- The draws of R75 for rngseed 1, the second as R74's steps give it. -/
theorem test_draws : drawOf (xorshift (seedLane 1 0)) = 0x0004 ∧ xorshift (seedLane 1 0) = 0x00042021 ∧
    drawOf (xorshift (xorshift (seedLane 1 0))) = 0x0408 := by decide

/-- The stochastic conversion of R75: 0x3F808000 and 0x3F80FC00 to BF16 with the two draws. -/
theorem test_fcvt_stochastic : lane0 (.fcvt 4 1 0 1 0 false 4) 4
    (setV 1 0x3F80FC003F808000 ∘ fun g => { g with rng := Vector.replicate 32 1 }) &&& 0xFFFFFFFF = 0x3F813F80 := by decide +kernel

/-- PT2 (R80, R81): the manual's decoded bytes in units of 2^-6, and the bytes it writes for 0.7, 0, 0.5, 2 and 0.75. -/
theorem test_pt2_decode : pt2Val 0x13 = 40 ∧ pt2Val 0x9B = -40 := by decide
theorem test_pt2_encode : [FVal.fin false 11744051 (-24), .fin false 0 0, .fin false 1 (-1), .fin false 2 0, .fin false 3 (-2)].map (pt2Code 0) =
    [0x0A, 0x77, 0x17, 0x00, 0x0A] := by decide +kernel

/-- The collective sum of R90: 1.5, 2^-112 and -0.75 with W = 0 give 0.75. -/
theorem test_coll_sum : collElem 0 bf16 bf16 [0x3FC0, 0x0780, 0xBF40] = (0x3F40, false) := by decide +kernel

/-- The picks of R164's table: indices 5 and 15 in lane 0. -/
theorem test_gath : ((after (.gath 5 1 2 0 2) (ready (setEm 0xFF ∘ setLanes 1 (fun l => BitVec.ofNat 64 (10 * l + (10 * l + 1) * 2 ^ 32)) ∘
    setV 2 0x0000000F00000005))).v 5 0).bits = BitVec.ofNat 64 (21 + 71 * 2 ^ 32) := by decide +kernel

/-- The segmented sum of R169 with heads at lanes 0, 3 and 5. -/
theorem test_segscan : (List.map (fun l => elem 32 ((after (.segscan 4 3 1 0 0 0) (ready (setEm 0xFF ∘ setLanes 3 (fun l => BitVec.ofNat 64 (l + 1)) ∘
    fun g => { g with m := g.m.set (mIx 1) 0x29 }))).v 4 l).bits 0) [0, 1, 2, 3, 4, 5, 6, 7]) = [1, 3, 6, 4, 9, 6, 13, 21] := by decide +kernel

/-- The wide accumulator of R86: 2^100, 1.0 and -2^100 read out as 1.0. -/
theorem test_kadd_krd : elem 32 ((after (.krd 12 1 0 0) { after (.kadd 1 3 0 false 1) (ready (setEm 7 ∘
    setLanes 3 fun l => if l = 0 then 0x71800000 else if l = 1 then 0x3F800000 else 0xF1800000)) with sel := true }).v 12 0).bits 0 = 0x3F800000 := by
  decide +kernel

/-- The reciprocal of R124 and the window of R51: no lookahead writes 1/4 at once, two instructions of lookahead leave the register. -/
theorem test_frcp : lane0 (.frcp 4 8 false 0 0 0) 4 (setV 4 0x3F8000003F800000 ∘ setV 8 0x4080000040800000) = 0x3E8000003E800000 := by
  decide +kernel
theorem test_frcp_window : lane0 (.frcp 4 8 false 0 2 0) 4 (setV 4 0x3F8000003F800000 ∘ setV 8 0x4080000040800000) = 0x3F8000003F800000 := by
  decide +kernel

/-- The sequence of "A worked sequence" (R339, R345): dfrom of (3, 4), and the dot product with (1, 0) at norm 0. -/
theorem test_dfrom : renormInt [3, 4, 0] 0 = { c := [0x2666, 0x3333, 0], n := 0x0252, clamped := false } := by decide +kernel
theorem test_ddot : (after (.ddot 5 1 2 0) (ready fun g => (g.writeDir 1 ([9830, 13107] ++ List.replicate 126 0) 0).writeDir 2
    (16384 :: List.replicate 127 0) 0)).u 5 = 0x3F199800 := by decide +kernel

/-- The divergent branch of the worked trace of R20: lanes 0 to 15 go to 0x0080, the others to 0x0048, and meet at 0x00C0. -/
theorem test_bc_splits : (let g := (after (.bc 1 false false false 0x10 0x20) (ready ((fun g => g.modFrag 0 fun f => { f with pc := 0x40 }) ∘
      fun g => { g with m := g.m.set (mIx 1) 0xFFFF }))).g
    ((g.frags.toList.filter (·.valid)).map (fun f => (f.pc, f.mask)), (g.joins.toList.filter (·.valid)).map (·.rcv))) =
    ([(0x80, 0x0000FFFF), (0x48, 0xFFFF0000)], [0xC0]) := by decide +kernel

/-- A team with a handler at 0x1000. -/
def handled (f : Gang → Gang) : State := (ready f).modT fun t => { t with trapbase := 0x1000 }

/-- trap 0x2A (R152, R154): SW_TRAP with its code, trappc at the next instruction. -/
theorem test_trap : (let s := handled id
    let g := (after (.trap 0x2A) s).g
    (g.trapcause, g.trapinfo, g.trappc - s.pc, g.intrap, g.handler.pc)) = (0x0D, 0x2A, 4, true, 0x1000) := by decide +kernel

/-- R217: level 4 lets deadlines below 256 cycles pass on purpose, level 3 none, level 7 any nonzero one. -/
theorem test_licence : (licence 4).letsPass 255 = true ∧ (licence 4).letsPass 256 = false ∧ (licence 3).letsPass 1 = false ∧
    (licence 7).letsPass (2 ^ 30) = true ∧ (licence 7).letsPass 0 = false ∧ (licence 2).park = false ∧ (licence 3).park = true := by
  decide

/-- A marked address of tld traps GUESS_ESCAPE with the lane and the register (R152, R192). -/
theorem test_guess_escape : (let g := (after (.tld 4 8 false 1 false 0 0) (handled fun g =>
      { g with v := g.v.set (vIx 8) (Vector.ofFn fun l => if l = 3 then VCell.both 0 true else VCell.both 0 false) })).g
    (g.trapcause, g.trapinfo)) = (0x03, BitVec.ofNat 64 (8 + 8 * 2 ^ 32)) := by decide +kernel

/-- Immediates (R45): smovi sign-extends, sand zero-extends. -/
theorem test_smovi : (after (.smovi 3 0xFFF) (ready id)).u 3 = -1 := by decide +kernel
theorem test_sand_imm : (after (.sandImm 3 1 0xFFF) (ready (setU 1 (-1)))).u 3 = 0xFFF := by decide +kernel

/-- The loop of R147 with count 3 and W = 4. -/
theorem test_loop : (let s := ready (setU 4 3)
    let t := after (.loop 0 4 4) s
    (t.g.lc.get 0, t.g.loops.map fun r => (r.start - s.pc, r.endAddr - s.pc))) = (3, [(8, 24)]) := by decide +kernel

/-- A step fetches and runs the word of `smovi s2, -2048` that stands at the pc. -/
theorem test_step : (match step (State.reset.withFetchWord 32 0x9C080800) with
    | .next t => t.u 2
    | _ => 0) = BitVec.ofInt 64 (-2048) := by decide +kernel

/-- The zero word is no instruction: ILLEGAL_OP with its words in trapinfo (R62, R63). -/
theorem test_step_illegal : (match step ((State.reset.withFetchWord 32 0).modT fun t => { t with trapbase := 0x1000 }) with
    | .next t => (t.g.trapcause, t.g.trapinfo, t.g.intrap)
    | _ => (0, 0, false)) = (0x01, 0, true) := by decide +kernel

/-- A tile of 16 rows of 64 bytes (R181): entry 0, generation 0 of core 0. -/
theorem test_talloc : (let t := after (.talloc 3 1 false) ((ready (setU 1 0x00100040)).modT fun t => { t with spadLen := 4096 })
    (t.u 3, (t.curCore.tiles.get 0).v, (t.curCore.tiles.get 0).addr, (t.curCore.tiles.get 0).size)) = (0, true, 0, 1024) := by decide +kernel

/-- Atomics of 32 bits (R191): compare and exchange, wrapping addition, signed minimum. -/
theorem test_atomic_cas : atomNew 7 0 5 5 9 = 9 ∧ atomNew 7 0 6 5 9 = 6 := by decide
theorem test_atomic_add_min : atomNew 0 0 0xFFFFFFFF 2 0 = 1 ∧ atomNew 1 1 0xFFFFFFFF 2 0 = 0xFFFFFFFF := by decide

/-- Power (R413, R415): a cap below 420 W is clamped, and a failed phase lowers ILIM to 60 A for each phase left. -/
theorem test_cap_clamped : (after (.powerCapWrite 100) State.reset).cap = 420 := by decide +kernel
theorem test_phase_failure : (let r := (after (.phaseFailure 2) State.reset).rails.get 2
    (r.phaseok, r.ilim)) = (15, 900) := by decide +kernel

/-! ### Witnesses: for each obligation with hypotheses, a state and operands that meet them -/

/-- No result is outstanding in a small state whose gang has none. -/
theorem calm_ready : Calm (ready id) := by show (ready id).g.pend = []; decide +kernel

theorem witness_IntegerArithmetic : Calm (ready id) ∧ (∀ i ∈ [Instr.add 4 1 2 0 12, .sub 4 1 2 1 0, .mul 4 1 2 2 7, .mulhi 4 1 2 0 3, .min 4 1 2 0 5,
    .max 4 1 2 0 1, .abs 4 1 0 14, .neg 4 1 1 4, .mad 4 1 2 3 7], i.wf = true) := ⟨calm_ready, by decide⟩

theorem witness_ShiftsAndFields : Calm (ready id) ∧ (∀ i ∈ [Instr.shl 4 1 2 0 0, .shr 4 1 2 1 7, .sar 4 1 2 2 6, .rol 4 1 2 0 3, .clz 4 1 0 2, .popc 4 1 1 1,
    .brev 4 1 0 7, .bfx 4 1 2 0 6, .bfi 4 1 2 3 3], i.wf = true) := ⟨calm_ready, by decide⟩

theorem witness_BitwiseMovesAndPacking : Calm (ready id) ∧ (∀ i ∈ [Instr.and 4 1 2 0, .or 4 1 2 1, .xor 4 1 2 2, .andn 4 1 2 0, .not 4 1 1, .mov 4 1 0,
    .sel 4 1 2 0 7, .movi 4 0 0xFFFFFFFF, .movi 4 1 0x80000000, .movi 4 2 0x80000000, .movi 4 3 0xFFFF, .cmp 4 1 2 0 15, .pack 4 1 2 0 14,
    .unpk 4 1 0 10, .perm 4 1 2 2], i.wf = true) := ⟨calm_ready, by decide⟩

theorem witness_FloatArithmetic : Calm (ready id) ∧ (∀ i ∈ [Instr.fadd 4 1 2 0 true 4, .fsub 4 1 2 1 false 0, .fmul 4 1 2 2 true 3, .ffma 4 1 2 3 false 4,
    .fround 4 1 1 true 2], i.wf = true) := ⟨calm_ready, by decide⟩

theorem witness_FloatCompareAndExactness : Calm (ready id) ∧ (∀ i ∈ [Instr.fmin 4 1 2 0 true true, .fmax 4 1 2 2 false false, .fcmp 4 1 2 0 true 4,
    .fclass 4 1 1 false], i.wf = true) ∧ (f32 ∈ [f32, bf16, f16, e4m3, e5m2] ∧ f32.decode 0x80000000 = .fin true 0 (-149)) :=
  ⟨calm_ready, by decide, by decide, by decide⟩

theorem witness_Conversions : Calm (ready id) ∧ (ready id).whole = true ∧ (ready (setEm 1)).whole = false ∧
    (∀ i ∈ [Instr.fcvt 4 1 0 5 0 false 4, .fcvt 4 1 0 1 0 true 3, .fcvt 4 2 0 3 0 true 0, .fcvt 4 1 1 0 1 true 4, .fcvt 4 1 4 5 0 false 4,
      .fcvt 4 1 0 6 0 true 4, .fcvt 4 1 0 7 0 false 3], i.wf = true) := ⟨calm_ready, by decide +kernel, by decide +kernel, by decide⟩

theorem witness_SpecialFunctions : Calm (ready id) ∧ (∀ i ∈ [Instr.frcp 4 1 true 4 0 0, .frsq 4 1 false 0 15 1, .fsqrt 4 1 true 1 1 0, .fexp2 4 1 true 2 0 0,
    .flog2 4 1 true 3 0 0, .fsin 4 1 true 0 2 0, .fcos 4 1 true 0 0 1], i.wf = true) := ⟨calm_ready, by decide⟩

theorem witness_LaneExchangeAndSegments : Calm (ready (setEm 1)) ∧ (ready (setEm 1)).active 0 = true ∧
    (∀ i ∈ [Instr.shfl 4 1 63 2 0, .shfl 4 1 31 0 1, .shfl 4 1 0 1 2, .shfl 4 1 31 0 3, .gath 4 1 2 0 0, .gath 4 1 2 0 3, .bcast 4 1 31 0 0,
      .bcast 4 1 0 0 1, .bcast 4 1 0 0 2, .segscan 4 1 7 0 2 3, .segred 4 1 0 1 0 2], i.wf = true) :=
  ⟨by show (ready (setEm 1)).g.pend = []; decide +kernel, by decide +kernel, by decide⟩

theorem witness_VotesAndMasks : Calm (ready id) ∧ Clean (ready id) false 1 true false ∧ Clean (ready id) true 1 true false ∧
    (∀ i ∈ [Instr.vote 4 1 0 false 0, .vote 4 1 1 true 1, .vote 4 1 0 false 2, .ballot 7 1 0 false, .mand 7 0 7, .mor 0 7 0, .mxor 0 0 0,
      .mnot 7 7, .emrd 0, .mpop 63 7, .mfirst 4 0], i.wf = true) :=
  ⟨calm_ready, Or.inr (by decide +kernel), Or.inl rfl, by decide⟩

theorem witness_WideAccumulators : Calm (ready id) ∧ Clean (ready id) false 1 true true ∧
    (∀ i ∈ [Instr.kadd 3 1 0 false 3, .kclr 3, .krd 4 3 4 0, .krd 4 0 0 15], i.wf = true) :=
  ⟨calm_ready, Or.inr (by decide +kernel), by decide⟩

/-- Lane 0 adds 2^20 to the greatest exact sum that stays in range: that addition takes it outside. -/
theorem test_kadd_ovf : (let t := after (.kadd 3 1 0 false 1) (ready fun g => setV 1 0x49800000 (setEm 1 { g with k := g.k.set (kIx 3) (BitVec.ofInt 320 (2 ^ 319 - 1)) }))
    (t.g.ks.get (kIx 3)).getLsbD 3) = true ∧
    ((after (.kadd 3 1 0 false 1) (ready (setV 1 0x49800000))).g.ks.get (kIx 3)).getLsbD 3 = false := by decide +kernel

theorem witness_UniformArithmetic : Calm (ready id) ∧ (∀ i ∈ [Instr.sadd 4 1 2, .ssub 4 1 2, .smul 4 1 2, .sand 4 1 2, .sor 4 1 2, .sxor 4 1 2,
    .sshl 4 1 2, .sshr 4 1 2, .ssar 4 1 2, .scmp 4 1 2 0, .scmp 4 1 2 5, .smin 4 1 2 1, .smax 4 1 2 0, .smov 4 1, .slit 4 0x80000000,
    .smovi 4 0x800, .saddImm 4 1 0x800, .ssubImm 4 1 0xFFF, .smulImm 4 1 1, .sandImm 4 1 0xFFF, .sorImm 4 1 0, .sxorImm 4 1 0x7FF,
    .sshlImm 4 1 63, .sshrImm 4 1 0, .ssarImm 4 1 63], i.wf = true) := ⟨calm_ready, by decide⟩

theorem witness_SpecialRegisters : Calm (ready id) ∧ (∀ i ∈ [Instr.srd 4 false 0x01, .srd 4 true 0x00, .srd 4 true 0x19, .swr 1 0x0A, .swr 1 0x0C, .swr 1 0x10,
    .swr 1 0x12, .swr 1 0x14, .swr 1 0x15, .swr 1 0x18, .swr 1 0x19], i.wf = true) ∧ (Instr.srd 4 true 0x0D).wf = false :=
  ⟨calm_ready, by decide, by decide⟩

/-! Control flow -/

/-- The gang's fragment runs its handler. -/
def inHandler (f : Gang → Gang) : State :=
  let s := ready (f ∘ fun g => { g with intrap := true, handler := { g.handler with pc := 0x1000, frag := 0 }, trappc := 0x40, trapcause := 3 })
  { s with cur := { s.cur with hnd := true } }

theorem calm_handler : Calm (inHandler id) := by show (inHandler id).g.pend = []; decide +kernel

theorem witness_Transfers : Calm (ready id) ∧ Placed (ready id) ∧ Calm (inHandler id) ∧ Placed (inHandler id) :=
  ⟨calm_ready, Or.inr (by decide +kernel), calm_handler, Or.inl rfl⟩

/-- Lanes 0 and 1 are active, and va of lane 0 is 0x80 and of lane 1 is 0x44; m1 holds lane 0. -/
def two : Gang → Gang :=
  setEm 3 ∘ setLanes 1 (fun l => if l = 0 then 0x80 else 0x44) ∘ fun g => { g with m := g.m.set (mIx 1) 1 }

theorem witness_Branches : Calm (ready two) ∧ Clean (ready two) false 1 true true ∧ (∀ i ∈ [Instr.bc 1 false false false 0x10 0x20,
      .bc 1 true true false 0x10 0, .brx 1 false 2 0, .ret 1 false], i.wf = true) ∧
    ((ready two).cur.hnd = false ∧ (ready two).f.valid = true ∧ Room (ready two)) ∧
    (∀ l, (ready two).active l → ((ready two).v 1 l).bits.toNat % 4 = 0) :=
  ⟨by show (ready two).g.pend = []; decide +kernel, Or.inr (by decide +kernel), by decide,
    ⟨by decide +kernel, by decide +kernel, by decide +kernel, ⟨0, by decide +kernel⟩⟩, by decide +kernel⟩

theorem witness_Branches_handler : Calm (inHandler two) ∧ (inHandler two).cur.hnd = true ∧ (inHandler two).em ≠ 0 ∧
    (inHandler two).active 0 = true ∧ (inHandler two).active 1 = true ∧ ((inHandler two).v 1 0).bits ≠ ((inHandler two).v 1 1).bits :=
  ⟨by show (inHandler two).g.pend = []; decide +kernel, rfl, by decide +kernel, by decide +kernel, by decide +kernel, by decide +kernel⟩

theorem split_reset : SplitTables Gang.reset :=
  ⟨by decide +kernel, by decide +kernel, by decide +kernel, by decide +kernel, by decide +kernel⟩

/-- The state after reset has sound tables and no team that waits for its return; an event goes on from it. -/
theorem witness_RegroupingAndNarrowing_tables : (∀ c k, SplitTables (State.reset.gangAt c k)) ∧
    (∀ p, (State.reset.parts.get p).resumes = []) ∧ encode (.powerCapWrite 500) = none ∧
    (∃ t, exec (.powerCapWrite 500) State.reset = .next t) ∧ State.reset.agenda = [] ∧
    (match step (State.reset.withFetchWord 32 0x01101086) with | .next _ => true | _ => false) = true := by
  refine ⟨fun c k => ?_, by decide +kernel, rfl, ⟨_, rfl⟩, rfl, by decide +kernel⟩
  have : State.reset.gangAt c k = Gang.reset := by simp [State.gangAt, State.core, State.reset, Vector.get, Core.gang, Core.reset]
  rw [this]; exact split_reset

/-- Two fragments of join 0, whose address is behind the nop that fragment 0 is about to issue: fragment 1 waits there. -/
theorem witness_RegroupingAndNarrowing_fusion : (let s := ready fun g =>
      let pc := (g.frags.get 0).pc
      ((g.modFrag 0 fun f => { f with mask := 1, join := some 0 }).setFrag 1
        { Frag.reset with valid := true, mask := 2, pc := pc + 4, join := some 0 }).setJoin 0 { valid := true, rcv := pc + 4, parent := none }
    Calm s ∧ s.cur.hnd = false ∧ s.f.valid = true ∧ s.f.wait = .none ∧ s.g.inHandler s.cur.frag = false ∧ s.f.join = some 0 ∧
      (s.g.joins.get 0).valid = true ∧ (∀ k, (s.g.joins.get k).valid = true → (s.g.joins.get k).parent ≠ some 0) ∧
      s.pc + 4 = (s.g.joins.get 0).rcv ∧ s.g.loops = [] ∧
      ∀ k, (s.g.frags.get k).valid = true ∧ (s.g.frags.get k).join = some 0 → k ≠ s.cur.frag →
        (s.g.frags.get k).pc = s.pc + 4 ∧ (s.g.frags.get k).wait = .none ∧ s.g.inHandler k = false) :=
  ⟨by dsimp only [Calm]; decide +kernel, by decide +kernel⟩

theorem witness_RegroupingAndNarrowing_regang : Calm (ready id) ∧ (ready id).cur.hnd = false ∧ (ready id).f.valid = true ∧
    (ready id).g.inHandler (ready id).cur.frag = false ∧ (ready id).f.wait ≠ .held :=
  ⟨calm_ready, rfl, by decide +kernel, by decide +kernel, by decide +kernel⟩

/-- The fragment of lanes 0 and 1 belongs to join 0, whose address is 0xC0. -/
def joined : Gang → Gang :=
  (fun g => (g.modFrag 0 fun f => { f with join := some 0 }).setJoin 0 { valid := true, rcv := 0xC0, parent := none }) ∘ two

theorem witness_RegroupingAndNarrowing_emwr : (Calm (ready joined) ∧ (ready joined).cur.hnd = false ∧ (ready joined).f.valid = true ∧
      (Instr.emwr 1).wf = true ∧ (∀ r ∈ (ready joined).g.loops, (ready joined).pc + 4 ≠ r.endAddr)) ∧ (ready joined).f.join = some 0 ∧
    (ready joined).g.nfrag ≤ 31 ∧
    (ready two).em &&& ~~~(ready two).m 1 = 2 ∧ (ready (setEm 1 ∘ two)).em &&& ~~~(ready (setEm 1 ∘ two)).m 1 = 0 :=
  ⟨⟨by show (ready joined).g.pend = []; decide +kernel, rfl, by decide +kernel, by decide, by decide +kernel⟩, by decide +kernel,
    by decide +kernel, by decide +kernel, by decide +kernel⟩

/-- Inside a loop, and at the loop's end where no lane goes. -/
theorem witness_RegroupingAndNarrowing_emwr_loop :
    (let s := ready fun g => { joined g with loops := [{ counter := 0, start := 0x40, endAddr := 0x4000, lanes := 0xFFFFFFFF }] }
     Calm s ∧ s.f.valid = true ∧ s.f.join = some 0 ∧ s.em &&& ~~~s.m 1 ≠ 0 ∧ s.g.loops ≠ [] ∧ ∀ r ∈ s.g.loops, s.pc + 4 ≠ r.endAddr) ∧
    (let s := ready fun g => { (setEm 1 ∘ two) g with loops := [{ counter := 0, start := 0x40, endAddr := (g.frags.get 0).pc + 4, lanes := 1 }] }
     Calm s ∧ s.f.valid = true ∧ s.em &&& ~~~s.m 1 = 0 ∧ ∃ r ∈ s.g.loops, s.pc + 4 = r.endAddr) :=
  ⟨⟨by dsimp only [Calm]; decide +kernel, by decide +kernel⟩, ⟨by dsimp only [Calm]; decide +kernel, by decide +kernel⟩⟩

/-- In a handler: no lane goes, one goes, both go. -/
theorem witness_RegroupingAndNarrowing_emwr_handler : Calm (inHandler joined) ∧ (inHandler joined).f.valid = true ∧
    (inHandler joined).cur.hnd = true ∧ (inHandler joined).g.intrap = true ∧ (inHandler joined).g.handler.frag = (inHandler joined).cur.frag ∧
    (inHandler joined).t.halted = false ∧ (inHandler joined).f.join = some 0 ∧ (inHandler joined).g.nfrag ≤ 31 ∧
    (inHandler joined).em &&& ~~~(inHandler joined).m 1 ≠ 0 ∧ (inHandler joined).em &&& (inHandler joined).m 1 ≠ 0 ∧
    (inHandler joined).em &&& (inHandler joined).m 0 = 0 ∧ (inHandler joined).g.heldTraps = [] ∧
    (inHandler (setEm 1 ∘ two)).em &&& ~~~(inHandler (setEm 1 ∘ two)).m 1 = 0 :=
  ⟨by show (inHandler joined).g.pend = []; decide +kernel, by decide +kernel⟩

/-- A loop whose body ends four bytes behind the pc, with count `n`. -/
def looping (n : Word) : Gang → Gang := fun g =>
  { g with lc := g.lc.set 0 n, loops := [{ counter := 0, start := 0x40, endAddr := (g.frags.get 0).pc + 4, lanes := 0xFFFFFFFF }] }

theorem witness_HardwareLoops_loop : (Calm (ready (setU 1 3)) ∧ (ready (setU 1 3)).cur.hnd = false ∧ (ready (setU 1 3)).f.valid = true ∧
      (ready (setU 1 3)).g.nfrag ≤ 1) ∧ (Instr.loop 2 1 256).wf = true ∧ (ready (setU 1 3)).g.loops = [] ∧
    half ((ready (setU 1 3)).u 1) false ≠ 0 ∧ half ((ready id).u 1) false = 0 :=
  ⟨⟨by show (ready (setU 1 3)).g.pend = []; decide +kernel, rfl, by decide +kernel, by decide +kernel⟩, by decide, by decide +kernel,
    by decide +kernel, by decide +kernel⟩

theorem witness_HardwareLoops_end : Calm (ready (looping 1)) ∧ (ready (looping 1)).f.valid = true ∧ (ready (looping 1)).g.intrap = false ∧
    (∃ r, (ready (looping 1)).g.loops = [r] ∧ (ready (looping 1)).pc + 4 = r.endAddr) ∧
    (ready (looping 1)).g.lc.get 0 - 1 = 0 ∧ (ready (looping 2)).g.lc.get 0 - 1 ≠ 0 :=
  ⟨by show (ready (looping 1)).g.pend = []; decide +kernel, by decide +kernel, by decide +kernel, ⟨_, rfl, by decide +kernel⟩,
    by decide +kernel, by decide +kernel⟩

theorem witness_LanesExit : Calm (ready id) ∧ (ready id).cur.hnd = false ∧ (ready id).g.intrap = false ∧ (ready id).g.heldTraps = [] ∧
    (ready id).f.valid = true ∧ (ready id).t.halted = false ∧ (ready id).g.nfrag = 1 :=
  ⟨calm_ready, rfl, by decide +kernel, by decide +kernel, by decide +kernel, by decide +kernel, by decide +kernel⟩

/-- A gang of two fragments, of lane 0 and of lane 1. -/
def split2 (g : Gang) : Gang := (g.modFrag 0 fun f => { f with mask := 1 }).setFrag 1 { Frag.reset with valid := true, mask := 2, pc := 0x80 }

theorem witness_LanesExit_split : Calm (ready split2) ∧ (ready split2).cur.hnd = false ∧ (ready split2).g.intrap = false ∧
    (ready split2).g.heldTraps = [] ∧ (ready split2).f.valid = true ∧ (ready split2).t.halted = false ∧ 2 ≤ (ready split2).g.nfrag :=
  ⟨by show (ready split2).g.pend = []; decide +kernel, rfl, by decide +kernel⟩

/-! Traps -/

theorem witness_TrapEntry : (Instr.kclr 4).wf = false ∧ Calm (handled id) ∧ TrapReady (handled id) ∧ (handled id).f.valid = true ∧
    ((ready id).cur.hnd = false ∧ (ready id).g.intrap = false ∧ (ready id).t.trapbase = 0 ∧ (ready id).t.halted = false) ∧
    (inHandler id).cur.hnd = true ∧ (inHandler id).t.halted = false ∧
    (let s : State := { inHandler id with cur := (ready id).cur }
     s.cur.hnd = false ∧ s.g.intrap = true ∧ s.t.halted = false) :=
  ⟨by decide, by show (handled id).g.pend = []; decide +kernel, ⟨rfl, by decide +kernel, by decide +kernel⟩, by decide +kernel,
    ⟨rfl, by decide +kernel, by decide +kernel⟩, rfl, by decide +kernel, rfl, by decide +kernel⟩

/-- A handler behind which a trap of fragment 0 is held. -/
def holding : State :=
  (inHandler fun g => { g with heldTraps := [{ frag := 0, cause := .illegalOp, info := 0, late := 0 }] }).modT fun t =>
    { t with trapbase := 0x1000 }

theorem witness_ReturnFromTrap : Calm holding ∧ holding.cur.hnd = true ∧ holding.g.trappc.toNat % 4 = 0 ∧ holding.t.halted = false ∧
    (holding.g.frags.get holding.g.handler.frag).valid = true ∧ (∃ h, holding.g.heldTraps = [h]) ∧ holding.t.trapbase ≠ 0 ∧
    (inHandler id).g.heldTraps = [] :=
  ⟨by show holding.g.pend = []; decide +kernel, rfl, by decide +kernel, by decide +kernel, by decide +kernel, ⟨_, rfl⟩, by decide +kernel,
    by decide +kernel⟩

/-- The same where another fragment holds the trap. -/
theorem witness_ReturnFromTrap_other :
    (let s := (inHandler fun g => { (split2 g).modFrag 1 fun f => { f with wait := .held } with
        heldTraps := [{ frag := 1, cause := .illegalOp, info := 0, late := 0 }] }).modT fun t => { t with trapbase := 0x1000 }
     Calm s ∧ s.cur.hnd = true ∧ s.g.trappc.toNat % 4 = 0 ∧ s.t.halted = false ∧ (s.g.frags.get s.g.handler.frag).valid = true ∧
       s.t.trapbase ≠ 0 ∧ ∃ h ∈ s.g.heldTraps.head?, h.frag ≠ s.g.handler.frag ∧ (s.g.frags.get h.frag).wait = .held) :=
  ⟨by dsimp only [Calm]; decide +kernel, rfl, by decide +kernel⟩

/-- Lane 0 of va holds a marked guess, misaligned by 1, and the uniform register 1 an address misaligned by 1. -/
def guessed : Gang → Gang :=
  setU 1 0x41 ∘ fun g => { setEm 3 g with v := g.v.set (vIx 1) (Vector.ofFn fun l => if l = 0 then VCell.both 0x41 true else VCell.both 0x40 false) }

theorem witness_ForbiddenUsesTrap : Calm (handled guessed) ∧ TrapReady (handled guessed) ∧ (handled guessed).active 0 = true ∧
    ((handled guessed).v 1 0).g0 = true ∧ ((handled guessed).v 1 0).bits.toNat % 4 ≠ 0 ∧ (handled guessed).g.loops = [] ∧
    (handled guessed).f.join = none ∧ (handled guessed).em &&& ~~~(handled guessed).m 0 ≠ 0 ∧ 2 ≤ (handled split2).g.nfrag ∧
    (∀ i ∈ [Instr.ret 1 true, .loop 0 1 1, .lbrk 1, .emwr 0], i.wf = true) :=
  ⟨by show (handled guessed).g.pend = []; decide +kernel, ⟨rfl, by decide +kernel, by decide +kernel⟩, by decide +kernel, by decide +kernel,
    by decide +kernel, by decide +kernel, by decide +kernel, by decide +kernel, by decide +kernel, by decide⟩

/-- Every instruction that checks marks meets them in lane 0 of its register 1, also where it needs the whole gang. -/
theorem witness_ForbiddenUsesTrap_marks : MarkedIn (handled guessed) (handled guessed).em (1, true, false) ∧
    (∀ i ∈ [Instr.vote 4 1 0 false 0, .ballot 7 1 0 false, .kadd 0 1 0 false 0, .bc 1 true false false 1 1, .brx 1 false 2 0, .ret 1 false,
      .ld 4 1 2 0 0 0 0 0 false false 2 true false false, .st 4 1 0 false true 0 0 false 2, .atom 4 1 0 0 0 7 0 false false false 3,
      .gdemand 4 1 2 true false 0 0, .tld 4 1 false 2 false 0 0, .tst 4 1 0 false false 2, .tatom 4 1 7 0 0 0, .skins 4 1 2 0 false,
      .skdel 4 1 2 0 false, .dfrom 1 0 0 false true, .dmulv 1 2 1 2 false, .mma 0 0 0 0 false 6 0 false false], i.wf = true) ∧
    (let s := handled fun g => { setU 6 0 g with v := g.v.set (vIx 1) (Vector.replicate 32 (VCell.both 0x41 true)) }
     MarkedIn s s.em (1, true, true) ∧ s.whole = true ∧ (mmaFmt (s.u 6)).valid = true ∧ s.g.heldA = none) ∧
    (let s := handled fun g => { guessed g with v := (guessed g).v.set (vIx 4) (Vector.replicate 32 (VCell.both 7 true)) }
     MarkedIn s (1 : BitVec 32) (1, true, true) ∧ ∀ l : LaneId, (3 : BitVec 32).getLsbD l.val =
       (s.lanes.filter fun i => demands 2 false (s.v 4 i) && (s.g.covers 4 2 false i).isNone).contains l) :=
  ⟨⟨0, by decide +kernel, Or.inl (by decide +kernel)⟩, by decide,
    ⟨⟨0, by decide +kernel, Or.inl (by decide +kernel)⟩, by decide +kernel, by decide +kernel, by decide +kernel⟩,
    ⟨0, by decide +kernel, Or.inl (by decide +kernel)⟩, by decide +kernel⟩

/-- Every lane of va and the uniform register 1 hold an address misaligned by 1, without marks. -/
def odd : Gang → Gang := setU 1 0x41 ∘ setV 1 0x41

theorem witness_ForbiddenUsesTrap_misaligned : Calm (handled odd) ∧ TrapReady (handled odd) ∧ Clean (handled odd) false 1 true true ∧
    Clean (handled odd) false 4 true true ∧ Clean (handled odd) false 5 true true ∧ (handled odd).active 0 = true ∧
    ((handled odd).v 1 0).bits.toNat % 2 ≠ 0 ∧ (∀ k : LaneId, k < 0 → ((handled odd).v 1 k).bits.toNat % 2 = 0) ∧
    ((handled odd).u 1).toNat % 2 ≠ 0 ∧ (∀ i ∈ [Instr.ld 4 1 0 0 0 0 0 0 false false 2 false true false,
      .st 4 1 0 false false 0 0 false 1, .st 4 1 0 false false 0 0 false 4, .atom 4 1 0 0 0 0 0 false false false 0,
      .atom 4 1 0 0 0 7 0 false false false 3, .sld 4 1 0 0 0 false false 1, .sst 4 1 0 0 false 3, .satom 4 1 0 0 0 0 false false false 3],
      i.wf = true) :=
  ⟨by show (handled odd).g.pend = []; decide +kernel, ⟨rfl, by decide +kernel, by decide +kernel⟩, Or.inr (by decide +kernel),
    Or.inr (by decide +kernel), Or.inr (by decide +kernel), by decide +kernel, by decide +kernel, by decide, by decide +kernel, by decide⟩

/-! Device memory -/

/-- An address in the local aperture of core 0, and the place that it names. -/
def va0 : DWord := BitVec.ofNat 64 (apertureBase + 1024)
def pl0 : Place := { dev := 0, pa := vaultPa 0 (vaultSize - 2 ^ 21 + 1024), path := .vertical, ptype := 0, fill := none }

/-- Lanes 0 and 1 are active; va and the uniform register 1 hold that address, and a lane of vd a marked guess. -/
def near : Gang → Gang :=
  setEm 3 ∘ setU 1 va0 ∘ setV 1 va0 ∘ fun g => { g with v := g.v.set (vIx 4) (Vector.replicate 32 (VCell.both 7 true)) }

theorem calm_near : Calm (ready near) := by show (ready near).g.pend = []; decide +kernel
/-- A core without accesses and marks is quiet for every gang. -/
theorem quiet_of {s : State} (ha : s.curCore.accs = []) (hm : s.curCore.marks = []) : Quiet s := by
  constructor
  · rw [ha]; intro y hy; cases hy
  · rw [hm]; intro y hy; cases hy

theorem quiet_near : Quiet (ready near) := quiet_of (by decide +kernel) (by decide +kernel)

theorem reach_near (n : Nat) (w : Bool) (h : va0.toNat % n = 0)
    (hp : (ready near).translate (some (ready near).cur.core) (ready near).t.asid va0 n w = .ok pl0)
    (hl : (ready near).curCore.lockHit (ready near).t.asid false (va0.toNat % 2 ^ 57) n w = none) : Reach (ready near) va0 n w pl0 :=
  ⟨h, by decide +kernel, hp, hl⟩

theorem reach_near_1 : Reach (ready near) va0 1 false pl0 := reach_near _ _ (by decide +kernel) (by decide +kernel) (by decide +kernel)
theorem reach_near_4 : Reach (ready near) va0 4 true pl0 := reach_near _ _ (by decide +kernel) (by decide +kernel) (by decide +kernel)
theorem reach_near_8 : Reach (ready near) va0 8 true pl0 := reach_near _ _ (by decide +kernel) (by decide +kernel) (by decide +kernel)
theorem reach_near_16 : Reach (ready near) va0 16 false pl0 := reach_near _ _ (by decide +kernel) (by decide +kernel) (by decide +kernel)

/-- Each active lane's address is that one. -/
theorem near_lanes : ∀ i : LaneId, ((ready near).v 1 i).bits + BitVec.ofInt 64 (0 : BitVec 16).toInt = va0 := by decide +kernel

theorem witness_VectorLoadIssues : Calm (ready near) ∧ Quiet (ready near) ∧ Clean (ready near) false 1 true true ∧ (ready near).em ≠ 0 ∧
    (∀ i ∈ [Instr.ld 8 1 0 0 0 0 15 0 false false 0 false false true, .ld 8 1 0 15 1 0 0 4 true true 0 false false false,
      .ld 8 1 2 0 0 0 0 0 false false 11 true false false], i.wf = true) ∧
    (∀ i, (ready near).active i → Reach (ready near) (((ready near).v 1 i).bits + BitVec.ofInt 64 (0 : BitVec 16).toInt) (tyBytes 0) false pl0) ∧
    (∀ i, (ready near).active i → Reach (ready near) (((ready near).v 1 i).bits + BitVec.ofInt 64 (0 : BitVec 16).toInt) (tyBytes 11) false pl0) :=
  ⟨calm_near, quiet_near, Or.inr (by decide +kernel), by decide +kernel, by decide, fun i _ => by rw [near_lanes i]; exact reach_near_1,
    fun i _ => by rw [near_lanes i]; exact reach_near_16⟩

theorem stores_near : Stores (ready near) va0 8 [pl0] :=
  ⟨by decide +kernel, fun _ => ⟨pl0, reach_near_8, rfl⟩, fun h => absurd h (by decide +kernel)⟩

theorem witness_StoresIssue : Calm (ready near) ∧ Quiet (ready near) ∧ Clean (ready near) false 1 true true ∧ Clean (ready near) true 4 true true ∧
    (∀ i ∈ [Instr.st 4 1 0 true false 0 0 false 3, .sst 4 1 0 4 true 3], i.wf = true) ∧
    (∀ i, (ready near).active i → Stores (ready near) (((ready near).v 1 i).bits + BitVec.ofInt 64 (0 : BitVec 16).toInt) 8 [pl0]) ∧
    Stores (ready near) ((ready near).u 1 + BitVec.ofInt 64 (0 : BitVec 16).toInt) 8 [pl0] :=
  ⟨calm_near, quiet_near, Or.inr (by decide +kernel), Or.inl rfl, by decide, fun i _ => by rw [near_lanes i]; exact stores_near,
    by rw [show (ready near).u 1 + BitVec.ofInt 64 (0 : BitVec 16).toInt = va0 by decide +kernel]; exact stores_near⟩

/-- The multicast address of offset 1024 on cluster 0 (R406). -/
def mcast0 : DWord := 0x00FFFF0010000400

theorem witness_StoresIssue_multicast : Stores (ready near) mcast0 8 [pl0] :=
  ⟨by decide +kernel, fun h => absurd h (by decide +kernel), fun _ => ⟨by decide +kernel, by
    intro j hj
    have h : ∀ j < 40, (36 ≤ j ∨ j = 27) → mcast0.getLsbD j = false := by decide +kernel
    exact h j (by omega) (by omega), by decide +kernel, by decide +kernel, by decide +kernel, by decide +kernel⟩⟩

theorem witness_AtomicsIssue : Calm (ready near) ∧ Quiet (ready near) ∧ (ready near).em ≠ 0 ∧ Clean (ready near) false 1 true true ∧
    Clean (ready near) false 8 true true ∧ Clean (ready near) false 9 true true ∧
    (∀ i ∈ [Instr.sld 4 1 0 0 4 true true 6, .atom 8 1 15 0 0 7 0 false false false 3, .satom 8 1 0 0 0 4 true true true 2], i.wf = true) ∧
    (∀ i, (ready near).active i → Reach (ready near) (((ready near).v 1 i).bits + BitVec.ofInt 64 (0 : BitVec 16).toInt) 8 true pl0) ∧
    Reach (ready near) ((ready near).u 1 + BitVec.ofInt 64 (0 : BitVec 16).toInt) (if decide ((2 : BitVec 2) = 3) then 8 else 4) true pl0 :=
  ⟨calm_near, quiet_near, by decide +kernel, Or.inr (by decide +kernel), Or.inr (by decide +kernel), Or.inr (by decide +kernel), by decide,
    fun i _ => by rw [near_lanes i]; exact reach_near_8,
    by rw [show (ready near).u 1 + BitVec.ofInt 64 (0 : BitVec 16).toInt = va0 by decide +kernel]; exact reach_near_4⟩

theorem witness_AtomicsIssue_sld : Reach (ready near) ((ready near).u 1 + BitVec.ofInt 64 (0 : BitVec 16).toInt) (sldBytes 0) false pl0 := by
  rw [show (ready near).u 1 + BitVec.ofInt 64 (0 : BitVec 16).toInt = va0 by decide +kernel]; exact reach_near_1

/-- A state of `near` with an instruction issued: its accesses are in flight. -/
def flying (i : Instr) : State := after i (ready near)

theorem witness_AccessesArePerformed_store : (let s := flying (.sst 4 1 0 0 false 3)
    match (s.core 0).acc? 0 with
    | some x => (match x.kind with | .store bs => decide (bs.length = x.size) | _ => false) && (s.core 0).mayPerform x &&
        (s.core 0).mayRaise x && !s.bad (memIx x.dev x.pa) && !x.done && x.ptype != 3
    | none => false) = true := by decide +kernel

/-- A load of lane 0 alone, with a limit of 8, and an atomic of lane 0 alone. -/
def alone (i : Instr) : State := after i (ready (setEm 1 ∘ near))

theorem witness_AccessesArePerformed_load : (let s := alone (.ld 8 1 0 1 0 0 1 0 false false 3 false false false)
    match (s.core 0).acc? 0, (s.gangAt 0 0).pend with
    | some x, [p] => x.acq == none && (s.core 0).mayPerform x && (s.gangAt 0 x.slot).live && (s.gangAt 0 x.slot).team == x.team &&
        (s.gangAt 0 x.slot).late.isEmpty && x.dst == some (p.id, 0, 0) && p.fail.isNone && x.kind == .load && p.dst == .vec 8 false &&
        (match p.await with | .lanes [(w, n)] [] => w.acc == x.id && n == 8 | _ => false) && !s.bad (memIx x.dev x.pa) && !p.closed
    | _, _ => false) = true := by decide +kernel

theorem witness_AccessesArePerformed_atomic : (let s := alone (.atom 8 1 1 0 0 0 0 false false false 3)
    match (s.core 0).acc? 0, (s.gangAt 0 0).pend with
    | some x, [p] => x.acq == none && (s.core 0).mayPerform x && (s.core 0).mayRaise x && (s.core 0).accs.all (fun y => !y.done) &&
        x.dst == some (p.id, 0, 0) && !p.closed && p.fail.isNone && x.kind == .atomic 0 3 0 0 && p.await == .accesses [x.id] &&
        x.size == 8 && x.id == 0 && memIx x.dev x.pa % 8 + x.size ≤ 8 && !s.bad (memIx x.dev x.pa)
    | _, _ => false) = true := by decide +kernel

theorem witness_AccessesArePerformed_damaged : (let s := alone (.ld 8 1 0 1 0 0 1 0 false false 3 false false false)
    match (s.core 0).acc? 0 with
    | some x => ({ s with badUnits := [memIx x.dev x.pa / 32] } : State).bad (memIx x.dev x.pa)
    | none => false) = true := by decide +kernel

theorem witness_DeadlinesAndResults_deadline : (let s := alone (.ld 8 1 0 1 0 0 1 0 false false 3 false false false)
    match (s.gangAt 0 0).pend with
    | [p] => p.dst == .vec 8 false && !p.closed && (match p.await with | .lanes [(w, n)] [] => w.lane == 0 && n != 0 | _ => false)
    | _ => false) = true := by decide +kernel

/-- A result for the uniform register 4 that is closed and complete, with the failure `e` if any. -/
def result (e : Option Failure) : State :=
  handled fun g => { g with pend := [{ Pending.fresh (.uni 4) 1 with closed := true, uval := 9, fail := e }] }

theorem witness_DeadlinesAndResults_result : (match ((result none).gangAt 0 0).pend with
    | [p] => p.closed && p.ready && !p.hnd && p.dst == .uni 4 && !p.part && p.fail == none
    | _ => false) = true ∧
    (let s := result (some { cause := .uncorrectable, info := 5 })
     match (s.gangAt 0 0).pend with
     | [p] => p.fail.isSome && ((s.gangAt 0 0).frags.get p.frag).wait == .none && !(s.gangAt 0 0).intrap && (s.teamAt 0 0).trapbase != 0
     | _ => false) = true := ⟨by decide +kernel, by decide +kernel⟩

/-- Lanes 0 and 1 of v4 hold guesses whose true value a late slot holds. -/
def slotted : Gang → Gang := near ∘ fun g => { g with late := [{ order := 0, since := 0, reg := 4, ty := 2, part := false, lanes :=
  [{ lane := 0, ea := va0, acc := 0, data := some 5, bad := none, demanded := false },
   { lane := 1, ea := va0, acc := 1, data := some 5, bad := none, demanded := false }] }] }

theorem witness_GuessInstructions : Calm (ready near) ∧ (∀ i ∈ [Instr.gtest 7 1 1 2, .gacc 4 1 0 0, .gdemand 4 1 2 false false 0 0,
      .gdemand 4 1 10 false true 15 1], i.wf = true) ∧
    (∀ i, (ready slotted).active i → demands 2 false ((ready slotted).v 4 i) = true →
      ∃ y, (ready slotted).g.covers 4 2 false i = some y ∧ y.bad = none ∧ y.data = some 5) ∧ demands 2 false ((ready slotted).v 4 0) = true :=
  ⟨calm_near, by decide, by
    intro i hi _
    have h : ∀ i, (ready slotted).active i → ((ready slotted).g.covers 4 2 false i).any (fun y => y.bad == none && y.data == some 5) = true := by
      decide +kernel
    have := h i hi
    cases hc : (ready slotted).g.covers 4 2 false i with
    | none => rw [hc] at this; cases this
    | some y =>
      rw [hc, Option.any_some, Bool.and_eq_true, beq_iff_eq, beq_iff_eq] at this
      exact ⟨y, rfl, this.1, this.2⟩, by decide +kernel⟩

theorem witness_GuessInstructions_again : let want := (ready near).lanes.filter fun i => demands 2 false ((ready near).v 4 i)
    Quiet (ready near) ∧ want ≠ [] ∧ (∀ i ∈ want, (ready near).g.covers 4 2 false i = none) ∧ (∀ i ∈ want, ((ready near).v 1 i).marked = false) ∧
      ∀ i ∈ want, Reach (ready near) ((ready near).v 1 i).bits (tyBytes 2) false pl0 :=
  ⟨quiet_near, by decide +kernel, by decide +kernel, by decide +kernel, fun i _ => by
    rw [show ((ready near).v 1 i).bits = va0 by revert i; decide +kernel]
    exact reach_near 4 false (by decide +kernel) (by decide +kernel) (by decide +kernel)⟩

/-! Scratchpad tiles -/

/-- The team has reserved 4 KiB of the scratchpad, and entry 0 of the tile table holds a tile of 16 rows of 64 bytes from byte 0. -/
def tiled (f : Gang → Gang) : State :=
  after (.talloc 3 1 false) ((ready (f ∘ setU 1 0x00100040)).modT fun t => { t with spadLen := 65536 })

theorem calm_tiled : Calm (tiled (setEm 3)) := by show (tiled (setEm 3)).g.pend = []; decide +kernel
theorem quiet_tiled : Quiet (tiled (setEm 3)) := quiet_of (by decide +kernel) (by decide +kernel)

theorem witness_TilesAreAllotted_talloc : (let s := (ready (setU 1 0x10000004)).modT fun t => { t with spadLen := 65536 }
    let x := s.u 1
    Calm s ∧ (Instr.talloc 3 1 true).wf = true ∧ 1 ≤ x.toNat / 65536 ∧ x.toNat / 65536 ≤ 4096 ∧ x.toNat % 65536 % 4 = 0 ∧ 4 ≤ x.toNat % 65536 ∧
      (s.curCore.tiles.get 0).v = false ∧ (∀ f : Fin 64, f < 0 → (s.curCore.tiles.get f).v = true) ∧
      freeRun s.t.spadBase s.t.spadLen ((x.toNat / 65536 * (x.toNat % 65536) + 127) / 128 * 128) ((s.curCore.tilesOf s.g.team).map (·.2)) = some 0) := by
  refine ⟨by dsimp only [Calm]; decide +kernel, by decide, by decide +kernel, by decide +kernel, by decide +kernel, by decide +kernel,
    by decide +kernel, by decide, by decide +kernel⟩

/-- No shape; a full table; a reservation that is too small. -/
theorem witness_TilesAreAllotted_faults : (let s := (ready (setU 1 0x00100042)).modT fun t => { t with trapbase := 0x1000 }
     TrapReady s ∧ (Instr.talloc 3 1 false).wf = true ∧ (s.u 1).toNat % 65536 % 4 ≠ 0) ∧
    (let s := (ready (setU 1 0x00100040)).modK fun k => { k with tiles := Vector.replicate 64 { k.tiles.get 0 with v := true } }
     ∀ f, (s.curCore.tiles.get f).v = true) ∧
    (let s := (ready (setU 1 0x00100040)).modT fun t => { t with spadLen := 512 }
     (∃ f, (s.curCore.tiles.get f).v = false) ∧
       freeRun s.t.spadBase s.t.spadLen 1024 ((s.curCore.tilesOf s.g.team).map (·.2)) = none) :=
  ⟨⟨⟨rfl, by decide +kernel, by decide +kernel⟩, by decide, by decide +kernel⟩, by decide +kernel, ⟨0, by decide +kernel⟩, by decide +kernel⟩

theorem witness_TilesAreAllotted_tfree : (let s := tiled (setEm 3)
    ∃ t0, s.tileOf (clusOf s.cur.core) ((s.u 3).extractLsb' 0 16) = some (s.cur.core, t0) ∧ t0.team = s.g.team ∧
      s.curCore.tileLocked ((s.u 3).extractLsb' 0 16) = false) :=
  ⟨(tiled (setEm 3)).curCore.tiles.get 0, by decide +kernel, by decide +kernel, by decide +kernel⟩

theorem tile_reach (n : Nat) (h : ((0 : DWord).toNat < 2 ^ 48) := by decide) (w : Bool)
    (hr : (tiled (setEm 3)).reach (tiled (setEm 3)).cur.core (tiled (setEm 3)).g.team (tiled (setEm 3)).t.asid (tileHandle 0) (tileOff 0) n = some (0, 0))
    (ha : tileOff 0 % n = 0) (hl : ((tiled (setEm 3)).core 0).lockHit (tiled (setEm 3)).t.asid true ((0 : DWord).toNat % 2 ^ 48) n w = none) :
    TileReach (tiled (setEm 3)) 0 n w 0 0 := ⟨h, hr, ha, hl⟩

theorem tiled_lanes : ∀ i : LaneId, ((tiled (setEm 3)).v 1 i).bits = 0 := by decide +kernel

theorem witness_TileAccesses : (let s := tiled (setEm 3)
    Calm s ∧ Quiet s ∧ s.em ≠ 0 ∧ (s.core 0).spadBad = [] ∧ Clean s false 1 true true ∧ Clean s false 4 true true ∧ Clean s false 5 true true ∧
      (∀ i ∈ [Instr.tld 4 1 false 2 false 15 0, .tld 4 1 true 0 true 0 1, .tst 4 1 0 false false 2, .tatom 4 1 7 1 0 0, .tatom 4 1 6 3 1 1], i.wf = true) ∧
      (∀ i, s.active i → TileReach s (s.v 1 i).bits 16 false 0 0) ∧ (∀ i, s.active i → TileReach s (s.v 1 i).bits 16 true 0 0)) :=
  ⟨calm_tiled, quiet_tiled, by decide +kernel, by decide +kernel, Or.inr (by decide +kernel), Or.inr (by decide +kernel),
    Or.inr (by decide +kernel), by decide, fun i _ => by
      rw [tiled_lanes i]; exact tile_reach 16 (by decide) false (by decide +kernel) (by decide +kernel) (by decide +kernel), fun i _ => by
      rw [tiled_lanes i]; exact tile_reach 16 (by decide) true (by decide +kernel) (by decide +kernel) (by decide +kernel)⟩

/-- For tatom the lanes' words lie apart: lane 0 alone is active. -/
theorem witness_TileAccesses_tatom : (let s := tiled (setEm 1)
    (∀ i, s.active i → TileReach s (s.v 1 i).bits 8 true 0 0) ∧ ∀ i k, s.active i → s.active k → k ≠ i → (0 : Nat) + 8 ≤ 0 ∨ (0 : Nat) + 8 ≤ 0) :=
  ⟨fun i hi => by
      have h0 : ∀ i, (tiled (setEm 1)).active i → ((tiled (setEm 1)).v 1 i).bits = 0 := by decide +kernel
      rw [h0 i hi]
      exact ⟨by decide, by decide +kernel, by decide +kernel, by decide +kernel⟩, by decide +kernel⟩

theorem witness_TileAccesses_fault : (let s := (ready (setEm 3)).modT fun t => { t with trapbase := 0x1000 }
    TrapReady s ∧ s.active 0 = true ∧ (∀ k, s.active k → (0 : LaneId) ≤ k) ∧ Clean s false 1 true true ∧
      s.reach s.cur.core s.g.team s.t.asid (tileHandle (s.v 1 0).bits) (tileOff (s.v 1 0).bits) 4 = none) :=
  ⟨⟨rfl, by decide +kernel, by decide +kernel⟩, by decide +kernel, by decide +kernel, Or.inr (by decide +kernel), by decide +kernel⟩

/-- Lane 0's tile address is good, and lane 1's is misaligned, or lies outside the tile. -/
theorem witness_TileAccesses_later : ∀ x ∈ ([0x1, 0x4000000] : List DWord),
    (let s := (tiled (setEm 3 ∘ setLanes 1 fun l => if l = 0 then 0 else x)).modT fun t => { t with trapbase := 0x1000 }
     Calm s ∧ TrapReady s ∧ s.active 0 = true ∧ s.active 1 = true ∧ (∀ k, s.active k → (0 : LaneId) ≤ k) ∧ Clean s false 1 true true ∧
      (let reaches (k : LaneId) : Bool := decide ((s.v 1 k).bits.toNat < 2 ^ 48) &&
         (s.reach s.cur.core s.g.team s.t.asid (tileHandle (s.v 1 k).bits) (tileOff (s.v 1 k).bits) 4).isSome
       (∀ k, s.active k → k < 1 → reaches k = true ∧ tileOff (s.v 1 k).bits % 4 = 0) ∧
         (x = 0x4000000 → reaches 1 = false) ∧ (x = 0x1 → (∀ k, s.active k → reaches k = true) ∧ tileOff (s.v 1 1).bits % 4 ≠ 0))) := by
  intro x hx
  rcases List.mem_cons.1 hx with rfl | hx
  · exact ⟨by dsimp only [Calm]; decide +kernel, ⟨rfl, by decide +kernel, by decide +kernel⟩, by decide +kernel, by decide +kernel,
      by decide +kernel, Or.inr (by decide +kernel), by decide +kernel⟩
  · rcases List.mem_singleton.1 hx with rfl
    exact ⟨by dsimp only [Calm]; decide +kernel, ⟨rfl, by decide +kernel, by decide +kernel⟩, by decide +kernel, by decide +kernel,
      by decide +kernel, Or.inr (by decide +kernel), by decide +kernel⟩

/-! Directional registers and sketches -/

/-- The place `k` bytes behind the one of `va0`. -/
def plAt (k : Nat) : Place := { pl0 with pa := vaultPa 0 (vaultSize - 2 ^ 21 + 1024 + k) }

theorem plAt_dev (k : Nat) : (plAt k).dev = 0 := rfl
theorem plAt_path (k : Nat) : (plAt k).path = .vertical := rfl
theorem plAt_ptype (k : Nat) : (plAt k).ptype = 0 := rfl

/-- The whole gang with the address in the uniform registers 1 and 2. -/
def pointed : Gang → Gang := setU 1 va0 ∘ setU 2 va0

theorem calm_pointed : Calm (ready pointed) := by show (ready pointed).g.pend = []; decide +kernel
theorem quiet_pointed : Quiet (ready pointed) := quiet_of (by decide +kernel) (by decide +kernel)

theorem reach_pointed (f : Nat → Nat) (m n : Nat) (w : Bool) (ha : ∀ i, i < m → (va0 + BitVec.ofNat 64 (f i)).toNat % n = 0)
    (ho : ∀ i, i < m → inMulticast (va0 + BitVec.ofNat 64 (f i)) = false)
    (hp : ∀ i, i < m → (ready pointed).translate (some (ready pointed).cur.core) (ready pointed).t.asid (va0 + BitVec.ofNat 64 (f i)) n w = .ok (plAt (f i)))
    (hl : ∀ i, i < m → (ready pointed).curCore.lockHit (ready pointed).t.asid false ((va0 + BitVec.ofNat 64 (f i)).toNat % 2 ^ 57) n w = none) :
    ∀ i, i < m → Reach (ready pointed) ((ready pointed).u 1 + BitVec.ofNat 64 (f i)) n w (plAt (f i)) := by
  intro i hi
  rw [show (ready pointed).u 1 = va0 by decide +kernel]
  exact ⟨ha i hi, ho i hi, hp i hi, hl i hi⟩

theorem witness_DirectionalRegisters : Calm (ready pointed) ∧ (ready pointed).whole = true ∧ Clean (ready pointed) false 4 true true ∧
    Clean (ready pointed) false 5 true true ∧ (ready (setEm 1)).whole = false ∧
    (∀ i ∈ [Instr.dfrom 15 4 0 false true, .dmulv 1 2 4 2 true, .dnorm 1 15, .dadd 1 2 3, .dsub 15 15 15, .dneg 1 2, .dto 4 1 4 true,
      .ddot 4 1 2 0, .ddot 4 1 2 15, .dtest 4 1 true, .dtest 4 15 false, .dscl 1 4, .dsetn 1 4, .dld 1 4 0, .dst 1 4], i.wf = true) :=
  ⟨calm_pointed, by decide +kernel, Or.inr (by decide +kernel), Or.inr (by decide +kernel), by decide +kernel, by decide⟩

/-- Operands of a sum: equal norms, and vectors that are not 0. -/
theorem witness_DirectionalRegisters_sum : (let s := ready fun g => (g.writeDir 2 (16384 :: List.replicate 127 0) 0).writeDir 3 (List.replicate 127 0 ++ [-16384]) 256
    (∃ x ∈ s.g.comps 2, x ≠ 0) ∧ (∃ x ∈ s.g.comps 3, x ≠ 0) ∧ ((s.g.norm 2).toInt - (s.g.norm 3).toInt) % 256 = 0) := by
  decide +kernel

/-- A register of finite values, and one with a NaN (R344). -/
theorem witness_DirectionalRegisters_dfrom : (∀ k, k < 128 → (unitsOf160 (dirInput (ready (setV 4 0x3F803F803F803F80)) 4 false k)).isSome = true) ∧
    (unitsOf160 (dirInput (ready (setV 4 0x7FC0)) 4 false 0)).isSome = false := by decide +kernel

theorem witness_DirectionalRegisters_record : Quiet (ready pointed) ∧
    (∀ i, i < 65 → Reach (ready pointed) ((ready pointed).u 1 + BitVec.ofNat 64 (4 * i)) 4 false (plAt (4 * i))) ∧
    (∀ i, i < 65 → Reach (ready pointed) ((ready pointed).u 1 + BitVec.ofNat 64 (4 * i)) 4 true (plAt (4 * i))) :=
  ⟨quiet_pointed, reach_pointed (4 * ·) 65 4 false (by decide +kernel) (by decide +kernel) (by decide +kernel) (by decide +kernel),
    reach_pointed (4 * ·) 65 4 true (by decide +kernel) (by decide +kernel) (by decide +kernel) (by decide +kernel)⟩

/-- The team has reserved 128 KiB of the scratchpad; entry 0 of the tile table holds a tile of 512 rows of 64 bytes from byte 0, entry 1
one of 64 rows from byte 32768, and both begin with the header of an empty sketch of K = 4 (R355). -/
def tiles2 (f : Gang → Gang) : State :=
  ((ready f).modT fun t => { t with spadLen := 131072, atiles := List.finRange 16 }).modCore 0 fun k =>
    { k with
      tiles := (k.tiles.set 0 { TileEntry.reset with v := true, asid := 1, rowsm1 := 511, rowbw := 15 }).set 1
        { TileEntry.reset with v := true, asid := 1, base := 256, rowsm1 := 63, rowbw := 15 }
      spad := [(0, 4), (32768, 4)], holder := some 0 }

/-- The tile address of entry 1. -/
def tile1 : DWord := 0x100000000

theorem calm_tiles2 : Calm (tiles2 (setU 4 tile1)) := by show (tiles2 (setU 4 tile1)).g.pend = []; decide +kernel
theorem quiet_tiles2 : Quiet (tiles2 (setU 4 tile1)) := quiet_of (by decide +kernel) (by decide +kernel)

theorem room_tile0 : TileRoom (tiles2 (setU 4 tile1)) 0 (16 + 72 * 2 ^ 4) 8 0 0 :=
  ⟨by decide, by decide +kernel, by decide +kernel, by decide +kernel, by decide +kernel⟩
theorem room_tile1 : TileRoom (tiles2 (setU 4 tile1)) tile1 (16 + 72 * 2 ^ 4) 8 0 32768 :=
  ⟨by decide +kernel, by decide +kernel, by decide +kernel, by decide +kernel, by decide +kernel⟩

theorem witness_SketchUpdates_tile : Calm (tiles2 (setU 4 tile1)) ∧ Quiet (tiles2 (setU 4 tile1)) ∧ (tiles2 (setU 4 tile1)).g.skm = 4 ∧
    Clean (tiles2 (setU 4 tile1)) false 1 true true ∧ Clean (tiles2 (setU 4 tile1)) false 2 true false ∧
    TileRoom (tiles2 (setU 4 tile1)) ((tiles2 (setU 4 tile1)).u 4) (16 + 72 * 2 ^ 4) 8 0 32768 ∧
    (∀ i ∈ [Instr.skins 4 1 2 0 true, .skdel 4 1 2 2 false, .skclr 4 true, .skclr 4 false], i.wf = true) :=
  ⟨calm_tiles2, quiet_tiles2, by decide +kernel, Or.inr (by decide +kernel), Or.inr (by decide +kernel),
    by rw [show (tiles2 (setU 4 tile1)).u 4 = tile1 by decide +kernel]; exact room_tile1, by decide⟩

/-- Lane 0 alone is active; its three cells lie in memory. -/
theorem witness_SketchUpdates_memory : (let s := ready (setEm 1 ∘ pointed)
    let cell (l : LaneId) (p : Nat) : Nat := p * 2 ^ 4 + (sketchHash s.g.skseed p (s.v 3 l).bits (half (s.v 3 l).bits false)).toNat / 2 ^ (32 - 4)
    (s.u 1).toNat % 8 = 0 ∧ ∀ l p k, s.active l → p < 3 → k < 3 →
      Reach s (s.u 1 + BitVec.ofNat 64 (16 + 24 * cell l p + 8 * k)) 8 true (plAt (16 + 24 * cell l p + 8 * k))) := by
  intro s cell
  refine ⟨by decide +kernel, fun l p k hl hp hk => ?_⟩
  have h0 : ∀ l, s.active l → l = 0 := by decide +kernel
  have := h0 l hl
  subst this
  refine ⟨?_, ?_, ?_, ?_⟩
  all_goals (revert hk; revert k; revert hp; revert p; decide +kernel)

theorem witness_SketchUpdates_clear : ∀ i, i < 2 + 9 * 2 ^ 4 →
    Reach (ready pointed) ((ready pointed).u 1 + BitVec.ofNat 64 (8 * i)) 8 true (plAt (8 * i)) :=
  reach_pointed (8 * ·) (2 + 9 * 2 ^ 4) 8 true (by decide +kernel) (by decide +kernel) (by decide +kernel) (by decide +kernel)

theorem witness_SketchDifferences_tiles : (let s := tiles2 (setU 4 tile1)
    let W (i : Nat) : DWord := le64 ((s.core 0).spad.readN (0 + 8 * i) 8)
    Calm s ∧ Quiet s ∧ (∃ q y, TileRoom s (s.u 1) (16 + 72 * 2 ^ 4) 8 q y ∧ ∀ i, i < 2 + 9 * 2 ^ 4 → W i = le64 ((s.core q).spad.readN (y + 8 * i) 8)) ∧
      W 0 = BitVec.ofNat 64 4 ∧ W 1 = 0 ∧ (∀ i ∈ [Instr.sksub 4 1 true true, .sksub 4 1 true false, .skstat 4 1 true], i.wf = true) ∧
      TileRoom s (s.u 4) (16 + 72 * 2 ^ 4) 8 0 32768 ∧ (s.core 0).spad.readN 32768 16 = leBytes 8 4 ++ leBytes 8 0 ∧
      ∀ q y, TileRoom s (s.u 1) (16 + 72 * 2 ^ 4) 8 q y → (0 : CoreId) ≠ q ∨ 32768 + (16 + 72 * 2 ^ 4) ≤ y ∨ y + (16 + 72 * 2 ^ 4) ≤ 32768) := by
  intro s W
  have h1 : s.u 1 = 0 := by decide +kernel
  have h4 : s.u 4 = tile1 := by decide +kernel
  refine ⟨calm_tiles2, quiet_tiles2, ⟨0, 0, ?_, fun i _ => rfl⟩, by decide +kernel, by decide +kernel, by decide, ?_, by decide +kernel, ?_⟩
  · rw [h1]; exact room_tile0
  · rw [h4]; exact room_tile1
  · intro q y h
    have hr := h.reach
    rw [h1, room_tile0.reach] at hr
    cases hr
    exact Or.inr (Or.inr (by decide))

/-- The header of K = 4 stands in memory at the address, and cells of 0 behind it. -/
theorem witness_SketchDifferences_memory : (let s : State := { ready pointed with mem := (ready pointed).mem.write (memIx 0 (plAt 0).pa) 4 }
    let seen (p : Place) : DWord := le64 (s.viewN s.cur.core s.t.part p.dev p.pa.toNat 8)
    (s.u 1).toNat % 8 = 0 ∧ seen (plAt 0) = BitVec.ofNat 64 4 ∧ seen (plAt 8) = 0 ∧
      (∀ i, i < 2 + 9 * 2 ^ 4 → s.bad (memIx (plAt (8 * i)).dev (plAt (8 * i)).pa) = false) ∧
      (∀ i, i < 2 + 9 * 2 ^ 4 → Reach s (s.u 1 + BitVec.ofNat 64 (8 * i)) 8 true (plAt (8 * i))) ∧
      (∀ n k, n < 3 * 2 ^ 4 → k < 3 → Reach s (s.u 1 + BitVec.ofNat 64 (16 + 24 * n + 8 * k)) 8 true (plAt (16 + 24 * n + 8 * k)))) := by
  intro s seen
  refine ⟨by decide +kernel, by decide +kernel, by decide +kernel, by decide +kernel, fun i hi => ⟨?_, ?_, ?_, ?_⟩, fun n k hn hk => ⟨?_, ?_, ?_, ?_⟩⟩
  · revert i; decide +kernel
  · revert i; decide +kernel
  · revert i; decide +kernel
  · revert i; decide +kernel
  all_goals (revert hk; revert k; revert hn; revert n; decide +kernel)

/-! The matrix engine -/

/-- No core of the package right after reset has a range lock, and none gets one from a change that leaves its table alone. -/
theorem unlocked_reset : Unlocked State.reset := by
  intro c e
  have h : State.reset.core c = Core.reset := by simp [State.core, State.reset, Vector.get]
  rw [h]; revert e; decide +kernel

theorem unlocked_modCore0 {s : State} (h : Unlocked s) (f : Core → Core) (hf : ∀ e, ((f (s.core 0)).locks.get e).v = false) :
    Unlocked (s.modCore 0 f) := by
  intro c e
  rw [State.core_modCore]
  split
  · exact hf e
  · exact h c e

theorem unlocked_ready (f : Gang → Gang) : Unlocked (ready f) := by
  let f1 : Frag := { Frag.reset with valid := true, pc := BitVec.ofNat 64 apertureBase, mask := 0xFFFFFFFF }
  let k1 (k : Core) : Core := { (k.modTeam 0 fun t => { t with live := true, asid := 1, ngang := 1, lanes := 32 }).modGang 0 (fun g =>
    { g with live := true, launched := 0xFFFFFFFF, frags := g.frags.set 0 f1 }) with psize := 2 ^ 21, powner := 1 }
  have h1 : Unlocked (State.reset.withFetchWord 32 0) := by
    intro c e
    have h : Unlocked (State.reset.modCore 0 k1) := unlocked_modCore0 unlocked_reset _ (fun e => unlocked_reset 0 e)
    exact h c e
  exact unlocked_modCore0 h1 _ (fun e => h1 0 e)

theorem unlocked_tiles2 (f : Gang → Gang) : Unlocked (tiles2 f) := by
  have h1 : Unlocked ((ready f).modT fun t => { t with spadLen := 131072, atiles := List.finRange 16 }) :=
    unlocked_modCore0 (unlocked_ready f) _ (fun e => unlocked_ready f 0 e)
  exact unlocked_modCore0 h1 _ (fun e => h1 0 e)

theorem matReady_tiles2 : MatReady (tiles2 id) := ⟨unlocked_tiles2 id, by decide +kernel, by decide +kernel⟩

theorem witness_MatrixOperationsIssue : (let s := tiles2 id
    Calm s ∧ MatReady s ∧ s.curCore.holder = some s.cur.slot ∧ s.whole = true ∧ (mmaFmt (s.u 2)).valid = true ∧ s.t.atiles.length = 16 ∧
      s.g.heldA = none ∧ (∀ q, q < 16 → Clean s false (1 + BitVec.ofNat 6 q) true true) ∧
      (∀ x ∈ (mmaFmt (s.u 2)).spans (s.u 4), s.tileSpan x.1 x.2 = true) ∧ tileOff (s.u 4) % 128 = 0 ∧
      SpanOk s (s.u 4) 8192 128 ∧ SpanOk s (s.u 4) 16384 128 ∧ attnOk (s.u 8) (s.u 9) (s.u 10) (s.u 11) = true ∧
      (∀ i, i < 3 → SpanOk s (s.u (8 + BitVec.ofNat 6 i)) 16384 256) ∧ SpanOk s (s.u 4) 32768 256 ∧
      (∀ i ∈ [Instr.mma 15 1 4 1 false 2 0 false false, .mma 0 1 4 3 true 2 4 true true, .mzero 15 0, .mld 15 4 true, .mst 0 4 false,
        .attn 9 8 4 0x3F800000, .amerge 0 9, .anorm 9 4 false], i.wf = true)) :=
  ⟨by show (tiles2 id).g.pend = []; decide +kernel, matReady_tiles2, by decide +kernel, by decide +kernel, by decide +kernel,
    by decide +kernel, by decide +kernel, fun q hq => Or.inr (by revert q; decide +kernel), by decide +kernel, by decide +kernel,
    ⟨by decide +kernel, by decide +kernel⟩, ⟨by decide +kernel, by decide +kernel⟩, by decide +kernel,
    fun i hi => ⟨by revert i; decide +kernel, by revert i; decide +kernel⟩, ⟨by decide +kernel, by decide +kernel⟩, by decide⟩

/-- With A held from register 1, mma with hold 1 takes it without reading registers (R317). -/
theorem witness_MatrixOperationsIssue_held : (let s := tiles2 fun g => { g with heldA := some { reg := 1, img := [], marks := [] } }
    ∀ x, s.g.heldA = some x → x.reg = 1) ∧
    (tiles2 fun g => { g with heldA := some { reg := 1, img := [], marks := [] } }).g.heldA.isSome = true :=
  ⟨fun x hx => by cases hx; rfl, by decide +kernel⟩

theorem witness_MatrixLeaseAndStopRecords_lease : (let s := tiles2 (setU 4 0)
    Calm s ∧ s.curCore.holder = some s.cur.slot ∧ (∀ r ∈ s.curCore.leaseQ, r.1 = s.cur.slot) ∧ (s.u 4).toNat % 2 ^ 16 = 0) ∧
    ((ready (setU 4 1)).u 4).toNat % 2 ^ 16 ≠ 0 ∧ (ready id).curCore.holder ≠ some (ready id).cur.slot ∧ (ready id).cur.hnd = false ∧
    (∀ r ∈ (ready id).curCore.leaseQ, r.1 ≠ (ready id).cur.slot) ∧
    (let s := (ready id).modCore 0 fun k => { k with leaseQ := [(3, 5)] }
     (s.core 0).holder = none ∧ (s.core 0).leaseQ = [(3, 5)] ∧ (∀ f, ((s.gangAt 0 3).frags.get f).wait ≠ .mlease) ∧
       (s.gangAt 0 3).handler.wait ≠ .mlease) ∧
    (let s := (tiles2 id).modCore 0 fun k => { k with leaseQ := [(3, 5)], leaseIdle := 4096 }
     (s.core 0).holder = some 0 ∧ (∃ r ∈ (s.core 0).leaseQ, r.1 ≠ 0) ∧ 4096 ≤ (s.core 0).leaseIdle) :=
  ⟨⟨by show (tiles2 (setU 4 0)).g.pend = []; decide +kernel, by decide +kernel, by decide +kernel, by decide +kernel⟩, by decide +kernel,
    by decide +kernel, rfl, by decide +kernel, ⟨by decide +kernel, by decide +kernel, by decide +kernel, by decide +kernel⟩,
    ⟨by decide +kernel, ⟨(3, 5), by decide +kernel, by decide⟩, by decide +kernel⟩⟩

/-- A record that stands at the tile address 0: of an mma into a0, of an attn into a0, or empty. -/
def recorded (kind word : Byte) : State := (tiles2 id).modCore 0 fun k => { k with spad := [(0, kind), (19, word), (64, 1)] }

theorem room_record : TileRoom (recorded 1 0x52) 0 4192 32 0 0 :=
  ⟨by decide, by decide +kernel, by decide +kernel, by decide +kernel, by decide +kernel⟩

theorem witness_MatrixLeaseAndStopRecords_records : Calm (recorded 1 0x52) ∧ Quiet (recorded 1 0x52) ∧ (recorded 1 0x52).u 4 = 0 ∧
    TileRoom (recorded 1 0x52) 0 4192 32 0 0 ∧ (recorded 1 0x52).curCore.holder = some (recorded 1 0x52).cur.slot ∧ MatReady (recorded 1 0x52) ∧
    (let s := recorded 1 0x52
     let r := StopRec.parse ((s.core 0).spad.readN 0 4192)
     let spans := (mmaFmt (r.ops.getD 1 0)).spans (r.ops.getD 0 0)
     r.kind = 1 ∧ r.sound (s.resumed r) = true ∧ (fld r.word 18 6).toNat < s.t.atiles.length ∧ (∀ y ∈ spans, s.tileSpan y.1 y.2 = true) ∧
       tileOff (r.ops.getD 0 0) % 128 = 0) ∧
    (let s := recorded 2 0x59
     let r := StopRec.parse ((s.core 0).spad.readN 0 4192)
     r.kind = 2 ∧ r.sound (s.resumed r) = true ∧ (fld r.word 18 6).toNat + 7 ≤ s.t.atiles.length ∧ ∀ i, i < 3 → SpanOk s (r.ops.getD i 0) 16384 256) ∧
    (let s := recorded 0 0
     (StopRec.parse ((s.core 0).spad.readN 0 4192)).kind = 0 ∧ s.g.stopSlot = none) ∧
    (∀ i ∈ [Instr.mfence, .mresDrop, .msave 4, .mres 4], i.wf = true) := by
  refine ⟨by show (recorded 1 0x52).g.pend = []; decide +kernel, quiet_of (by decide +kernel) (by decide +kernel), by decide +kernel, room_record, by decide +kernel,
    ⟨unlocked_modCore0 (unlocked_tiles2 id) _ (fun e => unlocked_tiles2 id 0 e), by decide +kernel, by decide +kernel⟩, by decide +kernel,
    ⟨by decide +kernel, by decide +kernel, by decide +kernel, fun i hi => ⟨by revert i; decide +kernel, by revert i; decide +kernel⟩⟩,
    by decide +kernel, by decide⟩

/-- Of the record at byte 0: its type, whether it agrees with itself, and the first accumulator tile of its instruction. -/
def recordOf (s : State) : Nat × Bool × Nat :=
  let r := StopRec.parse ((s.core 0).spad.readN 0 4192)
  (r.kind, r.sound (s.resumed r), (fld r.word 18 6).toNat)

/-- No room for a record; a misaligned one; records that disagree with themselves; and one whose accumulator tile the team has not. -/
theorem witness_MatrixLeaseAndStopRecords_faults : (let s := (tiles2 (setU 4 0x4000000)).modT fun t => { t with trapbase := 0x1000 }
     TrapReady s ∧ s.tileSpan (s.u 4) 4192 = false) ∧
    (let s := tiles2 (setU 4 1)
     s.tileSpan (s.u 4) 4192 = true ∧ tileOff (s.u 4) % 32 ≠ 0) ∧
    ((recordOf (recorded 3 0x52)).1 = 3 ∧ (recordOf (recorded 3 0x52)).2.1 = false) ∧
    ((recordOf (recorded 1 0x59)).1 = 1 ∧ (recordOf (recorded 1 0x59)).2.1 = false) ∧
    (let s := (recorded 1 0x52).modT fun t => { t with atiles := [] }
     recordOf s = (1, true, 0) ∧ s.t.atiles.length ≤ 0) ∧
    (let s := (recorded 2 0x59).modT fun t => { t with atiles := [] }
     recordOf s = (2, true, 0) ∧ s.t.atiles.length < 7) :=
  ⟨⟨⟨rfl, by decide +kernel, by decide +kernel⟩, by decide +kernel⟩, by decide +kernel, by decide +kernel, by decide +kernel, by decide +kernel,
    by decide +kernel⟩

/-- An operation has been issued to the matrix engine. -/
def queued (i : Instr) (s : State := tiles2 id) : State :=
  after i { s with iword := ((encode i).getD (0, none)).1, ilit := ((encode i).getD (0, none)).2.getD 0 }

/-- The one operation of the engine may make a step, and `ok` of it. -/
def stepping (s : State) (ok : MatOp → Bool) : Bool :=
  match (s.core 0).mat with
  | [m] => (s.core 0).mayStep m && (s.core 0).accBad.isEmpty && (s.core 0).spadBad.isEmpty && (s.core 1).spadBad.isEmpty && ok m
  | _ => false

theorem witness_MatrixSteps : (let s := queued (.mzero 15 0)
    match (s.core 0).mat with
    | [m] => (s.core 0).mayStep m && m.kind == .mzero && m.step < 16 * ((fld m.word 0 4).toNat + 1)
    | _ => false) = true ∧
    (let s := queued (.mld 0 4 false)
     match (s.core 0).mat with
     | [m] => (s.core 0).mayStep m && m.kind == .mld && (fld m.word 0 4).toNat % 2 == 0 && m.step < 16 && s.engTile 0 (m.ops.getD 0 0) == (0, 0) &&
         tileOff (m.ops.getD 0 0) + 16384 ≤ 2 ^ 32 && (s.core 0).spadBad.isEmpty
     | _ => false) = true := ⟨by decide +kernel, by decide +kernel⟩

/-- The tile that an operation names is tile entry 0 from its start on, and its first step is still to be made. -/
def first (kind : MatKind) (m : MatOp) : Bool :=
  m.kind == kind && m.step == 0 && (tiles2 id).engTile 0 (m.ops.getD 0 0) == (0, 0) && tileOff (m.ops.getD 0 0) + 32768 ≤ 2 ^ 32

theorem witness_MatrixSteps_moves : stepping (queued (.mld 0 4 true)) (first .mld) = true ∧
    (∀ f : Bool, stepping (queued (.mst 0 4 f)) (first .mst) = true) := by decide +kernel

/-- E4M3 with E5M2, PT2 with PT2 and MXFP4 with MXFP4, the scales in tile entry 0. -/
def formatStep (x : DWord) : Bool :=
  stepping (queued (.mma 0 1 4 0 false 2 0 false false) (tiles2 (setU 2 x))) fun m => first .mma m && m.step < 16 * m.groups.length &&
    (mmaFmt (m.ops.getD 1 0)).valid && m.ops.getD 1 0 == x && (tiles2 id).engTile 0 (mmaFmt x).ascale == (0, 0) &&
    (tiles2 id).engTile 0 (mmaFmt x).bscale == (0, 0)

theorem witness_MatrixSteps_formats : formatStep 0x1200000000000000 = true ∧ formatStep 0x33C0000000000000 = true ∧
    formatStep 0x44C0000000000000 = true := ⟨by decide +kernel, by decide +kernel, by decide +kernel⟩

/-- An attn that first empties its rows, and one that folds key 1 first. -/
theorem witness_MatrixSteps_attn : stepping (queued (.attn 0 4 8 0x3F800000) (tiles2 (setU 7 0x400000 ∘ setU 8 6))) (fun m => first .attn m &&
      attnInit (m.aux.getD 0 0) && !m.cleared) = true ∧
    stepping (queued (.attn 0 4 8 0x3F800000) (tiles2 (setU 8 6))) (fun m => first .attn m && !attnInit (m.aux.getD 0 0) &&
      (m.aux.getD 1 0).getLsbD 1 && !(m.aux.getD 1 0).getLsbD 0 && m.ops.length == 3) = true ∧
    ((tiles2 id).core 0).team 0 = (tiles2 id).t ∧ (tiles2 id).t.atiles.Nodup ∧ (0 : Nat) + 6 < (tiles2 id).t.atiles.length := by decide +kernel

theorem witness_MatrixSteps_rows : stepping (queued (.amerge 0 7)) (fun m => m.kind == .amerge && m.step == 0 && (fld m.word 18 6).toNat == 0 &&
      (fld m.word 12 6).toNat == 7) = true ∧ (7 : Nat) + 6 < (tiles2 id).t.atiles.length ∧
    (∀ f : Bool, stepping (queued (.anorm 0 4 f)) (first .anorm) = true) := by decide +kernel

theorem witness_MatrixSteps_mma : (let s := queued (.mma 0 1 4 0 false 2 0 false false)
    match (s.core 0).mat with
    | [m] => (s.core 0).mayStep m && m.kind == .mma && mmaFmt (m.ops.getD 1 0) == mmaFmt 0 && m.step < 16 * m.groups.length &&
        s.engTile 0 (m.ops.getD 0 0) == (0, 0) && tileOff (m.ops.getD 0 0) + 4096 ≤ 2 ^ 32 && (s.core 0).accBad.isEmpty
    | _ => false) = true := by decide +kernel

/-- A step that must wait: a second operation on the same tile, behind the first (R311). -/
theorem witness_MatrixSteps_waits : (let s := after (.mzero 0 0) { queued (.mzero 0 0) with sel := true }
    match (s.core 0).mat with
    | [_, m] => !(s.core 0).mayStep m
    | _ => false) = true := by decide +kernel

/-! Ordering and barriers -/

theorem witness_FencesAndBarriers_fence : Calm (ready id) ∧ (ready id).cur.hnd = false ∧ (ready id).f.valid = true ∧ (ready id).f.join = none ∧
    (ready id).openCombining = false ∧ (ready id).f.relFence = none ∧ (ready fun g => g.modFrag 0 fun f => { f with relFence := some (2, 0) }).f.relFence.isSome = true ∧
    (∀ i ∈ [Instr.fence true false false 0, .fence false true false 4, .fence true true true 3, .barq 4 15], i.wf = true) :=
  ⟨calm_ready, rfl, by decide +kernel, by decide +kernel, by decide +kernel, by decide +kernel, by decide +kernel, by decide⟩

/-- A team of two gangs; with `waits` the second has arrived at barrier 3 and waits there. -/
def pair (waits : Bool) : State :=
  let one : Barrier := { phase := 0, exp := 2, arr := 1, arrived := 2, coming := [], given := [] }
  (ready (setV 4 2)).modCore 0 fun k =>
    (k.modTeam 0 fun t => { t with ngang := 2, lanes := 64, bars := (if waits then t.bars.set 3 one else t.bars) }).modGang 1
      fun g => { g with live := true, gangid := 1, launched := 0xFFFFFFFF, frags := (g.frags.set 0
        { Frag.reset with valid := true, mask := 0xFFFFFFFF, wait := (if waits then .barrier 3 else .none) }) }

theorem witness_FencesAndBarriers_barrier : ∀ waits : Bool, let s := pair waits
    let b := s.barOf 0 0 3
    Calm s ∧ Quiet s ∧ s.cur.hnd = false ∧ s.g.intrap = false ∧ s.f.valid = true ∧ s.f.wait = .none ∧ s.g.nfrag ≤ 1 ∧ s.g.live = true ∧
      s.t.halted = false ∧
      (∀ i j, (s.gangAt 0 i).live = true → (s.gangAt 0 j).live = true → (s.gangAt 0 i).team = 0 → (s.gangAt 0 j).team = 0 →
        (s.gangAt 0 i).gangid = (s.gangAt 0 j).gangid → i = j) ∧
      (∀ i f m k x, (s.gangAt 0 i).team = 0 → ((s.gangAt 0 i).frags.get f).wait ≠ .arrival m k x) ∧
      (∃ l, s.active l ∧ (∀ k, s.active k → l ≤ k) ∧ (s.v 4 l).g0 = false ∧ 2 = (half (s.v 4 l).bits false).toNat) ∧ s.t.ngang = 2 ∧
      b.arrived.getLsbD s.g.gangid.toNat = false ∧ (b.exp = 0 ∨ b.exp = 2) ∧ (∀ m, m ≠ 3 → (s.barOf 0 0 m).exp = 0) ∧
      (waits = true → b.arr + 1 = 2 ∧ Waiting s 0 1 0 (.barrier 3) ∧ (s.gangAt 0 1).nfrag ≤ 1) ∧
      (waits = false → b.arr + 1 < 2 ∧ 2 ≤ b.arr + s.notArrived 0 0 3) ∧ (Instr.bar 0 false 0 3).wf = true ∧ (Instr.bara 4 true 0 3).wf = true := by
  have hw : ∀ waits : Bool, ∀ i f, (match ((pair waits).gangAt 0 i).frags.get f with | x => match x.wait with | .arrival .. => false | _ => true) = true := by
    decide +kernel
  intro waits
  refine ⟨by show (pair waits).g.pend = []; revert waits; decide +kernel,
    quiet_of (by revert waits; decide +kernel) (by revert waits; decide +kernel), rfl, ?_, ?_, ?_, ?_, ?_, ?_, ?_, ?_,
    ⟨0, ?_, ?_, ?_, ?_⟩, ?_, ?_, ?_, ?_, fun h => ⟨?_, ⟨?_, ?_, ?_, ?_, ?_, ?_⟩, ?_⟩, fun h => ⟨?_, ?_⟩, by decide, by decide⟩
  case _ => revert waits; decide +kernel
  all_goals first
    | (revert waits; decide +kernel)
    | (intro i f m k x _ hx
       have := hw waits i f
       rw [show ((pair waits).gangAt 0 i).frags.get f = ((pair waits).gangAt 0 i).frags.get f from rfl] at this
       simp only [hx] at this
       cases this)

/-! Engines -/

/-- The bytes stand in memory at the address of `va0`; the gang is changed by `f`. -/
def posted (bs : List Byte) (f : Gang → Gang) : State :=
  let s := tiles2 f
  { s with mem := s.mem.writeN (memIx 0 pl0.pa) bs }

theorem calm_posted (bs : List Byte) : Calm (posted bs (setU 5 va0)) := by show (tiles2 (setU 5 va0)).g.pend = []; decide +kernel

theorem unlocked_posted (bs : List Byte) (f : Gang → Gang) : Unlocked (posted bs f) := unlocked_tiles2 f

/-- cpy between a tile and memory, gather and cpyt. -/
theorem witness_EngineInstructionsIssue_copies : (let s := tiles2 (setU 4 0 ∘ setU 5 va0 ∘ setU 6 64)
    Calm s ∧ Unlocked s ∧ s.curCore.journalRoom = true ∧ (Instr.cpy 4 5 6 true false).wf = true ∧ (Instr.cpy 5 4 6 false true).wf = true ∧
      1 ≤ (s.u 6).toNat ∧ (s.u 6).toNat < 2 ^ 40 ∧ SpanOk s (s.u 4) (s.u 6).toNat 4 ∧ (s.u 5).toNat % 2 ^ 57 + (s.u 6).toNat ≤ 2 ^ 57) ∧
    (let s := tiles2 (setU 4 0x1000 ∘ setU 5 0x2000 ∘ setU 6 (BitVec.ofNat 64 (2 ^ 62 + 15 * 2 ^ 48 + 8 * 2 ^ 24 + 3)) ∘ setU 7 0x3000)
     (Instr.cpy 4 5 6 false false).wf = true ∧ (s.u 6).toNat = 2 ^ 62 + (16 - 1) * 2 ^ 48 + 8 * 2 ^ 24 + 3 ∧ (s.u 4).toNat % 4 = 0 ∧
       (s.u 5).toNat % 4 = 0 ∧ (s.u 7).toNat % 4 = 0 ∧ (s.u 5).toNat % 2 ^ 57 + 4 * 16 * 8 ≤ 2 ^ 57 ∧ (s.u 7).toNat % 2 ^ 57 + 4 * 3 ≤ 2 ^ 57 ∧
       (s.u 4).toNat % 2 ^ 57 + 4 * 16 * 3 ≤ 2 ^ 57) ∧
    (let s := tiles2 (setU 4 0 ∘ setU 5 va0 ∘ setU 6 (BitVec.ofNat 64 (64 * 2 ^ 32)))
     let m := cpytDesc (s.u 6)
     (Instr.cpyt 4 5 6).wf = true ∧ cpytCode (s.u 5) m = 0 ∧ SpanOk s (s.u 4) (m.rows * m.rowb) 4) :=
  ⟨⟨by show (tiles2 (setU 4 0 ∘ setU 5 va0 ∘ setU 6 64)).g.pend = []; decide +kernel, unlocked_tiles2 _, by decide +kernel, by decide, by decide,
      by decide +kernel, by decide +kernel, ⟨by decide +kernel, by decide +kernel⟩, by decide +kernel⟩,
    ⟨by decide, by decide +kernel, by decide +kernel, by decide +kernel, by decide +kernel, by decide +kernel, by decide +kernel, by decide +kernel⟩,
    ⟨by decide, by decide +kernel, by decide +kernel, by decide +kernel⟩⟩

/-- A request block of a sum of four FP32 numbers of rank 0 of group 1, whose ranges follow it. -/
def collBytes : List Byte :=
  leBytes 4 0x14 ++ leBytes 4 0 ++ leBytes 4 1 ++ leBytes 4 0 ++ leBytes 8 0 ++ leBytes 8 4 ++ leBytes 8 (va0.toNat + 64) ++
    leBytes 8 (va0.toNat + 128) ++ leBytes 8 (va0.toNat + 192) ++ leBytes 8 0

/-- The machine with that block and its group. -/
def collected : State :=
  { posted collBytes (setU 5 va0) with groups := [{ part := 0, num := 1, members := [{ dev := 0, clus := 0, port := none }], tree := [], counts := [] }] }

/-- The block of a reconciliation of the sketches that stand at +64, and their headers. -/
def reconBytes : List Byte :=
  leBytes 8 (va0.toNat + 64) ++ leBytes 8 (va0.toNat + 64) ++ leBytes 4 0 ++ leBytes 4 1 ++ leBytes 8 (va0.toNat + 4096) ++
    leBytes 8 (va0.toNat + 8192) ++ leBytes 4 16 ++ leBytes 4 0 ++ leBytes 16 0 ++ leBytes 8 4 ++ leBytes 8 7

theorem witness_EngineInstructionsIssue_coll : (let s := collected
    let w := partyOn s s.cur.core s.cur.slot
    match s.translate w.core w.asid (s.u 5) 64 false, s.engRead w (s.u 5) 64 with
    | .ok _, .ok bs => (s.u 5).toNat % 64 == 0 && (Instr.coll 5).wf && s.collCode s.t.part (some (clusOf s.cur.core)) (collBlock (s.u 5) bs) == 0 &&
        (collBlock (s.u 5) bs).req.misaligned == none && s.curCore.accs.isEmpty && s.curCore.marks.isEmpty
    | _, _ => false) = true := by decide +kernel

theorem witness_EngineInstructionsIssue_recon : (let s := posted reconBytes (setU 5 va0)
    let w := partyOn s s.cur.core s.cur.slot
    match s.translate w.core w.asid (s.u 5) 64 false, s.engRead w (s.u 5) 64 with
    | .ok _, .ok bs =>
      match s.engRead w (BitVec.ofNat 64 (leNat (bs.take 8))) 16 with
      | .ok h => (s.u 5).toNat % 64 == 0 && (Instr.recon 5).wf && !reconRefused bs (wordsOf h) && s.curCore.accs.isEmpty && s.curCore.marks.isEmpty &&
          ((reconReq (s.u 5) bs).withHeader (wordsOf h)).misaligned == none
      | .error _ => false
    | _, _ => false) = true := by decide +kernel

/-- A failed operation of batch 0 has left its record behind, and batch 1 is open. -/
def failedBatch : Gang → Gang := fun g =>
  { g with batches := g.batches.set 1 { next := 1, sealedB := [], past := [], recs := [{ batch := 0, op := 0, fail := { cause := .engineFault, info := 0x21 } }] } }

theorem witness_EngineInstructionsIssue_batches : (∀ i ∈ [Instr.bseal 1, .bwait 0 false 16 1, .bwait 5 true 0 1], i.wf = true) ∧
    (let bat := (ready id).g.batches.get 1
     bat.sealedB.length < 16 ∧ (ready id).openCombining = false ∧ bat.sealedB = [] ∧ bat.recs = [] ∧ ((ready (setU 5 0x40)).u 5).toNat % 4 = 0) ∧
    (let s := handled failedBatch
     let bat := s.g.batches.get 1
     Calm s ∧ TrapReady s ∧ s.openCombining = false ∧ ∃ x, bat.recs = [x] ∧ x.batch ∉ bat.sealedB ∧ x.batch ≠ bat.next) :=
  ⟨by decide, ⟨by decide +kernel, by decide +kernel, by decide +kernel, by decide +kernel, by decide +kernel⟩,
    ⟨by show (handled failedBatch).g.pend = []; decide +kernel, ⟨rfl, by decide +kernel, by decide +kernel⟩, by decide +kernel,
      ⟨{ batch := 0, op := 0, fail := { cause := .engineFault, info := 0x21 } }, by decide +kernel, by decide +kernel, by decide +kernel⟩⟩⟩

/-! Launching and queueing -/

/-- The block of a launch of two teams of 64 lanes, whose code object's header follows it. -/
def launchBytes : List Byte :=
  leBytes 8 (va0.toNat + 256) ++ leBytes 8 5 ++ leBytes 4 2 ++ leBytes 2 64 ++ leBytes 1 1 ++ leBytes 1 4 ++ leBytes 4 2 ++ leBytes 4 9 ++
    List.replicate (256 - 32) 0 ++ leBytes 8 0 ++ leBytes 8 0x4F1C92A7 ++ leBytes 8 256

theorem witness_LaunchAndQueuePush_launch : (let s := posted launchBytes (setU 5 va0)
    let w := partyOn s s.cur.core s.cur.slot
    match s.engRead w (s.u 5) 32 with
    | .ok bs =>
      let ask := launchAsk bs
      match s.engRead w ask.code 256 with
      | .ok hs => (Instr.launch 4 5).wf && s.g.gangid == 0 && s.em.getLsbD 0 && s.t.depth.toNat < 10 && (s.u 5).toNat % 8 == 0 &&
          ask.code.toNat % 256 == 0 && ask.teams != 0 && ask.flags < 32 && 1 ≤ ask.lanes && ask.lanes ≤ 512 && ask.atiles ≤ 16 &&
          ask.spad ≤ 128 && (codeHead ask.code hs).hash == 0x4F1C92A7 && !ask.gathered && s.listRoom s.t.part && s.grids.isEmpty
      | .error _ => false
    | .error _ => false) = true := by decide +kernel

/-- A control block whose WIDX is 3, and a packet in the uniform registers 8 to 15. -/
def pushed : State := posted (leBytes 8 3 ++ List.replicate 24 0 ++ leBytes 8 4 ++ leBytes 8 (va0.toNat + 64)) (setU 5 va0 ∘ setU 8 0x101)

theorem lands_pushed : Lands pushed (partyOn pushed 0 0) va0 8 pl0 :=
  ⟨by decide +kernel, by show pushed.translate (some 0) _ va0 8 true = .ok pl0; decide +kernel, by decide +kernel⟩

theorem witness_LaunchAndQueuePush_qpush : Calm pushed ∧ pushed.curCore.accs = [] ∧ (Instr.qpush 4 5 8).wf = true ∧ pushed.cur.hnd = false ∧
    pushed.f.valid = true ∧ (pushed.u 5).toNat % 64 = 0 ∧ (pushed.u 8).toNat % 256 ≠ 0 ∧
    (match pushed.translate (some 0) pushed.t.asid (pushed.u 5) 64 true, pushed.engRead (partyOn pushed 0 0) (pushed.u 5) 8,
        pushed.engRead (partyOn pushed 0 0) (pushed.u 5 + 0x20) 16 with
     | .ok _, .ok _, .ok _ => true
     | _, _, _ => false) = true ∧
    Lands pushed (partyOn pushed 0 0) va0 8 pl0 ∧ pushed.u 5 = va0 ∧ (∀ e, (pushed.curCore.locks.get e).v = false) :=
  ⟨by show pushed.g.pend = []; decide +kernel, by decide +kernel, by decide, rfl, by decide +kernel,
    by decide +kernel, by decide +kernel, by decide +kernel, lands_pushed, by decide +kernel, fun e => unlocked_posted _ _ 0 e⟩

/-! Instructions that wait -/

/-- Fragment 0 of gang slot 0 waits as `w` says, and nothing is selected. -/
def idling (w : Wait) : State := { tiles2 (fun g => g.modFrag 0 fun f => { f with wait := w }) with sel := false }

/-- An operation of the copy engine, as its instruction makes it. -/
def copyOp (k : EngKind) : EngOp := (tiles2 id).engOp k 0 [engRange true true 0 0 32, engRange false false 0 va0 32] [0, va0, 32, 0]

theorem waiting_idling (w : Wait) (h : ((((idling w).gangAt 0 0).frags.get 0).wait == w) = true)
    (h2 : (let s := idling w
      let g := s.gangAt 0 0
      g.live && (g.frags.get 0).valid && g.pend.isEmpty && !g.intrap && !(s.teamAt 0 0).halted && !(s.teamAt 0 0).stopping.saving &&
        !s.noIssue 0) = true) : Waiting (idling w) 0 0 0 w := by
  simp only [Bool.and_eq_true, Bool.not_eq_true', List.isEmpty_iff] at h2
  obtain ⟨⟨⟨⟨⟨⟨a, b⟩, c⟩, d⟩, e⟩, f⟩, g⟩ := h2
  exact ⟨a, b, beq_iff_eq.1 h, ⟨c, d⟩, ⟨e, f⟩, g⟩

theorem witness_WaitingInstructionsGoOn : (let o := copyOp (.copy 0 va0 true false 32)
    let s := idling (.engine o)
    Waiting s 0 0 0 (.engine o) ∧ (∀ r n, o.kind ≠ .coll r n) ∧ Unlocked s ∧ (s.core 0).journalRoom = true ∧ (s.core 0).eng.countP (·.cls == o.cls) < 16) ∧
    (let s := idling (.bwait 0 0 none)
     Waiting s 0 0 0 (.bwait 0 0 none) ∧ ((s.gangAt 0 0).batches.get 0).recs = [] ∧ ((s.gangAt 0 0).batches.get 0).sealedB.length ≤ 0) ∧
    (let s := idling (.tileFree 0)
     Waiting s 0 0 0 (.tileFree 0) ∧ (s.core 0).tileLocked 0 = false) :=
  ⟨⟨waiting_idling _ (by decide +kernel) (by decide +kernel), (by intro r n h; cases h), unlocked_tiles2 _, by decide +kernel⟩,
    ⟨waiting_idling _ (by decide +kernel) (by decide +kernel), by decide +kernel, by decide +kernel⟩,
    ⟨waiting_idling _ (by decide +kernel) (by decide +kernel), by decide +kernel⟩⟩

/-- A bwait that must wait on for a sealed batch, and a tfree for a range lock. -/
theorem witness_WaitingInstructionsGoOn_still : (let s := tiles2 fun g =>
      { g.modFrag 0 (fun f => { f with wait := .bwait 0 0 none }) with batches := g.batches.set 0 { next := 1, sealedB := [0], past := [], recs := [] } }
    0 < ((s.gangAt 0 0).batches.get 0).sealedB.length ∧ ((s.gangAt 0 0).batches.get 0).recs = [] ∧
      ((s.gangAt 0 0).frags.get 0).wait = .bwait 0 0 none) ∧
    (let s := (idling (.tileFree 0)).modCore 0 fun k => { k with locks := k.locks.set 0 { LockEntry.reset with v := true, spc := true, len := 64 } }
     (s.core 0).tileLocked 0 = true) := ⟨by decide +kernel, by decide +kernel⟩

/-- The handle that a tfree has waited with names a tile of the team, or none. -/
theorem witness_WaitingInstructionsGoOn_tfree : (let s := idling (.tileFree 0)
     (∃ t0, s.tileOf (clusOf 0) 0 = some (0, t0) ∧ t0.team = (s.gangAt 0 0).team) ∧ (s.core 0).tileLocked 0 = false) ∧
    (let s := (idling (.tileFree 5)).modT fun t => { t with trapbase := 0x1000 }
     s.tileOf (clusOf 0) 5 = none ∧ (s.core 0).tileLocked 5 = false ∧ (s.teamAt 0 0).trapbase ≠ 0) :=
  ⟨⟨⟨((idling (.tileFree 0)).core 0).tiles.get 0, by decide +kernel, by decide +kernel⟩, by decide +kernel⟩, by decide +kernel⟩

/-- The packet of a claimed qpush. -/
def bodyOf (a : List DWord) (n : Nat) : List DWord := a ++ List.replicate (n - a.length) 0

theorem witness_WaitingInstructionsGoOn_qpush : (let pkt := bodyOf [0x101] 8
    let s := idling (.qpush 3 va0 (va0 + 64) 4 pkt)
    Waiting s 0 0 0 (.qpush 3 va0 (va0 + 64) 4 pkt) ∧ (s.core 0).accs = [] ∧ pkt.length = 8) ∧
    (let s := idling (.qpush 3 va0 (va0 + 64) 4 (bodyOf [0x101] 8))
     let va := va0 + 64 + BitVec.ofNat 64 (64 * ((3 : DWord).toNat % 4))
     (match s.engRead (partyOn s 0 0) (va0 + 8) 8, s.engMayWrite (partyOn s 0 0) va 64, s.translate (some 0) s.t.asid va 8 true with
      | .ok db, .ok (), .ok _ => decide ((3 : DWord).toNat < leNat db + 4)
      | _, _, _ => false) = true ∧ pieces va 8 = [(va, 8)]) :=
  ⟨⟨waiting_idling _ (by decide +kernel) (by decide +kernel), by decide +kernel, by decide⟩, ⟨by decide +kernel, by decide +kernel⟩⟩

/-- A fragment that yields, alone or beside another. -/
def yielding (other : Bool) : State :=
  { ready (fun g => (g.modFrag 0 fun f => { f with yield := 1000, mask := 1 }).setFrag 1
      { Frag.reset with valid := other, mask := 2, pc := BitVec.ofNat 64 apertureBase }) with sel := false }

theorem witness_WaitingInstructionsGoOn_yield : (let s := yielding true
    (s.gangAt 0 0).live = true ∧ ((s.gangAt 0 0).frags.get 0).valid = true ∧ ((s.gangAt 0 0).frags.get 0).yield ≠ 0 ∧ s.noIssue 0 = false ∧
      s.eligible { core := 0, slot := 0, hnd := false, frag := 1 } = true) ∧
    (let s := yielding false
     (s.gangAt 0 0).live = true ∧ ((s.gangAt 0 0).frags.get 0).valid = true ∧ ((s.gangAt 0 0).frags.get 0).yield ≠ 0 ∧ s.noIssue 0 = false ∧
       ∀ j f, ¬(j = 0 ∧ f = 0) → s.eligible { core := 0, slot := j, hnd := false, frag := f } = false) := ⟨by decide +kernel, by decide +kernel⟩

/-! Issue -/

theorem witness_IssueSelection : (let s := { ready id with sel := false }
    s.sel = false ∧ s.inReset = false ∧ s.noIssue 0 = false ∧ (s.core 0).gated = false ∧
      (let x : Cursor := { core := 0, slot := 0, hnd := false, frag := 0 }
       (s.tick 0).eligible x = true ∧ s.eligible x = true ∧ ({ s with cur := x } : State).pipe.1 = true)) := by decide +kernel

/-! Exchange -/

/-- A grid of one team of two gangs. -/
def oneGrid (gathered : Bool) : Grid :=
  { gridid := 0, part := 0, asid := 1, code := 0, args := 0x1234, entry := 0x100, trapbase := 0x1000, teams := 1, lanes := 40, atiles := 1,
    spad := 2, gathered := gathered, restartable := false, steep := 0, rngseed := 7, depth := 0, prio := 0, parent := none, queue := none,
    nextTeam := 1, restart := [], retired := 0 }

/-- The two gangs of `pair` belong to a gathered grid, and S[6] names the second with tag 9. -/
def gathered : State :=
  { ((pair false).modT fun t => { t with gathered := true }).modG (setU 6 0x10009) with grids := [oneGrid true] }

theorem witness_Exchange_send : (let s := gathered
    Calm s ∧ (Instr.xchg 4 5 6 15 1).wf = true ∧ s.g.nfrag ≤ 1 ∧ s.t.gathered = true ∧
      (∃ gr, s.gridOf s.t = some gr ∧ (half (s.u 6) true).toNat < gr.teams) ∧
      (s.u 6).toNat % 2 ^ 32 = ((s.u 6).extractLsb' 16 4).toNat * 2 ^ 16 + ((s.u 6).extractLsb' 0 8).toNat ∧
      ((s.u 6).extractLsb' 16 4).toNat < s.t.ngang ∧ ¬(half (s.u 6) true = s.t.teamid ∧ (s.u 6).extractLsb' 16 4 = s.g.gangid) ∧
      s.g.pairs.length < 64) :=
  ⟨by show gathered.g.pend = []; decide +kernel, by decide, by decide +kernel, by decide +kernel,
    ⟨oneGrid true, by decide +kernel, by decide +kernel⟩, by decide +kernel, by decide +kernel, by decide +kernel, by decide +kernel⟩

/-- Gang 0 waits for the datum that gang 1, or a gang 2 that is not there, sends it with tag 9. -/
def expecting (gang : BitVec 4) : State :=
  gathered.modG fun g => { g with pend := [{ Pending.fresh (.vec 4 false) 0xFFFFFFFF with await := .partner 0 gang 9 0 }] }

theorem witness_Exchange_receive : (let s := expecting 1
    (match (s.gangAt 0 0).pend with
     | [p] => !p.closed && p.dst == .vec 4 false && (match p.await with | .partner t g k n => t == 0 && g == 1 && k == 9 && n == 0 | _ => false)
     | _ => false) && s.xchgErrs.isEmpty && s.xmsgs.isEmpty && s.partnerLives (s.teamAt 0 0) 0 1) = true ∧
    (let m : XMsg := { part := 0, grid := 0, fromTeam := 0, fromGang := 1, toTeam := 0, toGang := 0, tag := 9, n := 0, em := 1, data := [VCell.both 5 true] }
     let s := { expecting 1 with xmsgs := [m] }
     m.part = (s.teamAt 0 0).part ∧ m.grid = (s.teamAt 0 0).gridid ∧ m.toTeam = (s.teamAt 0 0).teamid ∧ m.toGang = (s.gangAt 0 0).gangid) ∧
    (expecting 2).partnerLives ((expecting 2).teamAt 0 0) 0 2 = false := ⟨by decide +kernel, by decide +kernel, by decide +kernel⟩

/-! The engines at work -/

/-- The operation is in the journal of core 0. -/
def journal (s : State) (o : EngOp) : State := s.modCore 0 fun k => { k with eng := [o] }

/-- The operation is there and may start. -/
def starts (s : State) (o : EngOp) : Bool := (s.core 0).op? o.id == some o && (s.core 0).engReady o && !o.refused

/-- `n` bytes at `va` land at a place. -/
def lands (s : State) (w : Party) (va : DWord) (n : Nat) : Bool :=
  pieces va n == [(va, n)] && (match s.translate w.core w.asid va n true with
    | .ok p => !s.bad (memIx p.dev p.pa)
    | .error _ => false)

theorem lands_spec {s : State} {w : Party} {va : DWord} {n : Nat} (h : lands s w va n = true) : ∃ p, Lands s w va n p := by
  simp only [lands, Bool.and_eq_true, beq_iff_eq] at h
  cases hp : s.translate w.core w.asid va n true with
  | error e => rw [hp] at h; cases h.2
  | ok p => rw [hp] at h; exact ⟨p, h.1, hp, by simpa using h.2⟩

/-- Writes that land one after another, each at its own place. -/
def landInTurn : State → List (Party × DWord × List Byte) → List Place → Bool
  | _, [], [] => true
  | s, (w, va, bs) :: rest, p :: ps =>
    pieces va bs.length == [(va, bs.length)] &&
      (match s.translate w.core w.asid va bs.length true with | .ok q => q == p | .error _ => false) && !s.bad (memIx p.dev p.pa) &&
      (rest.zip ps).all (fun x => memIx p.dev p.pa + bs.length ≤ memIx x.2.dev x.2.pa ||
        memIx x.2.dev x.2.pa + x.1.2.2.length ≤ memIx p.dev p.pa) &&
      landInTurn (s.engWrite w va bs) rest ps
  | _, _, _ => false

theorem landInTurn_spec {s : State} {ws : List (Party × DWord × List Byte)} {ps : List Place} (h : landInTurn s ws ps = true) :
    LandInTurn s ws ps := by
  induction ws generalizing s ps with
  | nil => cases ps <;> simp_all [landInTurn, LandInTurn]
  | cons x rest ih =>
    obtain ⟨w, va, bs⟩ := x
    cases ps with
    | nil => simp [landInTurn] at h
    | cons p ps =>
      simp only [landInTurn, Bool.and_eq_true, beq_iff_eq, Bool.not_eq_true', List.all_eq_true, Bool.or_eq_true, decide_eq_true_eq] at h
      obtain ⟨⟨⟨⟨h1, h2⟩, h3⟩, h4⟩, h5⟩ := h
      refine ⟨⟨h1, ?_, h3⟩, h4, ih h5⟩
      cases hq : s.translate w.core w.asid va bs.length true with
      | error e => rw [hq] at h2; cases h2
      | ok q => rw [hq] at h2; simp only [beq_iff_eq] at h2; rw [h2]

/-- A qpush's slot: the words S[b+1] to S[b+3], then those from S[b+4] on, then the header. -/
theorem witness_WaitingInstructionsGoOn_places : (let s := idling (.qpush 3 va0 (va0 + 64) 4 (bodyOf [0x101] 8))
    let w := partyOn s 0 0
    let va := va0 + 256
    let body := List.replicate 56 (0 : Byte)
    va = va0 + 64 + BitVec.ofNat 64 (64 * ((3 : DWord).toNat % 4)) ∧ va.toNat % 32 = 0 ∧
      landInTurn s [(w, va + 8, body.take 24)] [plAt 264] = true ∧
      landInTurn (s.engWrite w (va + 8) (body.take 24)) [(w, va + 32, body.take 32)] [plAt 288] = true ∧
      landInTurn (s.engWrite w (va + 8) body) [(w, va, body.take 8)] [plAt 256] = true) := by decide +kernel

theorem witness_EnginesRun_copy : (let o := copyOp (.copy 0 va0 true false 32)
    let s := journal (posted collBytes id) o
    starts s o && o.cls == 0 && o.run == .fresh && (match s.engRead (o.party 0) va0 32 with | .ok _ => true | .error _ => false)) = true ∧
    (let o := copyOp (.copy va0 0 false true 32)
     let s := journal (tiles2 id) o
     (starts s o && o.run == .fresh && lands s (o.party 0) va0 32 && ((s.core 0).spadBad.isEmpty && (s.core 0).accs.isEmpty)) = true ∧ s.engTile 0 0 = (0, 0)) := by
  decide +kernel

/-- The collective of `collected` once its one member has made its request. -/
def summing : State × EngOp × CollReq :=
  let r := (collBlock va0 collBytes).req
  let o := collected.engOp (.coll r 0) 1 r.ranges [0, va0, 0, 0]
  let m : CollMember := { rank := 0, who := .engine 0 o.id, req := r, asid := 1, core := some 0, code := 0, badAt := none, wrote := false }
  ({ journal collected o with colls := [{ part := 0, group := 1, n := 0, mems := [m], joined := [0], known := false, result := none }] }, o, r)

theorem witness_EnginesRun_collective : (let s := summing.1
    let o := summing.2.1
    let r := summing.2.2
    match s.colls, s.groups, s.engRead (o.party 0) r.src (r.count * r.inBytes) with
    | [q], [g], .ok _ => starts s o && o.kind == .coll r q.n && q.mems.length == 1 && g.part == q.part && g.num == q.group && r.op == 0 && r.rank == 0 &&
        r.count == 4 && q.part == o.part && lands s (o.party 0) r.dst (r.count * r.outBytes) &&
        lands (s.engWrite (o.party 0) r.dst (leBytes 16 0)) (o.party 0) r.stat 8 && (s.core 0).accs.isEmpty
    | _, _, _ => false) = true := by decide +kernel

theorem witness_EnginesRun_within : (let o := copyOp (.copy va0 (va0 + 64) false false 32)
    let s := journal (posted collBytes id) o
    starts s o && o.cls == 0 && o.run == .fresh && o.home.isNone && lands s (o.party 0) va0 32 &&
      (match s.engRead (o.party 0) (va0 + 64) 32 with | .ok _ => true | .error _ => false) && (s.core 0).accs.isEmpty) = true := by decide +kernel

/-- Rows of 32 bytes: the index names row 1 of a window of two, then a row beyond it. -/
def gathering : State × EngOp :=
  let o := copyOp (.gather (va0 + 256) va0 (va0 + 64) 8 2 2)
  (journal (posted (List.replicate 64 7 ++ leBytes 4 1 ++ leBytes 4 5) id) o, o)

theorem witness_EnginesRun_gather : (let s := gathering.1
    let o := gathering.2
    let w := o.party 0
    let s1 := s.engWrite w (va0 + 256) (List.replicate 32 7)
    let reads (s : State) (va : DWord) (n : Nat) (bs : List Byte) : Bool := match s.engRead w va n with | .ok x => x == bs | .error _ => false
    starts s o && o.run == .fresh && o.home.isNone && (s.core 0).accs.isEmpty &&
      reads s (va0 + 64) 4 (leBytes 4 1) && reads s (va0 + 32) 32 (List.replicate 32 7) && lands s w (va0 + 256) 32 &&
      reads s1 (va0 + 68) 4 (leBytes 4 5) && lands s1 w (va0 + 288) 32) = true := by decide +kernel

/-- The worked row of R291, BF16 with its position codes. -/
def expanding : State × EngOp :=
  let o := copyOp (.cpyt 0 va0 0xA000001000000009)
  (journal (posted [0x80, 0x3F, 0x00, 0x40, 0x80, 0xBF, 0x40, 0x40, 0xD8] id) o, o)

theorem witness_EnginesRun_cpyt : (let s := expanding.1
    let o := expanding.2
    let d := cpytDesc 0xA000001000000009
    starts s o && o.run == .fresh && o.home.isNone && cpytCode va0 d == 0 && s.engTile 0 0 == (0, 0) && d.x && d.rows == 1 && d.rowb == 16 &&
      tileOff 0 + d.rows * d.rowb ≤ 2 ^ 32 && (match s.engRead (o.party 0) va0 9 with | .ok _ => true | .error _ => false)) = true := by
  decide +kernel

/-- R291's worked row: what the tile receives. -/
theorem test_cpyt_expands : ((after (.copyEngineRun 0 0) expanding.1).core 0).spad.readN 0 16 =
    leBytes 8 0x0000400000003F80 ++ leBytes 8 0x40400000BF800000 := by decide +kernel

/-- A sum over two gangs of core 0, of ranks 0 and 1: two BF16 numbers each. -/
def adding : State × Collective :=
  let req (k : Nat) : CollReq :=
    { addr := va0, op := 0, inFp32 := false, outFp32 := false, opf := 0, w := 0, group := 1, rank := k, root := 0, count := 2,
      src := va0 + BitVec.ofNat 64 (64 * k), dst := va0 + BitVec.ofNat 64 (256 + 64 * k), stat := va0 + BitVec.ofNat 64 (288 + 64 * k) }
  let o (k : Nat) : EngOp := { collected.engOp (.coll (req k) 0) 1 (req k).ranges [0, va0, 0, 0] with id := k }
  let m (k : Nat) : CollMember :=
    { rank := k, who := .engine 0 k, req := req k, asid := 1, core := some 0, code := 0, badAt := none, wrote := false }
  let q : Collective := { part := 0, group := 1, n := 0, mems := [m 0, m 1], joined := [0, 1], known := false, result := none }
  let here : Member := { dev := 0, clus := 0, port := none }
  let s := posted (leBytes 4 0x3F803FC0 ++ List.replicate 60 0 ++ leBytes 4 0x3F80BF40) id
  ({ s with colls := [q], groups := [{ part := 0, num := 1, members := [here, here], tree := [], counts := [] }] }.modCore 0 fun k =>
    { k with eng := [o 0, o 1] }, q)

/-- No member: what a list without one is asked for. -/
def noMember : CollMember :=
  { rank := 9, who := .gone, req := (collBlock 0 []).req, asid := 0, core := none, code := 0, badAt := none, wrote := true }

theorem witness_EnginesRun_sum : (let s := adding.1
    let q := adding.2
    let m := q.mems.headD noMember
    let x (k : Nat) : Party × DWord × List Byte := ((copyOp (.cpyt 0 0 0)).party 0, va0 + BitVec.ofNat 64 k, leBytes 8 1)
    Joined s q { part := 0, num := 1, members := [{ dev := 0, clus := 0, port := none }, { dev := 0, clus := 0, port := none }], tree := [], counts := [] } ∧
      m ∈ q.mems ∧ m.who = .engine 0 0 ∧ m.req.op ≤ 2 ∧ m.req.count * m.req.outBytes = 4 ∧
      LandInTurn s [((x 0).1, va0 + 256, leBytes 4 0x40003F40), x 288, ((x 0).1, va0 + 320, leBytes 4 0x40003F40), x 352]
        [plAt 256, plAt 288, plAt 320, plAt 352]) := by
  refine ⟨⟨by decide +kernel, by decide +kernel, by decide +kernel, by decide +kernel, by decide +kernel, by decide +kernel, by decide +kernel, ?_⟩,
    by decide +kernel, by decide +kernel, by decide +kernel, by decide +kernel, landInTurn_spec (by decide +kernel)⟩
  intro m hm
  have hm : m = adding.2.mems.getD 0 noMember ∨ m = adding.2.mems.getD 1 noMember := by
    simp only [adding, List.mem_cons, List.not_mem_nil, or_false] at hm ⊢
    exact hm
  rcases hm with h | h <;> rw [h]
  · exact ⟨by decide, 0, ((adding.1.core 0).op? 0).getD (copyOp (.cpyt 0 0 0)), by decide +kernel⟩
  · exact ⟨by decide, 0, ((adding.1.core 0).op? 1).getD (copyOp (.cpyt 0 0 0)), by decide +kernel⟩

/-- 1.5 and 1 of rank 0 with -0.75 and 1 of rank 1 give 0.75 and 2 at both (R88, R90). -/
theorem test_collective_adds : (let t := after (.collectiveRun 1 0 (.run [] [])) adding.1
    t.mem.readN (memIx 0 pl0.pa + 256) 4 = leBytes 4 0x40003F40 ∧ t.mem.readN (memIx 0 pl0.pa + 320) 4 = leBytes 4 0x40003F40 ∧
      t.mem.readN (memIx 0 pl0.pa + 352) 8 = leBytes 8 1 ∧ t.colls = []) := by decide +kernel

/-- The team of a matched collective has been saved, in the area at the foot of the vault; its DST is written and its STAT is still to be. -/
theorem witness_EnginesRun_home : (let h : Home := { part := 0, gridid := 0, teamid := 0, gangid := 0 }
    let r := (collBlock va0 collBytes).req
    let o : EngOp := { collected.engOp (.coll r 0) 1 r.ranges [0, va0, 0, 0] with home := some h }
    let m : CollMember := { rank := 0, who := .engine 0 o.id, req := r, asid := 1, core := some 0, code := 0, badAt := none, wrote := true }
    let g : SavedGang :=
      { gangid := 0, block := 0x1000, pend := [], batches := Gang.reset.batches, todo := [], nextOp := 1, yields := [], waits := [], hwait := .none,
        held := [], debugHalt := none, amarks := [] }
    let sv : SavedTeam :=
      { part := 0, gridid := 0, teamid := 0, area := 0, spadBase := 0, gangs := [g], ords := [], aimgs := [], recons := [], collNums := [] }
    let q : Collective := { part := 0, group := 1, n := 0, mems := [m], joined := [0], known := true, result := some ([1, 1, 1, 1], 0) }
    let s := { journal collected o with colls := [q], saved := [sv] }
    starts s o && o.kind == .coll m.req q.n && s.saved == [sv] && sv.is h.part h.gridid h.teamid && g.gangid == h.gangid &&
      lands s (m.party 0) m.req.stat 8 && (s.core 0).accs.isEmpty && o.part == 0) = true := by decide +kernel

/-- A reconciliation of a sketch in memory with itself. -/
def reconciling : State × EngOp × ReconReq :=
  let r := (reconReq va0 reconBytes).withHeader [4, 7]
  let s := posted reconBytes id
  let o := s.engOp (.recon r) 3 r.ranges [0, va0, 0, 0]
  (journal s o, o, r)

theorem witness_EnginesRun_recon : (let s := reconciling.1
    let o := reconciling.2.1
    let r := reconciling.2.2
    let w := o.party 0
    let n := 72 * 2 ^ r.k
    let header := leBytes 8 r.k ++ leBytes 8 r.seed.toNat
    match s.engRead w r.loc 16, s.engRead w r.peerSk 16, s.engRead w (r.loc + 16) n, s.engRead w (r.peerSk + 16) n, s.engMayWrite w r.work (16 + n) with
    | .ok a, .ok b, .ok x, .ok y, .ok () => starts s o && r.k == 4 && r.passes == 1 && a == header && b == header && x == y &&
        s.onPeer w r.peer r.peerSk (16 + n) && s.onPeer w r.peer r.peerSk 16 && s.dropsAt w r.work (16 + n) == none && lands s w r.diff 16
    | _, _, _, _, _ => false) = true := by decide +kernel

/-! Queues -/

/-- ASID 1 has a page table whose first GiB names the physical addresses; the partition has its fault queue, and `bs` stand at 0x100000. -/
def mapped (bs : List Byte) : State :=
  let s := { ready id with sel := false }
  let s1 := s.modPart 0 fun p => { p with fq := some { cb := 0x40000, ring := 0x41000, nent := 1024, alert := 0, widx := 0, told := false } }
  { s1 with
    spaces := [{ asid := 1, part := 0, root := some 0x200000 }]
    mem := ((s1.mem.writeN 0x200000 (leBytes 8 0x1001)).writeN 0x1000 (leBytes 8 7)).writeN 0x100000 bs }

/-- Queue 0 of ASID 1 with the packets given. -/
def queueOf (ps : List Packet) : Queue :=
  { num := 0, asid := 1, prio := 0, cb := 0x100000, rb := 0x101000, npkt := 4, didx := 0, stopped := false, stop := none, faulted := false,
    taking := none, pkts := ps }

/-- A packet of index 0 with the words given. -/
def packetOf (ws : List DWord) : Packet :=
  { idx := 0, words := bodyOf ws 8, begun := false, done := false, failed := false, head := none, grid := none, recon := none, run := .fresh, faulted := false,
    refused := false }

/-- The machine with that packet taken. -/
def taken (bs : List Byte) (ws : List DWord) : State := { mapped bs with queues := [queueOf [packetOf ws]] }

/-- The packet is there with the operation `op`, and `ok` holds of what its queue's party reads and writes. -/
def packetIs (s : State) (op : Nat) (ok : Party → (Nat → Nat → Nat) → Bool) : Bool :=
  match s.packet? 0 0 op with
  | some (x, p) => !p.refused && ok (s.queueParty x) fun k n => packetField p.words k n
  | none => false

/-- A read that succeeds. -/
def reads (s : State) (w : Party) (va n : Nat) : Option (List Byte) :=
  match s.engRead w (BitVec.ofNat 64 va) n with
  | .ok bs => some bs
  | .error _ => none

theorem witness_PacketsRun : packetIs (taken [] [1]) 1 (fun _ _ => true) = true ∧
    packetIs (taken (leBytes 8 0 ++ leBytes 8 0x4F1C92A7) [2, 0x100000, 5, 2 + 64 * 2 ^ 32 + 2 ^ 48 + 2 ^ 56, 0]) 2 (fun w _ =>
      let s := taken (leBytes 8 0 ++ leBytes 8 0x4F1C92A7) []
      let ask := launchAsk ((([0x100000, 5, 2 + 64 * 2 ^ 32 + 2 ^ 48 + 2 ^ 56, 0] : List DWord).flatMap fun y => leBytes 8 y.toNat))
      match reads s w ask.code.toNat 256 with
      | some hs => ask.teams == 2 && ask.lanes == 64 && ask.atiles == 1 && ask.spad == 1 && !ask.gathered &&
          (codeHead ask.code hs).hash == 0x4F1C92A7 && s.listRoom w.part
      | none => false) = true ∧
    packetIs (taken [] [3, 0x102000, 0x100000, 32]) 3 (fun w f => let s := taken [] []; (packetOf []).run == .fresh &&
      1 ≤ f 0x18 8 && f 0x18 8 < 2 ^ 40 && (reads s w (f 0x10 8) (f 0x18 8)).isSome && lands s w (BitVec.ofNat 64 (f 8 8)) (f 0x18 8)) = true ∧
    packetIs (taken [] [5, 0x100000, 0, 0xFFFF, 0]) 5 (fun w f => (reads (taken [] []) w (f 8 8) 8).isSome && f 0x20 4 == 0) = true ∧
    packetIs (taken [] [6, 0x100000, 3, 1]) 6 (fun w f => (reads (taken [] []) w (f 8 8) 8).isSome && lands (taken [] []) w (BitVec.ofNat 64 (f 8 8)) 8) =
      true ∧
    packetIs (taken [] [8, 1, 0, 0]) 8 (fun _ f => f 8 4 == 1) = true := by decide +kernel

/-- A collective of a queue, and a reconciliation of one that finds PEER's sketch on another package. -/
theorem witness_PacketsRun_members : (let s := { taken collBytes [4, 0x100000] with groups := collected.groups }
    packetIs s 4 fun w f => match reads s w (f 8 8) 64 with
      | some bs => f 8 8 % 64 == 0 && s.collCode w.part none (collBlock (BitVec.ofNat 64 (f 8 8)) bs) == 0 &&
          (collBlock (BitVec.ofNat 64 (f 8 8)) bs).req.misaligned == none
      | none => false) = true ∧
    (let blk := leBytes 8 0x100040 ++ leBytes 8 0x100040 ++ leBytes 4 1 ++ leBytes 4 1 ++ leBytes 8 0x102000 ++ leBytes 8 0x103000 ++ leBytes 4 16 ++
       leBytes 4 0 ++ leBytes 16 0 ++ leBytes 8 4 ++ leBytes 8 7
     let s := taken blk [7, 0x100000]
     packetIs s 7 fun w f => f 8 8 % 64 == 0 && (match s.readRecon w (BitVec.ofNat 64 (f 8 8)) with
       | .ok (bs, h) => !reconRefused bs h && ((reconReq (BitVec.ofNat 64 (f 8 8)) bs).withHeader h).misaligned == none &&
         (match s.reconRun w ((reconReq (BitVec.ofNat 64 (f 8 8)) bs).withHeader h) false with
          | .ended u _ _ => u.queues == s.queues
          | .fault _ _ => false)
       | .error _ => false)) = true := by decide +kernel

/-- A session. -/
def sessionOf (id : Nat) (finished : Bool) (part : Option PartId) (port : Option (Fin 24)) : Session :=
  { id := id, transcript := [], secret := [], reqKey := 1, rspKey := 2, port := port, finished := finished, part := part }

/-- System software has a session bound to partition 0, and the hypervisor one bound to none. -/
def sessions (s : State) : State :=
  { s with spdm := { s.spdm with sessions := [sessionOf 1 true (some 0) none, sessionOf 2 true none none] } }

theorem witness_QueuesAreServed_create : (let s := sessions (mapped [])
    !s.inReset && s.hyper && s.queueOk 0 1 0x100000 0x101000 4 && !(mapped []).hyper &&
      !s.queueOk 0 1 0x100001 0x101000 4 && !s.queueOk 0 7 0x100000 0x101000 4) = true := by decide +kernel

theorem witness_QueuesAreServed_restart : (let q := { queueOf [{ packetOf [9] with failed := true }] with stopped := true }
    let s := sessions { mapped [] with queues := [q] }
    (!s.inReset && s.managed && (s.queue? 0).any fun x => x.stopped) = true ∧
      (sessions { mapped [] with queues := [queueOf []] }).queue? 0 = some (queueOf [])) := by decide +kernel

/-- One packet, a NOP, stands in slot 0 of the ring; WIDX is 1. -/
theorem witness_QueuesAreServed_take : (let s0 := mapped (leBytes 8 1)
    let s := { s0 with mem := s0.mem.writeN 0x101000 (leBytes 8 0x100000001), queues := [queueOf []] }
    match s.nextQueue with
    | some x => s.queue? 0 == some x && x.stop == none && (match s.look x with
      | .take i slot ws => i == 0 && slot == 0x101000 && packetOp ws == 1 &&
        lands (s.engWrite (s.queueParty x) slot (leBytes 8 0)) (s.queueParty x) (x.cb + 8) 8
      | _ => false)
    | none => false) = true := by decide +kernel

theorem witness_QueuesAreServed_complete : (let p := { packetOf [1] with begun := true, done := true }
    let s := { mapped [] with queues := [queueOf [p]] }
    s.queue? 0 == some (queueOf [p]) && lands s (s.queueParty (queueOf [p])) ((queueOf [p]).cb + 0x10) 8) = true := by decide +kernel

/-! Translation faults -/

/-- A translation fault of fragment 0. -/
def missed : XFault := { va := 0x5000, asid := 1, clus := 0, core := 0, slot := 0, kind := 1, why := 0, queue := 0, who := .frag 0 0 false 0 }

theorem witness_TranslationFaults_setup : (let s := mapped []
    s.bound none 0 = false ∧ s.fqOk 0 0x40000 0x41000 1024 0 = true ∧
      s.inReset = false ∧ (sessions s).bound (some 0) 0 = true) := by decide +kernel

/-- With the queue's RIDX at 0 there is room; with 16 entries unread there is none. -/
theorem witness_TranslationFaults_entry : (let s := (mapped []).modPart 0 fun p => { p with faults := [missed] }
    match (s.parts.get 0).fq with
    | some fq => (s.parts.get 0).faults == [missed] && fq.alert == 0 && !s.bad (memIx s.devid (BitVec.ofNat 39 fq.cb.toNat)) && fq.cb.toNat % 64 == 0 &&
        fq.ring.toNat % 32 == 0 && fq.cb.toNat + 64 ≤ fq.ring.toNat && fq.widx.toNat < (s.physRead 0 (fq.cb.toNat + 8)).toNat + fq.nent &&
        decide (¬(1024 : DWord).toNat < (s.physRead 0 (fq.cb.toNat + 8)).toNat + fq.nent)
    | none => false) = true := by decide +kernel

/-- The answers 1 and 2 stand at RESP of entry 0. -/
theorem witness_TranslationFaults_answer : ∀ n : Fin 2, (let s0 := mapped []
    let s := ({ s0 with mem := s0.mem.writeN 0x41018 (leBytes 8 (n.val + 1)) }.modPart 0 fun p => { p with watched := [(0, missed)] }).modGangAt 0 0 fun g =>
      g.modFrag 0 fun f => { f with wait := .fault }
    let s := s.modCore 0 fun k => k.modTeam 0 fun t => { t with trapbase := 0x1000 }
    match (s.parts.get 0).fq with
    | some fq => (s.parts.get 0).watched.find? (fun y => y.1 == 0) == some (0, missed) && ((s.gangAt 0 0).frags.get 0).wait == .fault &&
        !s.physBad (fq.entry 0 + 0x18) && s.physRead 0 (fq.entry 0 + 0x18) == BitVec.ofNat 64 (n.val + 1) && !(s.gangAt 0 0).intrap &&
        (s.teamAt 0 0).trapbase != 0 && !(s.teamAt 0 0).halted && ((s.gangAt 0 0).frags.get 0).valid
    | none => false) = true := by decide +kernel

/-! Teams -/

theorem witness_TeamsStartAndEnd_start : (let s := { (mapped []).modPart 0 (fun p => { p with placement := [0] }) with
      grids := [{ oneGrid false with nextTeam := 0 }] }
    let p := s.parts.get 0
    p.valid && p.fq.isSome && !s.inReset && p.resumes.isEmpty && p.placement == [0] &&
      (s.grid? 0 0).any (fun g => !g.gathered && g.restart.isEmpty && g.nextTeam == 0 && g.teams == 1 && ((s.core 1).roomForGrid g).isSome) &&
      p.clusters.getLsbD (clusOf 1).val) = true := by decide +kernel

/-- A team that has retired its index, with nothing left that waits for it. -/
theorem witness_TeamsStartAndEnd_gone : (let s := (ready id).modCore 0 fun k => { k with gone := [{ k.team 3 with gridid := 9, spadLen := 4096 }] }
    (s.core 0).gone.length = 1 ∧ ∀ x ∈ (s.core 0).gone, s.hasChild x = false) := by decide +kernel

theorem witness_TeamsStartAndEnd_end : (let s := (tiled id).modT fun t => { t with allExited := true }
    let x := (s.core 0).team 0
    x.live && x.allExited && !s.hasChild x && !s.teamBusy 0 0 && !x.stopping.saving && ((s.core 0).tiles.get 0).v) = true := by decide +kernel

/-- A team that is asked to stop in `dl` cycles, restartable or not. -/
def stopped (restartable : Bool) (st : Stopping) : State :=
  sessions { (ready id).modT fun t => { t with restartable := restartable, stopping := st } with grids := [oneGrid false] }

/-- A request with an area at the foot of the vault. -/
def request (s : State) (dl : Nat) : Preempt := { area := 0, size := s.saveSize 0 0, since := 0, dl := dl }

theorem witness_Preemption_request : ∀ r : Bool, (let s := stopped r .no
    let x := (s.core 0).team 0
    let cost := (s.saveSize 0 0 + 127) / 128 + 2000
    !s.inReset && s.managed && x.live && x.stopping == .no && !x.gathered && !s.noIssue 0 && s.areaOk x.part 0 (s.saveSize 0 0) && cost < 2 ^ 32 &&
      1000 ≤ cost && !x.allExited && !s.hasChild x && x.issued ≤ cost && x.restartable == r) = true := by decide +kernel

/-- Without a session, and with the team's core halted. -/
theorem witness_Preemption_waits : (ready id).managed = false ∧ (ready id).inReset = false ∧
    (let s := (stopped false .no).modCore 0 fun k => { k with halted := true }
     let x := (s.core 0).team 0
     (s.managed && x.live && x.stopping == .no && !x.gathered && s.noIssue 0 && s.areaOk x.part 0 (s.saveSize 0 0)) = true) := by decide +kernel

theorem witness_Preemption_drain : (let q := request (stopped false .no) 1000
    let s := stopped false (.drain q 100)
    let x := (s.core 0).team 0
    x.stopping == .drain q 100 && x.live && !x.gathered && !x.allExited && decide ((s.core 0).cycle.toNat < (100 : DWord).toNat) &&
      decide ((0 : DWord).toNat ≤ (s.core 0).cycle.toNat)) = true := by decide +kernel

theorem witness_Preemption_save : (let q := request (stopped false .no) 1000
    let s := stopped false (.save q)
    let x := (s.core 0).team 0
    (x.stopping == .save q && x.live && !s.noIssue 0 && s.settled 0 0) = true ∧ (∀ i, (s.gangAt 0 i).pend = []) ∧
      ∀ n, n < 16 → s.bad (memIx s.devid q.area + n) = false) := by decide +kernel

/-- A team has been saved, and its header stands at the foot of the vault. -/
theorem witness_Preemption_resume : (let s0 := sessions (ready id)
    let s := { s0 with mem := s0.mem.writeN 0 (leBytes 4 0x43544A46 ++ leBytes 4 1 ++ leBytes 4 0x4F1C92A7 ++ leBytes 4 1 ++
      List.replicate 16 0 ++ leBytes 2 1) }
    s.managed = true ∧ s.mayResume 0 0 = some (0, 0) ∧ s0.mayResume 0 0 = none) := by decide +kernel

theorem witness_DebugInterface : (ready id).inReset = false ∧ (ready id).mayDebug 0 = false ∧ (ready id).mayDebug 1535 = true ∧
    (let s := (ready id).modCore 0 fun k => { k with halted := true, quiesce := true }
     let k := s.core 0
     k.quiesce = true ∧ k.halted = true ∧ k.accs = [] ∧ k.mat = [] ∧ ∀ e, (k.locks.get e).v = false) ∧
    (let s := (queued (.mzero 15 0)).modCore 0 fun k => { k with halted := true, quiesce := true }
     (s.core 0).mat ≠ []) := by decide +kernel

/-! Administration -/

/-- Both sessions are there, and a page table. -/
def owned : State := sessions (mapped [])

theorem witness_Partitions : owned.mayCreate 1 2 420 = true ∧ (owned.parts.get 0).valid = true ∧ owned.hyper = true ∧ (ready id).hyper = false ∧
    owned.inReset = false ∧ (ready id).inReset = false ∧ (ready id).partBusy 0 = true ∧
    owned.spaceOf 2 = none ∧ owned.spaceOf 1 ≠ none ∧ owned.bound (some 0) 0 = true ∧ (ready id).bound none 0 = false := by decide +kernel

/-- A partition that is being destroyed and of which nothing is at work. -/
theorem witness_Partitions_end : (let s := State.reset.modPart 3 fun p => { p with valid := true, clusters := 8, destroying := true }
    (s.parts.get 3).valid = true ∧ (s.parts.get 3).destroying = true ∧ s.partBusy 3 = false) := by decide +kernel

theorem witness_TranslationControl : owned.inReset = false ∧ owned.ownsAsid (some 0) 1 = true ∧ owned.ownsAsid none 1 = false ∧ owned.ownsCore (some 0) 0 = true ∧
    (owned.clusters.get 0).ilvZ = 0 ∧ (2 ^ 21 : Nat) % 2 ^ 21 = 0 ∧ (2 ^ 21 : Nat) ≤ 2 ^ 27 ∧ coreAt 0 0 = 0 ∧
    (let s := { owned with invals := [(1, 0x5000, [(0, 0)])] }
     s.invals.find? (fun x => x.1 == 1 && x.2.1 == 0x5000) = some (1, 0x5000, [(0, 0)]) ∧ ((s.core 0).acc? 0).isSome = false) ∧
    (let s := owned.modClus 0 fun z => { z with ilvQ := 0, ilvZ := 190 * 2 ^ 20 }
     (s.clusters.get 0).ilvZ ≠ 0 ∧ 192 * 2 ^ 20 < (s.clusters.get 0).ilvQ + (s.clusters.get 0).ilvZ + 2 ^ 22) := by decide +kernel

/-- The private size of core 0 leaves room for an interleave region up to it, and for none beyond. -/
theorem witness_TranslationControl_interleave : (∀ i, i < 192 → 2 ^ 21 + 2 ^ 21 + (owned.core (coreAt 0 i)).psize ≤ 192 * 2 ^ 20) ∧
    ¬(2 ^ 21 + 192 * 2 ^ 20 + (owned.core (coreAt 0 0)).psize ≤ 192 * 2 ^ 20) := by decide +kernel

theorem witness_PoliciesAndHost : (owned.parts.get 0).valid = true ∧ owned.inReset = false ∧ owned.hyper = true ∧ owned.managed = true ∧
    owned.resident 1 = false ∧ owned.resident 0 = true ∧ (owned.groups.countP fun g => g.part == 0) < 4096 ∧
    (∀ q ∈ owned.colls, ¬(q.part = 0 ∧ q.group = 1)) ∧ owned.bound (some 0) 0 = true ∧ owned.bound none 0 = false ∧
    (let s := { owned with hostAsid := some 1 }
     let w : Party := { core := none, part := 0, asid := 1 }
     s.spaceOf 1 = some { asid := 1, part := 0, root := some 0x200000 } ∧ (reads s w 0x100000 8).isSome = true ∧ lands s w 0x100000 8 = true) := by
  decide +kernel

/-! Power, network and trust -/

theorem witness_CapsAndPhases : State.reset.inReset = false ∧ (State.reset.rails.get 0).phaseok ≠ 0 ∧
    (let s := State.reset.modClus 2 fun z => { z with passes := 4 }
     (500 : Nat) < (s.rails.get (s.clusters.get 2).rail).ilim.toNat ∧ (s.clusters.get 2).passes ≠ 1 ∧
       ∀ j : ClusId, j < 2 → (s.clusters.get j).rail = (s.clusters.get 2).rail → (s.clusters.get j).passes = 1) ∧
    ¬((State.reset.clusters.get 2).passes ≠ 1) := by decide +kernel

/-- Two partitions draw more than the cap, the second most above its floor; and one core of a package has been idle long enough. -/
theorem witness_ThrottlingAndTemperature_cap : (let s := ((ready id).modPart 0 fun p => { p with floor := 1000 }).modPart 1 fun p =>
      { p with valid := true, clusters := 2, floor := 600 }
    let draw := [1500, 1300]
    let slows (p : PartId) : Bool := (List.finRange 8).any fun k => let z := s.clusters.get k
      (s.parts.get p).clusters.getLsbD k.val && (z.passes == 1 || z.passes == 2 || !z.lowClock)
    let above (p : PartId) : Nat := if (s.parts.get p).valid && slows p then draw.getD p.val 0 - (s.parts.get p).floor else 0
    s.inReset = false ∧ s.cap < draw.sum ∧ 0 < above 1 ∧ (∀ q, q < 1 → above q < above 1) ∧ ∀ q, above q ≤ above 1) ∧
    (([1000] : List Nat).sum ≤ State.reset.cap) ∧ (State.reset.cap < ([3000] : List Nat).sum ∧ (State.reset.parts.get 0).valid = false) ∧
    (let k := (State.reset.modCore 5 fun k => { k with idle := 1024 }).core 5
     (∀ ti, (k.team ti).live = false) ∧ k.eng = [] ∧ k.mat = [] ∧ 1024 ≤ k.idle) := by decide +kernel

theorem witness_ThrottlingAndTemperature_temperature : State.reset.inReset = false ∧ (State.reset.clusters.get 0).throttled = false ∧
    (State.reset.clusters.get 0).stopped = false ∧
    (let s := (ready fun g => { g with watchdog := 2 ^ 32 })
     (s.gangAt 0 0).live = true ∧ (s.gangAt 0 0).hung = false ∧ (s.parts.get (s.teamAt 0 0).part).wdlim ≤ (s.gangAt 0 0).watchdog) := by decide +kernel

/-- Each threshold of R417 from both sides. -/
theorem witness_ThrottlingAndTemperature_thresholds : (let s := State.reset
    let z (i : Instr) : Cluster := (after i s).clusters.get 0
    (z (.refreshDouble 0 85)).refresh2 = false ∧ (z (.refreshDouble 0 86)).refresh2 = true ∧
      (z (.thermalThrottle 0 89)).throttled = false ∧ (z (.thermalThrottle 0 90)).throttled = true ∧
      (z (.thermalStop 0 94)).stopped = false ∧ (z (.thermalStop 0 95)).stopped = true ∧
      (after (.thermalTrip 0 104) s).inReset = false ∧ (after (.thermalTrip 0 105) s).inReset = true ∧ (after (.thermalTrip 0 105) s).trip = some 0) ∧
    (let s := State.reset.modClus 0 fun z => { z with refresh2 := true, throttled := true, stopped := true }
     let z (i : Instr) : Cluster := (after i s).clusters.get 0
     (z (.refreshRateRestore 0 85)).refresh2 = false ∧ (z (.refreshRateRestore 0 86)).refresh2 = true ∧
       (z (.thermalThrottleEnd 0 89)).throttled = false ∧ (z (.thermalThrottleEnd 0 90)).throttled = true ∧
       (z (.thermalStopEnd 0 89)).stopped = false ∧ (z (.thermalStopEnd 0 90)).stopped = true) := by decide +kernel

/-- Two flits at output 3 of cluster 0: one of input 1 without budget, one of input 2 in budget, which is granted; then a message keeps the
output. -/
theorem witness_CrossbarGrants : (let a : Flit := { input := 1, part := 0, cls := 0, collective := false, last := true, msg := none }
    let b : Flit := { input := 2, part := 1, cls := 0, collective := false, last := false, msg := none }
    let s := State.reset.modClus 0 fun z =>
      { z with inForce := z.inForce.set 0 (Vector.replicate 6 { collpri := false, unlim := false, flits := 0 }) }
    s.inReset = false ∧ [a, b].filter (s.onRoute 0 3) = [a, b] ∧ (s.core (coreAt 0 0)).gated = false ∧
    (([a, b]).map (·.input)).Nodup ∧ ((s.clusters.get 0).output 3).lock = none ∧ Granted (s.clusters.get 0) 3 [a, b] b ∧
      (let z := (s.clusters.get 0).setOutput { out := 3, order := [2], lock := some 2 }
       (z.output 3).lock = some b.input ∧ ∀ f ∈ [a], f.input ≠ 2)) := by
  refine ⟨rfl, by decide +kernel, by decide +kernel, by decide, by decide +kernel,
    ⟨⟨by decide, fun _ => ⟨Or.inl (by decide +kernel), fun h => ?_⟩⟩, fun g hg hne => ?_⟩, by decide +kernel, by decide⟩
  · exact absurd h.1 (by decide +kernel)
  · obtain ⟨hm, hc⟩ := hg
    rcases List.mem_cons.1 hm with rfl | hm
    · exfalso
      have := (hc ⟨{ input := 2, part := 1, cls := 0, collective := false, last := false, msg := none }, by decide, Or.inl (by decide +kernel)⟩).1
      revert this
      unfold InBudget
      decide +kernel
    · rcases List.mem_singleton.1 hm with rfl
      exact absurd rfl hne

/-- A message from die 0 to die 5 takes the hop to the right on its escape channel, and from die 1 the hop across, at whose end it leaves; a
message enters that has been blocked long enough; and the cores of a cluster are all gated. -/
theorem witness_CrossbarGrants_escape : (let m : Msg := { num := 7, cls := 2, place := 0, dest := 5 }
    let f : Flit := { input := 1, part := 0, cls := 2, collective := false, last := true, msg := some 7 }
    let s := { State.reset with escaped := [m] }
    [f].filter (s.onRoute 0 dieRight) = [f] ∧ [f].filter (s.onRoute 0 dieAcross) = [] ∧ s.escapedMsg 0 f = some m ∧ dieNext 0 dieRight = 1 ∧
      escapeHop 1 5 = some dieAcross ∧ dieNext 1 dieAcross = m.dest ∧ State.reset.escwait.toNat ≤ 256 ∧ m.place ≠ m.dest) ∧
    (let s := { State.reset with cores := State.reset.cores.map fun (k : Core) => { k with gated := true } }
     ∀ i, i < 192 → (s.core (coreAt 3 i)).gated = true) := by
  refine ⟨by decide +kernel, fun i _ => ?_⟩
  simp [State.core, State.reset, Vector.get]

/-- A link that is up. -/
def linkOf (port : LinkPort) (tx received fails : Nat) : Link :=
  { port := port, up := true, tx := tx, rx := 2, sent := 0, received := received, authFails := fails }

theorem witness_Links : (State.reset.link (.brodlink 0)).up = false ∧ State.reset.inReset = false ∧ chainOk [] = false ∧
    (let s := State.reset.setLink (linkOf (.brodlink 0) 1 0 15)
     (s.link (.brodlink 0)).up = true ∧ 16 ≤ (s.link (.brodlink 0)).authFails + 1) ∧
    (let s := State.reset.setLink (linkOf (.brodlink 0) 1 0 14)
     (s.link (.brodlink 0)).authFails + 1 < 16) ∧
    (let s := State.reset.setLink { linkOf (.ethernet 0) 1 0 0 with up := false }
     (s.link (.ethernet 0)).tx ≠ 0 ∧ (s.link (.ethernet 0)).rx ≠ 0 ∧ (s.link (.ethernet 0)).up = false) ∧
    (State.reset.link (.ethernet 0)).tx = 0 := by decide +kernel

/-- The session with the far end of Brodlink port 0, and none with that of port 1. -/
theorem witness_Links_session : (let y := sessionOf 3 true none (some 0)
    let s := { State.reset with spdm := { State.reset.spdm with sessions := [y] } }
    (y ∈ s.spdm.sessions ∧ y.id = 3 ∧ y.finished = true ∧ y.port = some 0) ∧ (∀ z ∈ s.spdm.sessions, z.id = 3 → z = y) ∧
      ∀ z ∈ s.spdm.sessions, z.port ≠ some 1) := by decide +kernel

/-- A key has served 2^40 frames with the 2^39 that pass now, and has not with one fewer; and of the keys some have a next one. -/
theorem witness_Links_frames : (let s := State.reset.setLink (linkOf (.brodlink 0) 1 (2 ^ 39) 0)
    let x := s.link (.brodlink 0)
    x.up = true ∧ 2 ^ 40 ≤ 2 ^ 39 + x.received ∧ 2 ^ 39 - 1 + x.received < 2 ^ 40 ∧ 2 ^ 39 + x.sent < 2 ^ 40) ∧
    (∀ k, nextKeyOf k ≠ 0 ∨ nextKeyOf k = 0) := ⟨by decide +kernel, fun _ => (em _).symm⟩

/-- No concrete chain can be shown to verify, since the root's keys are a free value; each list of chains meets one of the two hypotheses, and
a certificate under both signatures of the root keys the first. -/
theorem witness_Links_chains (c : Cert) (h : rsaPssOk Config.rootKeys c.bytes c.rsaSig = true)
    (h2 : slhDsaOk Config.rootKeys c.bytes c.slhSig = true) : chainOk [c] = true ∧ chainOk [c] = true := by
  simp [chainOk, chainFrom, bothOk, h, h2]

/-- The data of the exchange of gang 0 that `expecting` shows have been sent, and a link may lose them; a collective that a port carries. -/
theorem witness_Links_lost : (let m : XMsg := { part := 0, grid := 0, fromTeam := 0, fromGang := 1, toTeam := 0, toGang := 0, tag := 9, n := 0, em := 1, data := [] }
    let s := { expecting 1 with xmsgs := [m] }
    s.exchangeSent (0, 0, ((((s.gangAt 0 0).pend.map (·.id)).headD 0)))) = true ∧
    (let q : Collective := { part := 0, group := 1, n := 0, mems := [], joined := [], known := false, result := none }
     let g : Group := { part := 0, num := 1, members := [{ dev := 5, clus := 0, port := none }], tree := [0], counts := [] }
     let s := { State.reset with colls := [q], groups := [g] }
     s.group? q.part q.group = some g ∧ g.crosses (.brodlink 0) = true ∧ g.crosses (.brodlink 1) = false) := by decide +kernel

/-- The root's keys are a free value: of three like images either the first hypothesis holds or the second, for the first image; an image
older than the fused minimum, and one that is missing, meets the second. -/
theorem witness_BootAndAttestation_boot (x : Image) : (let s := { State.reset with minVersion := 3 }
    let good (x : Image) : Prop := rsaPssOk Config.rootKeys (imageBytes x) x.rsaSig = true ∧
      slhDsaOk Config.rootKeys (imageBytes x) x.slhSig = true ∧ s.minVersion ≤ x.version.toNat
    (good x ∨ ∀ y, [x, x, x][0]? = some y → ¬good y) ∧
      (∀ y, [({ version := 2, body := [], rsaSig := [], slhSig := [] } : Image)][0]? = some y → ¬good y) ∧
      ∀ y, ([] : List Image)[0]? = some y → ¬good y) := by
  refine ⟨(Classical.em _).imp id fun h y hy => ?_, fun y hy => ?_, fun y hy => by cases hy⟩
  · cases hy; exact h
  · cases hy; rintro ⟨-, -, h⟩; revert h; decide

theorem witness_BootAndAttestation : State.reset.inReset = false ∧
    (let x := sessionOf 7 false none none
     let y := sessionOf 9 true none none
     let s := { State.reset with spdm := { version := true, caps := true, algs := true, vca := [], ident := [], sessions := [x, y] } }
     s.spdm.version = true ∧ s.spdm.caps = true ∧ s.spdm.algs = true ∧ s.session? 7 = some x ∧ s.session? 9 = some y ∧
       (∀ z ∈ s.spdm.sessions, z.id ≠ 8) ∧ (s.parts.get 0).valid = false ∧ (0x81 : Byte) ∈ spdmCodes ∧ (0x80 : Byte) ∉ spdmCodes) ∧
    onP384 p384G = true ∧ onP384 (p384G.1, p384G.2 + 1) = false ∧
    owned.bound (some 0) 0 = true ∧ owned.bound none 0 = false := by
  refine ⟨rfl, by decide +kernel, by decide +kernel, by decide +kernel, by decide +kernel, by decide +kernel⟩

/-- FIPS 180-4's SHA-384 of "abc". -/
theorem test_sha384 : sha384 [0x61, 0x62, 0x63] = beBytes 48
    0xcb00753f45a35e8bb5a03d699ac65007272c32ab0eded1631a8b605a43ff5bed8086072ba1e7cc2358baeca134c825a7 := by decide +kernel

/-! The whole machine -/

/-- The machine with the words of an `add` and of a `movi` where its next fetch is. -/
theorem witness_MemoryStaysCanonical : MemWf (State.reset.withFetchWord 32 0x01101086) ∧
    (match step (State.reset.withFetchWord 32 0x01101086) with | .next t => t.sel == false | _ => false) = true := by
  refine ⟨?_, by decide +kernel⟩
  show (State.reset.withFetchWord 32 0x01101086).mem.wf = true
  decide +kernel

theorem witness_DecodeEncodeRoundTrip : (Instr.add 4 1 2 0 6).wf = true ∧ encode (.add 4 1 2 0 6) = some (0x01101086, none) ∧
    (Instr.movi 3 0 0x3FC00000).wf = true ∧ encode (.movi 3 0 0x3FC00000) = some (0x2C0C0000, some 0x3FC00000) ∧
    decode 0x01101086 0 = .ok (.add 4 1 2 0 6) := ⟨by decide, by decide, by decide, by decide, by rfl⟩

/-- What the fetches of a step give where the instruction is `i`, of words `x` and perhaps `y`. -/
def fetchesOf (s : State) (va : DWord) : List Byte :=
  match s.translate (some s.cur.core) s.t.asid va 4 false with
  | .ok p => if s.bad (memIx p.dev p.pa) then [] else s.viewN s.cur.core s.t.part p.dev p.pa.toNat 4
  | .error _ => []

theorem fetchesOf_spec {s : State} {va : DWord} {bs : List Byte} (h : fetchesOf s va = bs) (hb : bs ≠ []) : ∃ p, Fetches s va bs p := by
  unfold fetchesOf at h
  split at h
  · rename_i p hp
    split at h
    · exact absurd h.symm hb
    · rename_i hs
      exact ⟨p, hp, by simpa using hs, h.symm⟩
  · exact absurd h.symm hb

theorem witness_StepRunsDecoded : (let s := State.reset.withFetchWord 32 0x01101086
    s.agenda = [] ∧ s.sel = true ∧ s.cursorLive = true ∧ s.g.debugHalt = none ∧ fetchesOf s s.pc = [0x86, 0x10, 0x10, 0x01] ∧
      decodeBytes [0x86, 0x10, 0x10, 0x01] = .ok (.add 4 1 2 0 6, []) ∧ s.interlocked (.add 4 1 2 0 6) = false ∧ s.badEnd 0x01101086 = false) := by
  decide +kernel

theorem witness_StepRunsDecoded_literal : (let s := State.reset.withFetchWord 64 0x3FC000002C0C0000
    s.sel = true ∧ s.cursorLive = true ∧ fetchesOf s s.pc = [0x00, 0x00, 0x0C, 0x2C] ∧ fetchesOf s (s.pc + 4) = [0x00, 0x00, 0xC0, 0x3F] ∧
      takesLiteral (opcodeOf 0x2C0C0000) = true ∧ decodeBytes [0x00, 0x00, 0x0C, 0x2C, 0x00, 0x00, 0xC0, 0x3F] = .ok (.movi 3 0 0x3FC00000, []) ∧
      s.interlocked (.movi 3 0 0x3FC00000) = false ∧ s.badEnd 0x2C0C0000 = false) := by decide +kernel

/-- A gang that is to take a DEBUG_HALT. -/
theorem witness_StepRunsDecoded_debug : (let s := ((State.reset.withFetchWord 32 0x01101086).modT fun t => { t with trapbase := 0x1000 }).modG fun g =>
      { g with debugHalt := some 0 }
    s.agenda = [] ∧ s.sel = true ∧ s.cursorLive = true ∧ s.g.debugHalt.isSome = true ∧ TrapReady s) :=
  ⟨rfl, rfl, by decide +kernel, by decide +kernel, rfl, by decide +kernel, by decide +kernel⟩

/-- A selected fragment whose core has been halted since. -/
theorem witness_StepRunsDecoded_kept : (let s := (State.reset.withFetchWord 32 0x01101086).modCore 0 fun k => { k with halted := true }
    s.agenda = [] ∧ s.sel = true ∧ s.cursorLive = false) := by decide +kernel

/-- A word that is no instruction, without a literal and with one. -/
theorem witness_StepRunsDecoded_illegal : (let s := (State.reset.withFetchWord 32 0xFFFFFFFF).modT fun t => { t with trapbase := 0x1000 }
    s.sel = true ∧ s.cursorLive = true ∧ fetchesOf s s.pc = [0xFF, 0xFF, 0xFF, 0xFF] ∧ takesLiteral (opcodeOf 0xFFFFFFFF) = false ∧
      (match decodeBytes [0xFF, 0xFF, 0xFF, 0xFF] with | .ok _ => false | .error _ => true) = true ∧
      s.cur.hnd = false ∧ s.g.intrap = false ∧ s.t.trapbase ≠ 0) ∧
    takesLiteral (opcodeOf 0x4010830C) = true ∧
    (match decodeBytes [0x0C, 0x83, 0x10, 0x40, 0x64, 0, 0, 0] with | .ok _ => false | .error _ => true) = true := by decide +kernel

end Sys2Proof.Tests
end

section
/-!
SUPPORT. Lane operations that round (R118, R119): the elements of a packed result, the draws of a lane, codes within their format's
width, and the completion of an instruction that draws.
-/
namespace Sys2Proof.Machine

open Sys2Proof.Spec

/-! ### Packed elements (R11) -/

theorem packed_div_mod (w : Nat) (xs : List Nat) (k : Nat) (hk : k < xs.length) :
    packed w xs / 2 ^ (w * k) % 2 ^ w = xs[k] % 2 ^ w := by
  induction xs generalizing k with
  | nil => simp at hk
  | cons x xs ih =>
    cases k with
    | zero => simp [packed]
    | succ k =>
      have shift : packed w (x :: xs) / 2 ^ w = packed w xs := by
        rw [packed, Nat.add_mul_div_left _ _ (Nat.two_pow_pos w), Nat.div_eq_of_lt (Nat.mod_lt _ (Nat.two_pow_pos w)), Nat.zero_add]
      rw [Nat.mul_succ, Nat.add_comm, Nat.pow_add, ← Nat.div_div_eq_div_mul, shift]
      exact ih k (by simpa using hk)

/-- An element that lies within the low `n` bits does not see the bits above them. -/
theorem mod_div_mod_two_pow (x : Nat) {a w n : Nat} (h : a + w ≤ n) : x % 2 ^ n / 2 ^ a % 2 ^ w = x / 2 ^ a % 2 ^ w := by
  obtain ⟨c, rfl⟩ := Nat.exists_eq_add_of_le (Nat.le_of_add_right_le h)
  rw [Nat.pow_add, Nat.mod_mul_right_div_self, Nat.mod_mod_of_dvd _ (Nat.pow_dvd_pow 2 (by omega))]

theorem elem_ofElems {w k : Nat} {xs : List Nat} (hw : w * xs.length ≤ 64) (hk : k < xs.length) :
    elem w (ofElems w xs) k = xs[k] % 2 ^ w := by
  have fits : w * k + w ≤ 64 := (Nat.mul_le_mul_left w hk).trans hw
  rw [elem, ofElems, BitVec.toNat_ofNat, mod_div_mod_two_pow _ fits, packed_div_mod w xs k hk]

@[simp] theorem bits_cellOf (w : Nat) (xs : List Nat) (srcs : List VCell) : (cellOf w xs srcs).bits = ofElems w xs := by
  unfold cellOf
  split <;> rfl

theorem marked_cellOf (w : Nat) (xs : List Nat) (srcs : List VCell) : Marked w srcs (cellOf w xs srcs) := by
  unfold Marked cellOf
  split <;> exact ⟨rfl, rfl⟩

/-! ### Draws (R74, R119) -/

/-- What one element does to its lane's generator (R119). -/
def drawStep (mode : Nat) : Word → Word := if mode = 4 then xorshift else id

theorem toNat_eq_four (r : BitVec 3) : r.toNat = 4 ↔ r = 4 := BitVec.toNat_inj (y := 4)

theorem drawStep_iterate (mode n : Nat) (st : Word) : (drawStep mode)^[n] st = if mode = 4 then xorshift^[n] st else st := by
  unfold drawStep
  split
  · rfl
  · exact congrFun (Function.iterate_id n) st

theorem drawEach_cons (mode : Nat) (st : Word) (f : Nat → Nat) (fs : List (Nat → Nat)) :
    drawEach mode st (f :: fs) = ((drawEach mode (drawStep mode st) fs).1,
      f (drawOf (drawStep mode st)) :: (drawEach mode (drawStep mode st) fs).2) := by
  unfold drawStep
  rw [drawEach]
  split <;> rfl

theorem drawEach_fst (mode : Nat) (st : Word) (fs : List (Nat → Nat)) :
    (drawEach mode st fs).1 = (drawStep mode)^[fs.length] st := by
  induction fs generalizing st with
  | nil => rfl
  | cons f fs ih => rw [drawEach_cons, ih, List.length_cons, Function.iterate_succ_apply]

/-- Element `k` takes the word of the generator's state after `k + 1` steps. -/
theorem drawEach_snd (mode : Nat) (st : Word) (fs : List (Nat → Nat)) :
    (drawEach mode st fs).2 = fs.mapIdx fun k f => f (drawOf ((drawStep mode)^[k + 1] st)) := by
  induction fs generalizing st with
  | nil => rfl
  | cons f fs ih => simp [drawEach_cons, ih, List.mapIdx_cons, Function.iterate_succ_apply]

/-- The elements of a lane, where element `k` is `g k` of its draw and no mode but `.rsto` looks at the draw. -/
theorem drawEach_getElem {mode n : Nat} {st : Word} {g : Nat → Nat → Nat} (hd : mode ≠ 4 → ∀ k x y, g k x = g k y) (k : Nat)
    (hk : k < (drawEach mode st ((List.range n).map g)).2.length) :
    (drawEach mode st ((List.range n).map g)).2[k] = g k (drawOf (xorshift^[k + 1] st)) := by
  simp only [drawEach_snd, List.getElem_mapIdx, List.getElem_map, List.getElem_range]
  by_cases h : mode = 4
  · rw [drawStep_iterate, if_pos h]
  · exact hd h k _ _

@[simp] theorem drawEach_length (mode : Nat) (st : Word) (fs : List (Nat → Nat)) : (drawEach mode st fs).2.length = fs.length := by
  simp [drawEach_snd]

/-! ### Rounding: the draw and the range of the result (R71 to R73) -/

theorem roundsUp_draw {mode : Nat} (h : mode < 4) (neg : Bool) (n r sh : Nat) (sticky : Bool) (x y : Nat) :
    roundsUp mode neg n r sh sticky x = roundsUp mode neg n r sh sticky y := by
  match mode, h with
  | 0, _ | 1, _ | 2, _ | 3, _ => rfl

theorem roundTo_draw {mode : Nat} (h : mode < 4) (neg : Bool) (m : Nat) (e q : Int) (sticky : Bool) (x y : Nat) :
    roundTo mode neg m e q sticky x = roundTo mode neg m e q sticky y := by
  simp only [roundTo, roundsUp_draw h neg _ _ _ sticky x y]

/-- Only `.rsto` looks at the draw of a rounding (R71). -/
theorem ofVal_draw (f : Fmt) {mode : Nat} (h : mode < 4) (v : FVal) (x y : Nat) : f.ofVal mode x v = f.ofVal mode y v := by
  cases v with
  | nan => rfl
  | inf neg => rfl
  | fin neg m e => simp only [Fmt.ofVal, Fmt.round, Fmt.roundMag, roundTo_draw h neg m e _ false x y]

theorem toIntegral_draw {mode : Nat} (h : mode < 4) (v : FVal) (x y : Nat) : v.toIntegral mode x = v.toIntegral mode y := by
  cases v with
  | nan => rfl
  | inf neg => rfl
  | fin neg m e => simp only [FVal.toIntegral, roundTo_draw h neg m e 0 false x y]

/-- The codes that a format names lie below its sign bit (R69). -/
structure Fmt.Fits (f : Fmt) : Prop where
  max : f.maxCode < 2 ^ (f.ebits + f.mbits)
  inf : f.infCode.getD f.maxCode < 2 ^ (f.ebits + f.mbits)
  nan : f.nanCode < 2 ^ (f.ebits + f.mbits)

theorem fmtOf_fits (t : Bool) : (fmtOf t).Fits := by
  cases t <;> exact ⟨by decide, by decide, by decide⟩

theorem roundMag_lt {f : Fmt} (h : f.Fits) (mode : Nat) (neg : Bool) (m : Nat) (e : Int) (sticky : Bool) (draw : Nat) :
    f.roundMag mode neg m e sticky draw < 2 ^ (f.ebits + f.mbits) := by
  unfold Fmt.roundMag
  split
  · exact Nat.two_pow_pos _
  · dsimp only
    split
    · rename_i hle
      exact hle.trans_lt h.max
    · split
      · exact h.max
      · split
        · exact h.max
        · split
          exacts [h.max, h.inf]
        · split
          exacts [h.inf, h.max]
        · exact h.inf

theorem pack_lt (f : Fmt) (neg : Bool) {mag : Nat} (h : mag < 2 ^ (f.ebits + f.mbits)) : f.pack neg mag < 2 ^ f.width := by
  have hw : 2 ^ f.width = 2 * 2 ^ (f.ebits + f.mbits) := by rw [Fmt.width, Nat.add_assoc, Nat.add_comm, Nat.pow_succ, Nat.mul_comm]
  cases neg <;> simp [Fmt.pack] <;> omega

/-- A rounded value is a code of its format's width. -/
theorem ofVal_lt {f : Fmt} (h : f.Fits) (mode draw : Nat) (v : FVal) : f.ofVal mode draw v < 2 ^ f.width := by
  cases v with
  | nan => simpa [Fmt.ofVal, Fmt.nan, Fmt.pack] using pack_lt f false h.nan
  | inf neg => exact pack_lt f neg h.inf
  | fin neg m e => exact pack_lt f neg (roundMag_lt h mode neg m e false draw)

/-! ### Completion of an instruction that draws -/

theorem State.g_advanceRng (s : State) (mode : Nat) (fs : LaneId → List (Nat → Nat)) : (s.advanceRng mode fs).g =
    { s.g with rng := Vector.ofFn fun l => if s.active l then (drawEach mode (s.g.rng.get l) (fs l)).1 else s.g.rng.get l } := by
  rw [State.advanceRng, State.g_modG]

@[simp] theorem State.em_advanceRng (s : State) (mode : Nat) (fs : LaneId → List (Nat → Nat)) : (s.advanceRng mode fs).em = s.em := by
  rw [State.em, State.f, State.g_advanceRng]
  rfl

/-- The generators afterwards: the active lanes' have gone on by one step for each element. -/
theorem rng_advanceRng (s : State) (mode : Nat) (fs : LaneId → List (Nat → Nat)) (l : LaneId) :
    (s.advanceRng mode fs).g.rng.get l = if s.active l then (drawStep mode)^[(fs l).length] (s.g.rng.get l) else s.g.rng.get l := by
  simp [State.g_advanceRng, Vector.get_eq_getElem, drawEach_fst]

/-- In a mode other than `.rsto` no generator goes on (R119). -/
theorem rng_advanceRng_of_ne (s : State) {mode : Nat} (h : mode ≠ 4) (fs : LaneId → List (Nat → Nat)) :
    (s.advanceRng mode fs).g.rng = s.g.rng := by
  ext i hi : 1
  simpa [Vector.get_eq_getElem, drawStep_iterate, h] using rng_advanceRng s mode fs ⟨i, hi⟩

/-- A write of a vector register of a gang whose generators alone differ from those of `g`. -/
theorem Wrote.rng_first {em : BitVec 32} {g h : Gang} {d : RegField} {b : Bool} (x : Vector Word 32) (hx : b = false → x = g.rng)
    (a : Wrote { vec := [d] } em { g with rng := x } h) : Wrote { vec := [d], rng := b } em g h :=
  { a with
    vec := a.vec, uni := a.uni, mask := a.mask, dir := a.dir, acc := a.acc, lc := a.lc
    rng := fun e => (a.rng rfl).trans (hx e) }

@[simp] theorem rng_writeV (g : Gang) (d : RegField) (em : BitVec 32) (c : LaneId → VCell) : (g.writeV d em c).rng = g.rng := rfl

theorem wrote_vsDraw (s : State) (d : RegField) (r : BitVec 3) (fs : LaneId → List (Nat → Nat)) (c : LaneId → VCell) :
    Wrote { vec := [d], rng := r == 4 } s.em s.g ((s.advanceRng r.toNat fs).writeV d c).g := by
  have off : (r == 4) = false → (s.advanceRng r.toNat fs).g.rng = s.g.rng := fun h =>
    rng_advanceRng_of_ne s (fun e => beq_eq_false_iff_ne.1 h ((toNat_eq_four r).1 e)) fs
  refine Wrote.rng_first _ off ?_
  rw [g_writeV, State.em_advanceRng, State.g_advanceRng]
  exact wrote_writeV s.em _ d c

/-- An instruction that computes `n` elements in each active lane, each with its own draw (R119): each lane of `vd` holds its results
with the marks of R110, and under `.rsto` each active lane has drawn `n` times. -/
theorem vsDraw_completes {i : Instr} {s : State} {d : RegField} {p : Option RegField} {w n : Nat} {r : BitVec 3} {srcs : List RegField}
    {fs : LaneId → List (Nat → Nat)} (hc : Calm s) (hx : exec i s = .next (s.vsDraw d p w r.toNat srcs fs))
    (hn : ∀ l, (fs l).length = n) :
    Completes i s { vec := [d], rng := r == 4 } fun t =>
      (∀ l, s.active l → t.v d l = cellOf w (s.drawn r.toNat fs l) (srcs.map fun q => s.v q l)) ∧ Drew s t r n := by
  have a := wrote_vsDraw s d r fs fun l => cellOf w (s.drawn r.toNat fs l) (srcs.map fun q => s.v q l)
  have q : Passed _ (s.vsDraw d p w r.toNat srcs fs) := completeV_passed (calm_of hc a) 4 p
  refine ⟨_, hx, q.sel, frame_of ((onlyGang_modG s _).trans (onlyGang_writeV _ d _)) a q, fun l hl => ?written, fun l => ?drew⟩
  case written => rw [State.v, q.gang.v, g_writeV, Gang.v_writeV, State.em_advanceRng, if_pos ⟨rfl, hl⟩]
  case drew =>
    rw [q.gang.rng, g_writeV, rng_writeV, rng_advanceRng, hn, drawStep_iterate, ← ite_and]
    exact if_congr (by rw [toNat_eq_four, and_comm]) rfl rfl

/-- Where element `k` of a lane is `g l k` of its draw, a number of `w` bits that only `.rsto` lets depend on the draw, the lanes hold
the elements `g l k` with the draws of R119. -/
theorem vsDraw_drawOp {i : Instr} {s : State} {d : RegField} {p : Option RegField} {w n : Nat} {r : BitVec 3} {srcs : List RegField}
    {fs : LaneId → List (Nat → Nat)} (g : LaneId → Nat → Nat → Nat) (hc : Calm s)
    (hx : exec i s = s.legal i (s.vsDraw d p w r.toNat srcs fs)) (hr : i.wf = true → roundOk r = true) (hw : w * n ≤ 64)
    (hfs : ∀ l, fs l = (List.range n).map (g l)) (hlt : ∀ l k draw, g l k draw < 2 ^ w)
    (hd : r.toNat < 4 → ∀ l k x y, g l k x = g l k y) :
    DrawOp i s d r n fun l z =>
      (∀ k, k < n → elem w z.bits k = g l k (drawAt s l k)) ∧ Marked w (srcs.map fun q => s.v q l) z := by
  intro wf
  have mode : r.toNat ≤ 4 := of_decide_eq_true (hr wf)
  have len : ∀ l, (fs l).length = n := fun l => by simp [hfs]
  obtain ⟨t, ht, hsel, hframe, hv, hdrew⟩ := vsDraw_completes hc (hx.trans (legal_next wf)) len
  refine ⟨t, ht, hsel, hframe, fun l hl => ?_, hdrew⟩
  have size : (s.drawn r.toNat fs l).length = n := by rw [State.drawn, drawEach_length, len]
  rw [hv l hl]
  refine ⟨fun k hk => ?_, marked_cellOf _ _ _⟩
  have nth : (s.drawn r.toNat fs l)[k]'(size.symm ▸ hk) = g l k (drawAt s l k) := by
    simp only [State.drawn, hfs]
    exact drawEach_getElem (fun h => hd (lt_of_le_of_ne mode h) l) k _
  rw [bits_cellOf, elem_ofElems (size.symm ▸ hw) (size.symm ▸ hk), nth, Nat.mod_eq_of_lt (hlt l k _)]

/-- A floating-point operation whose element `k` is an exact value rounded once in the instruction's mode with its own draw. -/
theorem vsDraw_rounds {i : Instr} {s : State} {d : RegField} {p : Option RegField} {t : Bool} {r : BitVec 3} {srcs : List RegField}
    {fs : LaneId → List (Nat → Nat)} {value : LaneId → Nat → FVal} (hc : Calm s)
    (hx : exec i s = s.legal i (s.vsDraw d p (fmtOf t).width r.toNat srcs fs)) (hr : i.wf = true → roundOk r = true)
    (hfs : ∀ l, fs l = (List.range (64 / (fmtOf t).width)).map fun k draw => (fmtOf t).ofVal r.toNat draw (value l k)) :
    DrawOp i s d r (64 / (fmtOf t).width) fun l z =>
      (∀ k, k < 64 / (fmtOf t).width → elem (fmtOf t).width z.bits k = (fmtOf t).ofVal r.toNat (drawAt s l k) (value l k)) ∧
        Marked (fmtOf t).width (srcs.map fun q => s.v q l) z :=
  vsDraw_drawOp (fun l k draw => (fmtOf t).ofVal r.toNat draw (value l k)) hc hx hr (Nat.mul_div_le 64 _) hfs
    (fun _ _ draw => ofVal_lt (fmtOf_fits t) _ draw _) fun h _ _ x y => ofVal_draw _ h _ x y

/-! ### The elements of a lane, by number -/

theorem fpairs_eq (s : State) (f : Fmt) (a b : RegField) (op : Nat → Nat → Nat → Nat) (l : LaneId) :
    s.fpairs f a b op l =
      (List.range (64 / f.width)).map fun k draw => op draw (elem f.width (s.v a l).bits k) (elem f.width (s.v b l).bits k) := by
  simp [State.fpairs, elems, List.zipWith_map, List.zipWith_self]

/-- The elements of an accumulating operation, each with a draw. -/
theorem ftriples_eq (w : Nat) (x y z : DWord) (op : Nat → Nat → Nat → Nat → Nat) :
    List.zipWith (fun g c draw => g draw c) (List.zipWith (fun a b draw c => op draw a b c) (elems w x) (elems w y)) (elems w z) =
      (List.range (64 / w)).map fun k draw => op draw (elem w x k) (elem w y k) (elem w z k) := by
  simp [elems, List.zipWith_map, List.zipWith_self]

end Sys2Proof.Machine
end

section
open Sys2Proof Sys2Proof.Machine Sys2Proof.Spec

/-- Settles O4: each instruction's elements are one rounding of an exact value, and no mode but `.rsto` looks at a draw. -/
theorem floatArithmetic : Obligations.FloatArithmetic := by
  intro s d a b h t r hc
  refine ⟨?fadd, ?fsub, ?fmul, ?ffma, ?fround⟩
  case fadd => exact vsDraw_rounds hc rfl Bool.and_elim_right (fpairs_eq s _ a b _)
  case fsub => exact vsDraw_rounds hc rfl Bool.and_elim_right (fpairs_eq s _ a b _)
  case fmul => exact vsDraw_rounds hc rfl Bool.and_elim_right (fpairs_eq s _ a b _)
  case ffma => exact vsDraw_rounds hc rfl id fun l => ftriples_eq _ _ _ _ _
  case fround =>
    exact vsDraw_drawOp (srcs := [a]) (fun l k draw => (fmtOf t).integral r.toNat draw (elem (fmtOf t).width (s.v a l).bits k)) hc rfl
      Bool.and_elim_right (Nat.mul_div_le 64 _) (fun _ => List.map_map)
      (fun _ _ _ => ofVal_lt (fmtOf_fits t) _ _ _)
      fun mode _ _ x y => congrArg ((fmtOf t).ofVal 0 0) (toIntegral_draw mode _ x y)

end

section
/-!
SUPPORT. The uniform ALU (R45, R133, R134): its shifts, comparisons and extensions as arithmetic, and the completion of an
instruction that writes one uniform register.
-/
namespace Sys2Proof.Machine

open Sys2Proof.Spec

/-! ### Shifts by any count (R133) -/

theorem shl64_eq (x : DWord) (k : Nat) : shl64 x k = BitVec.ofNat 64 (x.toNat * 2 ^ k) := by
  have shift : x <<< k = BitVec.ofNat 64 (x.toNat * 2 ^ k) := by
    apply BitVec.eq_of_toNat_eq
    rw [BitVec.toNat_shiftLeft, BitVec.toNat_ofNat, Nat.shiftLeft_eq]
  unfold shl64
  split
  case isTrue => exact shift
  case isFalse h => exact (BitVec.shiftLeft_eq_zero (Nat.le_of_not_lt h)).symm.trans shift

theorem shr64_eq (x : DWord) (k : Nat) : shr64 x k = BitVec.ofNat 64 (x.toNat / 2 ^ k) := by
  have shift : x >>> k = BitVec.ofNat 64 (x.toNat / 2 ^ k) := by
    rw [← Nat.shiftRight_eq_div_pow, ← BitVec.toNat_ushiftRight, BitVec.ofNat_toNat, BitVec.setWidth_eq]
  unfold shr64
  split
  case isTrue => exact shift
  case isFalse h => exact (BitVec.ushiftRight_eq_zero (Nat.le_of_not_lt h)).symm.trans shift

theorem getElem_sshiftRight_of_le (x : DWord) {k : Nat} (h : 63 ≤ k) (i : Nat) (hi : i < 64) : (x.sshiftRight k)[i] = x.msb := by
  rw [BitVec.getElem_sshiftRight]
  split
  case isTrue hk =>
    have last : k + i = 63 := by omega
    simp only [last, BitVec.msb_eq_getLsbD_last, BitVec.getLsbD_eq_getElem (show 64 - 1 < 64 by decide)]
  case isFalse => rfl

theorem sar64_eq (x : DWord) (k : Nat) : sar64 x k = BitVec.ofInt 64 (x.toInt / 2 ^ k) := by
  have shift : x.sshiftRight k = BitVec.ofInt 64 (x.toInt / 2 ^ k) := by
    rw [BitVec.sshiftRight, Int.shiftRight_eq_div_pow, Nat.cast_pow, Nat.cast_ofNat]
  unfold sar64
  split
  case isTrue => exact shift
  case isFalse h =>
    rw [← shift]
    ext i hi
    rw [getElem_sshiftRight_of_le x (Nat.le_refl 63) i hi, getElem_sshiftRight_of_le x (by omega) i hi]

/-! ### Immediates (R45) -/

theorem simm_eq (n : BitVec 12) : simm n = BitVec.ofInt 64 n.toInt := rfl

theorem zimm_eq (n : BitVec 12) : zimm n = BitVec.ofNat 64 n.toNat := (BitVec.ofNat_toNat 64 n).symm

/-! ### Conditions (R134) -/

theorem scmpHolds_eq (n : Nat) (x y : DWord) : scmpHolds n x y = match n with
    | 0 => decide (x = y)
    | 1 => decide (x ≠ y)
    | 2 => decide (x.toInt < y.toInt)
    | 3 => decide (x.toNat < y.toNat)
    | 4 => decide (x.toInt ≤ y.toInt)
    | _ => decide (x.toNat ≤ y.toNat) := by
  match n with
  | 0 => exact beq_eq_decide x y
  | 1 => exact (congrArg not (beq_eq_decide x y)).trans decide_not.symm
  | 2 | 3 | 4 | _ + 5 => rfl

theorem toNat_eq_zero_iff (u : BitVec 6) : u.toNat = 0 ↔ u = 0 := BitVec.toNat_inj (y := 0)

/-! ### Completion -/

/-- An instruction that completes with one uniform result performs a uniform operation of that result's value. -/
theorem uni_uniOp {i : Instr} {s : State} {d : RegField} {x y : DWord} (hc : Calm s) (hx : exec i s = s.legal i (s.uni d x))
    (e : x = y) : UniOp i s d y := by
  subst e
  exact fun wf => writeU_completes hc (hx.trans (legal_next wf))

end Sys2Proof.Machine
end

section
open Sys2Proof Sys2Proof.Machine Sys2Proof.Spec

/-- Settles O11: every instruction of the uniform ALU writes one uniform register, and its value is that of R133, R134 and R45. -/
theorem uniformArithmetic : Obligations.UniformArithmetic := by
  intro s d a b u c n lit hc
  refine ⟨⟨?sadd, ?ssub, ?smul, ?sand, ?sor, ?sxor⟩, ⟨?sshl, ?sshr, ?ssar⟩, ⟨?scmp, ?smin, ?smax⟩, ⟨?smov, ?slit, ?smovi⟩,
    ⟨?saddImm, ?ssubImm, ?smulImm⟩, ⟨?sandImm, ?sorImm, ?sxorImm⟩, ?sshlImm, ?sshrImm, ?ssarImm⟩
  case sadd | ssub | smul | sand | sor | sxor | smov => exact uni_uniOp hc rfl rfl
  case sshl | sshlImm => exact uni_uniOp hc rfl (shl64_eq _ _)
  case sshr | sshrImm => exact uni_uniOp hc rfl (shr64_eq _ _)
  case ssar | ssarImm => exact uni_uniOp hc rfl (sar64_eq _ _)
  case scmp =>
    exact uni_uniOp hc rfl (congrArg (fun p : Bool => if p then (1 : DWord) else 0) (scmpHolds_eq u.toNat (s.u a) (s.u b)))
  case smin | smax =>
    refine uni_uniOp hc rfl ?_
    simp only [toNat_eq_zero_iff, BitVec.slt, BitVec.ult]
  case slit => exact fun wf => writeU_completes hc (legal_next wf)
  case smovi => exact uni_uniOp hc rfl (simm_eq n)
  case saddImm => exact uni_uniOp hc rfl (congrArg (s.u a + ·) (simm_eq n))
  case ssubImm => exact uni_uniOp hc rfl (congrArg (s.u a - ·) (simm_eq n))
  case smulImm => exact uni_uniOp hc rfl (congrArg (s.u a * ·) (simm_eq n))
  case sandImm => exact uni_uniOp hc rfl (congrArg (s.u a &&& ·) (zimm_eq n))
  case sorImm => exact uni_uniOp hc rfl (congrArg (s.u a ||| ·) (zimm_eq n))
  case sxorImm => exact uni_uniOp hc rfl (congrArg (s.u a ^^^ ·) (zimm_eq n))

end

section
/-!
SUPPORT. Where the lanes of a gang stand (R18 to R22, R137): the settling of the joins at an instruction boundary moves no lane, and a
transfer takes the issuing fragment to its address.
-/
namespace Sys2Proof.Machine

open Sys2Proof.Spec

/-! ### Updates of the split and join tables -/

/-- An update of one fragment that keeps its lanes and its address. -/
theorem standsAt_modFrag {g : Gang} {i : FragId} {f : Frag → Frag} {l : LaneId} {a : DWord}
    (hf : ∀ x, (f x).valid = x.valid ∧ (f x).mask = x.mask ∧ (f x).pc = x.pc) (st : StandsAt g l a) :
    StandsAt (g.modFrag i f) l a := by
  obtain ⟨k, v, m, p⟩ := st
  obtain ⟨fv, fm, fp⟩ := hf (g.frags.get i)
  refine ⟨k, ?_⟩
  rw [Gang.frags_modFrag]
  split
  case isTrue e => subst e; exact ⟨fv.trans v, fm ▸ m, fp.trans p⟩
  case isFalse => exact ⟨v, m, p⟩

theorem standsAt_setJoin {g : Gang} {j : JoinId} {x : Join} {l : LaneId} {a : DWord} (st : StandsAt g l a) :
    StandsAt (g.setJoin j x) l a := st

theorem standsAt_foldl {α : Type} {f : Gang → α → Gang} {l : LaneId} {a : DWord}
    (h : ∀ g x, StandsAt g l a → StandsAt (f g x) l a) (xs : List α) {g : Gang} (st : StandsAt g l a) :
    StandsAt (xs.foldl f g) l a := by
  induction xs generalizing g with
  | nil => exact st
  | cons x xs ih => exact ih (h g x st)

/-! ### Fusion and removal (R21, R22) -/

theorem frags_foldl_setFrag (is : List FragId) (f : Frag) (g : Gang) (k : FragId) :
    (is.foldl (fun (g : Gang) i => g.setFrag i f) g).frags.get k = if k ∈ is then f else g.frags.get k := by
  induction is generalizing g with
  | nil => simp
  | cons i is ih =>
    rw [List.foldl_cons, ih, Gang.frags_setFrag]
    by_cases hk : k ∈ is
    · simp [hk]
    · by_cases e : i = k <;> simp [hk, e, Ne.symm]

theorem getLsbD_foldl_mask (fs : List Frag) (m : BitVec 32) (l : Nat) :
    (fs.foldl (fun m f => m ||| f.mask) m).getLsbD l = (m.getLsbD l || fs.any fun f => f.mask.getLsbD l) := by
  induction fs generalizing m with
  | nil => simp
  | cons f fs ih => rw [List.foldl_cons, ih, BitVec.getLsbD_or, Bool.or_assoc, List.any_cons]

/-- A fusion keeps every lane in its place, where the fragments that it takes, and entry `i` is among them, all stand at `pc`. -/
theorem standsAt_fuseInto {g : Gang} {i : FragId} {is : List FragId} {pc : DWord} {join : Option JoinId} {l : LaneId} {a : DWord}
    (hi : i ∈ is) (hpc : ∀ k ∈ is, (g.frags.get k).pc = pc) (st : StandsAt g l a) : StandsAt (g.fuseInto i is pc join) l a := by
  obtain ⟨k, v, m, p⟩ := st
  by_cases hk : k ∈ is
  · refine ⟨i, ?_⟩
    simp only [Gang.fuseInto, Gang.frags_setFrag, if_true]
    refine ⟨trivial, ?_, (hpc k hk).symm.trans p⟩
    rw [getLsbD_foldl_mask, List.any_eq_true.2 ⟨_, List.mem_map_of_mem hk, m⟩, Bool.or_true]
  · have other : i ≠ k := fun e => hk (e ▸ hi)
    refine ⟨k, ?_⟩
    simp only [Gang.fuseInto, Gang.frags_setFrag, if_neg other, frags_foldl_setFrag, if_neg hk]
    exact ⟨v, m, p⟩

/-- A fragment that waits at its join stands at the join's address. -/
theorem pc_of_waitsAtJoin {g : Gang} {i : FragId} {j : JoinId} (hj : (g.frags.get i).join = some j) (h : g.waitsAtJoin i = true) :
    (g.frags.get i).pc = (g.joins.get j).rcv := by
  simp only [Gang.waitsAtJoin, hj, Bool.and_eq_true, beq_iff_eq] at h
  obtain ⟨⟨⟨-, pc⟩, -⟩, -⟩ := h
  exact pc

theorem join_of_mem_members {g : Gang} {i : FragId} {j : JoinId} (h : i ∈ g.members j) : (g.frags.get i).join = some j := by
  obtain ⟨-, belongs⟩ := List.mem_filter.1 h
  simp only [Bool.and_eq_true, beq_iff_eq] at belongs
  exact belongs.right

theorem standsAt_fuseOne {g h : Gang} {l : LaneId} {a : DWord} (e : g.fuseOne = some h) (st : StandsAt g l a) : StandsAt h l a := by
  unfold Gang.fuseOne at e
  split at e
  case h_1 => cases e
  case h_2 j hj =>
    cases e
    have found := List.find?_some hj
    simp only [Bool.and_eq_true, List.all_eq_true, Bool.not_eq_true', List.isEmpty_eq_false_iff] at found
    obtain ⟨⟨-, nonempty⟩, waits⟩ := found
    refine standsAt_setJoin (standsAt_fuseInto ?_ (fun k hk => pc_of_waitsAtJoin (join_of_mem_members hk) (waits k hk)) st)
    obtain ⟨i, is, e⟩ := List.exists_cons_of_ne_nil nonempty
    simp [e]

theorem standsAt_pruneOne {g h : Gang} {l : LaneId} {a : DWord} (e : g.pruneOne = some h) (st : StandsAt g l a) : StandsAt h l a := by
  unfold Gang.pruneOne at e
  split at e
  · cases e
  · cases e
    refine standsAt_setJoin (standsAt_foldl (fun _ _ => standsAt_setJoin) _ (standsAt_foldl (fun _ _ => standsAt_modFrag ?_) _ st))
    exact fun _ => ⟨rfl, rfl, rfl⟩

theorem standsAt_settleJoins {l : LaneId} {a : DWord} (n : Nat) {g : Gang} (st : StandsAt g l a) : StandsAt (g.settleJoins n) l a := by
  induction n generalizing g with
  | zero => exact st
  | succ n ih =>
    unfold Gang.settleJoins
    split
    case h_1 e => exact ih (standsAt_pruneOne e st)
    case h_2 =>
      split
      case h_1 e => exact ih (standsAt_fuseOne e st)
      case h_2 => exact st

/-- Settling the joins moves no lane (R21, R22). -/
theorem standsAt_settle {g : Gang} {l : LaneId} {a : DWord} (st : StandsAt g l a) : StandsAt g.settle l a :=
  standsAt_settleJoins 64 st

/-! ### Issue and the next address -/

/-- The issuing fragment, or the handler, at an address. -/
def Gang.goTo (g : Gang) (c : Cursor) (a : DWord) : Gang :=
  if c.hnd then { g with handler := { g.handler with pc := a } } else g.modFrag c.frag fun f => { f with pc := a }

theorem setPc_eq (s : State) (a : DWord) : s.setPc a = s.modG fun g => g.goTo s.cur a := rfl

theorem goTo_same (g : Gang) (c : Cursor) (a : DWord) : SameData g (g.goTo c a) := by
  unfold Gang.goTo
  split <;> exact ⟨rfl, id⟩

@[simp] theorem lc_goTo (g : Gang) (c : Cursor) (a : DWord) : (g.goTo c a).lc = g.lc := by
  unfold Gang.goTo
  split <;> rfl

@[simp] theorem loops_goTo (g : Gang) (c : Cursor) (a : DWord) : (g.goTo c a).loops = g.loops := by
  unfold Gang.goTo
  split <;> rfl

/-- The lanes of the issuing fragment stand at the address that it goes to. -/
theorem standsAt_goTo {g : Gang} {c : Cursor} {a : DWord} {l : LaneId} (hc : c.hnd = false) (v : (g.frags.get c.frag).valid = true)
    (m : (g.frags.get c.frag).mask.getLsbD l.val = true) : StandsAt (g.goTo c a) l a := by
  refine ⟨c.frag, ?_⟩
  simp [Gang.goTo, hc, v, m]

/-- The gang when its instruction has been counted (R51, R52, R386). -/
def Gang.counted (g : Gang) (c : Cursor) (closes : Bool) : Gang :=
  { (g.restAges c).countWindows c closes with watchdog := 0, hung := false }

theorem g_countIssue_eq (s : State) (b : Bool) : (s.countIssue b).g = s.g.counted s.cur b := g_countIssue s b

theorem counted_moved (g : Gang) (c : Cursor) (b : Bool) : Moved g (g.counted c b) := by
  obtain ⟨fr, e⟩ := restAges_form g c
  unfold Gang.counted
  rw [e]
  exact ⟨rfl, fun _ => .inl rfl, fun h => countWindows_pend (g := { g with frags := fr }) c b h⟩

@[simp] theorem lc_counted (g : Gang) (c : Cursor) (b : Bool) : (g.counted c b).lc = g.lc := by
  obtain ⟨fr, e⟩ := restAges_form g c
  rw [Gang.counted, e, Gang.countWindows]

@[simp] theorem loops_counted (g : Gang) (c : Cursor) (b : Bool) : (g.counted c b).loops = g.loops := by
  obtain ⟨fr, e⟩ := restAges_form g c
  rw [Gang.counted, e, Gang.countWindows]

/-- Counting an instruction touches of a fragment no more than its ages. -/
theorem frags_counted (g : Gang) (c : Cursor) (b : Bool) (i : FragId) : ∃ x y,
    (g.counted c b).frags.get i = { g.frags.get i with ageL := x, ageU := y } := by
  show ∃ x y, (g.restAges c).frags.get i = _
  unfold Gang.restAges
  split
  case isTrue => exact ⟨_, _, rfl⟩
  case isFalse =>
    rw [Gang.frags_modFrag]
    split
    case isTrue e => subst e; exact ⟨_, _, rfl⟩
    case isFalse => exact ⟨_, _, rfl⟩

@[simp] theorem valid_counted (g : Gang) (c : Cursor) (b : Bool) (i : FragId) :
    ((g.counted c b).frags.get i).valid = (g.frags.get i).valid := by
  obtain ⟨x, y, e⟩ := frags_counted g c b i
  rw [e]

@[simp] theorem mask_counted (g : Gang) (c : Cursor) (b : Bool) (i : FragId) :
    ((g.counted c b).frags.get i).mask = (g.frags.get i).mask := by
  obtain ⟨x, y, e⟩ := frags_counted g c b i
  rw [e]

@[simp] theorem nextPc_counted (g : Gang) (c : Cursor) (b : Bool) (i : FragId) (h : Bool) :
    (g.counted c b).nextPc i h = g.nextPc i h := by
  obtain ⟨fr, form⟩ := restAges_form g c
  obtain ⟨x, y, e⟩ := frags_counted g c b i
  unfold Gang.nextPc
  rw [e, Gang.counted, form, Gang.countWindows]

/-! ### The gang at an instruction boundary -/

/-- With no result outstanding, the boundary only settles the joins. -/
theorem g_finish {s : State} (h : Calm s) : s.finish.g = s.g.settle := by
  have calm : ((s.modG Gang.settle).gangAt (s.modG Gang.settle).cur.core (s.modG Gang.settle).cur.slot).pend = [] := by
    show (s.modG Gang.settle).g.pend = []
    rw [State.g_modG]
    exact (settle_same s.g).2 h
  unfold State.finish
  dsimp only
  rw [show (s.modG Gang.settle).deliver s.cur.core s.cur.slot = s.modG Gang.settle from deliver_nil calm, State.g_stall, State.g_modG]

theorem lc_settle (g : Gang) : g.settle.lc = g.lc := by have := congrArg Gang.lc (settle_same g).1; exact this

theorem loops_settle (g : Gang) : g.settle.loops = g.loops := by have := congrArg Gang.loops (settle_same g).1; exact this

theorem calm_counted {s : State} (h : Calm s) (b : Bool) : (s.g.counted s.cur b).pend = [] := (counted_moved _ _ _).pend h

/-- The gang after a transfer of its whole fragment, or of its handler. -/
theorem g_jump {s : State} (h : Calm s) (a : DWord) : (s.jump a).g = ((s.g.counted s.cur true).goTo s.cur a).settle := by
  have cur : (s.countIssue true).cur = s.cur := rfl
  have calm : Calm ((s.countIssue true).setPc a) := by
    rw [Calm, setPc_eq, State.g_modG, g_countIssue_eq]
    exact (goTo_same _ _ _).2 (calm_counted h true)
  rw [State.jump, g_finish calm, setPc_eq, State.g_modG, g_countIssue_eq, cur]

/-- A transfer to one address that completes with no result outstanding (R52, R137). -/
theorem jump_passed {s : State} (h : Calm s) (a : DWord) : Passed s (s.jump a) := by
  refine finish_passed h ?_ ((onlyGang_countIssue s true).trans (onlyGang_modG _ _))
  rw [setPc_eq, State.g_modG, g_countIssue_eq]
  exact SameData.moved (counted_moved _ _ _) (goTo_same _ _ _)

/-- The gang after a U-form instruction. -/
theorem g_completeU {s : State} (h : Calm s) (n : Nat) (b : Bool) :
    (s.completeU n b).g = ((s.g.counted s.cur b).advance s.cur (s.pc + BitVec.ofNat 64 n)).settle := by
  rw [State.completeU, g_finish]
  · rw [State.g_modG, g_countIssue_eq, nextPc_counted]
    rfl
  · rw [Calm, State.g_modG, g_countIssue_eq]
    exact (advance_moved _ _ _ _ rfl id).pend (calm_counted h b)

/-! ### Frames of transfers and loops -/

theorem completes_imp {i : Instr} {s : State} {w : Writes} {P Q : State → Prop} (imp : ∀ t, P t → Q t) (h : Completes i s w P) :
    Completes i s w Q := by
  obtain ⟨t, ht, hsel, hf, hp⟩ := h
  exact ⟨t, ht, hsel, hf, imp t hp⟩

/-- An instruction boundary that counts down no loop keeps what the instruction kept. -/
theorem kept_moved {w : Writes} {em : BitVec 32} {g h k : Gang} (a : Kept w em g h) (m : Moved h k) (e : k.lc = h.lc) :
    Kept w em g k := by
  have b := a
  rw [← m.same] at b
  exact { b with lc := fun n => e ▸ a.lc n }

/-- A gang of which nothing differs but loop records and the loop counters `ns`. -/
theorem kept_loops (em : BitVec 32) (g : Gang) {ns : List (Fin 3)} {lc : Vector Word 3} (loops : List LoopRec)
    (hlc : ∀ n, n ∈ ns ∨ lc.get n = g.lc.get n) : Kept { lc := ns } em g { g with lc := lc, loops := loops } := by
  have same := (wrote_refl em g).toKept
  exact { same with lc := fun n => (hlc n).imp_right .inl }

theorem lc_set_elsewhere (lc : Vector Word 3) (i : Fin 3) (x : Word) (n : Fin 3) : n ∈ [i] ∨ (lc.set i x).get n = lc.get n := by
  rw [get_set]
  split
  case isTrue e => exact .inl (List.mem_singleton.2 e.symm)
  case isFalse => exact .inr rfl

/-- A transfer of the fragment to one address by an instruction that has first changed loop records and the loop counters `ns`. -/
theorem jump_completes {i : Instr} {s s1 : State} {ns : List (Fin 3)} {lc : Vector Word 3} {loops : List LoopRec} {a : DWord}
    (hc : Calm s) (nh : s.cur.hnd = false) (hv : s.f.valid = true) (hx : exec i s = .next (s1.jump a)) (o : OnlyGang s s1)
    (hg : s1.g = { s.g with lc := lc, loops := loops }) (hlc : ∀ n, n ∈ ns ∨ lc.get n = s.g.lc.get n) :
    Completes i s { lc := ns } fun t => t.g.lc = lc ∧ t.g.loops = loops ∧ ∀ l, s.active l → StandsAt t.g l a := by
  have calm : Calm s1 := by rw [Calm, hg]; exact hc
  have q := jump_passed calm a
  have tg := g_jump calm a
  have lcEq : (s1.jump a).g.lc = s1.g.lc := by rw [tg, lc_settle, lc_goTo, lc_counted]
  have loopsEq : (s1.jump a).g.loops = s1.g.loops := by rw [tg, loops_settle, loops_goTo, loops_counted]
  refine ⟨_, hx, q.sel, { o.trans q.only with kept := ?kept }, ?lc, ?loops, fun l hl => ?stands⟩
  case kept => exact kept_moved (hg ▸ kept_loops s.em s.g loops hlc) q.gang lcEq
  case lc => rw [lcEq, hg]
  case loops => rw [loopsEq, hg]
  case stands =>
    rw [tg, o.cur, hg]
    exact standsAt_settle (standsAt_goTo nh (by rwa [valid_counted]) (by rwa [mask_counted]))

/-- A transfer of the fragment to one address by an instruction with no other effect. -/
theorem jump_completes_plain {i : Instr} {s : State} {a : DWord} (hc : Calm s) (nh : s.cur.hnd = false) (hv : s.f.valid = true)
    (hx : exec i s = .next (s.jump a)) :
    Completes i s {} fun t => t.g.loops = s.g.loops ∧ ∀ l, s.active l → StandsAt t.g l a :=
  completes_imp (fun _ ⟨_, went⟩ => went) (jump_completes (ns := []) hc nh hv hx (OnlyGang.refl s) rfl fun _ => .inr rfl)

end Sys2Proof.Machine
end

section
/-!
SUPPORT. Hardware loops (R147 to R150): what the two loop instructions answer where they may stand, and the gang after the end
instruction of a loop's body.
-/
namespace Sys2Proof.Machine

open Sys2Proof.Spec

/-! ### The loop instructions (R147, R149, R150) -/

/-- The address behind the body of the loop that a loop instruction sets up (R147). -/
def State.loopEnd (s : State) (w : BitVec 9) : DWord := s.pc + 8 + BitVec.ofNat 64 (4 * w.toNat)

/-- The record of that loop (R147). -/
def State.loopRec (s : State) (d : RegField) (w : BitVec 9) : LoopRec :=
  { counter := d.toNat, start := s.pc + 8, endAddr := s.loopEnd w, lanes := s.em }

/-- A loop instruction that stands where it may: outside a handler, in an undivided gang, with a record and the counter free, and inside
the body of the innermost loop (R149). -/
theorem exec_loop {s : State} {d a : RegField} {w : BitVec 9} (nh : s.cur.hnd = false) (hn : s.g.nfrag ≤ 1)
    (wf : (Instr.loop d a w).wf = true) (room : s.g.loops.length < 3) (free : ∀ r ∈ s.g.loops, r.counter ≠ d.toNat)
    (inner : ∀ r ∈ s.g.loops.head?, (s.loopEnd w).toNat < r.endAddr.toNat) :
    exec (.loop d a w) s = .next (if half (s.u a) false = 0 then s.jump (s.loopEnd w) else
      (s.modG fun g =>
        { g with lc := g.lc.set (lcIx d.toNat) (half (s.u a) false), loops := s.loopRec d w :: g.loops }).jump (s.pc + 8)) := by
  refine (legal_next wf).trans (congrArg Host.Outcome.next (if_neg ?_))
  have used : (s.g.loops.any fun r => r.counter == d.toNat) = false := by simpa using free
  simp only [nh, used, Bool.or_eq_true, decide_eq_true_eq, Bool.false_eq_true, false_or, or_false, not_or]
  refine ⟨⟨Nat.not_le_of_lt (Nat.lt_succ_of_le hn), Nat.not_le_of_lt room⟩, ?_⟩
  split
  case h_1 => exact Bool.false_ne_true
  case h_2 r rest hl => exact fun h => absurd (of_decide_eq_true h) (Nat.not_le_of_lt (inner r (by simp [hl])))

/-- A loop break outside a handler, in an undivided gang (R149, R150). -/
theorem exec_lbrk {s : State} {a : RegField} {r : LoopRec} {rest : List LoopRec} (nh : s.cur.hnd = false) (hn : s.g.nfrag ≤ 1)
    (hl : s.g.loops = r :: rest) : exec (.lbrk a) s =
      .next (if s.u a = 0 then s.jump (s.pc + 4) else (s.modG fun g => { g with loops := rest }).jump r.endAddr) := by
  have one : decide (2 ≤ s.g.nfrag) = false := decide_eq_false (Nat.not_le_of_lt (Nat.lt_succ_of_le hn))
  refine (legal_next (i := .lbrk a) rfl).trans ?_
  simp [nh, one, hl]

/-! ### The end instruction (R148) -/

/-- The end instruction of the innermost loop counts down; with the count used up it leaves the loop, else it goes back (R148). -/
theorem advance_loopEnd {g : Gang} {c : Cursor} {r : LoopRec} {rest : List LoopRec} (nh : c.hnd = false) (ni : g.intrap = false)
    (hl : g.loops = r :: rest) : let n := g.lc.get (lcIx r.counter) - 1
    g.advance c r.endAddr = ({ g with lc := g.lc.set (lcIx r.counter) n, loops := if n = 0 then rest else g.loops } : Gang).goTo c
      (if n = 0 then r.endAddr else r.start) := by
  unfold Gang.advance Gang.goTo
  simp only [nh, ni, hl, bne_self_eq_false, Bool.or_self, Bool.false_eq_true, if_false]
  by_cases n0 : g.lc.get (lcIx r.counter) - 1 = 0
  · simp only [if_pos n0]
    rfl
  · simp only [if_neg n0]

/-- The gang after a U-form instruction that ends the body of the innermost loop (R148). -/
theorem completeU_loopEnd {s : State} {r : LoopRec} {rest : List LoopRec} {n : Nat} {b : Bool} (hc : Calm s) (nh : s.cur.hnd = false)
    (ni : s.g.intrap = false) (hv : s.f.valid = true) (hl : s.g.loops = r :: rest) (e : s.pc + BitVec.ofNat 64 n = r.endAddr) :
    let count := s.g.lc.get (lcIx r.counter) - 1
    (s.completeU n b).g.lc = s.g.lc.set (lcIx r.counter) count ∧
    (s.completeU n b).g.loops = (if count = 0 then rest else s.g.loops) ∧
    ∀ l, s.active l → StandsAt (s.completeU n b).g l (if count = 0 then r.endAddr else r.start) := by
  have counting : (s.g.counted s.cur b).advance s.cur r.endAddr = _ :=
    advance_loopEnd nh ((counted_moved _ _ _).intrap.trans ni) ((loops_counted _ _ _).trans hl)
  rw [g_completeU hc, e, counting, lc_settle, loops_settle, lc_goTo, loops_goTo]
  simp only [lc_counted, loops_counted]
  refine ⟨trivial, trivial, fun l act => standsAt_settle (standsAt_goTo nh ?valid ?mask)⟩
  case valid => exact (valid_counted s.g s.cur b _).trans hv
  case mask => exact (congrArg (·.getLsbD l.val) (mask_counted s.g s.cur b _)).trans act

/-- The gang after an instruction that writes a uniform register and ends the body of the innermost loop (R133, R148). -/
theorem writeU_loopEnd {s : State} {d : RegField} {x : DWord} {r : LoopRec} {rest : List LoopRec} {n : Nat} {b : Bool} (hc : Calm s)
    (nh : s.cur.hnd = false) (ni : s.g.intrap = false) (hv : s.f.valid = true) (hl : s.g.loops = r :: rest)
    (e : s.pc + BitVec.ofNat 64 n = r.endAddr) :
    let count := s.g.lc.get (lcIx r.counter) - 1
    let t := (s.writeU d x).completeU n b
    t.g.lc = s.g.lc.set (lcIx r.counter) count ∧ t.g.loops = (if count = 0 then rest else s.g.loops) ∧
    ∀ l, s.active l → StandsAt t.g l (if count = 0 then r.endAddr else r.start) := by
  have g1 : (s.writeU d x).g = s.g.writeU d x := State.g_modG s _
  have calm : Calm (s.writeU d x) := by rw [Calm, g1]; exact (wrote_writeU s.em s.g d x).pendNil hc
  have f1 : (s.writeU d x).f = s.f := by rw [State.f, g1]; rfl
  have pc1 : (s.writeU d x).pc = s.pc := by rw [State.pc, f1, g1]; rfl
  have done := completeU_loopEnd (n := n) (b := b) calm nh (by rw [g1]; exact ni) (f1 ▸ hv) (by rw [g1]; exact hl) (pc1 ▸ e)
  simpa only [g1, Gang.writeU_lc, Gang.writeU_loops, State.active, State.em, f1] using done

end Sys2Proof.Machine
end

section
open Sys2Proof Sys2Proof.Machine Sys2Proof.Spec

/-- Settles O16: loop and lbrk are transfers of the fragment behind a change of the loop records, and an end instruction's next address is
the one that the innermost record gives. -/
theorem hardwareLoops : Obligations.HardwareLoops := by
  refine ⟨fun s d a w hc nh hv hn => ⟨fun wf room free inner => ?loop, fun r rest hl => ?lbrk⟩,
    fun s d a r rest hc nh hv ni hl e => ?last⟩
  case loop =>
    have hx := exec_loop nh hn wf room free inner
    refine ⟨fun c0 => ?skip, fun c0 => ?enter⟩
    case skip =>
      rw [if_pos c0] at hx
      exact jump_completes_plain hc nh hv hx
    case enter =>
      rw [if_neg c0] at hx
      refine completes_imp (fun t ⟨counter, went⟩ => ⟨?_, went⟩) (jump_completes hc nh hv hx (onlyGang_modG s _) (State.g_modG s _)
        (lc_set_elsewhere s.g.lc (lcIx d.toNat) _))
      rw [counter, get_set, if_pos rfl]
  case lbrk =>
    have hx := exec_lbrk (a := a) nh hn hl
    refine ⟨fun a0 => ?stay, fun a0 => ?leave⟩
    case stay =>
      rw [if_pos a0] at hx
      exact jump_completes_plain hc nh hv hx
    case leave =>
      rw [if_neg a0] at hx
      exact completes_imp (fun t ⟨lc, loops, stands⟩ => ⟨loops, lc, stands⟩)
        (jump_completes (ns := []) hc nh hv hx (onlyGang_modG s _) (State.g_modG s _) fun _ => .inr rfl)
  case last =>
    have hx : exec (.smov d a) s = .next ((s.writeU d (s.u a)).completeU 4 false) := legal_next rfl
    obtain ⟨t, ht, -, -, hu⟩ := writeU_completes hc hx
    obtain rfl : (s.writeU d (s.u a)).completeU 4 false = t := Host.Outcome.next.inj (hx.symm.trans ht)
    obtain ⟨lc, loops, stands⟩ := writeU_loopEnd (d := d) (x := s.u a) (b := false) hc nh ni hv hl e
    refine ⟨_, hx, hu, by rw [lc, get_set, if_pos rfl], fun n0 => ?leave, fun n0 => ?again⟩
    case leave =>
      simp only [if_pos n0] at loops stands
      exact ⟨loops, stands⟩
    case again =>
      simp only [if_neg n0] at loops stands
      exact ⟨loops, stands⟩

end

section
/-!
SUPPORT. Cross-lane instructions (R159 to R169): what a lane supplies to another, the active lanes of a segment in order, and the
segmented scan as a fold over them.
-/
namespace Sys2Proof.Machine

open Sys2Proof.Spec

/-! ### Completion of an instruction that writes a vector register -/

theorem writeV_laneOp {i : Instr} {s : State} {d : RegField} {c : LaneId → VCell} {n : Nat} {p : Option RegField}
    {Q : LaneId → VCell → Prop} (hc : Calm s) (hx : exec i s = s.legal i ((s.writeV d c).completeV n p))
    (good : ∀ l, s.active l → Q l (c l)) : LaneOp i s d Q := fun wf =>
  completes_imp (fun _ written l hl => by rw [written l hl]; exact good l hl) (writeV_completes hc (hx.trans (legal_next wf)))

/-! ### Fields, elements and marks -/

theorem eq_of_bitVec_two (f : BitVec 2) : f = 0 ∨ f = 1 ∨ f = 2 ∨ f = 3 := by
  revert f
  decide

theorem elem_lt (w : Nat) (x : DWord) (k : Nat) : elem w x k < 2 ^ w := Nat.mod_lt _ (Nat.two_pow_pos w)

/-- The elements of `w` bits that fill a lane, by number. -/
theorem elem_ofElems_range {w : Nat} {e : Nat → Nat} (h : ∀ k, e k < 2 ^ w) {k : Nat} (hk : k < 64 / w) :
    elem w (ofElems w ((List.range (64 / w)).map e)) k = e k := by
  rw [elem_ofElems (by simpa using Nat.mul_div_le 64 w) (by simpa using hk)]
  simpa using Nat.mod_eq_of_lt (h k)

/-! ### What a lane supplies (R160) -/

theorem laneIn_eq_supplied (s : State) (a : RegField) (j : Nat) : s.laneIn a j = Supplied s a j := by
  unfold State.laneIn Supplied
  by_cases h : j < 32
  · have ix : Fin.ofNat 32 j = ⟨j, h⟩ := Fin.ext (Nat.mod_eq_of_lt h)
    simp only [h, decide_true, Bool.true_and, dif_pos, ix]
    rfl
  · simp only [h, decide_false, Bool.false_and, dif_neg, not_false_eq_true]
    rfl

/-- Where shfl counts down past lane 0 no lane supplies (R163). -/
theorem supplied_shflLane_up (s : State) (a b : RegField) (l : LaneId) :
    Supplied s a (s.shflLane b 1 l) = if b.toNat ≤ l.val then Supplied s a (l.val - b.toNat) else VCell.both 0 false :=
  apply_ite (Supplied s a) _ _ _

/-! ### The active lanes, rising (R12) -/

@[simp] theorem mem_lanes {s : State} {l : LaneId} : l ∈ s.lanes ↔ s.active l = true := by
  simp [State.lanes, lanesOf, allFin, State.active]

theorem lanes_pairwise (s : State) : s.lanes.Pairwise (· < ·) :=
  (List.pairwise_lt_finRange 32).filter fun l => s.active l

/-- The first of the active lanes is the lowest. -/
theorem le_of_lanes_cons {s : State} {x : LaneId} {xs : List LaneId} (h : s.lanes = x :: xs) {k : LaneId} (hk : s.active k = true) :
    x ≤ k := by
  have rising := lanes_pairwise s
  rw [h, List.pairwise_cons] at rising
  have mem : k ∈ x :: xs := h ▸ mem_lanes.2 hk
  rcases List.mem_cons.1 mem with rfl | hk
  · exact le_rfl
  · exact (rising.1 k hk).le

theorem lowLane_spec {s : State} {l : LaneId} (hl : s.active l = true) :
    s.active s.lowLane = true ∧ ∀ k, s.active k → s.lowLane ≤ k := by
  match h : s.lanes with
  | [] => exact absurd (h ▸ mem_lanes.2 hl) List.not_mem_nil
  | x :: xs =>
    have low : s.lowLane = x := by rw [State.lowLane, h]; rfl
    rw [low]
    exact ⟨mem_lanes.1 (h ▸ List.mem_cons_self), fun k hk => le_of_lanes_cons h hk⟩

/-- `x` is the next active lane above `y`. -/
structure Follows (s : State) (y x : LaneId) : Prop where
  lower : s.active y = true
  upper : s.active x = true
  lt : y < x
  gap : ∀ k, s.active k → k ≤ y ∨ x ≤ k

theorem pairwise_of_suffix {s : State} {xs : List LaneId} (h : xs <:+ s.lanes) : xs.Pairwise (· < ·) :=
  (lanes_pairwise s).sublist h.sublist

/-- Where the active lanes end in `y :: xs`, every other active lane is below `y`. -/
theorem le_or_mem_of_suffix {s : State} {y : LaneId} {xs : List LaneId} (h : y :: xs <:+ s.lanes) {k : LaneId} (hk : s.active k = true) :
    k ≤ y ∨ k ∈ xs := by
  obtain ⟨before, h⟩ := h
  have rising := lanes_pairwise s
  rw [← h, List.pairwise_append] at rising
  have mem : k ∈ before ++ y :: xs := h ▸ mem_lanes.2 hk
  rcases List.mem_append.1 mem with hb | hy
  · exact .inl (rising.2.2 k hb y List.mem_cons_self).le
  · exact (List.mem_cons.1 hy).imp le_of_eq id

theorem follows_of_suffix {s : State} {y x : LaneId} {xs : List LaneId} (h : y :: x :: xs <:+ s.lanes) : Follows s y x where
  lower := mem_lanes.1 (h.mem (by simp))
  upper := mem_lanes.1 (h.mem (by simp))
  lt := (List.pairwise_cons.1 (pairwise_of_suffix h)).1 x List.mem_cons_self
  gap k hk := (le_or_mem_of_suffix h hk).imp id fun mem => by
    rcases List.mem_cons.1 mem with rfl | mem
    · exact le_rfl
    · have tail := pairwise_of_suffix ((List.suffix_cons y _).trans h)
      exact ((List.pairwise_cons.1 tail).1 k mem).le

/-! ### Segments (R168) -/

/-- The part of a lane's segment up to the lane itself (R169). -/
def segmentUpTo (s : State) (b : RegField) (l : LaneId) : List LaneId := (segmentOf s b l).filter fun j => decide (j ≤ l)

/-- Two active lanes are in one segment where no head stands above the lower of them up to the higher. -/
theorem mem_segmentOf {s : State} {b : RegField} {l j : LaneId} : j ∈ segmentOf s b l ↔ s.active j = true ∧
    ∀ k, s.active k → min j l < k → k ≤ max j l → (s.m b).getLsbD k.val = false := by
  have low : (min j.val l.val) = (min j l).val := by simp [Fin.coe_min]
  have high : (max j.val l.val) = (max j l).val := by simp [Fin.coe_max]
  simp only [segmentOf, List.mem_filter, List.all_eq_true, mem_lanes, low, high, Bool.not_eq_true', Bool.and_eq_false_imp,
    Bool.and_eq_true, decide_eq_true_eq, Fin.val_fin_lt, Fin.val_fin_le, and_imp]

theorem mem_segmentUpTo {s : State} {b : RegField} {l j : LaneId} : j ∈ segmentUpTo s b l ↔ s.active j = true ∧ j ≤ l ∧
    ∀ k, s.active k → j < k → k ≤ l → (s.m b).getLsbD k.val = false := by
  rw [segmentUpTo, List.mem_filter, mem_segmentOf, decide_eq_true_eq, and_assoc, and_congr_right_iff]
  intro _
  rw [and_comm, and_congr_right_iff]
  intro h
  rw [min_eq_left h, max_eq_right h]

theorem mem_segmentUpTo_self {s : State} {b : RegField} {l : LaneId} (hl : s.active l = true) : l ∈ segmentUpTo s b l :=
  mem_segmentUpTo.2 ⟨hl, le_rfl, fun _ _ lt le => absurd le (not_le.2 lt)⟩

theorem segmentOf_pairwise (s : State) (b : RegField) (l : LaneId) : (segmentOf s b l).Pairwise (· < ·) := (lanes_pairwise s).filter _

theorem segmentUpTo_pairwise (s : State) (b : RegField) (l : LaneId) : (segmentUpTo s b l).Pairwise (· < ·) :=
  (segmentOf_pairwise s b l).filter _

/-- An active lane that is a head, or the lowest, starts its segment. -/
theorem segmentUpTo_start {s : State} {b : RegField} {x : LaneId} (hx : s.active x = true)
    (start : (s.m b).getLsbD x.val = true ∨ ∀ k, s.active k → x ≤ k) : segmentUpTo s b x = [x] := by
  refine (segmentUpTo_pairwise s b x).eq_of_mem_iff (List.pairwise_singleton _ _) fun {j} => ?_
  rw [mem_segmentUpTo, List.mem_singleton]
  grind

/-- The segment of a lane that is no head goes on from the lane below it: no active lane stands between them. -/
theorem segmentUpTo_next {s : State} {b : RegField} {y x : LaneId} (f : Follows s y x) (hd : (s.m b).getLsbD x.val = false) :
    segmentUpTo s b x = segmentUpTo s b y ++ [x] := by
  obtain ⟨hy, hx, lt, gap⟩ := f
  have rising : (segmentUpTo s b y ++ [x]).Pairwise (· < ·) := List.pairwise_append.2 ⟨segmentUpTo_pairwise s b y,
    List.pairwise_singleton _ _, fun j hj k hk => List.mem_singleton.1 hk ▸ (mem_segmentUpTo.1 hj).2.1.trans_lt lt⟩
  refine (segmentUpTo_pairwise s b x).eq_of_mem_iff rising fun {j} => ?_
  rw [List.mem_append, List.mem_singleton, mem_segmentUpTo, mem_segmentUpTo]
  grind

/-- A segment ends at an active lane that is the highest, or below a head. -/
theorem segmentOf_end {s : State} {b : RegField} {y : LaneId}
    (last : (∃ x, Follows s y x ∧ (s.m b).getLsbD x.val = true) ∨ ∀ k, s.active k → k ≤ y) :
    segmentOf s b y = segmentUpTo s b y := by
  refine (segmentOf_pairwise s b y).eq_of_mem_iff (segmentUpTo_pairwise s b y) fun {j} => ?_
  rw [segmentUpTo, List.mem_filter, decide_eq_true_eq, iff_self_and]
  intro hj
  obtain ⟨hj, clear⟩ := mem_segmentOf.1 hj
  rcases last with ⟨x, f, hd⟩ | top
  · by_contra above
    have reach := (f.gap j hj).resolve_left above
    have clear := clear x f.upper (min_lt_of_right_lt f.lt) (le_max_of_le_left reach)
    exact absurd (hd.symm.trans clear) (by decide)
  · exact top j hj

/-- A lane that is no head has the segment of the lane below it: a lane that is passed on the way from one of them and not from the
other can only be that lane itself. -/
theorem segmentOf_next {s : State} {b : RegField} {y x : LaneId} (f : Follows s y x) (hd : (s.m b).getLsbD x.val = false) :
    segmentOf s b y = segmentOf s b x := by
  obtain ⟨hy, hx, lt, gap⟩ := f
  refine (segmentOf_pairwise s b y).eq_of_mem_iff (segmentOf_pairwise s b x) fun {j} => ?_
  rw [mem_segmentOf, mem_segmentOf]
  grind

/-! ### Folds (R169) -/

/-- The head bits of the active lanes, rising. -/
def headsOf (s : State) (b : RegField) : List Bool := s.lanes.map fun l => (s.m b).getLsbD l.val

/-- The fold of an operation over the values that lanes give, marked where one of them is. -/
def foldLanes (op : Nat → Nat → Nat) (given : LaneId → Nat × Bool) (lanes : List LaneId) : Nat × Bool :=
  (foldFirst op (lanes.map fun j => (given j).1), lanes.any fun j => (given j).2)

@[simp] theorem foldLanes_singleton (op : Nat → Nat → Nat) (given : LaneId → Nat × Bool) (x : LaneId) :
    foldLanes op given [x] = given x := by
  simp [foldLanes, foldFirst]

theorem foldFirst_snoc (op : Nat → Nat → Nat) {xs : List Nat} (h : xs ≠ []) (x : Nat) :
    foldFirst op (xs ++ [x]) = op (foldFirst op xs) x := by
  cases xs with
  | nil => exact absurd rfl h
  | cons y ys => simp [foldFirst]

theorem foldLanes_snoc (op : Nat → Nat → Nat) (given : LaneId → Nat × Bool) {lanes : List LaneId} (h : lanes ≠ []) (x : LaneId) :
    foldLanes op given (lanes ++ [x]) =
      (op (foldLanes op given lanes).1 (given x).1, (foldLanes op given lanes).2 || (given x).2) := by
  simp [foldLanes, foldFirst_snoc, h]

theorem foldFirst_lt {op : Nat → Nat → Nat} {n : Nat} (hn : 0 < n) (closed : ∀ x y, x < n → y < n → op x y < n) {xs : List Nat}
    (h : ∀ x ∈ xs, x < n) : foldFirst op xs < n := by
  induction xs using List.reverseRecOn with
  | nil => exact hn
  | append_singleton xs x ih =>
    by_cases he : xs = []
    · subst he
      exact h x (by simp)
    · rw [foldFirst_snoc op he]
      exact closed _ _ (ih fun y hy => h y (by simp [hy])) (h x (by simp))

/-- Below a head the last scan value is a lane's own, else the next lane's. -/
theorem segLast_cons {hd hd' : Bool} {v w t : Nat × Bool} {rest : List (Bool × Nat × Bool)} {ts : List (Nat × Bool)}
    (tail : segLast ((hd, w) :: rest) = t :: ts) : segLast ((hd', v) :: (hd, w) :: rest) = (if hd then v else t) :: t :: ts := by
  rw [segLast.eq_def]
  simp only [tail]

section
variable (s : State) (b : RegField) (op : Nat → Nat → Nat) (given : LaneId → Nat × Bool)

/-- The scan of the active lanes above `y` from the fold of the segment of `y` up to `y`. -/
theorem segScan_above {y : LaneId} {xs : List LaneId} (h : y :: xs <:+ s.lanes) :
    segScan op (some (foldLanes op given (segmentUpTo s b y))) (xs.map fun l => ((s.m b).getLsbD l.val, given l)) =
      xs.map fun l => foldLanes op given (segmentUpTo s b l) := by
  induction xs generalizing y with
  | nil => rfl
  | cons x xs ih =>
    have f := follows_of_suffix h
    have reached : (if (s.m b).getLsbD x.val then given x else
        (op (foldLanes op given (segmentUpTo s b y)).1 (given x).1, (foldLanes op given (segmentUpTo s b y)).2 || (given x).2)) =
        foldLanes op given (segmentUpTo s b x) := by
      split
      · rename_i hd
        rw [segmentUpTo_start f.upper (.inl hd), foldLanes_singleton]
      · rename_i hd
        rw [segmentUpTo_next f (Bool.eq_false_of_not_eq_true hd),
          foldLanes_snoc op given (List.ne_nil_of_mem (mem_segmentUpTo_self f.lower))]
    rw [List.map_cons, List.map_cons, ← ih ((List.suffix_cons y _).trans h), ← reached]
    rfl

/-- segscan: each active lane has the fold of its segment up to itself. -/
theorem segScan_lanes : segScan op none ((headsOf s b).zip (s.lanes.map given)) =
    s.lanes.map fun l => foldLanes op given (segmentUpTo s b l) := by
  rw [headsOf, List.zip_map']
  match h : s.lanes with
  | [] => rfl
  | x :: xs =>
    have hx : s.active x = true := mem_lanes.1 (h ▸ List.mem_cons_self)
    have first : given x = foldLanes op given (segmentUpTo s b x) := by
      rw [segmentUpTo_start hx (.inr fun k => le_of_lanes_cons h), foldLanes_singleton]
    rw [List.map_cons, List.map_cons, ← segScan_above s b op given (y := x) (h ▸ List.suffix_rfl), ← first]
    rfl

/-- The highest lane of a segment has the scan value of the whole segment. -/
theorem segLast_suffix {y : LaneId} {xs : List LaneId} (h : y :: xs <:+ s.lanes) :
    segLast ((y :: xs).map fun l => ((s.m b).getLsbD l.val, foldLanes op given (segmentUpTo s b l))) =
      (y :: xs).map fun l => foldLanes op given (segmentOf s b l) := by
  induction xs generalizing y with
  | nil =>
    have top : ∀ k, s.active k → k ≤ y := fun k hk => (le_or_mem_of_suffix h hk).resolve_right List.not_mem_nil
    simp [segLast, segmentOf_end (b := b) (.inr top)]
  | cons x xs ih =>
    have f := follows_of_suffix h
    have whole : (if (s.m b).getLsbD x.val then foldLanes op given (segmentUpTo s b y) else foldLanes op given (segmentOf s b x)) =
        foldLanes op given (segmentOf s b y) := by
      split
      · rename_i hd
        rw [segmentOf_end (.inl ⟨x, f, hd⟩)]
      · rename_i hd
        rw [segmentOf_next f (Bool.eq_false_of_not_eq_true hd)]
    have tail := ih ((List.suffix_cons y _).trans h)
    simp only [List.map_cons] at tail ⊢
    rw [segLast_cons tail, whole]

/-- segred: each active lane has the fold of its whole segment. -/
theorem segLast_lanes : segLast ((headsOf s b).zip (s.lanes.map fun l => foldLanes op given (segmentUpTo s b l))) =
    s.lanes.map fun l => foldLanes op given (segmentOf s b l) := by
  rw [headsOf, List.zip_map']
  match h : s.lanes with
  | [] => rfl
  | _ :: _ => exact segLast_suffix s b op given (h ▸ List.suffix_rfl)

end

/-! ### The operations of a segmented reduction (R168) -/

theorem segWidth_eq (t : BitVec 2) : segWidth t = if t = 3 then 64 else 32 :=
  if_congr (BitVec.toNat_inj (y := 3)) rfl rfl

/-- The operation by the fields themselves, not their numbers (R168). -/
theorem segOp_eq (o t : BitVec 2) (x y : Nat) : segOp o t x y =
    if t = 2 then (if o = 0 then f32.add 0 0 x y else f32.minmax (o != 1) false x y)
    else if o = 0 then (x + y) % 2 ^ segWidth t
    else if o = 1 then (if intOf (segWidth t) (t != 1) y < intOf (segWidth t) (t != 1) x then y else x)
    else if intOf (segWidth t) (t != 1) x < intOf (segWidth t) (t != 1) y then y else x := by
  have signed : (t.toNat != 1) = (t != 1) := by revert t; decide
  have float : t.toNat = 2 ↔ t = 2 := BitVec.toNat_inj (y := 2)
  simp only [segOp, signed, float]
  obtain rfl | rfl | rfl | rfl := eq_of_bitVec_two o <;> rfl

theorem minmax_lt {mx n : Bool} {x y : Nat} (hx : x < 2 ^ 32) (hy : y < 2 ^ 32) : f32.minmax mx n x y < 2 ^ 32 := by
  have nan : f32.nan < 2 ^ 32 := by decide
  unfold Fmt.minmax
  split
  · exact nan
  · split <;> assumption
  · split <;> assumption
  · split <;> assumption

theorem segOp_lt (o t : BitVec 2) (x y : Nat) (hx : x < 2 ^ segWidth t) (hy : y < 2 ^ segWidth t) : segOp o t x y < 2 ^ segWidth t := by
  rw [segOp_eq]
  split
  · rename_i ht
    subst ht
    split
    · exact ofVal_lt (fmtOf_fits false) 0 0 _
    · exact minmax_lt hx hy
  · split
    · exact Nat.mod_lt _ (Nat.two_pow_pos _)
    · split <;> split <;> assumption

/-! ### The cells of a segmented reduction (R169) -/

/-- What a lane gives to a segmented reduction in element position `i`. -/
def segGiven (s : State) (a : RegField) (t : BitVec 2) (i : Nat) (l : LaneId) : Nat × Bool :=
  (elem (segWidth t) (s.v a l).bits i, if segWidth t = 64 then (s.v a l).marked else (s.v a l).mark (i == 1))

/-- The lanes that segscan or segred folds for a lane. -/
def segLanes (s : State) (b : RegField) (scan : Bool) (l : LaneId) : List LaneId :=
  if scan then segmentUpTo s b l else segmentOf s b l

/-- The results of an element position run along the active lanes: each is the fold of its lane's segment, or of its part. -/
theorem segElem_eq (s : State) (a b : RegField) (o t : BitVec 2) (scan : Bool) (i : Nat) :
    s.segElem a b o t scan i = s.lanes.map fun l => foldLanes (segOp o t) (segGiven s a t i) (segLanes s b scan l) := by
  have scanned := segScan_lanes s b (segOp o t) (segGiven s a t i)
  cases scan with
  | true => exact scanned
  | false => exact (congrArg (fun xs => segLast ((headsOf s b).zip xs)) scanned).trans (segLast_lanes s b _ _)

/-- A lane's entry of a list that runs along the active lanes. -/
def entryOf (xs : List (LaneId × Nat × Bool)) (l : LaneId) : Nat × Bool :=
  ((xs.find? fun x => x.1 == l).map (·.2)).getD (0, false)

theorem entryOf_zip_map (lanes : List LaneId) (f : LaneId → Nat × Bool) {l : LaneId} (hl : l ∈ lanes) :
    entryOf (lanes.zip (lanes.map f)) l = f l := by
  have found : lanes.find? (fun x => x == l) = some l := by
    induction lanes with
    | nil => exact absurd hl List.not_mem_nil
    | cons x xs ih => grind
  have zipped : lanes.zip (lanes.map f) = lanes.map fun x => (x, f x) := by
    simpa using List.zip_map' (f := id) (g := f) (l := lanes)
  rw [entryOf, zipped, List.find?_map]
  simp [found]

/-- The cell that a segmented reduction writes, from the results of the element positions. -/
def segCell (s : State) (a b : RegField) (o t : BitVec 2) (scan : Bool) (l : LaneId) : VCell :=
  let w := segWidth t
  let at0 := entryOf (s.lanes.zip (s.segElem a b o t scan 0)) l
  let at1 := entryOf (if w = 64 then [] else s.lanes.zip (s.segElem a b o t scan 1)) l
  if w = 64 then VCell.both (ofElems 64 [at0.1]) at0.2 else { bits := ofElems 32 [at0.1, at1.1], g0 := at0.2, g1 := at1.2 }

theorem segment_eq (s : State) (d a b : RegField) (h o t : BitVec 2) (scan : Bool) :
    s.segment d a b h o t scan = (s.writeV d (segCell s a b o t scan)).completeV 4 (placed h a a d [d]) := rfl

/-- An active lane's cell is put together like that of any lane instruction, from folds and the cells folded. -/
theorem segCell_eq {s : State} {a b : RegField} {o t : BitVec 2} {scan : Bool} {l : LaneId} (hl : s.active l = true) :
    segCell s a b o t scan l = cellOf (segWidth t)
      ((List.range (64 / segWidth t)).map fun k =>
        foldFirst (segOp o t) ((segLanes s b scan l).map fun j => elem (segWidth t) (s.v a j).bits k))
      ((segLanes s b scan l).map fun j => s.v a j) := by
  have entry : ∀ i, entryOf (s.lanes.zip (s.segElem a b o t scan i)) l =
      foldLanes (segOp o t) (segGiven s a t i) (segLanes s b scan l) := fun i => by
    rw [segElem_eq, entryOf_zip_map _ _ (mem_lanes.2 hl)]
  have width := segWidth_eq t
  unfold segCell cellOf
  by_cases ht : t = 3
  · rw [if_pos ht] at width
    simp [entry, width, foldLanes, segGiven, List.any_map, Function.comp_def]
  · rw [if_neg ht] at width
    simp [entry, width, foldLanes, segGiven, List.any_map, Function.comp_def, List.range_succ, VCell.mark]

/-- What R169 asks of a cell, from the lanes that are folded. -/
theorem segment_laneOp {i : Instr} {s : State} {d a b : RegField} {h o t : BitVec 2} {scan : Bool} (hc : Calm s)
    (hx : exec i s = s.legal i (s.segment d a b h o t scan)) :
    LaneOp i s d fun l z => (∀ k, k < 64 / segWidth t → elem (segWidth t) z.bits k =
        foldFirst (segOp o t) ((segLanes s b scan l).map fun j => elem (segWidth t) (s.v a j).bits k)) ∧
      Marked (segWidth t) ((segLanes s b scan l).map fun j => s.v a j) z := by
  refine writeV_laneOp hc (hx.trans (congrArg _ (segment_eq s d a b h o t scan))) fun l hl => ?_
  rw [segCell_eq hl]
  refine ⟨fun k hk => ?_, marked_cellOf _ _ _⟩
  rw [bits_cellOf, elem_ofElems_range (fun k => foldFirst_lt (Nat.two_pow_pos _) (segOp_lt o t) fun x hx => ?_) hk]
  obtain ⟨j, -, rfl⟩ := List.mem_map.1 hx
  exact elem_lt _ _ _

/-! ### The cells of gath (R164) -/

/-- The cell that gath puts together in a lane. -/
def gathCell (s : State) (a b : RegField) (w : Nat) (l : LaneId) : VCell :=
  let c := s.v b l
  let es := (elems w c.bits).map (s.tableElem a w)
  if w = 64 then VCell.both (ofElems w (es.map (·.1))) (es.any (·.2) || c.marked)
  else { bits := ofElems w (es.map (·.1)), g0 := (es.take (32 / w)).any (·.2) || c.g0, g1 := (es.drop (32 / w)).any (·.2) || c.g1 }

theorem tableElem_eq (s : State) (a : RegField) (w j : Nat) : s.tableElem a w j =
    (elem w (Supplied s a (j / (64 / w))).bits (j % (64 / w)),
      if w = 64 then (Supplied s a (j / (64 / w))).marked else (Supplied s a (j / (64 / w))).mark (decide (32 ≤ w * (j % (64 / w))))) := by
  rw [State.tableElem, laneIn_eq_supplied]

theorem elem_gathCell (s : State) (a b : RegField) (w : Nat) (l : LaneId) {k : Nat} (hk : k < 64 / w) :
    elem w (gathCell s a b w l).bits k = (s.tableElem a w (elem w (s.v b l).bits k)).1 := by
  have bits : (gathCell s a b w l).bits =
      ofElems w ((List.range (64 / w)).map fun k => (s.tableElem a w (elem w (s.v b l).bits k)).1) := by
    unfold gathCell
    simp only [elems, List.map_map]
    split <;> rfl
  rw [bits, elem_ofElems_range (fun k => ?_) hk]
  rw [tableElem_eq]
  exact elem_lt _ _ _

/-- Each half's mark is that of its own positions and of the operand's half. -/
theorem mark_gathCell (s : State) (a b : RegField) {w : Nat} (l : LaneId) (hw : w ≠ 64) (halves : 64 / w = 32 / w + 32 / w)
    (hi : Bool) :
    (gathCell s a b w l).mark hi = ((s.v b l).mark hi || (List.range (32 / w)).any fun k =>
      (s.tableElem a w (elem w (s.v b l).bits (if hi then k + 32 / w else k))).2) := by
  have split : ((elems w (s.v b l).bits).map (s.tableElem a w)) =
      ((List.range (32 / w)).map fun k => s.tableElem a w (elem w (s.v b l).bits k)) ++
      ((List.range (32 / w)).map fun k => s.tableElem a w (elem w (s.v b l).bits (k + 32 / w))) := by
    simp [elems, halves, List.range_add, Nat.add_comm, Function.comp_def]
  cases hi <;> simp [gathCell, hw, split, VCell.mark, List.any_map, Function.comp_def, Bool.or_comm]

theorem mark_gathCell_64 (s : State) (a b : RegField) (l : LaneId) (hi : Bool) :
    (gathCell s a b 64 l).mark hi = ((s.tableElem a 64 (elem 64 (s.v b l).bits 0)).2 || (s.v b l).marked) := by
  cases hi <;> simp [gathCell, elems, VCell.mark, VCell.both]

theorem halves_of_gath (f : BitVec 2) (h : 8 * 2 ^ f.toNat < 64) :
    64 / (8 * 2 ^ f.toNat) = 32 / (8 * 2 ^ f.toNat) + 32 / (8 * 2 ^ f.toNat) := by
  revert f
  decide

end Sys2Proof.Machine
end

section
open Sys2Proof Sys2Proof.Machine Sys2Proof.Spec

/-- Settles O8: an exchange writes cells of what lanes supply before it, and the segmented scan is the fold of each segment. -/
theorem laneExchangeAndSegments : Obligations.LaneExchangeAndSegments := by
  refine ⟨fun s d a b h f hc => ⟨?shfl, ?gath, ?bcast⟩, fun s d a b h o t hc => ?segments⟩
  case shfl =>
    refine writeV_laneOp hc rfl fun l hl => ?_
    rw [laneIn_eq_supplied]
    obtain rfl | rfl | rfl | rfl := eq_of_bitVec_two f
    case inr.inl =>
      rw [supplied_shflLane_up]
      exact ⟨rfl, rfl, rfl⟩
    all_goals exact ⟨rfl, rfl, rfl⟩
  case gath =>
    refine writeV_laneOp (c := gathCell s a b (8 * 2 ^ f.toNat)) hc rfl fun l hl =>
      ⟨fun k hk => ?value, fun hi narrow => ?mark, fun whole => ?mark64⟩
    case value => rw [elem_gathCell s a b _ l hk, tableElem_eq]
    case mark =>
      rw [mark_gathCell s a b l narrow.ne (halves_of_gath f narrow)]
      simp only [tableElem_eq, if_neg narrow.ne]
    case mark64 =>
      have both : ∀ hi, (gathCell s a b (8 * 2 ^ f.toNat) l).mark hi =
          ((Supplied s a (elem 64 (s.v b l).bits 0)).marked || (s.v b l).marked) := fun hi => by
        rw [whole, mark_gathCell_64, tableElem_eq]
        simp
      exact ⟨both false, both true⟩
  case bcast =>
    refine writeV_laneOp hc rfl fun l hl => ⟨?lane, ?low, ?uniform⟩
    case lane =>
      rintro rfl
      exact laneIn_eq_supplied s a b.toNat
    case low =>
      rintro rfl
      obtain ⟨act, low⟩ := lowLane_spec hl
      exact ⟨s.lowLane, act, low, rfl⟩
    case uniform =>
      rintro rfl
      rfl
  case segments =>
    have op := funext₂ (segOp_eq o t)
    have width := segWidth_eq t
    have scan := segment_laneOp (i := .segscan d a b h o t) (scan := true) hc rfl
    have red := segment_laneOp (i := .segred d a b h o t) (scan := false) hc rfl
    rw [op, width] at scan red
    exact ⟨scan, red⟩

end

section
/-!
SUPPORT. Lane masks, and the completion of an instruction whose result is written after issue (R51, R54): the one window that it
opens where none is open, its end at the instruction boundary, and what the result writes.
-/
namespace Sys2Proof.Machine

open Sys2Proof.Spec

/-! ### Masks of lanes -/

theorem getLsbD_foldl_twoPow (p : LaneId → Bool) (ls : List LaneId) (m : BitVec 32) (k : LaneId) :
    (ls.foldl (fun m l => if p l then m ||| BitVec.twoPow 32 l.val else m) m).getLsbD k.val =
      (m.getLsbD k.val || ls.any fun l => p l && l == k) := by
  induction ls generalizing m with
  | nil => simp
  | cons l ls ih =>
    have bit : (BitVec.twoPow 32 l.val).getLsbD k.val = (l == k) := by
      rw [BitVec.getLsbD_twoPow, beq_eq_decide, Bool.eq_iff_iff]
      simp [Fin.ext_iff]
    rw [List.foldl_cons, ih, List.any_cons, ← Bool.or_assoc]
    cases p l <;>
      simp only [Bool.false_eq_true, if_false, if_true, BitVec.getLsbD_or, bit, Bool.false_and, Bool.true_and, Bool.or_false]

/-- The mask of the lanes for which `p` holds has just their bits. -/
theorem getLsbD_maskOf (p : LaneId → Bool) (l : LaneId) : (maskOf p).getLsbD l.val = p l := by
  have found : ((allFin 32).any fun k => p k && k == l) = p l := by
    rw [Bool.eq_iff_iff, List.any_eq_true]
    constructor
    · rintro ⟨k, -, hk⟩
      obtain ⟨pk, rfl⟩ : p k = true ∧ k = l := by simpa using hk
      exact pk
    · exact fun pl => ⟨l, List.mem_finRange l, by simp [pl]⟩
  rw [maskOf, getLsbD_foldl_twoPow, found]
  simp

theorem maskOf_eq_of_getLsbD {p : LaneId → Bool} {x : BitVec 32} (h : ∀ l : LaneId, x.getLsbD l.val = p l) : maskOf p = x :=
  BitVec.eq_of_getLsbD_eq fun k hk => (getLsbD_maskOf p ⟨k, hk⟩).trans (h ⟨k, hk⟩).symm

theorem lanesOf_maskOf (p : LaneId → Bool) : lanesOf (maskOf p) = (allFin 32).filter p := by
  simp only [lanesOf, getLsbD_maskOf]

/-! ### Completion of a V-form instruction that writes a mask register -/

theorem writeM_completesV {i : Instr} {s : State} {d : RegField} {x : BitVec 32} {n : Nat} {p : Option RegField} (hd : d.toNat < 8)
    (hc : Calm s) (hx : exec i s = .next ((s.writeM d x).completeV n p)) :
    Completes i s { mask := [d] } fun t => t.m d = x := by
  have a : Wrote { mask := [d] } s.em s.g (s.writeM d x).g := by
    rw [State.writeM, State.g_modG]
    exact wrote_writeM _ _ _ _ hd
  have q := completeV_passed (calm_of hc a) n p
  refine ⟨_, hx, q.sel, frame_of (onlyGang_modG s _) a q, ?_⟩
  simp only [State.m, q.gang.m]
  simp [State.writeM]

/-! ### Open windows and the joins -/

/-- The pending results but for the fragments that they belong to. -/
def Gang.windows (g : Gang) : List Pending := g.pend.map fun p => { p with frag := 0 }

theorem pend_foldl {α : Type} {f : Gang → α → Gang} (h : ∀ g x, (f g x).pend = g.pend) (l : List α) (g : Gang) :
    (l.foldl f g).pend = g.pend := by
  induction l generalizing g with
  | nil => rfl
  | cons x l ih => exact (ih (f g x)).trans (h g x)

theorem windows_fuseInto (g : Gang) (i : FragId) (is : List FragId) (pc : DWord) (join : Option JoinId) :
    (g.fuseInto i is pc join).windows = g.windows := by
  simp only [Gang.windows, Gang.fuseInto, List.map_map]
  refine List.map_congr_left fun p _ => ?_
  simp only [Function.comp_apply]
  split <;> rfl

theorem windows_fuseOne {g h : Gang} (e : g.fuseOne = some h) : h.windows = g.windows := by
  unfold Gang.fuseOne at e
  split at e
  case h_1 => cases e
  case h_2 j _ =>
    cases e
    exact windows_fuseInto g _ (g.members j) (g.joins.get j).rcv (g.joins.get j).parent

theorem windows_pruneOne {g h : Gang} (e : g.pruneOne = some h) : h.windows = g.windows := by
  unfold Gang.pruneOne at e
  split at e
  case h_1 => cases e
  case h_2 =>
    cases e
    rw [Gang.windows, Gang.setJoin_pend, pend_foldl (by intros; rfl), pend_foldl (by intros; rfl), Gang.windows]

theorem windows_settleJoins (n : Nat) (g : Gang) : (g.settleJoins n).windows = g.windows := by
  induction n generalizing g with
  | zero => rfl
  | succ n ih =>
    unfold Gang.settleJoins
    split
    case h_1 h e => exact (ih h).trans (windows_pruneOne e)
    case h_2 =>
      split
      case h_1 h e => exact (ih h).trans (windows_fuseOne e)
      case h_2 => rfl

/-- One open window stays through the settling of the joins, of whichever fragment (R21). -/
theorem pend_settle {g : Gang} {p : Pending} (h : g.pend = [p]) : ∃ f, g.settle.pend = [{ p with frag := f }] := by
  have e : g.settle.windows = g.windows := windows_settleJoins 64 g
  rw [Gang.windows, Gang.windows, h, List.map_singleton, List.map_eq_singleton_iff] at e
  obtain ⟨q, hq, same⟩ := e
  refine ⟨q.frag, hq.trans (congrArg (fun x => [x]) ?_)⟩
  exact congrArg (fun x : Pending => { x with frag := q.frag }) same

@[simp] theorem pend_advance (g : Gang) (c : Cursor) (a : DWord) : (g.advance c a).pend = g.pend := by
  unfold Gang.advance
  split
  case isTrue => rfl
  case isFalse =>
    split
    case h_1 => rfl
    case h_2 =>
      split
      case isTrue => rfl
      case isFalse =>
        dsimp only
        split <;> rfl

/-! ### The window of a VL instruction -/

/-- The pending result `p` of the issuing instruction, its window open over the next `n` instructions (R51). -/
def State.windowOf (s : State) (n : Nat) (p : Pending) : Pending :=
  { p with id := s.g.nextPend, frag := s.cur.frag, hnd := s.cur.hnd, pc := s.pc, left := n, closed := n == 0, place := s.t.issued }

/-- The gang with one window open. -/
def Gang.opened (g : Gang) (p : Pending) : Gang := { g with pend := [p], nextPend := g.nextPend + 1 }

/-- A VL instruction at its boundary, its joins settled and no result written yet (R51). -/
def State.atBoundary (s : State) (size : Nat) (place : Option RegField) (n : Nat) (p : Pending) : State :=
  ((s.countIssue false).modG fun g =>
    ({ g.stepLatch place with
      pend := closedFirst (g.pend ++ [{ s.windowOf n p with id := g.nextPend }]), nextPend := g.nextPend + 1 }).advance s.cur
      (s.pc + BitVec.ofNat 64 size)).modG Gang.settle

theorem completeVL_eq (s : State) (size : Nat) (place : Option RegField) (n : Nat) (p : Pending) :
    s.completeVL size place n p = ((s.atBoundary size place n p).deliver (s.atBoundary size place n p).cur.core
      (s.atBoundary size place n p).cur.slot).stall := rfl

theorem closedFirst_singleton (p : Pending) : closedFirst [p] = [p] := by
  cases h : p.closed <;> simp [closedFirst, h]

section
variable {s : State}

theorem onlyGang_atBoundary (size : Nat) (place : Option RegField) (n : Nat) (p : Pending) :
    OnlyGang s (s.atBoundary size place n p) :=
  ((onlyGang_countIssue s false).trans (onlyGang_modG _ _)).trans (onlyGang_modG _ _)

/-- The gang at the boundary before the joins settle: the counted gang, its latch one on, with the window opened. -/
theorem g_atBoundary (hc : Calm s) (size : Nat) (place : Option RegField) (n : Nat) (p : Pending) :
    ∃ fr la, (s.atBoundary size place n p).g =
      (({ s.g.opened (s.windowOf n p) with frags := fr, latch := la, watchdog := 0, hung := false } : Gang).advance s.cur
        (s.pc + BitVec.ofNat 64 size)).settle := by
  obtain ⟨fr, efr⟩ := restAges_form s.g s.cur
  have none : ({ s.g with frags := fr } : Gang).pend = [] := hc
  obtain ⟨la, ela⟩ := stepLatch_form
    { ({ s.g with frags := fr } : Gang).countWindows s.cur false with watchdog := 0, hung := false } place
  refine ⟨fr, la, ?_⟩
  rw [State.atBoundary, State.g_modG, State.g_modG, g_countIssue, efr, ela]
  dsimp only
  rw [countWindows_pend _ _ none, List.nil_append, closedFirst_singleton]
  rfl

theorem opened_moved (g : Gang) (p : Pending) (fr : Vector Frag 32) (la : List LatchEntry) (c : Cursor) (a : DWord) :
    Moved (g.opened p) (({ g.opened p with frags := fr, latch := la, watchdog := 0, hung := false } : Gang).advance c a) :=
  advance_moved _ _ _ _ rfl id

theorem atBoundary_moved (hc : Calm s) (size : Nat) (place : Option RegField) (n : Nat) (p : Pending) :
    Moved (s.g.opened (s.windowOf n p)) (s.atBoundary size place n p).g := by
  obtain ⟨fr, la, e⟩ := g_atBoundary hc size place n p
  rw [e]
  exact SameData.moved (opened_moved ..) (settle_same _)

theorem atBoundary_pend (hc : Calm s) (size : Nat) (place : Option RegField) (n : Nat) (p : Pending) :
    ∃ f, (s.atBoundary size place n p).g.pend = [{ s.windowOf n p with frag := f }] := by
  obtain ⟨fr, la, e⟩ := g_atBoundary hc size place n p
  rw [e]
  exact pend_settle (pend_advance _ _ _)

/-- Up to its boundary a VL instruction writes no register. -/
theorem atBoundary_kept (hc : Calm s) (size : Nat) (place : Option RegField) (n : Nat) (p : Pending) :
    Kept {} s.em s.g (s.atBoundary size place n p).g := by
  have a := (wrote_refl s.em (s.g.opened (s.windowOf n p))).moved (atBoundary_moved hc size place n p)
  exact { a with }

end

/-! ### Writing a result -/

/-- A result that is open or not complete is not written (R51). -/
theorem deliver_waiting {s : State} {c : CoreId} {i : SlotId} {p : Pending} (hp : (s.gangAt c i).pend = [p])
    (wait : (p.closed && p.ready) = false) : s.deliver c i = s := by
  simp [State.deliver, hp, State.writeReady, State.writeOne, firstInTurn, Gang.mayWrite, wait]

/-- A closed and complete result that has not failed is written. -/
theorem deliver_ready {s : State} {c : CoreId} {i : SlotId} {p : Pending} (hp : (s.gangAt c i).pend = [p]) (closed : p.closed = true)
    (ready : p.ready = true) (good : p.fail = none) :
    s.deliver c i = (s.modGangAt c i fun g => { g with pend := g.pend.filter fun q => q.id != p.id }).writePending c i p := by
  simp [State.deliver, hp, State.writeReady, State.writeOne, firstInTurn, Gang.mayWrite, closed, ready, good]

theorem firsts_of_forall_eq {α : Type} [BEq α] [LawfulBEq α] {a : α} {l : List α} (h : ∀ x ∈ l, x = a) (ne : l ≠ []) :
    firsts l = [a] := by
  induction l with
  | nil => exact absurd rfl ne
  | cons x l ih =>
    obtain rfl := h x List.mem_cons_self
    by_cases none : l = []
    · simp [none, firsts]
    · simp [firsts, ih (fun y hy => h y (List.mem_cons_of_mem _ hy)) none]

theorem mergeAll_of_not_written {ws : List LaneWrite} {r : RegField} {l : LaneId} (h : (writtenLanes ws r).getLsbD l.val = false)
    (c : VCell) : mergeAll ws r l c = c := by
  rw [writtenLanes, getLsbD_maskOf, List.any_eq_false] at h
  rw [mergeAll, List.filter_eq_nil_iff.2 h, List.foldl_nil]

/-- A write of one register by a pending result keeps what the instruction has kept, its lanes among those of `em`. -/
theorem kept_putV {em m : BitVec 32} {g h : Gang} (a : Kept {} em g h) (d : RegField) (n : Nat) (f : LaneId → VCell)
    (hm : ∀ l : LaneId, m.getLsbD l.val = true → em.getLsbD l.val = true) : Kept { vec := [d] } em g (h.putV d m n f) := by
  have vec : ∀ (r : RegField) (l : LaneId), r ∉ [d] ∨ em.getLsbD l.val = false →
      ((h.putV d m n f).v.get (vIx r)).get l = (g.v.get (vIx r)).get l := fun r l out => by
    rw [Gang.v_putV, if_neg]
    case hnc =>
      rintro ⟨reg, lane⟩
      obtain out | out := out
      · exact out (List.mem_singleton.2 (vIx_inj reg).symm)
      · exact Bool.false_ne_true (out.symm.trans (hm l lane))
    exact a.vec r l (.inl List.not_mem_nil)
  exact { a with vec := vec }

section
variable {s : State} {p : Pending} {d : RegField}

/-- Writes of one register alone, as one write. -/
theorem applyWrites_eq {c : CoreId} {i : SlotId} {n : Nat} {ws : List LaneWrite} (hw : ∀ w ∈ ws, w.reg = d) (ne : ws ≠ []) :
    s.applyWrites c i n ws =
      s.writeVAt c i n d (writtenLanes ws d) fun l => mergeAll ws d l (((s.gangAt c i).v.get (vIx d)).get l) := by
  rw [State.applyWrites, firsts_of_forall_eq (a := d)]
  · rfl
  · simpa using hw
  · simpa using ne

theorem onlyGang_reports {t : State} (o : OnlyGang s t) (rs : List Report) : OnlyGang s { t with reports := t.reports ++ rs } :=
  { o with rest := o.rest, reports := o.reports.trans ⟨rs, rfl⟩, cores := o.cores, mem := o.mem }

/-- `t` is `s` after a pending result of the issuing gang has made the writes `ws` to register `d`. -/
structure WroteLanes (s t : State) (d : RegField) (ws : List LaneWrite) : Prop where
  only : OnlyGang s t
  pend : t.g.pend = s.g.pend
  kept : ∀ (em : BitVec 32) (g : Gang), Kept {} em g s.g → (∀ w ∈ ws, em.getLsbD w.lane.val = true) → Kept { vec := [d] } em g t.g
  value : ∀ l, t.v d l = mergeAll ws d l (s.v d l)

theorem applyWrites_wrote {n : Nat} {ws : List LaneWrite} (hw : ∀ w ∈ ws, w.reg = d) :
    WroteLanes s (s.applyWrites s.cur.core s.cur.slot n ws) d ws := by
  by_cases ne : ws = []
  case pos =>
    subst ne
    exact { only := .refl s, pend := rfl, value := fun _ => rfl,
            kept := fun _ _ a _ => { a with vec := fun r l _ => a.vec r l (.inl List.not_mem_nil) } }
  case neg =>
    have gang : (s.applyWrites s.cur.core s.cur.slot n ws).g =
        s.g.putV d (writtenLanes ws d) n fun l => mergeAll ws d l (s.v d l) := by
      rw [applyWrites_eq hw ne]
      exact State.g_modG s _
    refine ⟨?only, by rw [gang]; rfl, fun em g a lanes => ?kept, fun l => ?value⟩
    case only =>
      rw [applyWrites_eq hw ne]
      exact onlyGang_reports (onlyGang_modG s _) _
    case kept =>
      rw [gang]
      refine kept_putV a d n _ fun l hl => ?_
      rw [writtenLanes, getLsbD_maskOf, List.any_eq_true] at hl
      obtain ⟨w, mem, hl⟩ := hl
      obtain ⟨-, rfl⟩ : w.reg = d ∧ w.lane = l := by simpa using hl
      exact lanes w mem
    case value =>
      rw [State.v, gang, Gang.v_putV]
      split
      case isTrue => rfl
      case isFalse h =>
        exact (mergeAll_of_not_written (Bool.eq_false_iff.2 fun hl => h ⟨rfl, hl⟩) _).symm

/-- A vector result without guessed lanes makes its writes and takes no late slot. -/
theorem writePending_wrote {b : Bool} (dst : p.dst = .vec d b) (guessed : p.guessed = []) (hw : ∀ w ∈ p.writes, w.reg = d) :
    WroteLanes s (s.writePending s.cur.core s.cur.slot p) d p.writes := by
  have w := applyWrites_wrote (s := s) (n := p.id) hw
  have late (g : Gang) : g.takeLate p = g := by simp [Gang.takeLate, dst, guessed]
  generalize ew : s.applyWrites s.cur.core s.cur.slot p.id p.writes = u at w
  have eq : s.writePending s.cur.core s.cur.slot p =
      { u.modG (fun g => g) with reports := (u.modG fun g => g).reports ++ u.g.reclaimErrors p } := by
    simp only [State.writePending, dst, ew, late, State.modG, State.g, w.only.cur, State.modGangAt_reports]
  have gang : (s.writePending s.cur.core s.cur.slot p).g = u.g := by
    rw [eq]
    exact State.g_modG u _
  refine ⟨?only, gang ▸ w.pend, fun em g a lanes => gang ▸ w.kept em g a lanes, fun l => ?value⟩
  case only =>
    rw [eq]
    exact onlyGang_reports (w.only.trans (onlyGang_modG u _)) _
  case value =>
    rw [State.v, gang]
    exact w.value l

/-! ### Completion of a VL instruction (R51) -/

/-- While its window is open, or its result is not complete, a VL instruction has written nothing. -/
theorem completeVL_waits (hc : Calm s) (size : Nat) (place : Option RegField) {n : Nat} (wait : 0 < n ∨ p.ready = false) :
    (s.completeVL size place n p).sel = false ∧ Frame {} s (s.completeVL size place n p) ∧
      ∃ f, (s.completeVL size place n p).g.pend = [{ s.windowOf n p with frag := f }] := by
  have only := onlyGang_atBoundary (s := s) size place n p
  obtain ⟨f, pend⟩ := atBoundary_pend hc size place n p
  rw [completeVL_eq, deliver_waiting pend]
  · exact ⟨rfl, { only.trans (onlyGang_stall _) with kept := atBoundary_kept hc size place n p }, f, pend⟩
  · obtain pos | unready := wait
    · simp [State.windowOf, pos.ne']
    · exact Bool.and_eq_false_imp.2 fun _ => unready

/-- Without lookahead a complete vector result is written at the boundary of its own instruction. -/
theorem completeVL_writes (hc : Calm s) (size : Nat) (place : Option RegField) {b : Bool} (ready : p.ready = true) (good : p.fail = none)
    (dst : p.dst = .vec d b) (guessed : p.guessed = []) (hw : ∀ w ∈ p.writes, w.reg = d ∧ s.active w.lane = true) :
    (s.completeVL size place 0 p).sel = false ∧ Frame { vec := [d] } s (s.completeVL size place 0 p) ∧
      (s.completeVL size place 0 p).g.pend = [] ∧ ∀ l, (s.completeVL size place 0 p).v d l = mergeAll p.writes d l (s.v d l) := by
  have only := onlyGang_atBoundary (s := s) size place 0 p
  have kept := atBoundary_kept hc size place 0 p
  have vec := (atBoundary_moved hc size place 0 p).v
  obtain ⟨f, pend⟩ := atBoundary_pend hc size place 0 p
  rw [completeVL_eq]
  generalize s.atBoundary size place 0 p = u at only kept vec pend
  generalize ep : ({ s.windowOf 0 p with frag := f } : Pending) = q at pend
  obtain ⟨dst', ready', good', guessed', writes', closed'⟩ : q.dst = .vec d b ∧ q.ready = true ∧ q.fail = none ∧
      q.guessed = [] ∧ q.writes = p.writes ∧ q.closed = true := by
    subst ep
    exact ⟨dst, ready, good, guessed, rfl, rfl⟩
  rw [deliver_ready pend closed' ready' good']
  have w := writePending_wrote (s := u.modG fun g => { g with pend := g.pend.filter fun x => x.id != q.id }) dst' guessed'
    (writes'.symm ▸ fun x hx => (hw x hx).1)
  rw [writes'] at w
  refine ⟨rfl, { (only.trans (onlyGang_modG u _)).trans (w.only.trans (onlyGang_stall _)) with kept := ?kept }, ?pend, fun l => ?value⟩
  case kept =>
    refine w.kept s.em s.g ?_ fun x hx => (hw x hx).2
    rw [State.g_modG]
    exact { kept with }
  case pend =>
    refine w.pend.trans ?_
    rw [State.g_modG, pend]
    simp
  case value =>
    refine (w.value l).trans ?_
    rw [State.v, State.g_modG, vec]
    rfl

end

end Sys2Proof.Machine
end

section
/-!
SUPPORT. The accesses that an instruction issues (R211, R222): the checks that they pass, what their entering the core's list leaves
alone, and that they are those of its lanes in order.
-/
namespace Sys2Proof.Machine

open Sys2Proof.Spec

/-! ### What a change of the gang leaves to the issuing fragment -/

theorem em_modG {s : State} {f : Gang → Gang} (h : (f s.g).frags = s.g.frags) : (s.modG f).em = s.em := by
  rw [State.em, State.f, State.g_modG, h]
  rfl

theorem pc_modG {s : State} {f : Gang → Gang} (h : (f s.g).frags = s.g.frags) (k : (f s.g).handler = s.g.handler) :
    (s.modG f).pc = s.pc := by
  rw [State.pc, State.f, State.g_modG, h, k]
  rfl

/-! ### Accesses in the list of the core -/

/-- `t` is `s` after the accesses `new` of the issuing instruction have entered the list of its core. -/
structure Lists (s t : State) (new : List Access) : Prop where
  cur : t.cur = s.cur
  mem : t.mem = s.mem
  cores : ∀ c, c ≠ s.cur.core → t.core c = s.core c
  gangs : ∀ i, i ≠ s.cur.slot → t.curCore.gang i = s.curCore.gang i
  gang : ∃ fr, t.g = { s.g with frags := fr }
  em : t.em = s.em
  pc : t.pc = s.pc
  accs : t.curCore.accs = s.curCore.accs ++ new
  seq : t.curCore.seq = s.curCore.seq + new.length

theorem Lists.refl (s : State) : Lists s s [] where
  cur := rfl
  mem := rfl
  cores _ _ := rfl
  gangs _ _ := rfl
  gang := ⟨s.g.frags, rfl⟩
  em := rfl
  pc := rfl
  accs := (List.append_nil _).symm
  seq := rfl

theorem Lists.trans {s t u : State} {xs ys : List Access} (a : Lists s t xs) (b : Lists t u ys) : Lists s u (xs ++ ys) where
  cur := b.cur.trans a.cur
  mem := b.mem.trans a.mem
  cores c h := (b.cores c (a.cur ▸ h)).trans (a.cores c h)
  gangs i h := (b.gangs i (a.cur ▸ h)).trans (a.gangs i h)
  gang := by
    obtain ⟨fr, e⟩ := a.gang
    obtain ⟨fr', e'⟩ := b.gang
    exact ⟨fr', by rw [e', e]⟩
  em := b.em.trans a.em
  pc := b.pc.trans a.pc
  accs := by rw [b.accs, a.accs, List.append_assoc]
  seq := by rw [b.seq, a.seq, List.length_append, Nat.add_assoc]

/-- A change of the issuing core that leaves its gangs alone. -/
theorem lists_modK (s : State) {f : Core → Core} {new : List Access} (slots : (f s.curCore).slots = s.curCore.slots)
    (accs : (f s.curCore).accs = s.curCore.accs ++ new) (seq : (f s.curCore).seq = s.curCore.seq + new.length) :
    Lists s (s.modK f) new := by
  have core : (s.modK f).curCore = f s.curCore := by
    rw [State.curCore, State.modK, State.core_modCore]
    exact if_pos rfl
  have same (i : SlotId) : (s.modK f).curCore.gang i = s.curCore.gang i := by rw [core, Core.gang, slots, Core.gang]
  have g : (s.modK f).g = s.g := same s.cur.slot
  exact
    { cur := rfl, mem := rfl, gangs := fun i _ => same i, gang := ⟨s.g.frags, g⟩
      cores := fun c h => by rw [State.modK, State.core_modCore, if_neg (Ne.symm h)]
      em := by rw [State.em, State.f, g]; rfl
      pc := by rw [State.pc, State.f, g]; rfl
      accs := by rw [core, accs]
      seq := by rw [core, seq] }

theorem lists_fill (s : State) (x : Option TlbEntry) : Lists s (s.fill s.cur.core x) [] := by
  cases x with
  | none => exact .refl s
  | some x =>
    have a : Lists s (s.modK fun k => { k with tlb := fillList 64 k.tlb x }) [] := lists_modK s rfl (List.append_nil _).symm rfl
    exact { a with cur := a.cur, mem := a.mem, cores := a.cores, gangs := a.gangs, gang := a.gang, em := a.em, pc := a.pc
                   accs := a.accs, seq := a.seq }

theorem lists_pushAcc (s : State) (ea : DWord) (p : Place) (r : Req) : Lists s (s.pushAcc ea p r) [s.newAcc ea p r] :=
  (lists_fill s p.fill).trans (lists_modK (s.fill s.cur.core p.fill) rfl rfl rfl)

/-- The access of one lane, in one piece. -/
def laneReq (size : Nat) (r : Req) (kind : LaneId → Nat → AccKind) (dst : Option Nat) (x : LaneId × DWord × Place) : Req :=
  { r with kind := kind x.1 0, size := Nat.min size 8, dst := dst.map fun id => (id, x.1, 0)
           leaf := if 2 ≤ x.2.2.ptype.toNat then none else r.leaf }

theorem pushLanes_cons (s : State) {size : Nat} (narrow : size ≠ 16) (r : Req) (kind : LaneId → Nat → AccKind) (dst : Option Nat)
    (x : LaneId × DWord × Place) (ps : List (LaneId × DWord × Place)) :
    s.pushLanes (x :: ps) size r kind dst =
      (s.pushAcc (x.2.1 + BitVec.ofNat 64 (8 * 0)) x.2.2 (laneReq size r kind dst x)).pushLanes ps size r kind dst := by
  simp only [State.pushLanes, List.foldl_cons, piecesOf, if_neg narrow, List.foldl_nil, laneReq]

/-- The accesses of the lanes `ps`, each one piece of `size` bytes that is not yet performed. -/
structure FromLanes (s : State) (ps : List (LaneId × DWord × Place)) (size : Nat) (kind : LaneId → Nat → AccKind)
    (new : List Access) : Prop where
  keys : new.map accKey = ps.map fun x => (x.2.2.dev, x.2.2.pa, Nat.min size 8, kind x.1 0)
  ids : new.map (·.id) = List.range' s.curCore.seq ps.length
  waiting : ∀ a ∈ new, a.done = false ∧ a.slot = s.cur.slot ∧ a.lanes = s.em

theorem pushLanes_lists {size : Nat} (narrow : size ≠ 16) (r : Req) (kind : LaneId → Nat → AccKind) (dst : Option Nat)
    (ps : List (LaneId × DWord × Place)) (s : State) :
    ∃ new, Lists s (s.pushLanes ps size r kind dst) new ∧ FromLanes s ps size kind new := by
  induction ps generalizing s with
  | nil => exact ⟨[], .refl s, rfl, rfl, fun _ h => absurd h List.not_mem_nil⟩
  | cons x ps ih =>
    have one := lists_pushAcc s (x.2.1 + BitVec.ofNat 64 (8 * 0)) x.2.2 (laneReq size r kind dst x)
    rw [pushLanes_cons s narrow]
    generalize s.pushAcc (x.2.1 + BitVec.ofNat 64 (8 * 0)) x.2.2 (laneReq size r kind dst x) = t at one
    obtain ⟨new, lists, keys, ids, waiting⟩ := ih t
    refine ⟨_, one.trans lists, ?keys, ?ids, fun a mem => ?waiting⟩
    case keys => simp [keys, accKey, State.newAcc, laneReq]
    case ids =>
      rw [List.map_append, ids, one.seq]
      rfl
    case waiting =>
      obtain mem | mem := List.mem_append.1 mem
      · obtain rfl := List.mem_singleton.1 mem
        exact ⟨rfl, rfl, rfl⟩
      · rw [← one.cur, ← one.em]
        exact waiting a mem

theorem lists_markVh (s : State) : Lists s s.markVh [] := by
  have g : s.markVh.g = s.g.modFrag s.cur.frag fun f => { f with vhSeq := s.curCore.seq, tileSeq := s.curCore.seq } := State.g_modG s _
  have f : s.markVh.f = { s.f with vhSeq := s.curCore.seq, tileSeq := s.curCore.seq } := by
    rw [State.f, g]
    exact (Gang.frags_modFrag ..).trans (if_pos rfl)
  have only : OnlyGang s s.markVh := onlyGang_modG s _
  have accs := congrArg Core.accs only.core
  have seq := congrArg Core.seq only.core
  exact { cur := rfl, mem := rfl, cores := only.cores, gangs := only.gangs, gang := ⟨_, g⟩, em := by rw [State.em, f]; rfl
          pc := by rw [State.pc, f, g]; rfl
          accs := accs.trans (List.append_nil _).symm
          seq := seq }

theorem lists_noteOwn (s : State) (rs : List (DWord × Nat)) : Lists s (s.noteOwn rs) [] := by
  unfold State.noteOwn State.noteRanges
  split
  case isTrue =>
    exact lists_modK s (f := fun k => k.modTeam s.g.team fun t => { t with usedAperture := true }) rfl (List.append_nil _).symm rfl
  case isFalse => exact .refl s

theorem lists_endAccs (s : State) (eas : List (LaneId × DWord)) (ps : List (LaneId × DWord × Place)) :
    Lists s (s.endAccs eas ps false) [] := by
  have counted : Lists s (s.modK fun k => { k with instrs := k.instrs + 1 }) [] := lists_modK s rfl (List.append_nil _).symm rfl
  unfold State.endAccs
  by_cases strong : anyStrong ps
  case pos =>
    simp only [strong, if_true]
    exact (counted.trans (lists_markVh _)).trans (lists_noteOwn _ _)
  case neg =>
    simp only [strong, Bool.false_eq_true, if_false]
    exact counted.trans (lists_noteOwn _ _)

/-! ### The checks of an access -/

/-- Lanes whose addresses reach their places pass the checks of R211 and R221. -/
theorem checkLanes_of_reach {s : State} {eas : List (LaneId × DWord)} {size : Nat} {write : Bool} {pl : LaneId → Place}
    (reach : ∀ e ∈ eas, Reach s e.2 size write (pl e.1)) :
    s.checkLanes eas size write false = .ok (eas.map fun e => (e.1, e.2, pl e.1)) := by
  have aligned : (eas.find? fun e => e.2.toNat % size ≠ 0) = none := by
    simpa using fun a b mem => (reach (a, b) mem).aligned
  have places : (eas.map fun e => (e, s.placesOf s.cur.core s.t.asid e.2 size write false)) = eas.map fun e => (e, .ok [pl e.1]) :=
    List.map_congr_left fun e mem => by simp [State.placesOf, (reach e mem).place, Except.map]
  have unlocked : (eas.findSome? fun e => (lockVa s.cur.core e.2).bind fun va =>
      ((s.core s.cur.core).lockHit s.t.asid false (va.toNat % 2 ^ 57) size write).map fun i => (e.2, i)) = none := by
    refine List.findSome?_eq_none_iff.2 fun e mem => ?_
    have free : (s.core s.cur.core).lockHit s.t.asid false (e.2.toNat % 2 ^ 57) size write = none := (reach e mem).free
    simp only [lockVa, (reach e mem).ordinary, Bool.false_eq_true, if_false, Option.bind_some, free, Option.map_none]
  have found : eas.findSome? (fun _ => (none : Option (DWord × BitVec 4))) = none := List.findSome?_eq_none_iff.2 fun _ _ => rfl
  unfold State.checkLanes
  simp only [aligned, places, unlocked]
  simp [List.findSome?_map, List.flatMap_map, Function.comp_def, found, ← List.map_eq_flatMap]

/-- With no access of its gang in flight an instruction may issue (R202, R247). -/
theorem mayIssue_of_quiet {s : State} (quiet : Quiet s) (ps : List (LaneId × DWord × Place)) (rel : Bool) : s.mayIssue ps rel = true := by
  obtain ⟨accs, marks⟩ := quiet
  have memReady : s.memReady = true := by
    simpa [State.memReady, State.openBelow] using fun y mem _ _ own => absurd own (accs y mem)
  have raised : s.unraised = false := by
    rw [State.unraised, Bool.or_eq_false_iff, List.any_eq_false, List.any_eq_false]
    exact ⟨fun y mem => by simp [accs y mem], fun m mem => by simp [marks m mem]⟩
  have combined : s.openCombining = false := by
    rw [State.openCombining, List.any_eq_false]
    exact fun y mem => by simp [accs y mem]
  simp [State.mayIssue, memReady, raised, combined]

/-- The gang that has listed its accesses and completed, `f` done to it between, has issued them. -/
theorem issues_of_lists {s t u : State} {f : Gang → Gang} {w : Writes} {new : List Access} (lists : Lists s t new)
    (waiting : ∀ a ∈ new, a.done = false ∧ a.slot = s.cur.slot ∧ a.lanes = s.em) (only : OnlyGang t u) (sel : u.sel = false)
    (frags : (f s.g).frags = s.g.frags) (kept : Kept w s.em (f s.g) u.g) : Issues w (s.modG f) u new := by
  have first : OnlyGang s (s.modG f) := onlyGang_modG s f
  have em := em_modG frags
  have cur := lists.cur
  have core := only.core
  rw [cur] at core
  refine ⟨?kept, ?accs, ?waiting, ?mem, ?gangs, ?cores, sel⟩
  case kept =>
    rw [em, State.g_modG]
    exact kept
  case accs =>
    have after := congrArg Core.accs core
    have before := congrArg Core.accs first.core
    exact after.trans (lists.accs.trans (congrArg (· ++ new) before.symm))
  case waiting =>
    rw [em]
    exact waiting
  case mem =>
    intro a
    rw [only.mem, lists.mem]
    rfl
  case gangs =>
    intro i other
    exact ((cur ▸ only.gangs i (cur ▸ other)).trans (lists.gangs i other)).trans (first.gangs i other).symm
  case cores =>
    intro c other
    exact ((only.cores c (cur ▸ other)).trans (lists.cores c other)).trans (first.cores c other).symm

end Sys2Proof.Machine
end

section
/-!
SUPPORT. Guess instructions (R229 to R232): the halves that gtest and gacc select, the writes that a TYPE makes in a lane, the lanes that
a gdemand is to fill, and its two ways of filling them.
-/
namespace Sys2Proof.Machine

open Sys2Proof.Spec

/-! ### Selected halves (R229) -/

theorem selHalves_fst (sel : BitVec 2) : (selHalves sel).1 = decide (sel ≠ 2) := by
  revert sel
  decide

theorem selHalves_snd (sel : BitVec 2) : (selHalves sel).2 = decide (sel ≠ 1) := by
  revert sel
  decide

/-! ### Writes of typed values -/

/-- A lane after a value of a TYPE is written to it (R219, R222). -/
def typedCell (ty : BitVec 4) (p : Bool) (x : DWord) (mk : Bool) (c : VCell) : VCell :=
  if wideType ty then VCell.both x mk else c.withHalf p (half x false) mk

theorem mergeAll_append (ws vs : List LaneWrite) (r : RegField) (l : LaneId) (c : VCell) :
    mergeAll (ws ++ vs) r l c = mergeAll vs r l (mergeAll ws r l c) := by
  simp [mergeAll]

theorem half_append_half (x : DWord) : half x true ++ half x false = x := BitVec.extractLsb'_append_extractLsb'

theorem mergeAll_tyWrites (d : RegField) (ty : BitVec 4) (p : Bool) (i l : LaneId) (x : DWord) (mk : Bool) (c : VCell) :
    mergeAll (tyWrites d ty p i x mk) d l c = if i = l then typedCell ty p x mk c else c := by
  by_cases lane : i = l
  case neg => unfold tyWrites; split <;> simp [mergeAll, lane]
  case pos =>
    subst lane
    rw [if_pos rfl, typedCell, tyWrites]
    by_cases wide : wideType ty
    case pos => simp [wide, mergeAll, VCell.merge, VCell.both, half_append_half]
    case neg => cases p <;> simp [wide, mergeAll, VCell.merge, VCell.withHalf, half]

/-- One value for each of some lanes: each lane takes its own. -/
theorem mergeAll_flatMap_tyWrites (d : RegField) (ty : BitVec 4) (p : Bool) (val : LaneId → DWord) (mk : Bool) {ls : List LaneId}
    (once : ls.Nodup) (l : LaneId) (c : VCell) :
    mergeAll (ls.flatMap fun i => tyWrites d ty p i (val i) mk) d l c = if l ∈ ls then typedCell ty p (val l) mk c else c := by
  induction ls generalizing c with
  | nil => rfl
  | cons i ls ih =>
    obtain ⟨fresh, once⟩ := List.nodup_cons.1 once
    rw [List.flatMap_cons, mergeAll_append, mergeAll_tyWrites, ih once]
    by_cases lane : i = l
    case pos => subst lane; simp [fresh]
    case neg => simp [lane, Ne.symm lane]

theorem mem_tyWrites {d : RegField} {ty : BitVec 4} {p : Bool} {l : LaneId} {x : DWord} {mk : Bool} {w : LaneWrite}
    (h : w ∈ tyWrites d ty p l x mk) : w.reg = d ∧ w.lane = l ∧ w.some? = true := by
  unfold tyWrites at h
  split at h <;> obtain rfl := List.mem_singleton.1 h
  case isTrue => exact ⟨rfl, rfl, rfl⟩
  case isFalse => cases p <;> exact ⟨rfl, rfl, rfl⟩

/-- A result of which no later write has taken anything makes all its writes. -/
theorem writes_of_untouched {p : Pending} {d : RegField} {b : Bool} (dst : p.dst = .vec d b) (untouched : p.overA = .none)
    (hw : ∀ w ∈ p.wr, w.reg = d ∧ w.some? = true) : p.writes = p.wr := by
  have left (w : LaneWrite) : w.left .none = w := by simp [LaneWrite.left, Halves.none]
  rw [Pending.writes, List.map_congr_left (g := id) fun w mem => by simp [dst, untouched, (hw w mem).1, left], List.map_id]
  exact List.filter_eq_self.2 fun w mem => (hw w mem).2

/-! ### Demands -/

/-- The lanes that a gdemand is to fill: the active lanes of which a selected half is marked. -/
def State.wanted (s : State) (d : RegField) (t : BitVec 4) (p : Bool) : List LaneId := s.lanes.filter fun i => demands t p (s.v d i)

theorem mem_wanted {s : State} {d : RegField} {t : BitVec 4} {p : Bool} {i : LaneId} :
    i ∈ s.wanted d t p ↔ s.active i = true ∧ demands t p (s.v d i) = true := by
  rw [State.wanted, List.mem_filter, mem_lanes]

theorem nodup_wanted (s : State) (d : RegField) (t : BitVec 4) (p : Bool) : (s.wanted d t p).Nodup :=
  ((lanes_pairwise s).filter _).imp ne_of_lt

theorem lane_of_covers {g : Gang} {d : RegField} {t : BitVec 4} {p : Bool} {i : LaneId} {y : LateLane} (h : g.covers d t p i = some y) :
    y.lane = i := by
  obtain ⟨⟨n, y⟩, hy, rfl⟩ := Option.map_eq_some_iff.1 h
  obtain ⟨x, -, hx⟩ := List.exists_of_findSome?_eq_some hy
  obtain ⟨z, hz, e⟩ := Option.map_eq_some_iff.1 hx
  obtain ⟨-, rfl⟩ := Prod.mk.inj e
  simpa using List.find?_some hz

/-- The lanes that no slot covers, which read again. -/
def State.uncovered (s : State) (d : RegField) (t : BitVec 4) (p : Bool) : BitVec 32 :=
  maskOf fun i => (s.wanted d t p).contains i && (s.g.covers d t p i).isNone

/-- The lanes of the late slots that serve a gdemand. -/
def State.serving (s : State) (d : RegField) (t : BitVec 4) (p : Bool) : List LateLane :=
  (s.wanted d t p).filterMap fun i => s.g.covers d t p i

theorem guessInfoIn_eq_none {s : State} {em : BitVec 32} {a : RegField} {others : List (RegField × Bool × Bool)}
    (h : ∀ l : LaneId, em.getLsbD l.val = true → (s.v a l).marked = false) : s.guessInfoIn em [(a, true, true)] others = none := by
  refine if_pos (maskOf_eq_of_getLsbD fun l => ?_)
  have := h l
  cases m : em.getLsbD l.val <;> simp_all [VCell.marked]

/-- A gdemand whose rereads meet no mark, reach their places and may issue (R232). -/
theorem exec_gdemand {s : State} {d a : RegField} {t : BitVec 4} {p g : Bool} {l : BitVec 4} {h : BitVec 2}
    {ps : List (LaneId × DWord × Place)}
    (clean : g = true ∨ ∀ i : LaneId, (s.uncovered d t p).getLsbD i.val = true → (s.v a i).marked = false)
    (reached : s.checkLanes (s.eas a 0 (s.uncovered d t p)) (tyBytes t) false false = .ok ps)
    (may : ps = [] ∨ s.mayIssue ps false = true) :
    exec (.gdemand d a t p g l h) s =
      s.legal (.gdemand d a t p g l h) (s.demand d t p l (placed h a a d []) (s.serving d t p) ps) := by
  have unmarked : (if g then none else s.guessInfoIn (s.uncovered d t p) [(a, true, true)] (demandHalves d t p)) = none := by
    obtain rfl | clean := clean
    · rfl
    · rw [guessInfoIn_eq_none clean, ite_self]
  have free : (!ps.isEmpty && !s.mayIssue ps false) = false := by
    obtain rfl | may := may <;> simp [*]
  have meaning : exec (.gdemand d a t p g l h) s = execGdemand d a t p g l h s := rfl
  unfold State.uncovered State.wanted at unmarked reached
  simp only [meaning, execGdemand, unmarked, reached, free, Bool.false_eq_true, if_false]
  rfl

/-! ### A gdemand that late slots serve -/

/-- The result of a gdemand: the writes of the slots whose data has landed, and what it waits for (R232). -/
def State.demanded (s : State) (d : RegField) (t : BitVec 4) (p : Bool) (slots : List LateLane) (ps : List (LaneId × DWord × Place)) :
    Pending :=
  { Pending.fresh (.vec d false) (maskOf fun i => slots.any (·.lane == i) || ps.any (·.1 == i)) with
    await := .demand [] ((slots.filter fun x => x.data.isNone && x.bad.isNone).map (·.acc) ++
      (List.range ps.length).map (s.curCore.seq + ·))
    wr := slots.flatMap fun x => match x.data with | some v => tyWrites d t p x.lane v false | none => []
    fail := (slots.find? fun x => x.bad.isSome).map fun x =>
      { cause := .uncorrectable, info := BitVec.ofNat 64 (x.ea.toNat % 2 ^ 57) }
    ty := t, part := p, eas := slots.map (fun x => (x.lane, x.ea)) ++ ps.map fun x => (x.1, x.2.1) }

/-- Late slots hold the true values `val` of the lanes that a gdemand wants. -/
def Serves (s : State) (d : RegField) (t : BitVec 4) (p : Bool) (val : LaneId → DWord) : Prop :=
  ∀ i, s.active i → demands t p (s.v d i) = true → ∃ y, s.g.covers d t p i = some y ∧ y.bad = none ∧ y.data = some (val i)

/-- What a gdemand leaves in the active lanes: the true value in place of each marked half (R232). -/
def Demanded (s : State) (d : RegField) (t : BitVec 4) (p : Bool) (val : LaneId → DWord) (X : LaneId → VCell) : Prop :=
  ∀ i, s.active i → X i = if demands t p (s.v d i) then typedCell t p (val i) false (s.v d i) else s.v d i

section
variable {s : State} {d : RegField} {t : BitVec 4} {p : Bool} {val : LaneId → DWord} (served : Serves s d t p val)
include served

/-- The serving lanes of the slots, one for each lane wanted. -/
theorem Serves.serving_eq : ∃ y : LaneId → LateLane, s.serving d t p = (s.wanted d t p).map y ∧
    ∀ i ∈ s.wanted d t p, (y i).lane = i ∧ (y i).bad = none ∧ (y i).data = some (val i) := by
  have each : ∀ i, ∃ y : LateLane, i ∈ s.wanted d t p →
      s.g.covers d t p i = some y ∧ y.bad = none ∧ y.data = some (val i) := fun i => by
    by_cases want : i ∈ s.wanted d t p
    case pos =>
      obtain ⟨act, marked⟩ := mem_wanted.1 want
      obtain ⟨y, hy⟩ := served i act marked
      exact ⟨y, fun _ => hy⟩
    case neg => exact ⟨{ lane := i, ea := 0, acc := 0, data := none, bad := none, demanded := false }, fun h => absurd h want⟩
  choose y hy using each
  refine ⟨y, ?_, fun i want => ⟨lane_of_covers (hy i want).1, (hy i want).2⟩⟩
  rw [State.serving, ← List.filterMap_eq_map, List.filterMap_congr fun i want => (hy i want).1]
  rfl

theorem Serves.uncovered_eq : s.uncovered d t p = 0 := by
  refine maskOf_eq_of_getLsbD fun i => ?_
  refine BitVec.getLsbD_zero.trans (Eq.symm (Bool.and_eq_false_imp.2 fun want => ?_))
  obtain ⟨act, marked⟩ := mem_wanted.1 (List.contains_iff_mem.1 want)
  obtain ⟨y, hy, -⟩ := served i act marked
  rw [hy]
  rfl

theorem Serves.demanded_eq :
    (s.demanded d t p (s.serving d t p) []).wr = (s.wanted d t p).flatMap (fun i => tyWrites d t p i (val i) false) ∧
      (s.demanded d t p (s.serving d t p) []).await = .demand [] [] ∧ (s.demanded d t p (s.serving d t p) []).fail = none := by
  obtain ⟨y, eq, hy⟩ := served.serving_eq
  rw [eq]
  refine ⟨?wr, ?await, ?fail⟩
  case wr =>
    simp only [State.demanded, List.flatMap_map]
    refine List.flatMap_congr fun i want => ?_
    obtain ⟨lane, -, data⟩ := hy i want
    simp only [lane, data]
  case await =>
    have landed : ((s.wanted d t p).map y).filter (fun x => x.data.isNone && x.bad.isNone) = [] := by
      refine List.filter_eq_nil_iff.2 (List.forall_mem_map.2 fun i want => ?_)
      simp [(hy i want).2.2]
    simp only [State.demanded, landed]
    rfl
  case fail =>
    have sound : ((s.wanted d t p).map y).find? (fun x => x.bad.isSome) = none := by
      simpa using fun i want => (hy i want).2.1
    simp only [State.demanded, sound]
    rfl

theorem Serves.writes_eq :
    (s.demanded d t p (s.serving d t p) []).writes = (s.wanted d t p).flatMap fun i => tyWrites d t p i (val i) false := by
  obtain ⟨wr, -, -⟩ := served.demanded_eq
  rw [← wr]
  refine writes_of_untouched (b := false) (d := d) rfl rfl fun w mem => ?_
  rw [wr] at mem
  obtain ⟨i, -, mem⟩ := List.mem_flatMap.1 mem
  obtain ⟨reg, -, half⟩ := mem_tyWrites mem
  exact ⟨reg, half⟩

theorem Serves.merged : Demanded s d t p val fun i => mergeAll (s.demanded d t p (s.serving d t p) []).wr d i (s.v d i) := by
  intro i act
  obtain ⟨wr, -, -⟩ := served.demanded_eq
  simp only [wr, mergeAll_flatMap_tyWrites d t p val false (nodup_wanted s d t p), mem_wanted, act, true_and]

end

theorem demand_of_slots (s : State) (d : RegField) (t : BitVec 4) (p : Bool) (l : BitVec 4) (place : Option RegField)
    (slots : List LateLane) :
    s.demand d t p l place slots [] =
      (s.modG fun g => g.noteDemand d t p (slots.map (·.lane))).completeVL 4 place l.toNat (s.demanded d t p slots []) := rfl

/-- Noting a demand keeps every register. -/
theorem kept_of_noteDemand {w : Writes} {em : BitVec 32} {g h : Gang} {d : RegField} {t : BitVec 4} {p : Bool} {ls : List LaneId}
    (a : Kept w em (g.noteDemand d t p ls) h) : Kept w em g h :=
  { a with }

theorem frame_of_noteDemand {w : Writes} {s u : State} {d : RegField} {t : BitVec 4} {p : Bool} {ls : List LaneId}
    (a : Frame w (s.modG fun g => g.noteDemand d t p ls) u) : Frame w s u := by
  have kept := a.kept
  rw [State.g_modG, em_modG (f := fun g => g.noteDemand d t p ls) rfl] at kept
  exact { (onlyGang_modG s _).trans a.toOnlyGang with kept := kept_of_noteDemand kept }

/-- A gdemand all of whose lanes late slots serve takes their true values: at once, or at the end of its window (R232). -/
theorem gdemand_served {s : State} {d a : RegField} {t : BitVec 4} {p g : Bool} {l : BitVec 4} {h : BitVec 2} {val : LaneId → DWord}
    (hc : Calm s) (served : Serves s d t p val) :
    LookOp (.gdemand d a t p g l h) s l.toNat { vec := [d] } (fun u => Demanded s d t p val (u.v d))
      (fun q => q.dst = .vec d false ∧ q.fail = none ∧ q.ready = true ∧ Demanded s d t p val fun i => mergeAll q.wr d i (s.v d i))
      (fun _ => True) := by
  intro wf
  have clean : ∀ i : LaneId, (s.uncovered d t p).getLsbD i.val = true → (s.v a i).marked = false := fun i again => by
    simp [served.uncovered_eq] at again
  have nowhere : s.checkLanes (s.eas a 0 (s.uncovered d t p)) (tyBytes t) false false = .ok [] := by
    rw [served.uncovered_eq]
    rfl
  have hx : exec (.gdemand d a t p g l h) s = .next (s.demand d t p l (placed h a a d []) (s.serving d t p) []) :=
    (exec_gdemand (.inr clean) nowhere (.inl rfl)).trans (legal_next wf)
  rw [demand_of_slots] at hx
  obtain ⟨wr, await, sound⟩ := served.demanded_eq
  have ready : (s.demanded d t p (s.serving d t p) []).ready = true := by rw [Pending.ready, await]; rfl
  have calm : Calm (s.modG fun g => g.noteDemand d t p ((s.serving d t p).map (·.lane))) := by
    rw [Calm, State.g_modG]
    exact hc
  have writes : ∀ w ∈ (s.demanded d t p (s.serving d t p) []).writes, w.reg = d ∧
      (s.modG fun g => g.noteDemand d t p ((s.serving d t p).map (·.lane))).active w.lane = true := fun w mem => by
    rw [served.writes_eq] at mem
    obtain ⟨i, want, mem⟩ := List.mem_flatMap.1 mem
    obtain ⟨reg, lane, -⟩ := mem_tyWrites mem
    refine ⟨reg, ?_⟩
    rw [State.active, em_modG (f := fun g => g.noteDemand d t p _) rfl, lane]
    exact (mem_wanted.1 want).1
  refine ⟨fun n0 => ?now, fun pos => ?later⟩
  case now =>
    obtain ⟨sel, frame, pend, value⟩ := completeVL_writes calm 4 (placed h a a d []) ready sound rfl rfl writes
    rw [← n0] at sel frame pend value
    refine ⟨_, hx, sel, frame_of_noteDemand frame, pend, fun i act => ?_, trivial⟩
    rw [value i, served.writes_eq, ← wr, State.v, State.g_modG]
    exact served.merged i act
  case later =>
    obtain ⟨sel, frame, f, pend⟩ := completeVL_waits calm 4 (placed h a a d []) (p := s.demanded d t p (s.serving d t p) []) (.inl pos)
    refine ⟨_, hx, sel, frame_of_noteDemand frame, ⟨_, pend, rfl, ?_, rfl, rfl, rfl, sound, ready, served.merged⟩, trivial⟩
    exact pc_modG rfl rfl

/-! ### A gdemand whose lanes no slot covers -/

section
variable {s : State} {d : RegField} {t : BitVec 4} {p : Bool} (bare : ∀ i ∈ s.wanted d t p, s.g.covers d t p i = none)
include bare

theorem serving_of_bare : s.serving d t p = [] := List.filterMap_eq_nil_iff.2 bare

theorem uncovered_of_bare : lanesOf (s.uncovered d t p) = s.wanted d t p := by
  have all : s.wanted d t p = (allFin 32).filter fun i => s.active i && demands t p (s.v d i) := by
    rw [State.wanted, State.lanes, lanesOf, List.filter_filter]
    exact List.filter_congr fun i _ => Bool.and_comm _ _
  rw [State.uncovered, lanesOf_maskOf]
  refine Eq.trans (List.filter_congr fun i _ => ?_) all.symm
  have want : (s.wanted d t p).contains i = (s.active i && demands t p (s.v d i)) := by
    rw [Bool.eq_iff_iff, List.contains_iff_mem, mem_wanted, Bool.and_eq_true]
  rw [want]
  cases w : s.active i && demands t p (s.v d i) with
  | false => rfl
  | true => rw [bare i (mem_wanted.2 (Bool.and_eq_true_iff.1 w))]; rfl

end

/-- REREAD is set, and the lanes `ls` that slots serve are noted (R228, R232). -/
def State.noteReread (s : State) (d : RegField) (t : BitVec 4) (p : Bool) (ls : List LaneId) : State :=
  (s.modG fun g => { g with reread := true }).modG fun g => g.noteDemand d t p ls

section
variable (s : State) (d : RegField) (t : BitVec 4) (p : Bool) (ls : List LaneId)

theorem g_noteReread : (s.noteReread d t p ls).g = ({ s.g with reread := true } : Gang).noteDemand d t p ls := by
  rw [State.noteReread, State.g_modG, State.g_modG]

theorem em_noteReread : (s.noteReread d t p ls).em = s.em := (em_modG rfl).trans (em_modG rfl)

theorem pc_noteReread : (s.noteReread d t p ls).pc = s.pc := (pc_modG rfl rfl).trans (pc_modG rfl rfl)

theorem onlyGang_noteReread : OnlyGang s (s.noteReread d t p ls) := (onlyGang_modG s _).trans (onlyGang_modG _ _)

end

/-- What the loads of a gdemand have in common: they are no acquires and take no part in the leaf table (R232). -/
def plainLoad : Req :=
  { kind := .load, size := 0, acq := none, rem := false, rel := none, dst := none, leaf := none, serial := false }

theorem demand_of_rereads (s : State) (d : RegField) (t : BitVec 4) (p : Bool) (l : BitVec 4) (place : Option RegField)
    (slots : List LateLane) {ps : List (LaneId × DWord × Place)} (nonempty : ps ≠ []) (narrow : tyBytes t ≠ 16) :
    ∃ r new, Lists s r new ∧ FromLanes s ps (tyBytes t) (fun _ _ => .load) new ∧ s.demand d t p l place slots ps =
      (r.noteReread d t p (slots.map (·.lane))).completeVL 4 place l.toNat (s.demanded d t p slots ps) := by
  obtain ⟨new, lists, own⟩ := pushLanes_lists narrow plainLoad (fun _ _ => .load) (some s.g.nextPend) ps s
  have ended := lists.trans (lists_endAccs _ (ps.map fun x => (x.1, x.2.1)) ps)
  rw [List.append_nil] at ended
  refine ⟨_, new, ended, own, ?_⟩
  have more : ps.isEmpty = false := List.isEmpty_eq_false_iff.2 nonempty
  unfold State.demand
  simp only [more, Bool.false_eq_true, if_false]
  rfl

theorem tyBytes_of_le {t : BitVec 4} (h : t.toNat ≤ 10) : tyBytes t ≤ 8 ∧ tyBytes t ≠ 16 := by
  revert t
  decide

/-- A gdemand of which no slot covers a lane reads its lanes again (R232). -/
theorem gdemand_rereads {s : State} {d a : RegField} {t : BitVec 4} {p g : Bool} {l : BitVec 4} {h : BitVec 2} {pl : LaneId → Place}
    (hc : Calm s) (wf : (Instr.gdemand d a t p g l h).wf = true) (quiet : Quiet s) (nonempty : s.wanted d t p ≠ [])
    (bare : ∀ i ∈ s.wanted d t p, s.g.covers d t p i = none)
    (clean : g = true ∨ ∀ i ∈ s.wanted d t p, (s.v a i).marked = false)
    (reach : ∀ i ∈ s.wanted d t p, Reach s (s.v a i).bits (tyBytes t) false (pl i)) :
    ∃ u new, exec (.gdemand d a t p g l h) s = .next u ∧ Issues {} (s.modG fun g => { g with reread := true }) u new ∧
      new.map accKey = (s.wanted d t p).map (fun i => ((pl i).dev, (pl i).pa, tyBytes t, .load)) ∧
      Opened s u l.toNat fun q => q.dst = .vec d false ∧ q.fail = none ∧ q.await = .demand [] (new.map (·.id)) := by
  have lanes := uncovered_of_bare bare
  have mem {i : LaneId} (again : (s.uncovered d t p).getLsbD i.val = true) : i ∈ s.wanted d t p :=
    lanes ▸ List.mem_filter.2 ⟨List.mem_finRange i, again⟩
  have eas : s.eas a 0 (s.uncovered d t p) = (s.wanted d t p).map fun i => (i, (s.v a i).bits) := by
    rw [State.eas, lanes]
    exact List.map_congr_left fun i _ => by simp [sdisp]
  have reached : s.checkLanes (s.eas a 0 (s.uncovered d t p)) (tyBytes t) false false =
      .ok ((s.wanted d t p).map fun i => (i, (s.v a i).bits, pl i)) := by
    rw [eas, checkLanes_of_reach (List.forall_mem_map.2 reach), List.map_map]
    rfl
  have hx := (exec_gdemand (l := l) (h := h) (clean.imp_right fun ok i again => ok i (mem again)) reached
    (.inr (mayIssue_of_quiet quiet _ _))).trans (legal_next wf)
  rw [serving_of_bare bare] at hx
  have type : t.toNat ≤ 10 := of_decide_eq_true (Bool.and_elim_right (Bool.and_elim_left wf))
  obtain ⟨r, new, lists, own, eq⟩ := demand_of_rereads s d t p l (placed h a a d []) []
    (ps := (s.wanted d t p).map fun i => (i, (s.v a i).bits, pl i)) (by simpa using nonempty) (tyBytes_of_le type).2
  rw [eq] at hx
  have waits : (s.demanded d t p [] ((s.wanted d t p).map fun i => (i, (s.v a i).bits, pl i))).ready = false := by
    simpa [Pending.ready, State.demanded] using nonempty
  obtain ⟨fr, gang⟩ := lists.gang
  have calm : Calm (r.noteReread d t p []) := by
    rw [Calm, g_noteReread, gang]
    exact hc
  obtain ⟨sel, frame, f, pend⟩ := completeVL_waits calm 4 (placed h a a d []) (n := l.toNat) (.inr waits)
  refine ⟨_, new, hx, issues_of_lists lists own.waiting ?only sel rfl ?kept, ?keys, _, pend, ?hnd, ?pc, rfl, rfl, rfl, rfl, ?await⟩
  case only => exact (onlyGang_noteReread r d t p []).trans frame.toOnlyGang
  case kept =>
    have kept := frame.kept
    rw [em_noteReread, g_noteReread, lists.em, gang] at kept
    exact { kept with }
  case keys =>
    rw [own.keys, List.map_map]
    exact List.map_congr_left fun i _ => by simp [(tyBytes_of_le type).1]
  case hnd => exact congrArg Cursor.hnd lists.cur
  case pc => exact (pc_noteReread r d t p []).trans lists.pc
  case await =>
    rw [own.ids, List.range'_eq_map_range]
    rfl

end Sys2Proof.Machine
end

section
open Sys2Proof Sys2Proof.Machine Sys2Proof.Spec

/-- Settles O26: a mask of marks, a copy with marks cleared, and the two ways in which a gdemand fills its lanes. -/
theorem guessInstructions : Obligations.GuessInstructions := by
  intro s d a h sel t p g l hc
  refine ⟨fun x bits wf => ?gtest, ?gacc, fun val served => gdemand_served hc served,
    fun pl wf quiet nonempty bare clean reach => gdemand_rereads hc wf quiet nonempty bare clean reach⟩
  case gtest =>
    have mask : isMask d = true := Bool.and_elim_right (Bool.and_elim_left wf)
    have value : maskOf (fun i => s.active i && (((selHalves sel).1 && (s.v a i).g0) || ((selHalves sel).2 && (s.v a i).g1))) = x :=
      maskOf_eq_of_getLsbD fun i => by rw [bits i, selHalves_fst, selHalves_snd]
    refine writeM_completesV (of_decide_eq_true mask) hc (n := 4) (p := placed h a a d []) ?_
    rw [← value]
    exact legal_next wf
  case gacc =>
    refine writeV_laneOp hc rfl fun i _ => ⟨rfl, ?low, ?high⟩
    case low => simp [selHalves_fst]
    case high => simp [selHalves_snd]

end
